-- ==== Sys2Proof/Word.lean ====
section
/-!
DEFINITION. The word types of the manual and their plainest arithmetic.
-/
namespace Sys2Proof

/-- A scalar register value (R19). -/
abbrev Word := BitVec 32
/-- An address register value (R19). -/
abbrev Addr := BitVec 64
/-- One byte of memory. -/
abbrev Byte := BitVec 8
/-- A set of lanes of one group: bit l is lane l (R11, R27). -/
abbrev LaneMask := BitVec 64

end Sys2Proof
end

