-- ==== Sys2Proof/Syntax.lean ====
section
/-!
DEFINITION. The instructions of both streams and the device's own steps, one constructor for each row
of the opcode table.

Scalar instructions carry their operands as R182 to R190 lay them out; a lane instruction carries the
fields of the lane word (R191). A device step (the rows from MEMORY_RETURN on, and PAUSE_END) carries
what tells which operation, message, command or unit it is about.
-/
namespace Sys2Proof

/-- Register names by class (R183). -/
abbrev SReg := BitVec 6
abbrev AReg := BitVec 4
abbrev CReg := BitVec 3
abbrev PReg := BitVec 3
abbrev GReg := BitVec 5
abbrev HReg := BitVec 4

/-- The conditions of `scmp` (R187). -/
inductive SCond where
  | eq | ne | lt | le | gt | ge | ltu | leu | gtu | geu
  deriving DecidableEq, Repr

/-- The scopes of R67. -/
inductive Scope where
  | grp | team | pair | dev | sys
  deriving DecidableEq, Repr

/-- The ordering annotations of R190. -/
inductive Order where
  | none | acq | rel | ar
  deriving DecidableEq, Repr

/-- The request types of R76 with the page default (R190). -/
inductive Req where
  | page | own | wt | si | nc
  deriving DecidableEq, Repr

/-- Access sizes of scalar memory instructions (R190). -/
inductive Size where
  | b8 | b16 | b32 | b64
  deriving DecidableEq, Repr

/-- The memory spaces of R45. -/
inductive Space where
  | slc | spd | pmem | chip | glb
  deriving DecidableEq, Repr

/-- Types of R194, in code order. -/
inductive LTy where
  | b8 | b16 | b32 | b64 | i8 | i16 | i32 | i64 | n8 | n16 | n32 | n64
  | f16 | bf16 | f32 | f64 | e4m3 | e5m2 | q4 | xsf | b128
  deriving DecidableEq, Repr

/-- Rounding modes of R122, in code order (R195). -/
inductive Rnd where
  | rn | rz | rd | ru | rs
  deriving DecidableEq, Repr

/-- Sources of a matrix window (R272). -/
inductive WSrc where
  | spd | pmem | lreg
  deriving DecidableEq, Repr

/-- Fields of a scalar `ld` or `st` (R190). -/
structure SMem where
  data  : BitVec 6
  base  : BitVec 6
  scope : Option Scope
  req   : Req
  order : Order
  sext  : Bool
  size  : Size
  off   : BitVec 32
  deriving DecidableEq, Repr

/-- Fields of a scalar `ldt` (R190, R262). -/
structure SLdt where
  data : BitVec 6
  base : AReg
  dflt : Bool
  tol  : BitVec 6
  acq  : Bool
  size : Size
  off  : BitVec 32
  deriving DecidableEq, Repr

/-- Fields of a copy instruction (R318): space of the dense end, gong, shape register, first
coordinate or list register, base register and offset in 16-byte units. -/
structure CpyArgs where
  sp   : Space
  g    : GReg
  h    : HReg
  sc   : SReg
  base : BitVec 6
  off  : BitVec 28
  deriving DecidableEq, Repr

/-- The fields of a lane word other than its opcode (R191). -/
structure LaneWord where
  guard : PReg
  gneg  : Bool
  d     : BitVec 8
  a     : BitVec 8
  b     : BitVec 8
  c     : BitVec 8
  ty    : LTy
  rnd   : BitVec 3
  mods  : BitVec 4
  last  : Bool
  sub   : BitVec 5
  imm   : BitVec 32
  deriving DecidableEq, Repr

/-- A group by partition, launch id, linear team index and group index. -/
structure GRef where
  part : Nat
  lid  : Nat
  team : Nat
  grp  : Nat
  deriving DecidableEq, Repr

/-- A store of a group by its place among those that are not performed (R70). -/
structure StoreRef where
  g : GRef
  n : Nat
  deriving DecidableEq, Repr

/-- A stream of a group: one of its two fragment slots, or its lane queue. -/
inductive Stream where
  | frag (slot1 : Bool)
  | lane
  deriving DecidableEq, Repr

/-- A collective sequence on this package: partition, collective id, sequence and run number
(R329, R341). -/
structure SeqRef where
  part : Nat
  coll : Nat
  seq  : Nat
  run  : Nat
  deriving DecidableEq, Repr

/-- A rank that is lost, as a notice of it tells, and the rank that sent the notice (R341). -/
structure LossRef where
  lost   : Nat
  sender : Nat
  deriving DecidableEq, Repr

/-- A receive slot within a sequence (R451): chunk and schedule slot. -/
structure SlotRef where
  chunk : Nat
  k     : Nat
  deriving DecidableEq, Repr

/-- What a NACK, a WAIT or an acknowledgement names (R340, R341, R345): a receive slot of the sequence, remote
work record k of a sending rank, or the loss notice of a rank. -/
inductive MsgRef where
  | slot (at_ : SlotRef)
  | record (from_ k : Nat)
  | notice (lost : Nat)
  deriving DecidableEq, Repr

/-- What a collective data message carries (R333, R335 to R340): digest, sender, the shard index and tile
keys of a partial, agreement values, status flags gathered so far, the bytes, whether these are source tiles as stored,
and the receive slots whose messages from the addressed rank it acknowledges. -/
structure MsgBody where
  digest : Nat
  sender : Nat
  shard  : Nat
  width  : Nat
  exp    : Int
  flags  : BitVec 3
  bad    : Nat
  keys   : List (BitVec 32)
  bytes  : List Byte
  stored : Bool
  acks   : List SlotRef
  deriving DecidableEq, Repr

/-- A management command as firmware takes it from the ring (R411): the partition it names, its
arguments, whether its reserved fields are 0, and where its STATUS is written. -/
structure Cmd where
  part  : Nat
  arg0  : Nat
  arg1  : Nat
  clean : Bool
  at_   : Nat
  deriving DecidableEq, Repr

/-- How a start ends (R454, R456, R464). -/
inductive StartResult where
  | up
  | failed (reason : BitVec 8)
  deriving DecidableEq, Repr

/-- What a scrub access finds (R459, R460). -/
inductive ScrubResult where
  | clean | corrected | uncorrectable
  deriving DecidableEq, Repr

/-- The arrays a SRAM scrub may find bad (R459). -/
inductive SramArray where
  | cleanLine | dirtyLine (line : Nat) | coreArray (core : Nat) | istore (core slot : Nat) (lane : Bool) (word : Nat)
  | chipWord (off : Nat)
  deriving DecidableEq, Repr

/-- Where a CRC failure is found (R459, R462). -/
inductive CrcSite where
  | hostLink
  | port (n : Nat)
  deriving DecidableEq, Repr

/-- How a REMOTE fetch is answered (R453). -/
inductive FetchAnswer where
  | line (bytes : List Byte)
  | refused
  | unreachable
  | poison
  deriving DecidableEq, Repr

/-- One telemetry sample's readings (R465). -/
structure Sample where
  power   : BitVec 32
  dieTemp : List (BitVec 16)
  hbmTemp : List (BitVec 16)
  deriving DecidableEq, Repr

/-- The instructions and device steps; the constructors stand in the opcode table's order. -/
inductive Instr where
  -- scalar stream: integer and address arithmetic
  | nop
  | sadd (d a b : SReg)
  | ssub (d a b : SReg)
  | smul (d a b : SReg)
  | smulhI32 (d a b : SReg)
  | smulhN32 (d a b : SReg)
  | sand (d a b : SReg)
  | sor (d a b : SReg)
  | sxor (d a b : SReg)
  | sshl (d a b : SReg)
  | sshr (d a b : SReg)
  | ssra (d a b : SReg)
  | sminI32 (d a b : SReg)
  | sminN32 (d a b : SReg)
  | smaxI32 (d a b : SReg)
  | smaxN32 (d a b : SReg)
  | spopc (d a : SReg)
  | sclz (d a : SReg)
  | smov (d a : SReg)
  | scmp (cond : SCond) (d : CReg) (a b : SReg)
  | ssel (neg : Bool) (c : CReg) (d a b : SReg)
  | sbfx (signed : Bool) (pos len1 : BitVec 5) (d a : SReg)
  | sbfi (pos len1 : BitVec 5) (d a : SReg)
  | saddImm (d a : SReg) (i : BitVec 12)
  | sandImm (d a : SReg) (i : BitVec 12)
  | sorImm (d a : SReg) (i : BitVec 12)
  | sxorImm (d a : SReg) (i : BitVec 12)
  | sshlImm (d a : SReg) (i : BitVec 5)
  | sshrImm (d a : SReg) (i : BitVec 5)
  | ssraImm (d a : SReg) (i : BitVec 5)
  | sli (sx : Bool) (d : SReg) (i : BitVec 16)
  | slih (d : SReg) (i : BitVec 16)
  | aadd (d a : AReg) (b : SReg) (sh : BitVec 2)
  | aaddImm (d a : AReg) (i : BitVec 12)
  | alea (d a : AReg) (i : BitVec 32)
  | amov (d a : AReg)
  | amovN32 (d : AReg) (a : SReg)
  | amovI32 (d : AReg) (a : SReg)
  | amovLo (d : SReg) (a : AReg)
  | amovHi (d : SReg) (a : AReg)
  | amovPair (d : AReg) (a b : SReg)
  -- control
  | br (off : BitVec 20)
  | brc (neg : Bool) (c : CReg) (off : BitVec 20)
  | call (off : BitVec 20)
  | ret
  | callo (id : BitVec 8) (entry : BitVec 10)
  | reto
  | loop (a : SReg) (fin : BitVec 10)
  | loopi (count : BitVec 20) (fin : BitVec 10)
  | lbrk
  | split (p : PReg) (target joinAt : BitVec 10)
  | join
  | yield
  | lrun (off : BitVec 10)
  | lwait
  | exit
  | trap (i : BitVec 16)
  | kick (a : AReg)
  -- gongs, barriers, tickets, collectives
  | garrive (g : GReg) (a : SReg) (i : BitVec 12)
  | gwait (g : GReg) (a : SReg) (q : Bool)
  | gsync (g : GReg) (a : SReg) (i : BitVec 12)
  | garm (g : GReg) (a b : SReg) (count : BitVec 7) (bytes : BitVec 25)
  | gget (d : SReg) (g : GReg) (sel : BitVec 2)
  | lbar (n : BitVec 3)
  | tkt (d a : SReg) (count : BitVec 10) (q : BitVec 2)
  | tktv (q : BitVec 2)
  | xfire (a : SReg) (i : BitVec 12)
  | xwait (a : SReg) (i : BitVec 12)
  -- special registers, overlays, system
  | sget (d : SReg) (n : BitVec 16)
  | sset (a : SReg) (n : BitVec 16)
  | ovld (g : GReg) (a b : SReg) (id : BitVec 8) (slot : BitVec 5)
  | ovq (d a : SReg) (i : BitVec 12)
  | xdrain (a : AReg)
  | xdrainAll
  | pause (n : BitVec 12)
  | pauseEnd (g : GRef) (slot1 : Bool)
  | brkpt (i : BitVec 16)
  | perf (d : SReg) (n : BitVec 3)
  -- scalar memory
  | ldSpd (m : SMem)
  | ldPmem (m : SMem)
  | ldChip (m : SMem)
  | ldGlb (m : SMem)
  | stSpd (m : SMem)
  | stPmem (m : SMem)
  | stChip (m : SMem)
  | stGlb (m : SMem)
  | ldt (m : SLdt)
  | fenceAcq (sc : Scope)
  | fenceRel (sc : Scope)
  | fenceAr (sc : Scope)
  | prf (msc : Bool) (a : AReg) (off : BitVec 32)
  | pres (d a : SReg) (i : BitVec 12)
  -- matrix array
  | mwin (d : BitVec 4) (a b : SReg) (src : WSrc) (rot : BitVec 3) (fmt : LTy) (blk mask : Bool) (tpitch : BitVec 19)
  | mzero (d : BitVec 4)
  | mma (d a b : BitVec 4)
  | mmab (d a b : BitVec 4)
  | mfence (d : SReg)
  | mwait (a : SReg) (i : BitVec 12)
  | mhint (a : SReg) (i : BitVec 12)
  | maccLd (d : BitVec 4) (a : SReg) (sp : WSrc) (rot : BitVec 3) (off : BitVec 32)
  | maccSt (d : BitVec 4) (a : SReg) (sp : WSrc) (rot : BitVec 3) (off : BitVec 32)
  | mcvt (d a : BitVec 4) (ty : LTy) (rnd : BitVec 2) (sat : Bool) (s : BitVec 8)
  -- structures
  | bvset (g : GReg) (a : AReg) (b : SReg) (m : BitVec 6) (off : BitVec 26)
  | bvfit (g : GReg) (a : AReg) (off : BitVec 26)
  | bvleaf (g : GReg) (a : AReg) (b : SReg) (m : BitVec 6) (off : BitVec 26)
  | bvnode (g : GReg) (a : AReg) (off : BitVec 26)
  -- copies and Tambour
  | shp (h : HReg) (a : AReg) (off : BitVec 32)
  | shpCopy (h hs : HReg) (a : AReg) (off : BitVec 32)
  | cpy (st : Bool) (x : CpyArgs)
  | cpyt (st : Bool) (x : CpyArgs)
  | cpyw (run1 : BitVec 4) (x : CpyArgs)
  | cpyg (x : CpyArgs)
  | cpys (x : CpyArgs)
  | cprf (msc : Bool) (h : HReg) (sc : SReg)
  | xdict (g : GReg) (bank : Bool) (a : AReg) (off : BitVec 32)
  | xpoll (d a : SReg) (i : BitVec 32)
  | rfwd (g : GReg) (a : AReg) (b : SReg) (n1 : BitVec 6) (off : BitVec 32)
  | rrecv (g : GReg) (q : BitVec 2) (a b : SReg)
  | xinit (a : AReg) (off : BitVec 32)
  | xabort (a : SReg) (i : BitVec 32)
  | xstat (d a : SReg) (i : BitVec 32)
  -- lane stream
  | mov (w : LaneWord)
  | add (w : LaneWord)
  | sub (w : LaneWord)
  | mul (w : LaneWord)
  | mulh (w : LaneWord)
  | mad (w : LaneWord)
  | fma (w : LaneWord)
  | min (w : LaneWord)
  | max (w : LaneWord)
  | abs (w : LaneWord)
  | neg (w : LaneWord)
  | and (w : LaneWord)
  | or (w : LaneWord)
  | xor (w : LaneWord)
  | not (w : LaneWord)
  | shl (w : LaneWord)
  | shr (w : LaneWord)
  | sra (w : LaneWord)
  | bfx (w : LaneWord)
  | bfi (w : LaneWord)
  | brev (w : LaneWord)
  | popc (w : LaneWord)
  | clz (w : LaneWord)
  | sel (w : LaneWord)
  | cmp (w : LaneWord)
  | rcp (w : LaneWord)
  | rsq (w : LaneWord)
  | sqrt (w : LaneWord)
  | ex2 (w : LaneWord)
  | lg2 (w : LaneWord)
  | sin (w : LaneWord)
  | cos (w : LaneWord)
  | frc (w : LaneWord)
  | cvt (w : LaneWord)
  | cvq (w : LaneWord)
  | cvx (w : LaneWord)
  | pack (w : LaneWord)
  | unpack (w : LaneWord)
  | rng (w : LaneWord)
  | ballot (w : LaneWord)
  | vany (w : LaneWord)
  | vall (w : LaneWord)
  | elect (w : LaneWord)
  | shfl (w : LaneWord)
  | bfly (w : LaneWord)
  | bperm (w : LaneWord)
  | rdc (w : LaneWord)
  | scan (w : LaneWord)
  | pset (w : LaneWord)
  | pand (w : LaneWord)
  | por (w : LaneWord)
  | pxor (w : LaneWord)
  | pget (w : LaneWord)
  | lget (w : LaneWord)
  | laneLd (sp : Space) (w : LaneWord)
  | laneSt (sp : Space) (w : LaneWord)
  | laneLdt (w : LaneWord)
  | xadd (w : LaneWord)
  | xaddi (w : LaneWord)
  | atom (sp : Space) (w : LaneWord)
  | red (sp : Space) (w : LaneWord)
  | laneFence (w : LaneWord)
  | lanePrf (w : LaneWord)
  | trc (w : LaneWord)
  | trq (w : LaneWord)
  -- device steps
  | memoryReturn (g : GRef) (st : Stream)
  | copyLineDone (op line : Nat)
  | copyAccessFault (op : Nat)
  | faultQueueRoom (part : Nat)
  | overlayLoadDone (core slot : Nat)
  | overlayLoadFault (core slot : Nat)
  | matrixOpComplete (core : Nat)
  | rampUpEnd (core : Nat)
  | rampDownStart (core : Nat)
  | rampDownEnd (core : Nat)
  | bvsetReadDone (op : Nat)
  | rayLaneFinish (op lane : Nat)
  | rayAccessFault (op : Nat)
  | refitNodeDone (op : Nat)
  | bvleafLineDone (op : Nat)
  | ticketHeaderWriteDone (part lid q : Nat)
  | breq (part core region min want : Nat)
  | bgrant (part core region b : Nat)
  | bdeny (part core region : Nat)
  | drainKnell (part core region : Nat)
  | splitKnell (part core region : Nat)
  | kack (part core region ret : Nat)
  | bret (part core region ret : Nat)
  | toleranceQuiet (part region id : Nat)
  | launchEntryRead (part q : Nat)
  | launchTaken (part : Nat)
  | teamPlacement (part : Nat)
  | placementWaitLimit (part lid : Nat)
  | groupSetupComplete (g : GRef)
  | migrationStart (part lid team core : Nat)
  | migrationComplete (part lid team : Nat)
  | watchdogExpiry (g : GRef) (slot1 : Bool)
  | refreshDue (stack pch : Nat)
  | refreshEnd (stack pch bank : Nat)
  | bankGroupIdle (stack pch bg : Nat)
  | tambourMessage (r : SeqRef) (at_ : SlotRef) (m : MsgBody)
  | slotTimerExpiry (r : SeqRef) (at_ : MsgRef)
  | nack (r : SeqRef) (at_ : MsgRef) (sender : Nat)
  | wait (r : SeqRef) (at_ : MsgRef)
  | acknowledgement (r : SeqRef) (at_ : MsgRef) (sender : Nat)
  | commitMessage (r : SeqRef) (flags : BitVec 3)
  | confirmation (r : SeqRef) (flags : BitVec 3)
  | lossNotice (r : SeqRef) (l : LossRef)
  | remoteFetchRequest (part sender page line : Nat)
  | remoteFetchAnswer (part peer page line : Nat) (ans : FetchAnswer)
  | remoteWorkRecord (part coll sender k : Nat) (bytes : List Byte)
  | mailboxSlotRelease (part coll receiver k : Nat)
  | hostCxlMemRead (addr n : Nat)
  | hostCxlMemWrite (addr : Nat) (bytes : List Byte)
  | partCreate (c : Cmd)
  | partDestroy (c : Cmd)
  | preempt (c : Cmd)
  | saveComplete (part : Nat)
  | restore (c : Cmd)
  | kill (c : Cmd)
  | replay (c : Cmd)
  | resume (c : Cmd)
  | regionLock (c : Cmd)
  | regionUnlock (c : Cmd)
  | slotFlush (c : Cmd)
  | attgo (v : BitVec 32)
  | fwgo (v : BitVec 32)
  | invgo (part : Nat) (v : BitVec 32)
  | shootdownComplete (part : Nat)
  | deadgo (part : Nat) (v : BitVec 32)
  | netgo (part : Nat) (v : BitVec 32)
  | rinvgo (part : Nat) (v : BitVec 32)
  | peerdown (part : Nat) (v : BitVec 32)
  | pwrlimWrite (v : BitVec 32)
  | registerWrite (off : Nat) (v : BitVec 64)
  | deviceStart (r : StartResult) (fencedCores : List Nat) (fencedPch : List Nat) (fencedPorts : List Nat)
  | startWatchdogExpiry
  | telemetrySample (x : Sample)
  | thermalControl
  | trip
  | patrolScrub (sector : Nat) (r : ScrubResult) (endsPass : Bool)
  | sramScrub (a : SramArray) (r : ScrubResult)
  | phyCalibration (stack pch : Nat)
  | phyCalibrationEnd (stack pch : Nat)
  | illegalOpcodeWord
  | pageWalkComplete (g : GRef) (st : Stream)
  | storeAcknowledgement (x : StoreRef)
  | partialSumPerformed (part core word n : Nat)
  | backInvalidationResponse (line : Nat) (dirty : Option (List Byte))
  | dictionaryBankReplaced (op : Nat)
  | descriptorCopyTaken (g : GRef) (slot1 : Bool)
  | sequenceAbortNotice (r : SeqRef) (status : Nat)
  | crcRetry (site : CrcSite)
  | deadDeclarationDone (part : Nat)
  | netSetupDone (part : Nat)
  | remoteInvalidationDone (part : Nat)
  | attestationDone
  | firmwareUpdateDone
  deriving DecidableEq, Repr

end Sys2Proof
end

