-- ==== Sys2Proof/Config.lean ====
section
/-!
DEFINITION. The free values of the model: what the manual leaves to the device, the installation or
time. None has a body, so nothing can be proved about a particular value. The first argument is the
machine's counter (State.tick) where each use takes a fresh value.
-/
namespace Sys2Proof.Config

/-- Which of the agents that may move next does (R32, R33, R42; log 1). -/
opaque freePick : Nat → Nat
/-- Cycles that pass with a step (R189, R471; log 4). -/
opaque freeCycles : Nat → Nat
/-- A free bit: old or new value, hit or miss (R60, R85, R257, R289, R444). -/
opaque freeBit : Nat → Nat → Bool
/-- A free byte: what a sector reads as under a key it was not written under (R418). -/
opaque freeByte : Nat → Nat → Byte
/-- A byte of a save image (R434): its number and address. -/
opaque imageByte : Nat → Nat → Byte
/-- A choice among translations that may be used, or places for a restored team, and sort keys of a lane order
the device chooses (R259, R265, R266, R435, R444). -/
opaque freeOrder : Nat → Nat → Nat
/-- The epoch of a pseudo-channel's refreshes, by stack and number, in sixths of a nanosecond (R62). -/
opaque freeEpoch : Nat → Nat → Nat
/-- The sets of the caches: of an L1 and of an L2 slice by line, of a memory-side cache by 2 KiB line, and the entry of
the footprint predictor of a 2 KiB line (R57). -/
opaque l1Set : Nat → Nat
opaque l2Set : Nat → Nat
opaque mscSet : Nat → Nat
opaque footprint : Nat → Nat
/-- Waiting cycles that the `perf` counters record (R231). -/
opaque freeWait : Nat → Nat → Nat
/-- Rounds up where the model's bounds of a correctly rounded function meet a rounding boundary
(R129; log 10): function number and operand. -/
opaque freeRoundUp : Nat → Nat → Bool
/-- A cleartext byte of a signature made with the device identity key (R457). -/
opaque signature : List Byte → Nat → Byte
/-- Where firmware keeps the bad-page table (R463). -/
opaque badPageTable : Nat
/-- The boot ROM measurement and fused rollback counter (R454, R455, R457). -/
opaque romMeasurement : Nat → Byte
opaque rollbackCounter : BitVec 64
/-- Whether an image's Falcon-1024 signature over its SHAKE256 digest, here the first argument, verifies against the fused
public key, and the version that an image states (R454). -/
opaque signatureVerifies : List Byte → List Byte → Bool
opaque imageVersion : List Byte → Nat

end Sys2Proof.Config
end

