-- ==== Sys2Proof/Machine/Formats.lean ====
section
/-!
DEFINITION. The operand formats of both word formats: what check 3 (R199: `ILLEGAL_OPCODE`) and check 4
(`ILLEGAL_OPERAND`) require of an instruction's fields, beyond what the types of its operands say.
-/
namespace Sys2Proof

/-! ### Types (R112, R115, R192, R194) -/

/-- Bytes of a value of the type (R192); a q4 operand is a `v` register of eight codes (R246). -/
def LTy.bytes : LTy → Nat
  | .b8 | .i8 | .n8 | .e4m3 | .e5m2 => 1
  | .b16 | .i16 | .n16 | .f16 | .bf16 => 2
  | .b32 | .i32 | .n32 | .f32 | .q4 => 4
  | .b64 | .i64 | .n64 | .f64 => 8
  | .xsf | .b128 => 16

/-- The code of the type (R194). -/
def LTy.code : LTy → Nat
  | .b8 => 0 | .b16 => 1 | .b32 => 2 | .b64 => 3 | .i8 => 4 | .i16 => 5 | .i32 => 6 | .i64 => 7
  | .n8 => 8 | .n16 => 9 | .n32 => 10 | .n64 => 11 | .f16 => 12 | .bf16 => 13 | .f32 => 14 | .f64 => 15
  | .e4m3 => 16 | .e5m2 => 17 | .q4 => 18 | .xsf => 19 | .b128 => 20

/-- The type with the code; codes 21 to 31 have none (R194). -/
def LTy.ofCode : Nat → Option LTy
  | 0 => some .b8 | 1 => some .b16 | 2 => some .b32 | 3 => some .b64 | 4 => some .i8 | 5 => some .i16
  | 6 => some .i32 | 7 => some .i64 | 8 => some .n8 | 9 => some .n16 | 10 => some .n32 | 11 => some .n64
  | 12 => some .f16 | 13 => some .bf16 | 14 => some .f32 | 15 => some .f64 | 16 => some .e4m3
  | 17 => some .e5m2 | 18 => some .q4 | 19 => some .xsf | 20 => some .b128 | _ => none

def LTy.isInt (t : LTy) : Bool := 4 ≤ t.code && t.code ≤ 11
def LTy.isSigned (t : LTy) : Bool := 4 ≤ t.code && t.code ≤ 7
def LTy.isFloat (t : LTy) : Bool := 12 ≤ t.code && t.code ≤ 15
/-- Types of 32 or 64 bits without meaning: codes 2 and 3. -/
def LTy.isB (t : LTy) : Bool := t == .b32 || t == .b64

/-- Significand bits P of a float format (R113). -/
def LTy.prec : LTy → Nat
  | .f64 => 53 | .f32 => 24 | .f16 => 11 | .bf16 => 8 | .e4m3 => 4 | .e5m2 => 3 | _ => 0

/-! ### Fields of a lane word (R191, R192, R196) -/

namespace LaneWord
/-- b-source code, modifiers [39:38]. -/
def bSrc (w : LaneWord) : Nat := (w.mods.extractLsb' 0 2).toNat
/-- Modifier [40]: source a is a scalar register. -/
def aScalar (w : LaneWord) : Bool := w.mods.getLsbD 2
/-- Modifier [41]: `.sat`, a scalar destination, a scalar base, or a direction. -/
def m41 (w : LaneWord) : Bool := w.mods.getLsbD 3
/-- Request code of a memory word, modifiers [40:38]. -/
def req (w : LaneWord) : Nat := (w.mods.extractLsb' 0 3).toNat
/-- Scope code, sub-op [34:32]. -/
def scope (w : LaneWord) : Nat := (w.sub.extractLsb' 0 3).toNat
/-- Order code, sub-op [36:35]. -/
def order (w : LaneWord) : Nat := (w.sub.extractLsb' 3 2).toNat
/-- `def` of `ldt`, immediate [25], and its tolerance code [31:26] (R197). -/
def ldtDef (w : LaneWord) : Bool := w.imm.getLsbD 25
def ldtTol (w : LaneWord) : Nat := (w.imm.extractLsb' 26 6).toNat
end LaneWord

/-- A predicate field: bits [7:3] are 0 (R192). -/
def predField (f : BitVec 8) : Bool := f.extractLsb' 3 5 == 0
/-- A scalar field: bits [7:6] are 0 (R192). -/
def scalarField (f : BitVec 8) : Bool := f.extractLsb' 6 2 == 0
/-- A field the opcode does not use (R192). -/
def unused (f : BitVec 8) : Bool := f == 0

/-- Source a by R234: a lane register, or with modifier [40] a scalar. -/
def srcA (w : LaneWord) : Bool := !w.aScalar || (w.ty != .b128 && scalarField w.a)
/-- Source b by R234 and R197; the immediate field is 0 unless it is the operand. -/
def srcB (w : LaneWord) : Bool :=
  match w.bSrc with
  | 0 => w.imm == 0
  | 1 => w.imm == 0 && w.ty != .b128 && scalarField w.b
  | 2 => w.ty != .b128 && unused w.b
  | _ => false
/-- Source b of the word's own type: the unused high bits of an 8- or 16-bit immediate are 0 (R197). -/
def srcBT (w : LaneWord) : Bool := srcB w && (w.bSrc != 2 || w.ty.bytes ≥ 4 || w.imm.toNat < 2 ^ (8 * w.ty.bytes))
/-- No source b (R192, R197). -/
def noB (w : LaneWord) : Bool := unused w.b && w.bSrc == 0 && w.imm == 0
/-- Sub-op of a float form: only the bits of the mask (R235). -/
def subIn (w : LaneWord) (mask : BitVec 5) : Bool := w.sub &&& ~~~mask == 0
/-- No rounding, sub-op, c or modifier [41]. -/
def plain (w : LaneWord) : Bool := w.rnd == 0 && w.sub == 0 && !w.m41 && unused w.c

/-- Binary arithmetic of R238 and R241. `sat`: integers may saturate; `frnd`: floats round. -/
def arith2 (w : LaneWord) (sat frnd : Bool) : Bool :=
  srcA w && srcBT w && unused w.c &&
  (if w.ty.isFloat then subIn w 0b11011 && !w.m41 && (w.rnd == 0 || (frnd && w.rnd ≤ 3))
   else w.ty.isInt && w.sub == 0 && w.rnd == 0 && (sat || !w.m41))
/-- Unary arithmetic of R238 and R241 (`abs`, `neg`). -/
def arith1 (w : LaneWord) : Bool :=
  (w.ty.isSigned || w.ty.isFloat) && srcA w && noB w && unused w.c && w.sub == 0 && w.rnd == 0 &&
  (w.ty.isSigned || !w.m41)
/-- `rcp`, `sqrt`, `frc` and the functions of R242: one float source. -/
def float1 (w : LaneWord) (rounds : Bool) : Bool :=
  w.ty.isFloat && srcA w && noB w && unused w.c && !w.m41 && subIn w 0b01001 &&
  (w.rnd == 0 || (rounds && w.rnd ≤ 3))
/-- Types and fields of R239 and R250. -/
def bits2 (w : LaneWord) (lo : Bool) : Bool :=
  (w.ty.isB || (lo && (w.ty == .b8 || w.ty == .b16))) && srcA w && srcBT w && plain w
def bits1 (w : LaneWord) (lo : Bool) : Bool :=
  (w.ty.isB || (lo && (w.ty == .b8 || w.ty == .b16))) && srcA w && noB w && plain w
/-- `bfx`, `bfi` (R240). -/
def bitField (w : LaneWord) : Bool :=
  w.ty.isB && srcA w && srcB w && w.rnd == 0 && w.sub == 0 && !w.m41 &&
  (w.bSrc != 2 || (unused w.c && w.imm.extractLsb' 16 16 == 0))
/-- Types `mov` and `sel` move: codes 0 to 15 and 20 (R198). -/
def moves (t : LTy) : Bool := t.code ≤ 15 || t == .b128
/-- Rounding and `.sat` of `cvt` by its table (R245). -/
def cvtForm (w : LaneWord) : Bool :=
  match LTy.ofCode w.sub.toNat with
  | none => false
  | some st =>
    let fl := fun (t : LTy) => 12 ≤ t.code && t.code ≤ 17
    (st.isInt || fl st) && (w.ty.isInt || fl w.ty) &&
    srcA w && noB w && (w.rnd == 4 || unused w.c) &&
    (if st.isInt && w.ty.isInt then w.rnd == 0
     else if st.isInt then w.rnd ≤ 3
     else if w.ty.isInt then w.rnd ≤ 3 && !w.m41
     else w.rnd ≤ 3 || (w.rnd == 4 && w.ty.prec < st.prec))
/-- `cvq` (R246): modifier [41] gives the direction. -/
def cvqForm (w : LaneWord) : Bool :=
  w.ty == .q4 && (w.sub == 12 || w.sub == 13 || w.sub == 14) && srcB w &&
  (if w.m41 then w.rnd ≤ 3 && unused w.c && srcA w
   else (w.rnd == 0 || w.rnd == 4) && !w.aScalar && (w.rnd == 4 || unused w.c))
/-- `cvx` (R247). -/
def cvxForm (w : LaneWord) : Bool :=
  ((w.ty == .xsf && (w.sub == 14 || w.sub == 15)) || ((w.ty == .f32 || w.ty == .f64) && w.sub == 19)) &&
  w.rnd == 0 && !w.m41 && unused w.c && srcB w &&
  (!w.aScalar || (w.sub != 19 && scalarField w.a))
/-- `pack` and `unpack` take types 0 to 3 and 20 (R248). -/
def packTy (t : LTy) : Bool := t.code ≤ 3 || t == .b128
/-- Source b of `unpack` is a bit number, of `pack` a half; `.b128` takes no scalar or immediate (R234). -/
def packForm (w : LaneWord) : Bool := packTy w.ty && srcA w && srcB w && plain w
/-- `ballot`, `vany`, `vall`: a names a predicate (R251, R234). -/
def voteForm (w : LaneWord) : Bool :=
  w.ty == .b32 && w.rnd == 0 && w.sub == 0 && predField w.a && !w.aScalar && w.bSrc == 0 && unused w.b && unused w.c
/-- `rdc`, `scan` (R252). -/
def foldForm (w : LaneWord) : Bool :=
  (w.ty == .i32 || w.ty == .i64 || w.ty == .n32 || w.ty == .n64 || w.ty == .f32 || w.ty == .f64) &&
  (if w.ty.isFloat then w.sub ≤ 2 else w.sub ≤ 5) &&
  (w.rnd == 0 || (w.ty.isFloat && w.sub == 0 && w.rnd ≤ 3)) &&
  srcA w && w.bSrc == 0 && unused w.b && unused w.c
/-- Predicate arithmetic (R253). -/
def predForm (w : LaneWord) : Bool :=
  w.ty == .b32 && w.rnd == 0 && w.sub == 0 && w.mods == 0 && w.imm == 0 &&
  predField w.d && predField w.a && predField w.b && unused w.c
/-- Base and request fields of a lane memory word (R254). -/
def baseForm (w : LaneWord) : Bool := (!w.m41 || scalarField w.a) && w.req ≤ 4 && w.scope ≤ 5
/-- Offset bits only: [31:25] of the immediate are 0 (R197). -/
def offForm (w : LaneWord) : Bool := w.imm.extractLsb' 25 7 == 0
/-- Types of `atom` and `red` by operation (R264). -/
def atomTy (op : BitVec 3) (t : LTy) : Bool :=
  let num := t == .i32 || t == .i64 || t == .n32 || t == .n64 || t == .f32 || t == .f64
  if op ≤ 2 then num else if op == 6 then num || t.isB else t.isB
/-- Scope, order and request of `atom` and `red` (R260). -/
def atomForm (sp : Space) (w : LaneWord) : Bool :=
  baseForm w && offForm w && w.req == 0 && (sp != .slc || w.scope == 0) && atomTy w.rnd w.ty

/-- Check 3 of R199 for an instruction: every field marked 0 is 0, every code is assigned and allowed for
the opcode and form. For a scalar instruction it is what the operand types leave over. -/
def Instr.check3 : Instr → Bool
  | .mov w => moves w.ty && unused w.a && !w.aScalar && srcBT w && plain w
  | .add w => arith2 w true true
  | .sub w => arith2 w true true
  | .mul w => arith2 w false true
  | .mulh w => (w.ty == .i32 || w.ty == .i64 || w.ty == .n32 || w.ty == .n64) && arith2 w false false
  | .mad w => w.ty.isInt && srcA w && srcBT w && w.sub == 0 && w.rnd == 0 && !w.m41
  | .fma w => w.ty.isFloat && srcA w && srcBT w && w.rnd ≤ 3 && !w.m41
  | .min w | .max w => arith2 w false false
  | .abs w | .neg w => arith1 w
  | .and w | .or w | .xor w => bits2 w true
  | .not w => bits1 w true
  | .shl w | .shr w | .sra w => bits2 w false
  | .bfx w | .bfi w => bitField w
  | .brev w | .popc w | .clz w => bits1 w false
  | .sel w => moves w.ty && srcA w && srcBT w && w.rnd == 0 && w.sub == 0 && !w.m41 && predField w.c
  | .cmp w => (w.ty.isInt || w.ty.isFloat) && srcA w && srcBT w && w.rnd == 0 && !w.m41 && unused w.c &&
      predField w.d && (w.sub ≤ 5 || (w.ty.isFloat && w.sub ≤ 7))
  | .rcp w | .sqrt w => float1 w true
  | .rsq w | .ex2 w | .lg2 w | .sin w | .cos w | .frc w => float1 w false
  | .cvt w => cvtForm w
  | .cvq w => cvqForm w
  | .cvx w => cvxForm w
  | .pack w => packForm w && (w.ty != .b32 || w.bSrc != 2 || w.imm.toNat < 2 ^ 16)
  | .unpack w => packForm w
  | .rng w => w.ty == .b32 && srcA w && srcB w && plain w
  | .ballot w => voteForm w && (!w.m41 || scalarField w.d) && w.imm.toNat ≤ 1
  | .vany w | .vall w => voteForm w && !w.m41 && w.imm == 0 && predField w.d
  | .elect w => voteForm w && unused w.a && !w.m41 && w.imm == 0 && predField w.d
  | .shfl w | .bperm w => bits2 w false
  | .bfly w => w.ty.isB && srcA w && srcB w && w.rnd == 0 && w.sub == 0 && !w.m41
  | .rdc w => foldForm w && w.imm == 0 &&
      (!w.m41 || ((w.ty == .i32 || w.ty == .n32 || w.ty == .f32) && scalarField w.d))
  | .scan w => foldForm w && !w.m41 && w.imm.toNat ≤ 1
  | .pset w => w.ty == .b32 && srcA w && srcB w && plain w && predField w.d
  | .pand w | .por w | .pxor w => predForm w
  | .pget w => w.ty == .b32 && plain w && unused w.a && !w.aScalar && noB w
  | .lget w => w.ty == .b32 && plain w && unused w.a && !w.aScalar && unused w.b && w.bSrc == 0
  | .laneLd sp w => (w.ty.code ≤ 11 || w.ty == .b128) && baseForm w && offForm w && w.rnd == 0 &&
      unused w.b && unused w.c && (w.order == 0 || ((w.order == 1 || w.order == 3) && w.scope != 0)) &&
      (sp != .slc || (w.scope == 0 && w.req == 0))
  | .laneSt sp w => (w.ty.code ≤ 3 || w.ty == .b128) && baseForm w && offForm w && w.rnd == 0 &&
      unused w.d && unused w.c && (w.order == 0 || ((w.order == 2 || w.order == 3) && w.scope != 0)) &&
      (sp != .slc || (w.scope == 0 && w.req == 0))
  | .laneLdt w => (w.ty.isB || w.ty == .i32 || w.ty == .i64 || w.ty == .n32 || w.ty == .n64 || w.ty == .b128) &&
      baseForm w && w.req == 0 && w.scope == 0 && w.order ≤ 1 && w.rnd == 0 && unused w.b && unused w.c &&
      (!w.ldtDef || w.ldtTol == 0)
  | .xadd w => (w.ty == .f32 || w.ty == .f64) && baseForm w && offForm w && w.req == 0 && w.sub == 0 &&
      w.rnd == 0 && unused w.d && unused w.c
  | .xaddi w => (w.ty == .i32 || w.ty == .i64) && baseForm w && offForm w && w.req == 0 && w.sub == 0 &&
      w.rnd == 0 && unused w.d && unused w.c
  | .atom sp w => atomForm sp w && (w.rnd == 7 || unused w.c)
  | .red sp w => atomForm sp w && w.rnd ≤ 5 && unused w.d && unused w.c && (w.order == 0 || w.order == 2)
  | .laneFence w => w.ty == .b8 && 1 ≤ w.scope && w.scope ≤ 5 && 1 ≤ w.order && w.rnd == 0 && w.mods == 0 &&
      w.imm == 0 && unused w.d && unused w.a && unused w.b && unused w.c
  | .lanePrf w => w.ty == .b8 && baseForm w && offForm w && w.req == 0 && w.sub == 0 && w.rnd == 0 &&
      unused w.d && unused w.b && w.c ≤ 1
  | .trc w => w.ty == .b8 && w.rnd == 0 && w.mods &&& 0b1110 == 0 && unused w.d && unused w.c &&
      w.imm.extractLsb' 10 22 == 0
  | .trq w => w.ty == .b8 && w.rnd == 0 && w.mods == 0 && unused w.d && unused w.c && w.imm.extractLsb' 12 20 == 0
  -- scalar words: codes and orders of R190, R260, R273, R285, R302, R318
  | .ldSpd m | .ldPmem m | .ldChip m | .ldGlb m =>
      (m.order == .none || ((m.order == .acq || m.order == .ar) && m.scope.isSome)) &&
      (!m.sext || m.size == .b8 || m.size == .b16)
  | .stSpd m | .stPmem m | .stChip m | .stGlb m =>
      (m.order == .none || ((m.order == .rel || m.order == .ar) && m.scope.isSome)) && !m.sext
  | .ldt m => !m.dflt || m.tol == 0
  | .mwin _ _ _ _ _ fmt _ _ _ => fmt == .f16 || fmt == .bf16 || fmt == .f32 || fmt == .e4m3 || fmt == .e5m2 || fmt == .q4
  | .mcvt _ _ ty _ _ _ => ty == .f16 || ty == .bf16 || ty == .f32 || ty == .e4m3 || ty == .e5m2
  | .cpy _ x | .cpyt _ x | .cpyw _ x | .cpyg x | .cpys x => x.sp != .slc
  | _ => true

/-! ### Check 4 (R199): registers, views, immediates and gong names -/

/-- What the checks of R199 depend on beside the word: the lane's allocated bytes, the group width, the
declared gongs and accumulator tiles, and the word offset of the instruction. -/
structure Limits where
  lregBytes : Nat
  width     : Nat
  gongs     : Nat
  tiles     : Nat
  pcw       : Nat
  deriving DecidableEq, Repr

/-- The limits a well-formed instruction can meet: the largest a launch may have. -/
def Limits.max : Limits := ⟨1024, 64, 32, 16, 0⟩

/-- A lane register name of `bytes` bytes is aligned and within the allocation (R20). -/
def viewOk (k : Limits) (f : Nat) (bytes : Nat) : Bool :=
  (bytes ≤ 4 || (bytes == 8 && f % 2 == 0) || (bytes == 16 && f % 4 == 0)) && 4 * f + Nat.max 4 bytes ≤ k.lregBytes

def viewA (k : Limits) (w : LaneWord) (bytes : Nat) : Bool := w.aScalar || viewOk k w.a.toNat bytes
def viewB (k : Limits) (w : LaneWord) (bytes : Nat) : Bool := w.bSrc != 0 || viewOk k w.b.toNat bytes
def viewD (k : Limits) (w : LaneWord) (bytes : Nat) : Bool := viewOk k w.d.toNat bytes
def viewC (k : Limits) (w : LaneWord) (bytes : Nat) : Bool := viewOk k w.c.toNat bytes
/-- Eight consecutive `v` registers (R246, R304). -/
def view8 (k : Limits) (f : Nat) : Bool := 4 * (f + 8) ≤ k.lregBytes

def dab (k : Limits) (w : LaneWord) : Bool :=
  viewD k w w.ty.bytes && viewA k w w.ty.bytes && viewB k w w.ty.bytes
def da (k : Limits) (w : LaneWord) : Bool := viewD k w w.ty.bytes && viewA k w w.ty.bytes
/-- Base register of a lane memory word (R254). -/
def viewBase (k : Limits) (sp : Space) (w : LaneWord) : Bool :=
  if w.m41 then sp != .glb || w.a.toNat < 16 else viewOk k w.a.toNat (if sp == .glb then 8 else 4)
/-- The half of a packed width sits in `v` up to 32 bits, in `w` for 64 (R248). -/
def halfBytes (t : LTy) : Nat := if t == .b128 then 8 else 4
/-- An immediate half fits in half the packed width (R248). -/
def halfImm (w : LaneWord) : Bool := w.bSrc != 2 || w.ty.bytes ≥ 8 || w.imm.toNat < 2 ^ (4 * w.ty.bytes)
/-- Position and length of an immediate bit field (R240). -/
def bitFieldImm (w : LaneWord) : Bool :=
  let pos := (w.imm.extractLsb' 0 8).toNat
  let len := (w.imm.extractLsb' 8 8).toNat
  len != 0 && pos + len ≤ 8 * w.ty.bytes
/-- A 16-bit signed immediate exponent (R247). -/
def expImm (w : LaneWord) : Bool := w.bSrc != 2 || (-32768 ≤ w.imm.toInt && w.imm.toInt ≤ 32767)
def laneGong (k : Limits) (w : LaneWord) : Bool := w.sub.toNat < k.gongs
/-- A gong name below the declared count (R136). -/
def gongOk (k : Limits) (g : GReg) : Bool := g.toNat < k.gongs
/-- Data and base registers of a scalar memory word (R190). -/
def smemOk (glb : Bool) (m : SMem) : Bool :=
  (!glb || m.base.toNat < 16) && (m.size != .b64 || m.data.toNat < 16)
def tileOk (k : Limits) (t : BitVec 4) : Bool := t.toNat < k.tiles
def cpyOk (k : Limits) (x : CpyArgs) : Bool := gongOk k x.g && (x.sp != .glb || x.base.toNat < 16)

/-- Check 4 of R199: register fields within their class, views aligned and within LREGS, gong and tile
names below the declared counts, immediates within their limits. DESIGN CHOICE (log 114): a lane register b of `unpack`
(the bit number) and of `cvx` (the exponent) is any 4-byte one, whatever the type. -/
def Instr.check4 (k : Limits) : Instr → Bool
  | .mov w => viewD k w w.ty.bytes && viewB k w w.ty.bytes
  | .add w | .sub w | .mul w | .mulh w | .min w | .max w | .and w | .or w | .xor w => dab k w
  | .mad w | .fma w => dab k w && viewC k w w.ty.bytes
  | .abs w | .neg w | .not w | .brev w | .popc w | .clz w => da k w
  | .shl w | .shr w | .sra w => dab k w
  | .bfx w | .bfi w => da k w && (if w.bSrc == 2 then bitFieldImm w else viewB k w w.ty.bytes && viewC k w w.ty.bytes)
  | .sel w => dab k w
  | .cmp w => viewA k w w.ty.bytes && viewB k w w.ty.bytes
  | .rcp w | .rsq w | .sqrt w | .ex2 w | .lg2 w | .sin w | .cos w | .frc w => da k w
  | .cvt w => viewD k w w.ty.bytes && viewA k w ((LTy.ofCode w.sub.toNat).elim 4 LTy.bytes) &&
      (w.rnd != 4 || viewC k w 4)
  | .cvq w => (w.bSrc != 0 || viewOk k w.b.toNat 4) && (w.bSrc != 2 || w.imm.toNat ≤ 255) && (w.rnd != 4 || viewC k w 4) &&
      (if w.m41 then viewA k w 4 && view8 k w.d.toNat else view8 k w.a.toNat && viewD k w 4)
  | .cvx w => viewD k w w.ty.bytes && viewA k w ((LTy.ofCode w.sub.toNat).elim 4 LTy.bytes) &&
      (w.bSrc != 0 || viewOk k w.b.toNat 4) && expImm w
  | .pack w => viewD k w w.ty.bytes && viewA k w (halfBytes w.ty) &&
      (w.bSrc != 0 || viewOk k w.b.toNat (halfBytes w.ty)) && halfImm w
  | .unpack w => viewD k w (halfBytes w.ty) && viewA k w w.ty.bytes &&
      (w.bSrc != 0 || viewOk k w.b.toNat 4) && (w.bSrc != 2 || w.imm.toNat ≤ 1)
  | .rng w => dab k w
  | .ballot w => (w.m41 || viewD k w 4) && (w.imm == 0 || k.width == 64)
  | .vany _ | .vall _ | .elect _ => true
  | .shfl w | .bperm w => dab k w
  | .bfly w => dab k w && 2 ^ w.c.toNat < k.width
  | .rdc w => (w.m41 || viewD k w w.ty.bytes) && viewA k w w.ty.bytes
  | .scan w => da k w
  | .pset w => viewA k w 4 && viewB k w 4
  | .pand _ | .por _ | .pxor _ => true
  | .pget w => viewD k w 4
  | .lget w => viewD k w 4 && w.imm.toNat ≤ 1
  | .laneLd sp w => viewD k w w.ty.bytes && viewBase k sp w
  | .laneSt sp w => viewOk k w.b.toNat w.ty.bytes && viewBase k sp w
  | .laneLdt w => viewD k w w.ty.bytes && viewBase k .glb w
  | .xadd w | .xaddi w => viewOk k w.b.toNat w.ty.bytes && viewBase k .glb w
  | .atom sp w => viewD k w w.ty.bytes && viewOk k w.b.toNat w.ty.bytes && viewBase k sp w &&
      (w.rnd != 7 || viewC k w w.ty.bytes)
  | .red sp w => viewOk k w.b.toNat w.ty.bytes && viewBase k sp w
  | .laneFence _ => true
  | .lanePrf w => viewBase k .glb w
  | .trc w | .trq w => laneGong k w && w.a.toNat % 4 == 0 && view8 k w.a.toNat && viewOk k w.b.toNat 4
  | .sbfx _ pos len1 _ _ | .sbfi pos len1 _ _ => pos.toNat + len1.toNat + 1 ≤ 32
  | .loop _ fin => k.pcw + 1 ≤ fin.toNat
  | .loopi _ fin => k.pcw + 2 ≤ fin.toNat
  | .garrive g _ _ | .gwait g _ _ | .gsync g _ _ | .garm g _ _ _ _ | .ovld g _ _ _ _ => gongOk k g
  | .gget _ g n => gongOk k g && n ≤ 2
  | .perf _ n => n ≤ 5
  | .ldSpd m | .ldPmem m | .ldChip m | .stSpd m | .stPmem m | .stChip m => smemOk false m
  | .ldGlb m | .stGlb m => smemOk true m
  | .ldt m => m.size != .b64 || m.data.toNat < 16
  | .mzero d => tileOk k d
  | .mma d _ _ | .mmab d _ _ => tileOk k d
  | .maccLd d _ _ rot _ | .maccSt d _ _ rot _ => tileOk k d && rot < 5
  | .mcvt d a _ _ _ _ => tileOk k d && tileOk k a
  | .bvset g _ _ _ _ | .bvfit g _ _ | .bvleaf g _ _ _ _ | .bvnode g _ _ => gongOk k g
  | .cpy _ x | .cpyt _ x | .cpyw _ x | .cpyg x | .cpys x => cpyOk k x
  | .xdict g _ _ _ | .rfwd g _ _ _ _ | .rrecv g _ _ _ => gongOk k g
  | _ => true

end Sys2Proof
end

