-- ==== Sys2Proof/WellFormed.lean ====
section
/-!
DEFINITION. Well-formed instructions: those some launch can execute without a decode trap. An encoded
well-formed instruction decodes to itself.
-/
namespace Sys2Proof

/-- An instruction of one of the streams, not a device step. -/
def Instr.isLane : Instr → Bool
  | .mov _ | .add _ | .sub _ | .mul _ | .mulh _ | .mad _ | .fma _ | .min _ | .max _ | .abs _ | .neg _ | .and _
  | .or _ | .xor _ | .not _ | .shl _ | .shr _ | .sra _ | .bfx _ | .bfi _ | .brev _ | .popc _ | .clz _ | .sel _
  | .cmp _ | .rcp _ | .rsq _ | .sqrt _ | .ex2 _ | .lg2 _ | .sin _ | .cos _ | .frc _ | .cvt _ | .cvq _ | .cvx _
  | .pack _ | .unpack _ | .rng _ | .ballot _ | .vany _ | .vall _ | .elect _ | .shfl _ | .bfly _ | .bperm _
  | .rdc _ | .scan _ | .pset _ | .pand _ | .por _ | .pxor _ | .pget _ | .lget _ | .laneLd _ _ | .laneSt _ _
  | .laneLdt _ | .xadd _ | .xaddi _ | .atom _ _ | .red _ _ | .laneFence _ | .lanePrf _ | .trc _ | .trq _ => true
  | _ => false

/-- The lane word of a lane instruction. -/
def Instr.laneWord : Instr → Option LaneWord
  | .mov w | .add w | .sub w | .mul w | .mulh w | .mad w | .fma w | .min w | .max w | .abs w | .neg w | .and w
  | .or w | .xor w | .not w | .shl w | .shr w | .sra w | .bfx w | .bfi w | .brev w | .popc w | .clz w | .sel w
  | .cmp w | .rcp w | .rsq w | .sqrt w | .ex2 w | .lg2 w | .sin w | .cos w | .frc w | .cvt w | .cvq w | .cvx w
  | .pack w | .unpack w | .rng w | .ballot w | .vany w | .vall w | .elect w | .shfl w | .bfly w | .bperm w
  | .rdc w | .scan w | .pset w | .pand w | .por w | .pxor w | .pget w | .lget w | .laneLd _ w | .laneSt _ w
  | .laneLdt w | .xadd w | .xaddi w | .atom _ w | .red _ w | .laneFence w | .lanePrf w | .trc w | .trq w => some w
  | _ => none

/-- The guard `?!p7` is not assigned (R191). -/
def LaneWord.guardOk (w : LaneWord) : Bool := !(w.gneg && w.guard == 7)

/-- The instruction passes checks 3 and 4 of R199 under the limits (R201). -/
def Instr.fits (k : Limits) (i : Instr) : Bool :=
  i.check3 && i.check4 k && (i.laneWord.elim true LaneWord.guardOk)

/-- Well-formed for some launch: it fits the largest limits, at word 0. -/
def Instr.wf (i : Instr) : Bool := i.fits Limits.max

end Sys2Proof
end

