-- ==== Sys2Proof/Decode.lean ====
section
/-!
DEFINITION. The decoder of both word formats (R182 to R198), total on any bits and rejecting by trap, and
after it an encoder written from the same tables. `decodeTableWord` reads a word as the opcode table
numbers its bits.
-/
namespace Sys2Proof

/-- Why a word is no instruction: the trap of R199's checks 2 to 4 that the word alone decides. -/
inductive Bad where
  | illegalOpcode
  | illegalOperand
  deriving DecidableEq, Repr

/-! ### Fields of a scalar word (R182) -/

def fSd (w : BitVec 32) : BitVec 6 := w.extractLsb' 18 6
def fSa (w : BitVec 32) : BitVec 6 := w.extractLsb' 12 6
def fSb (w : BitVec 32) : BitVec 6 := w.extractLsb' 6 6
def fFn (w : BitVec 32) : BitVec 6 := w.extractLsb' 0 6
def fImm12 (w : BitVec 32) : BitVec 12 := w.extractLsb' 0 12
def fImm16 (w : BitVec 32) : BitVec 16 := w.extractLsb' 0 16
def fSel (w : BitVec 32) : BitVec 2 := w.extractLsb' 16 2
def fMajor (w : BitVec 32) : Nat := (w.extractLsb' 24 8).toNat

/-- Check 3 of R199: the condition holds, or the word raises `ILLEGAL_OPCODE`. -/
def need (c : Bool) (k : Except Bad Instr) : Except Bad Instr := if c then k else .error .illegalOpcode
/-- Check 4 of R199: the condition holds, or the word raises `ILLEGAL_OPERAND`. -/
def limit (c : Bool) (k : Except Bad Instr) : Except Bad Instr := if c then k else .error .illegalOperand
/-- A register field of a class with 16, 8 or 32 names (R183). -/
def reg4 (f : BitVec 6) (k : BitVec 4 → Except Bad Instr) : Except Bad Instr :=
  limit (f < 16) (k (f.extractLsb' 0 4))
def reg3 (f : BitVec 6) (k : BitVec 3 → Except Bad Instr) : Except Bad Instr :=
  limit (f < 8) (k (f.extractLsb' 0 3))
def reg5 (f : BitVec 6) (k : BitVec 5 → Except Bad Instr) : Except Bad Instr :=
  limit (f < 32) (k (f.extractLsb' 0 5))

/-- Scope codes (R190). -/
def scopeOf : Nat → Option (Option Scope)
  | 0 => some none | 1 => some (some .grp) | 2 => some (some .team) | 3 => some (some .pair)
  | 4 => some (some .dev) | 5 => some (some .sys) | _ => none
def reqOf : Nat → Option Req
  | 0 => some .page | 1 => some .own | 2 => some .wt | 3 => some .si | 4 => some .nc | _ => none
def sizeOf : Nat → Option Size
  | 0 => some .b8 | 1 => some .b16 | 2 => some .b32 | 3 => some .b64 | _ => none
def orderOf : Nat → Order
  | 0 => .none | 1 => .acq | 2 => .rel | _ => .ar
/-- Spaces of a copy's dense end (R318). -/
def cpySpaceOf : Nat → Space
  | 0 => .glb | 1 => .chip | 2 => .pmem | _ => .spd
/-- Source of a window or space of a tile move (R188, R273); 3 is not assigned. -/
def wsrcOf : Nat → Option WSrc
  | 0 => some .spd | 1 => some .pmem | 2 => some .lreg | _ => none
/-- Conditions of `scmp` (R187). -/
def scondOf : Nat → Option SCond
  | 0 => some .eq | 1 => some .ne | 2 => some .lt | 3 => some .le | 4 => some .gt | 5 => some .ge
  | 6 => some .ltu | 7 => some .leu | 8 => some .gtu | 9 => some .geu | _ => none

/-- Scalar `ld` and `st` (R190). -/
def decSMem (w e : BitVec 32) (glb : Bool) (mk : SMem → Instr) : Except Bad Instr :=
  match scopeOf ((fSb w).extractLsb' 3 3).toNat, reqOf ((fSb w).extractLsb' 0 3).toNat,
        sizeOf ((fFn w).extractLsb' 0 3).toNat with
  | some sc, some rq, some sz =>
    let m : SMem := ⟨fSd w, fSa w, sc, rq, orderOf ((fFn w).extractLsb' 3 2).toNat, (fFn w).getLsbD 5, sz, e⟩
    need (mk m).check3 (limit (smemOk glb m) (.ok (mk m)))
  | _, _, _ => .error .illegalOpcode

/-- `ldt` (R190, R262). -/
def decLdt (w e : BitVec 32) : Except Bad Instr :=
  match sizeOf ((fFn w).extractLsb' 0 3).toNat with
  | some sz =>
    need (!(fFn w).getLsbD 4 && (!(fFn w).getLsbD 5 || fSb w == 0))
      (limit (sz != .b64 || fSd w < 16)
        (reg4 (fSa w) fun a => .ok (.ldt ⟨fSd w, a, (fFn w).getLsbD 5, fSb w, (fFn w).getLsbD 3, sz, e⟩)))
  | none => .error .illegalOpcode

/-- Copy instructions (R318): the space code is function [1:0]. -/
def decCpy (w e : BitVec 32) (mk : CpyArgs → Instr) : Except Bad Instr :=
  let sp := cpySpaceOf ((fFn w).extractLsb' 0 2).toNat
  limit (sp != .glb || fSa w < 16)
    (reg5 (fSd w) fun g => .ok (mk ⟨sp, g, e.extractLsb' 0 4, fSb w, fSa w, e.extractLsb' 4 28⟩))

/-- Scalar ALU, major 0x02 (R186). -/
def decAlu (w : BitVec 32) : Except Bad Instr :=
  match (fFn w).toNat with
  | 0 => .ok (.sadd (fSd w) (fSa w) (fSb w))
  | 1 => .ok (.ssub (fSd w) (fSa w) (fSb w))
  | 2 => .ok (.smul (fSd w) (fSa w) (fSb w))
  | 3 => .ok (.smulhI32 (fSd w) (fSa w) (fSb w))
  | 4 => .ok (.smulhN32 (fSd w) (fSa w) (fSb w))
  | 5 => .ok (.sand (fSd w) (fSa w) (fSb w))
  | 6 => .ok (.sor (fSd w) (fSa w) (fSb w))
  | 7 => .ok (.sxor (fSd w) (fSa w) (fSb w))
  | 8 => .ok (.sshl (fSd w) (fSa w) (fSb w))
  | 9 => .ok (.sshr (fSd w) (fSa w) (fSb w))
  | 10 => .ok (.ssra (fSd w) (fSa w) (fSb w))
  | 11 => .ok (.sminI32 (fSd w) (fSa w) (fSb w))
  | 12 => .ok (.sminN32 (fSd w) (fSa w) (fSb w))
  | 13 => .ok (.smaxI32 (fSd w) (fSa w) (fSb w))
  | 14 => .ok (.smaxN32 (fSd w) (fSa w) (fSb w))
  | 15 => need (fSb w == 0) (.ok (.spopc (fSd w) (fSa w)))
  | 16 => need (fSb w == 0) (.ok (.sclz (fSd w) (fSa w)))
  | 17 => need (fSb w == 0) (.ok (.smov (fSd w) (fSa w)))
  | _ => .error .illegalOpcode

/-- The address moves, major 0x13 (R185, R211). -/
def decAmov (w : BitVec 32) : Except Bad Instr :=
  match (fFn w).toNat with
  | 0 => need (fSb w == 0) (reg4 (fSd w) fun d => reg4 (fSa w) fun a => .ok (.amov d a))
  | 1 => need (fSb w == 0) (reg4 (fSd w) fun d => .ok (.amovN32 d (fSa w)))
  | 2 => need (fSb w == 0) (reg4 (fSd w) fun d => .ok (.amovI32 d (fSa w)))
  | 3 => need (fSb w == 0) (reg4 (fSa w) fun a => .ok (.amovLo (fSd w) a))
  | 4 => need (fSb w == 0) (reg4 (fSa w) fun a => .ok (.amovHi (fSd w) a))
  | 5 => reg4 (fSd w) fun d => .ok (.amovPair d (fSa w) (fSb w))
  | _ => .error .illegalOpcode

/-- Majors followed by an extension word (R185, R188). -/
def isSX (maj : Nat) : Bool :=
  maj == 0x12 || maj == 0x27 || maj == 0x29 || maj == 0x43 || maj == 0x52 || (0x60 ≤ maj && maj ≤ 0x68) || maj == 0x6A ||
  maj == 0x70 || maj == 0x77 || maj == 0x78 || maj == 0x79 || (0x80 ≤ maj && maj ≤ 0x83) || (0x88 ≤ maj && maj ≤ 0x95)

/-- The instruction a scalar word and its extension word stand for (R185 to R190). -/
def decodeScalar (w e : BitVec 32) : Except Bad Instr :=
  let d := fSd w; let a := fSa w; let b := fSb w; let f := fFn w; let i := fImm12 w
  match fMajor w with
  | 0x01 => need (w == 0x01000000) (.ok .nop)
  | 0x02 => decAlu w
  | 0x03 => match scondOf (f.extractLsb' 0 4).toNat with
    | some c => need (f.extractLsb' 4 2 == 0) (reg3 d fun cd => .ok (.scmp c cd a b))
    | none => .error .illegalOpcode
  | 0x04 => need (f.extractLsb' 4 2 == 0) (.ok (.ssel (f.getLsbD 3) (f.extractLsb' 0 3) d a b))
  | 0x05 => need (!i.getLsbD 11) (limit ((i.extractLsb' 0 5).toNat + (i.extractLsb' 5 5).toNat + 1 ≤ 32)
      (.ok (.sbfx (i.getLsbD 10) (i.extractLsb' 0 5) (i.extractLsb' 5 5) d a)))
  | 0x06 => need (!i.getLsbD 11 && !i.getLsbD 10) (limit ((i.extractLsb' 0 5).toNat + (i.extractLsb' 5 5).toNat + 1 ≤ 32)
      (.ok (.sbfi (i.extractLsb' 0 5) (i.extractLsb' 5 5) d a)))
  | 0x07 => .ok (.saddImm d a i)
  | 0x08 => .ok (.sandImm d a i)
  | 0x09 => .ok (.sorImm d a i)
  | 0x0A => .ok (.sxorImm d a i)
  | 0x0B => limit (i < 32) (.ok (.sshlImm d a (i.extractLsb' 0 5)))
  | 0x0C => limit (i < 32) (.ok (.sshrImm d a (i.extractLsb' 0 5)))
  | 0x0D => limit (i < 32) (.ok (.ssraImm d a (i.extractLsb' 0 5)))
  | 0x0E => need (fSel w ≤ 1) (.ok (.sli (fSel w == 1) d (fImm16 w)))
  | 0x0F => need (fSel w == 0) (.ok (.slih d (fImm16 w)))
  | 0x10 => need (f.extractLsb' 2 4 == 0) (reg4 d fun d => reg4 a fun a => .ok (.aadd d a b (f.extractLsb' 0 2)))
  | 0x11 => reg4 d fun d => reg4 a fun a => .ok (.aaddImm d a i)
  | 0x12 => need (b == 0 && f == 0) (reg4 d fun d => reg4 a fun a => .ok (.alea d a e))
  | 0x13 => decAmov w
  | 0x20 => need (w.extractLsb' 20 4 == 0) (.ok (.br (w.extractLsb' 0 20)))
  | 0x21 => .ok (.brc (w.getLsbD 23) (w.extractLsb' 20 3) (w.extractLsb' 0 20))
  | 0x22 => need (w.extractLsb' 20 4 == 0) (.ok (.call (w.extractLsb' 0 20)))
  | 0x23 => need (w == 0x23000000) (.ok .ret)
  | 0x24 => need (w.extractLsb' 18 6 == 0) (.ok (.callo (w.extractLsb' 10 8) (w.extractLsb' 0 10)))
  | 0x25 => need (w == 0x25000000) (.ok .reto)
  | 0x26 => need (d == 0 && i.extractLsb' 10 2 == 0) (.ok (.loop a (i.extractLsb' 0 10)))
  | 0x27 => need (w == 0x27000000 && e.extractLsb' 30 2 == 0) (.ok (.loopi (e.extractLsb' 0 20) (e.extractLsb' 20 10)))
  | 0x28 => need (w == 0x28000000) (.ok .lbrk)
  | 0x29 => need (w.extractLsb' 21 3 == 0 && w.extractLsb' 0 18 == 0 && e.extractLsb' 20 12 == 0)
      (.ok (.split (w.extractLsb' 18 3) (e.extractLsb' 0 10) (e.extractLsb' 10 10)))
  | 0x2A => need (w == 0x2A000000) (.ok .join)
  | 0x2B => need (w == 0x2B000000) (.ok .yield)
  | 0x2C => need (w.extractLsb' 10 14 == 0) (.ok (.lrun (w.extractLsb' 0 10)))
  | 0x2D => need (w == 0x2D000000) (.ok .lwait)
  | 0x2E => need (w == 0x2E000000) (.ok .exit)
  | 0x2F => need (w.extractLsb' 16 8 == 0) (.ok (.trap (fImm16 w)))
  | 0x30 => need (d == 0 && b == 0 && f == 0) (reg4 a fun a => .ok (.kick a))
  | 0x40 => reg5 d fun g => .ok (.garrive g a i)
  | 0x41 => limit (i ≤ 1) (reg5 d fun g => .ok (.gwait g a (i == 1)))
  | 0x42 => reg5 d fun g => .ok (.gsync g a i)
  | 0x43 => need (f == 0) (reg5 d fun g => .ok (.garm g a b (e.extractLsb' 0 7) (e.extractLsb' 7 25)))
  | 0x44 => limit (i ≤ 2) (reg5 a fun g => .ok (.gget d g (i.extractLsb' 0 2)))
  | 0x45 => need (d == 0 && a == 0) (limit (i < 8) (.ok (.lbar (i.extractLsb' 0 3))))
  | 0x46 => .ok (.tkt d a (i.extractLsb' 2 10) (i.extractLsb' 0 2))
  | 0x47 => need (d == 0 && a == 0 && i.extractLsb' 2 10 == 0) (.ok (.tktv (i.extractLsb' 0 2)))
  | 0x48 => need (d == 0) (.ok (.xfire a i))
  | 0x49 => need (d == 0) (.ok (.xwait a i))
  | 0x50 => need (fSel w == 0) (.ok (.sget d (fImm16 w)))
  | 0x51 => need (fSel w == 0) (.ok (.sset d (fImm16 w)))
  | 0x52 => need (f == 0 && e.extractLsb' 13 19 == 0)
      (reg5 d fun g => .ok (.ovld g a b (e.extractLsb' 0 8) (e.extractLsb' 8 5)))
  | 0x53 => .ok (.ovq d a i)
  | 0x54 => need (d == 0 && b == 0 && f.extractLsb' 1 5 == 0 && (!f.getLsbD 0 || a == 0))
      (if f.getLsbD 0 then .ok .xdrainAll else reg4 a fun a => .ok (.xdrain a))
  | 0x55 => need (d == 0 && a == 0) (.ok (.pause i))
  | 0x56 => need (w.extractLsb' 16 8 == 0) (.ok (.brkpt (fImm16 w)))
  | 0x57 => need (a == 0) (limit (i ≤ 5) (.ok (.perf d (i.extractLsb' 0 3))))
  | 0x60 => decSMem w e false .ldSpd
  | 0x61 => decSMem w e false .ldPmem
  | 0x62 => decSMem w e false .ldChip
  | 0x63 => decSMem w e true .ldGlb
  | 0x64 => decSMem w e false .stSpd
  | 0x65 => decSMem w e false .stPmem
  | 0x66 => decSMem w e false .stChip
  | 0x67 => decSMem w e true .stGlb
  | 0x68 => decLdt w e
  | 0x69 => need (d == 0 && a == 0 && b == 0 && !f.getLsbD 5)
      (match scopeOf (f.extractLsb' 0 3).toNat, (f.extractLsb' 3 2).toNat with
       | some (some sc), 1 => .ok (.fenceAcq sc)
       | some (some sc), 2 => .ok (.fenceRel sc)
       | some (some sc), 3 => .ok (.fenceAr sc)
       | _, _ => .error .illegalOpcode)
  | 0x6A => need (d == 0 && b == 0 && f ≤ 1) (reg4 a fun a => .ok (.prf (f == 1) a e))
  | 0x6B => .ok (.pres d a i)
  | 0x70 => match wsrcOf (e.extractLsb' 0 2).toNat, LTy.ofCode (e.extractLsb' 5 5).toNat with
    | some src, some fmt => need (f == 0 && !e.getLsbD 12)
        (let m := fun d => Instr.mwin d a b src (e.extractLsb' 2 3) fmt (e.getLsbD 10) (e.getLsbD 11) (e.extractLsb' 13 19)
         need (m 0).check3 (reg4 d fun d => .ok (m d)))
    | _, _ => .error .illegalOpcode
  | 0x71 => need (a == 0 && b == 0 && f == 0) (reg4 d fun d => .ok (.mzero d))
  | 0x72 => need (f == 0) (reg4 d fun d => reg4 a fun a => reg4 b fun b => .ok (.mma d a b))
  | 0x73 => need (f == 0) (reg4 d fun d => reg4 a fun a => reg4 b fun b => .ok (.mmab d a b))
  | 0x74 => need (a == 0 && b == 0 && f == 0) (.ok (.mfence d))
  | 0x75 => need (d == 0) (.ok (.mwait a i))
  | 0x76 => need (d == 0) (.ok (.mhint a i))
  | 0x77 => match wsrcOf (f.extractLsb' 0 2).toNat with
    | some sp => need (b == 0 && !f.getLsbD 5) (reg4 d fun d => .ok (.maccLd d a sp (f.extractLsb' 2 3) e))
    | none => .error .illegalOpcode
  | 0x78 => match wsrcOf (f.extractLsb' 0 2).toNat with
    | some sp => need (b == 0 && !f.getLsbD 5) (reg4 d fun d => .ok (.maccSt d a sp (f.extractLsb' 2 3) e))
    | none => .error .illegalOpcode
  | 0x79 => match LTy.ofCode (f.extractLsb' 0 5).toNat with
    | some ty =>
      let m := fun d a => Instr.mcvt d a ty (e.extractLsb' 0 2) (e.getLsbD 2) (e.extractLsb' 8 8)
      need (b == 0 && !f.getLsbD 5 && e.extractLsb' 3 5 == 0 && e.extractLsb' 16 16 == 0 && (m 0 0).check3)
        (reg4 d fun d => reg4 a fun a => .ok (m d a))
    | none => .error .illegalOpcode
  | 0x80 => need (f == 0) (reg5 d fun g => reg4 a fun a => .ok (.bvset g a b (e.extractLsb' 0 6) (e.extractLsb' 6 26)))
  | 0x81 => need (f == 0 && b == 0 && e.extractLsb' 0 6 == 0) (reg5 d fun g => reg4 a fun a => .ok (.bvfit g a (e.extractLsb' 6 26)))
  | 0x82 => need (f == 0) (reg5 d fun g => reg4 a fun a => .ok (.bvleaf g a b (e.extractLsb' 0 6) (e.extractLsb' 6 26)))
  | 0x83 => need (f == 0 && b == 0 && e.extractLsb' 0 6 == 0) (reg5 d fun g => reg4 a fun a => .ok (.bvnode g a (e.extractLsb' 6 26)))
  | 0x88 => need (f ≤ 1 && (f == 1 || b == 0))
      (if f == 1 then reg4 d fun h => reg4 a fun a => reg4 b fun hs => .ok (.shpCopy h hs a e)
       else reg4 d fun h => reg4 a fun a => .ok (.shp h a e))
  | 0x89 => need (f.extractLsb' 3 3 == 0) (decCpy w e (.cpy (f.getLsbD 2)))
  | 0x8A => need (f.extractLsb' 3 3 == 0) (decCpy w e (.cpyt (f.getLsbD 2)))
  | 0x8B => decCpy w e (.cpyw (f.extractLsb' 2 4))
  | 0x8C => need (f.extractLsb' 2 4 == 0) (decCpy w e .cpyg)
  | 0x8D => need (f.extractLsb' 2 4 == 0) (decCpy w e .cpys)
  | 0x8E => need (d == 0 && a == 0 && f ≤ 1 && e.extractLsb' 4 28 == 0) (.ok (.cprf (f == 1) (e.extractLsb' 0 4) b))
  | 0x8F => need (b == 0 && f ≤ 1) (reg5 d fun g => reg4 a fun a => .ok (.xdict g (f == 1) a e))
  | 0x90 => need (b == 0 && f == 0) (.ok (.xpoll d a e))
  | 0x91 => reg5 d fun g => reg4 a fun a => .ok (.rfwd g a b f e)
  | 0x92 => need (f.extractLsb' 2 4 == 0 && e == 0) (reg5 d fun g => .ok (.rrecv g (f.extractLsb' 0 2) a b))
  | 0x93 => need (d == 0 && b == 0 && f == 0) (reg4 a fun a => .ok (.xinit a e))
  | 0x94 => need (d == 0 && b == 0 && f == 0) (.ok (.xabort a e))
  | 0x95 => need (b == 0 && f == 0) (.ok (.xstat d a e))
  | _ => .error .illegalOpcode

/-- The lane opcode map (R198). -/
def laneOp (op : Nat) (w : LaneWord) : Option Instr :=
  match op with
  | 0x010 => some (.mov w)
  | 0x011 => some (.add w)
  | 0x012 => some (.sub w)
  | 0x013 => some (.mul w)
  | 0x014 => some (.mulh w)
  | 0x015 => some (.mad w)
  | 0x016 => some (.fma w)
  | 0x017 => some (.min w)
  | 0x018 => some (.max w)
  | 0x019 => some (.abs w)
  | 0x01A => some (.neg w)
  | 0x01B => some (.and w)
  | 0x01C => some (.or w)
  | 0x01D => some (.xor w)
  | 0x01E => some (.not w)
  | 0x01F => some (.shl w)
  | 0x020 => some (.shr w)
  | 0x021 => some (.sra w)
  | 0x022 => some (.bfx w)
  | 0x023 => some (.bfi w)
  | 0x024 => some (.brev w)
  | 0x025 => some (.popc w)
  | 0x026 => some (.clz w)
  | 0x027 => some (.sel w)
  | 0x028 => some (.cmp w)
  | 0x040 => some (.rcp w)
  | 0x041 => some (.rsq w)
  | 0x042 => some (.sqrt w)
  | 0x043 => some (.ex2 w)
  | 0x044 => some (.lg2 w)
  | 0x045 => some (.sin w)
  | 0x046 => some (.cos w)
  | 0x047 => some (.frc w)
  | 0x060 => some (.cvt w)
  | 0x061 => some (.cvq w)
  | 0x062 => some (.cvx w)
  | 0x063 => some (.pack w)
  | 0x064 => some (.unpack w)
  | 0x065 => some (.rng w)
  | 0x080 => some (.ballot w)
  | 0x081 => some (.vany w)
  | 0x082 => some (.vall w)
  | 0x083 => some (.shfl w)
  | 0x084 => some (.bfly w)
  | 0x085 => some (.rdc w)
  | 0x086 => some (.scan w)
  | 0x087 => some (.elect w)
  | 0x088 => some (.bperm w)
  | 0x0A0 => some (.pset w)
  | 0x0A1 => some (.pand w)
  | 0x0A2 => some (.por w)
  | 0x0A3 => some (.pxor w)
  | 0x0A4 => some (.pget w)
  | 0x0A5 => some (.lget w)
  | 0x0C0 => some (.laneLd .slc w)
  | 0x0C1 => some (.laneLd .spd w)
  | 0x0C2 => some (.laneLd .pmem w)
  | 0x0C3 => some (.laneLd .chip w)
  | 0x0C4 => some (.laneLd .glb w)
  | 0x0C8 => some (.laneSt .slc w)
  | 0x0C9 => some (.laneSt .spd w)
  | 0x0CA => some (.laneSt .pmem w)
  | 0x0CB => some (.laneSt .chip w)
  | 0x0CC => some (.laneSt .glb w)
  | 0x0D3 => some (.atom .slc w)
  | 0x0D4 => some (.atom .spd w)
  | 0x0D5 => some (.atom .pmem w)
  | 0x0D6 => some (.atom .chip w)
  | 0x0D7 => some (.atom .glb w)
  | 0x0D8 => some (.red .slc w)
  | 0x0D9 => some (.red .spd w)
  | 0x0DA => some (.red .pmem w)
  | 0x0DB => some (.red .chip w)
  | 0x0DC => some (.red .glb w)
  | 0x0D0 => some (.laneLdt w)
  | 0x0D1 => some (.xadd w)
  | 0x0D2 => some (.xaddi w)
  | 0x0DD => some (.laneFence w)
  | 0x0DE => some (.lanePrf w)
  | 0x0E0 => some (.trc w)
  | 0x0E1 => some (.trq w)
  | _ => none

/-- The fields of a lane word (R191); none where the type code is not assigned (R194). -/
def laneFields (v : BitVec 96) : Option LaneWord :=
  match LTy.ofCode (v.extractLsb' 45 5).toNat with
  | some ty => some ⟨v.extractLsb' 82 3, v.getLsbD 85, v.extractLsb' 74 8, v.extractLsb' 66 8, v.extractLsb' 58 8,
      v.extractLsb' 50 8, ty, v.extractLsb' 42 3, v.extractLsb' 38 4, v.getLsbD 37, v.extractLsb' 32 5, v.extractLsb' 0 32⟩
  | none => none

/-- The instruction a lane word stands for, by checks 2 and 3 of R199. -/
def decodeLane (v : BitVec 96) : Except Bad Instr :=
  match laneFields v with
  | some w => match laneOp (v.extractLsb' 86 10).toNat w with
    | some i => need (w.guardOk && i.check3) (.ok i)
    | none => .error .illegalOpcode
  | none => .error .illegalOpcode

/-! ### The encoder -/

def encSR (maj : BitVec 8) (d a b f : BitVec 6) : BitVec 32 := maj ++ d ++ a ++ b ++ f
def encSI (maj : BitVec 8) (d a : BitVec 6) (i : BitVec 12) : BitVec 32 := maj ++ d ++ a ++ i
def encSL (maj : BitVec 8) (d : BitVec 6) (s : BitVec 2) (i : BitVec 16) : BitVec 32 := maj ++ d ++ s ++ i
def encSB (maj : BitVec 8) (c : BitVec 4) (o : BitVec 20) : BitVec 32 := maj ++ c ++ o
/-- A narrower register name in its 6-bit field (R183). -/
def r4 (a : BitVec 4) : BitVec 6 := a.setWidth 6
def r3 (a : BitVec 3) : BitVec 6 := a.setWidth 6
def r5 (a : BitVec 5) : BitVec 6 := a.setWidth 6
def bit1 (b : Bool) : BitVec 1 := BitVec.ofBool b

def Scope.enc : Option Scope → BitVec 3
  | none => 0 | some .grp => 1 | some .team => 2 | some .pair => 3 | some .dev => 4 | some .sys => 5
def Req.enc : Req → BitVec 3
  | .page => 0 | .own => 1 | .wt => 2 | .si => 3 | .nc => 4
def Size.enc : Size → BitVec 3
  | .b8 => 0 | .b16 => 1 | .b32 => 2 | .b64 => 3
def Order.enc : Order → BitVec 2
  | .none => 0 | .acq => 1 | .rel => 2 | .ar => 3
def Space.encCpy : Space → BitVec 2
  | .glb => 0 | .chip => 1 | .pmem => 2 | _ => 3
def WSrc.enc : WSrc → BitVec 2
  | .spd => 0 | .pmem => 1 | .lreg => 2
def SCond.enc : SCond → BitVec 6
  | .eq => 0 | .ne => 1 | .lt => 2 | .le => 3 | .gt => 4 | .ge => 5 | .ltu => 6 | .leu => 7 | .gtu => 8 | .geu => 9
def LTy.enc (t : LTy) : BitVec 5 := BitVec.ofNat 5 t.code

def SMem.enc (maj : BitVec 8) (m : SMem) : List (BitVec 32) :=
  [encSR maj m.data m.base (Scope.enc m.scope ++ m.req.enc) (bit1 m.sext ++ m.order.enc ++ m.size.enc), m.off]
def CpyArgs.enc (maj : BitVec 8) (hi : BitVec 4) (x : CpyArgs) : List (BitVec 32) :=
  [encSR maj (r5 x.g) x.base x.sc (hi ++ x.sp.encCpy), x.off ++ x.h]
/-- Offsets of the structure instructions above their small immediate (R302). -/
def encBv (maj : BitVec 8) (g : GReg) (a : AReg) (b : SReg) (m : BitVec 6) (off : BitVec 26) : List (BitVec 32) :=
  [encSR maj (r5 g) (r4 a) b 0, off ++ m]

/-- The opcode of a lane instruction (R198). -/
def Instr.laneOpcode : Instr → BitVec 10
  | .mov _ => 0x010
  | .add _ => 0x011
  | .sub _ => 0x012
  | .mul _ => 0x013
  | .mulh _ => 0x014
  | .mad _ => 0x015
  | .fma _ => 0x016
  | .min _ => 0x017
  | .max _ => 0x018
  | .abs _ => 0x019
  | .neg _ => 0x01A
  | .and _ => 0x01B
  | .or _ => 0x01C
  | .xor _ => 0x01D
  | .not _ => 0x01E
  | .shl _ => 0x01F
  | .shr _ => 0x020
  | .sra _ => 0x021
  | .bfx _ => 0x022
  | .bfi _ => 0x023
  | .brev _ => 0x024
  | .popc _ => 0x025
  | .clz _ => 0x026
  | .sel _ => 0x027
  | .cmp _ => 0x028
  | .rcp _ => 0x040
  | .rsq _ => 0x041
  | .sqrt _ => 0x042
  | .ex2 _ => 0x043
  | .lg2 _ => 0x044
  | .sin _ => 0x045
  | .cos _ => 0x046
  | .frc _ => 0x047
  | .cvt _ => 0x060
  | .cvq _ => 0x061
  | .cvx _ => 0x062
  | .pack _ => 0x063
  | .unpack _ => 0x064
  | .rng _ => 0x065
  | .ballot _ => 0x080
  | .vany _ => 0x081
  | .vall _ => 0x082
  | .shfl _ => 0x083
  | .bfly _ => 0x084
  | .rdc _ => 0x085
  | .scan _ => 0x086
  | .elect _ => 0x087
  | .bperm _ => 0x088
  | .pset _ => 0x0A0
  | .pand _ => 0x0A1
  | .por _ => 0x0A2
  | .pxor _ => 0x0A3
  | .pget _ => 0x0A4
  | .lget _ => 0x0A5
  | .laneLdt _ => 0x0D0
  | .xadd _ => 0x0D1
  | .xaddi _ => 0x0D2
  | .laneFence _ => 0x0DD
  | .lanePrf _ => 0x0DE
  | .trc _ => 0x0E0
  | .trq _ => 0x0E1
  | .laneLd .slc _ => 0x0C0
  | .laneLd .spd _ => 0x0C1
  | .laneLd .pmem _ => 0x0C2
  | .laneLd .chip _ => 0x0C3
  | .laneLd .glb _ => 0x0C4
  | .laneSt .slc _ => 0x0C8
  | .laneSt .spd _ => 0x0C9
  | .laneSt .pmem _ => 0x0CA
  | .laneSt .chip _ => 0x0CB
  | .laneSt .glb _ => 0x0CC
  | .atom .slc _ => 0x0D3
  | .atom .spd _ => 0x0D4
  | .atom .pmem _ => 0x0D5
  | .atom .chip _ => 0x0D6
  | .atom .glb _ => 0x0D7
  | .red .slc _ => 0x0D8
  | .red .spd _ => 0x0D9
  | .red .pmem _ => 0x0DA
  | .red .chip _ => 0x0DB
  | .red .glb _ => 0x0DC
  | _ => 0

/-- The 96 bits of a lane word (R191). -/
def encLane (op : BitVec 10) (w : LaneWord) : BitVec 96 :=
  op ++ bit1 w.gneg ++ w.guard ++ w.d ++ w.a ++ w.b ++ w.c ++ w.ty.enc ++ w.rnd ++ w.mods ++ bit1 w.last ++ w.sub ++ w.imm

/-- The 32-bit words of a scalar instruction, the extension word second (R182). -/
def encScalar : Instr → List (BitVec 32)
  | .nop => [0x01000000]
  | .sadd d a b => [encSR 2 d a b 0]
  | .ssub d a b => [encSR 2 d a b 1]
  | .smul d a b => [encSR 2 d a b 2]
  | .smulhI32 d a b => [encSR 2 d a b 3]
  | .smulhN32 d a b => [encSR 2 d a b 4]
  | .sand d a b => [encSR 2 d a b 5]
  | .sor d a b => [encSR 2 d a b 6]
  | .sxor d a b => [encSR 2 d a b 7]
  | .sshl d a b => [encSR 2 d a b 8]
  | .sshr d a b => [encSR 2 d a b 9]
  | .ssra d a b => [encSR 2 d a b 10]
  | .sminI32 d a b => [encSR 2 d a b 11]
  | .sminN32 d a b => [encSR 2 d a b 12]
  | .smaxI32 d a b => [encSR 2 d a b 13]
  | .smaxN32 d a b => [encSR 2 d a b 14]
  | .spopc d a => [encSR 2 d a 0 15]
  | .sclz d a => [encSR 2 d a 0 16]
  | .smov d a => [encSR 2 d a 0 17]
  | .scmp c d a b => [encSR 3 (r3 d) a b c.enc]
  | .ssel n c d a b => [encSR 4 d a b ((0 : BitVec 2) ++ bit1 n ++ c)]
  | .sbfx s p l d a => [encSI 5 d a ((0 : BitVec 1) ++ bit1 s ++ l ++ p)]
  | .sbfi p l d a => [encSI 6 d a ((0 : BitVec 2) ++ l ++ p)]
  | .saddImm d a i => [encSI 7 d a i]
  | .sandImm d a i => [encSI 8 d a i]
  | .sorImm d a i => [encSI 9 d a i]
  | .sxorImm d a i => [encSI 0xA d a i]
  | .sshlImm d a i => [encSI 0xB d a (i.setWidth 12)]
  | .sshrImm d a i => [encSI 0xC d a (i.setWidth 12)]
  | .ssraImm d a i => [encSI 0xD d a (i.setWidth 12)]
  | .sli s d i => [encSL 0xE d ((0 : BitVec 1) ++ bit1 s) i]
  | .slih d i => [encSL 0xF d 0 i]
  | .aadd d a b sh => [encSR 0x10 (r4 d) (r4 a) b (sh.setWidth 6)]
  | .aaddImm d a i => [encSI 0x11 (r4 d) (r4 a) i]
  | .alea d a i => [encSR 0x12 (r4 d) (r4 a) 0 0, i]
  | .amov d a => [encSR 0x13 (r4 d) (r4 a) 0 0]
  | .amovN32 d a => [encSR 0x13 (r4 d) a 0 1]
  | .amovI32 d a => [encSR 0x13 (r4 d) a 0 2]
  | .amovLo d a => [encSR 0x13 d (r4 a) 0 3]
  | .amovHi d a => [encSR 0x13 d (r4 a) 0 4]
  | .amovPair d a b => [encSR 0x13 (r4 d) a b 5]
  | .br o => [encSB 0x20 0 o]
  | .brc n c o => [encSB 0x21 (bit1 n ++ c) o]
  | .call o => [encSB 0x22 0 o]
  | .ret => [0x23000000]
  | .callo id en => [encSB 0x24 0 ((0 : BitVec 2) ++ id ++ en)]
  | .reto => [0x25000000]
  | .loop a f => [encSI 0x26 0 a (f.setWidth 12)]
  | .loopi c f => [0x27000000, (0 : BitVec 2) ++ f ++ c]
  | .lbrk => [0x28000000]
  | .split p t j => [(0x29 : BitVec 8) ++ (0 : BitVec 3) ++ p ++ (0 : BitVec 18), (0 : BitVec 12) ++ j ++ t]
  | .join => [0x2A000000]
  | .yield => [0x2B000000]
  | .lrun o => [encSB 0x2C 0 (o.setWidth 20)]
  | .lwait => [0x2D000000]
  | .exit => [0x2E000000]
  | .trap i => [encSL 0x2F 0 0 i]
  | .kick a => [encSR 0x30 0 (r4 a) 0 0]
  | .garrive g a i => [encSI 0x40 (r5 g) a i]
  | .gwait g a q => [encSI 0x41 (r5 g) a ((bit1 q).setWidth 12)]
  | .gsync g a i => [encSI 0x42 (r5 g) a i]
  | .garm g a b c n => [encSR 0x43 (r5 g) a b 0, n ++ c]
  | .gget d g s => [encSI 0x44 d (r5 g) (s.setWidth 12)]
  | .lbar n => [encSI 0x45 0 0 (n.setWidth 12)]
  | .tkt d a c q => [encSI 0x46 d a (c ++ q)]
  | .tktv q => [encSI 0x47 0 0 (q.setWidth 12)]
  | .xfire a i => [encSI 0x48 0 a i]
  | .xwait a i => [encSI 0x49 0 a i]
  | .sget d n => [encSL 0x50 d 0 n]
  | .sset a n => [encSL 0x51 a 0 n]
  | .ovld g a b id s => [encSR 0x52 (r5 g) a b 0, (0 : BitVec 19) ++ s ++ id]
  | .ovq d a i => [encSI 0x53 d a i]
  | .xdrain a => [encSR 0x54 0 (r4 a) 0 0]
  | .xdrainAll => [encSR 0x54 0 0 0 1]
  | .pause n => [encSI 0x55 0 0 n]
  | .brkpt i => [encSL 0x56 0 0 i]
  | .perf d n => [encSI 0x57 d 0 (n.setWidth 12)]
  | .ldSpd m => m.enc 0x60
  | .ldPmem m => m.enc 0x61
  | .ldChip m => m.enc 0x62
  | .ldGlb m => m.enc 0x63
  | .stSpd m => m.enc 0x64
  | .stPmem m => m.enc 0x65
  | .stChip m => m.enc 0x66
  | .stGlb m => m.enc 0x67
  | .ldt m => [encSR 0x68 m.data (r4 m.base) m.tol (bit1 m.dflt ++ (0 : BitVec 1) ++ bit1 m.acq ++ m.size.enc), m.off]
  | .fenceAcq s => [encSR 0x69 0 0 0 ((1 : BitVec 3) ++ Scope.enc (some s))]
  | .fenceRel s => [encSR 0x69 0 0 0 ((2 : BitVec 3) ++ Scope.enc (some s))]
  | .fenceAr s => [encSR 0x69 0 0 0 ((3 : BitVec 3) ++ Scope.enc (some s))]
  | .prf m a o => [encSR 0x6A 0 (r4 a) 0 ((bit1 m).setWidth 6), o]
  | .pres d a i => [encSI 0x6B d a i]
  | .mwin d a b src rot fmt blk mask tp => [encSR 0x70 (r4 d) a b 0,
      tp ++ (0 : BitVec 1) ++ bit1 mask ++ bit1 blk ++ fmt.enc ++ rot ++ src.enc]
  | .mzero d => [encSR 0x71 (r4 d) 0 0 0]
  | .mma d a b => [encSR 0x72 (r4 d) (r4 a) (r4 b) 0]
  | .mmab d a b => [encSR 0x73 (r4 d) (r4 a) (r4 b) 0]
  | .mfence d => [encSR 0x74 d 0 0 0]
  | .mwait a i => [encSI 0x75 0 a i]
  | .mhint a i => [encSI 0x76 0 a i]
  | .maccLd d a sp rot o => [encSR 0x77 (r4 d) a 0 ((0 : BitVec 1) ++ rot ++ sp.enc), o]
  | .maccSt d a sp rot o => [encSR 0x78 (r4 d) a 0 ((0 : BitVec 1) ++ rot ++ sp.enc), o]
  | .mcvt d a ty rnd sat s => [encSR 0x79 (r4 d) (r4 a) 0 ((0 : BitVec 1) ++ ty.enc),
      (0 : BitVec 16) ++ s ++ (0 : BitVec 5) ++ bit1 sat ++ rnd]
  | .bvset g a b m o => encBv 0x80 g a b m o
  | .bvfit g a o => encBv 0x81 g a 0 0 o
  | .bvleaf g a b m o => encBv 0x82 g a b m o
  | .bvnode g a o => encBv 0x83 g a 0 0 o
  | .shp h a o => [encSR 0x88 (r4 h) (r4 a) 0 0, o]
  | .shpCopy h hs a o => [encSR 0x88 (r4 h) (r4 a) (r4 hs) 1, o]
  | .cpy st x => x.enc 0x89 ((0 : BitVec 3) ++ bit1 st)
  | .cpyt st x => x.enc 0x8A ((0 : BitVec 3) ++ bit1 st)
  | .cpyw run x => x.enc 0x8B run
  | .cpyg x => x.enc 0x8C 0
  | .cpys x => x.enc 0x8D 0
  | .cprf m h sc => [encSR 0x8E 0 0 sc ((bit1 m).setWidth 6), (0 : BitVec 28) ++ h]
  | .xdict g bank a o => [encSR 0x8F (r5 g) (r4 a) 0 ((bit1 bank).setWidth 6), o]
  | .xpoll d a i => [encSR 0x90 d a 0 0, i]
  | .rfwd g a b n o => [encSR 0x91 (r5 g) (r4 a) b n, o]
  | .rrecv g q a b => [encSR 0x92 (r5 g) a b (q.setWidth 6), 0]
  | .xinit a o => [encSR 0x93 0 (r4 a) 0 0, o]
  | .xabort a i => [encSR 0x94 0 a 0 0, i]
  | .xstat d a i => [encSR 0x95 d a 0 0, i]
  | _ => []

/-- The words of an instruction in storage order (R181, R182, R191): one or two for a scalar instruction,
three for a lane instruction, its bits [31:0] first; none for a device step. -/
def encode (i : Instr) : List (BitVec 32) :=
  match i.laneWord with
  | some w => let v := encLane i.laneOpcode w; [v.extractLsb' 0 32, v.extractLsb' 32 32, v.extractLsb' 64 32]
  | none => encScalar i

/-- The instruction that words in storage order stand for: three words are a lane word, one or two a
scalar word with its extension. -/
def decodeWords : List (BitVec 32) → Except Bad Instr
  | [w] => if isSX (fMajor w) then .error .illegalOpcode else decodeScalar w 0
  | [w, e] => decodeScalar w e
  | [lo, mid, hi] => decodeLane (hi ++ mid ++ lo)
  | _ => .error .illegalOpcode

/-- The instruction the decoder reads from bits numbered as the opcode table numbers them: up to 64 bits
are a scalar word and its extension word, more are a lane word. -/
def decodeTableWord (nbits w : Nat) : Option Instr :=
  (if nbits ≤ 64 then decodeScalar (BitVec.ofNat 32 w) (BitVec.ofNat 32 (w / 2 ^ 32))
   else decodeLane (BitVec.ofNat 96 w)).toOption

end Sys2Proof
end

