-- ==== Sys2Proof/Machine/State.lean ====
section
/-!
DEFINITION. The state of the machine as plain data: the device, its partitions, launches, teams, groups,
cores, engines and collectives, with the state after reset; and the reasons a step can stop.

Records that software lays out in memory (launch record, partition record, shape record, descriptors)
are held as the bits read, with accessors in Machine/Records.lean.
-/
namespace Sys2Proof.Machine

/-! ### Places -/

/-- Bytes by address in one canonical form: addresses strictly rising, no byte 0 listed. An unlisted
address reads 0 (R73). -/
abbrev Memory := List Host.Cell

/-- A team by partition, launch id and linear team index (R12). -/
structure TRef where
  part : Nat
  lid  : Nat
  team : Nat
  deriving DecidableEq, Repr

/-- One byte of storage: a lane slice byte (lane × 256 + offset, R51), a scratchpad byte of a team after
bank rotation (pair memory offset, R48, R49), a chip scratchpad byte (R53), a physical memory byte with
the key instance the access uses (R415), a byte of a page fetched from a peer (R60), or a lane register
byte (lane × 1024 + byte, R20). -/
inductive Loc where
  | slc (g : GRef) (off : Nat)
  | spd (t : TRef) (off : Nat)
  | chip (off : Nat)
  | mem (pa key : Nat)
  | rem (part peer page off : Nat)
  | lreg (g : GRef) (off : Nat)
  deriving DecidableEq, Repr

/-! ### Fragments, lane queue and groups -/

/-- A valid loop level (R27, R28). -/
structure LoopLevel where
  count : Word
  start : Nat
  fin   : Nat
  slot  : Nat
  deriving DecidableEq, Repr

/-- What an outstanding load or atomic does when it returns (R17, R258, R259, R265): write a scalar or
address register, lane registers from memory (per lane its address and places), or lane registers from old
values already read; `last` tells whether the lane word ends its block. -/
inductive Fill where
  | scalar (size : Size) (sext : Bool) (data : BitVec 6) (va : Nat) (locs : List Loc)
  | lanes (d bytes : Nat) (sext last : Bool) (parts : List (Nat × Nat × List Loc))
  | olds (d bytes : Nat) (last : Bool) (vals : List (Nat × Nat))
  deriving DecidableEq, Repr

/-- A read of one HBM4E bank that a load has queued (R63, R64): its pseudo-channel and bank, the time it starts
unless it must wait longer, in sixths of a nanosecond, and the refresh stall so far. -/
structure BankRead where
  stack : Nat
  pch   : Nat
  bank  : Nat
  at_   : Nat
  stall : Nat
  deriving DecidableEq, Repr

/-- An outstanding load or atomic: what it does when it returns, whether it is a global load (charged refresh stall,
R65), weak (may hit a `.si` copy, R79), the lines it fills as `.si` copies with their pages' priorities, an acquire
wider than `.grp`; whether it acquires at all or the mode of R82 keeps later accesses back, its size in bytes where it
is strong (R81), the stream that issued it and when (the model's counter), the bytes of it performed already (R80), the
bank reads it waits for, the stall of those that have completed, and for a lane load the count of scalar instructions
just after its block's `lrun` and when that block was enqueued (R17); its scope where it is strong, when its address was
known (the model's counter), the bytes that it read before writes of other agents (R70), and the slot of the block whose
last word it is (R165). -/
structure Load where
  fill : Fill
  glb  : Bool
  weak : Bool
  si   : List (Nat × Nat)
  acq  : Bool
  holds : Bool := false
  size : Nat := 0
  st   : Stream := .lane
  at_  : Nat := 0
  got  : List (Loc × Byte) := []
  reads : List BankRead := []
  stall : Nat := 0
  ran  : Word := 0
  blk  : Nat := 0
  scope : Option Scope := none
  since : Nat := 0
  past : List (Loc × Byte) := []
  slot : Option Nat := none
  deriving DecidableEq, Repr

/-- An atomic access of a lane that is not performed yet (R264, R265): its type and operation, its second and third
operands, the lane where its old value is to be returned, and when it issued (the model's counter). -/
structure Rmw where
  ty  : LTy
  op  : Nat
  b   : Nat
  c   : Nat
  to_ : Option Nat
  at_ : Nat
  deriving DecidableEq, Repr

/-- A store, or an atomic access (`rmw`: its bytes stand for its places only), that is not performed yet, in one of the
atomic units of R80: its bytes, its size where it is strong, its scope (none: weak), its request type and its page's
eviction priority and cache level (R76, R57), whether it is visible to the groups of its core (R74); the access it is a
unit of (`ev`), whether another unit of that access has been performed (`cut`), and the bytes that stood in its words
before that (`olds`, R84, R85); for an atomic access the bytes it read before writes of another size, which it does not
write (`past`, R81). -/
structure PStore where
  ws    : List (Loc × Byte)
  scope : Option Scope
  size  : Nat
  req   : Nat
  prio  : Nat
  lvl   : Nat
  early : Bool
  ev    : Nat := 0
  cut   : Bool := false
  olds  : List (Loc × Byte) := []
  past  : List (Loc × Byte) := []
  rmw   : Option Rmw := none
  deriving DecidableEq, Repr

/-- Why a stream does not issue (R29): it is ready; it is parked and looks again at its event when it is
scheduled; it waits at a `join` since an instant (R24); it waits for a load, a page walk of an address of a lane, a
`pause`, the Tambour's copy of a descriptor (R327); it has arrived at a gong phase or launch barrier and
only the wait is left (R205, R224), or it has drained and waits for the partial sums sent until then (R107). -/
inductive Wait where
  | ready
  | parked
  | join (since : Nat)
  | load (l : Load)
  | walk (va lane : Nat)
  | pause
  | xinit (desc : BitVec 512)
  | gong (g : Nat) (q : Bool)
  | lbar (n k : Nat)
  | drain (upTo : Nat)
  deriving DecidableEq, Repr

/-- A fragment (R22, R27); loop levels are listed from the innermost, and the join addresses of the splits it is
in, in PC format, from the innermost. `mark` and `since` are the model's counter and the clock when the instruction
at its PC was first held up: blocks enqueued later are not earlier than it (R17), and a park is timed (R432). `runs`
are the stamps of the queued blocks that come before it in program order (R16, R69). -/
structure Frag where
  slot   : Nat
  pcw    : Nat
  mask   : LaneMask
  solo   : BitVec 64
  depth  : Nat
  joins  : List Nat
  loops  : List LoopLevel
  tokens : BitVec 32
  wait   : Wait
  mark   : Nat := 0
  since  : Nat := 0
  runs   : List Nat := []
  deriving DecidableEq, Repr

/-- The scalar context of a group: what a discarded provisional instruction leaves no trace in (R17, R203): its scalar
registers, window records, fragments and divergence stack (top first) with the ring index of its top entry, to be taken
modulo DSTACK (R27), the clock latch (R189), `sr.ovmiss` (R167) and the count of scalar instructions performed (R231).
`dep` tells for scalar (r), address (64 + r) and condition registers (80 + r) until when values they depend on were
loaded, where the group may still read older values (R70). -/
structure Ctx where
  s       : Vector Word 64
  a       : Vector Addr 16
  c       : Vector Bool 8
  mw      : Vector (BitVec 128) 16
  f0      : Option Frag
  f1      : Option Frag
  stack   : List Frag
  top     : Int
  clockHi : Word
  ovCount : BitVec 16
  ovLast  : BitVec 8
  perf0   : Word
  dep     : List (Nat × Nat) := []
  deriving DecidableEq, Repr

/-- A lane queue entry (R14): its block, the next lane word, the mask, the captured registers, the
position of its `lrun`, what its current word waits for, the scalar context just after the `lrun`,
to which a trap of the block returns (R17), when it was enqueued (the model's counter), and until when values that the
captured registers depend on were loaded (`dep`, R70). -/
structure Entry where
  slot   : Nat
  start  : Nat
  word   : Nat
  mask   : LaneMask
  capS   : Vector Word 64
  capA   : Vector Addr 16
  frag   : Bool
  lrunAt : Nat
  wait   : Wait
  after  : Ctx
  at_    : Nat := 0
  dep    : List (Nat × Nat) := []
  deriving DecidableEq, Repr

/-- A structure binding (R301). -/
inductive Binding where
  | unbound
  | pending (op : Nat)
  | bound (root nnodes : Nat)
  deriving DecidableEq, Repr

/-- A matrix batch (R286, R287): its number once closed, operations not complete, flags gathered. -/
structure Batch where
  num   : Option (BitVec 4)
  left  : Nat
  flags : BitVec 5
  deriving DecidableEq, Repr

/-- Why a group is halted (R30): a trap, with its code, the gong of a `GONG_FAULT`, and the stream that
trapped (R431); or a pre-emption or migration. -/
inductive Halt where
  | trap (code gong : Nat) (st : Stream)
  | move
  deriving DecidableEq, Repr

/-- States of a group (R29): LOADING, and whether it was halted for a trap before a save or migration;
ACTIVE and PARKED are one here, told apart by the fragments' waits. -/
inductive GState where
  | loading (h : Option Halt)
  | live
  | halted (h : Halt)
  | saved (h : Option Halt)
  | done
  deriving DecidableEq, Repr

/-- A group (R19, R301, R286, R131, R65, R231); `seat` is its issue slot (R13). `loads` are loads that have not
returned and no longer hold up their stream, oldest first; `stores` are its stores that are not performed, oldest
first (R70); `last1` tells which fragment slot issued last (R33), and `turns` when each stream (slot 0, slot 1,
lane) was last scheduled, on the clock (R32). `before` are the bytes that stood where the group has stored since its
last release fence (R85); `seen` bytes that its loads may still read although another agent has written there, with when
it did (the model's counter, R70); `ldep` until when values that lane registers depend on
were loaded, by register; `fetches` the loads of descriptors and records that wait at a bank, of the streams that stand at
the instruction (R64, R220, R319, R327). -/
structure Group where
  ref      : GRef
  core     : Nat
  seat     : Nat
  state    : GState
  ctx      : Ctx
  p        : Vector LaneMask 8
  lregs    : Memory
  slc      : Memory
  queue    : List Entry
  shapes   : Vector (BitVec 512) 16
  binds    : Vector Binding 4
  fflags   : BitVec 5
  memlat   : Word
  perf     : Vector Word 6
  nb       : BitVec 4
  batches  : List Batch
  cpytN    : Nat
  acks     : Nat
  loads    : List Load := []
  stores   : List PStore := []
  last1    : Bool := false
  turns    : Vector Nat 3 := Vector.replicate 3 0
  before   : List (Loc × Byte) := []
  seen     : List (Loc × Byte × Nat) := []
  ldep     : List (Nat × Nat) := []
  fetches  : List Load := []
  deriving DecidableEq, Repr

/-! ### Teams and launches -/

/-- A gong (R137). -/
inductive GMode where
  | unset | count | byte | faulted
  deriving DecidableEq, Repr

structure Gong where
  phase   : Bool
  mode    : GMode
  arrived : Nat
  need    : Nat
  bal     : Int
  real    : Word
  cur     : Word
  bits    : BitVec 64
  deriving DecidableEq, Repr

/-- An accumulator tile of one of the team's cores: its tag and its 16 KiB (R270, R271). -/
structure Tile where
  odd  : Bool
  idx  : Nat
  tag  : BitVec 5
  data : Memory
  deriving DecidableEq, Repr

/-- One slice of a `cpyt` or the whole of another copy (R148, R318 to R324): direction, shape record,
start coordinates, dense end (space and byte offset; for `cpyw` the run) and the group that issued it. -/
inductive CopyKind where
  | tile (st : Bool)
  | window (run : Nat)
  | gather (list n : Nat) (rows : Option (List Nat))
  | scatter (list n : Nat) (rows : Option (List Nat))
  deriving DecidableEq, Repr

structure CopyJob where
  kind  : CopyKind
  shape : BitVec 512
  at_   : List Int
  dsp   : Space
  doff  : Nat
  by_   : GRef
  deriving DecidableEq, Repr

/-- A destination line of a copy: which slice, the space and the 128-byte line number there (in pair memory
for both scratchpad spaces), whether it is finished, counted up (R52), and credited (R144). -/
structure CopyLine where
  slice : Nat
  sp    : Space
  line  : Nat
  done  : Bool
  up    : Bool
  paid  : Bool
  deriving DecidableEq, Repr

/-- A `cpyt` that gathers or has gathered its slices (R322): which of each group's `cpyt` it is, its gong and
its operation. -/
structure Cpyt where
  i    : Nat
  gong : Nat
  op   : Nat
  deriving DecidableEq, Repr

/-- States of a team (R31); QUEUED teams are those a launch has not yet placed. -/
inductive TState where
  | loading | running | migrating | saved | done | killed
  deriving DecidableEq, Repr

/-- A team: where it runs, its admission number (R32), its root's relative slot per core, its scratchpad (pair
memory) with presence counts, gongs, tiles, `cpyt`s; the core it migrates to; and, while it is saved, the
overlay that each used relative slot of a core held (R173). -/
structure Team where
  ref    : TRef
  core   : Nat
  state  : TState
  admission  : Nat
  roots  : List (Nat × Nat)
  spd    : Memory
  pres   : List (Nat × Nat)
  gongs  : List Gong
  tiles  : List Tile
  cpyts  : List Cpyt
  moved  : Option Nat
  held   : List (Nat × Nat × Nat)
  deriving DecidableEq, Repr

/-- A ticket queue of a launch (R152 to R154): CAP and SLOTB once the header has been read, the
counters, the turn that is open, later turns already closed, turns asked to close when their engine
reservations are complete, whether a reservation was granted, and the header write of the closing turn:
none, in flight (false), or faulted (true). -/
structure TQueue where
  hdr     : Option (Nat × Nat)
  next    : Nat
  drop    : Nat
  turn    : Nat
  closed  : List Nat
  asked   : List Nat
  granted : Bool
  closing : Option Bool
  deriving DecidableEq, Repr

/-- A launch barrier (R145): the phases completed and the groups that have arrived at the open one. -/
structure LBar where
  count : Nat
  here  : List GRef
  deriving DecidableEq, Repr

/-- A launch: read, taken (its order number), or complete with a status (R423, R426). -/
inductive LState where
  | read (q : Nat) (deps : List Nat) (badDone : Bool)
  | taken (order : Nat)
  | complete (status : Nat)
  deriving DecidableEq, Repr

/-- A launch (R34, R385, R329, R428). `lrec` is the launch record once read, `code` the fields GONGS,
NACC, NOVL and TABOFF of its code object's header; `kicker` the launch that kicked it; `next` the next
linear team index to place; `passed` since when its next team has been passed over for want of room, `waited` that it waits
beyond R36's limit; `trace` the cadence
entries (team, core) read or written; `traceBad` the trace writes that have faulted: 0 for the header, i + 1
for entry i; `owed` writes that wait for a line of the host's (R87): 0 the completion word, i + 1 trace write i;
`killed` that a KILL is under way (R425); `headRead` that its record has been read at the head of its queue (R423): into
`lrec`, or with the cause and address of a fault. -/
structure Launch where
  part    : Nat
  lid     : Nat
  state   : LState
  recAt   : Nat
  doneAt  : Nat
  kicker  : Option Nat
  lrec    : BitVec 1024
  gongs   : Nat
  nacc    : Nat
  novl    : Nat
  tab     : Nat
  seqNo   : Option Nat
  next    : Nat
  ended   : Nat
  waited  : Bool
  trace   : List (Nat × Nat)
  traceBad : List Nat
  tq      : Vector TQueue 4
  bars    : Vector LBar 8
  fired   : List Nat
  owed    : List Nat
  killed  : Bool
  passed  : Option Nat := none
  headRead : Option (Option (Nat × Nat)) := none
  deriving DecidableEq, Repr

/-! ### Cores -/

/-- The identity of an overlay (R160). -/
structure OKey where
  part : Nat
  code : Nat
  ovl  : Nat
  deriving DecidableEq, Repr

/-- A request attached to an overlay load (R162): the gong to credit, or a team's root. -/
inductive OReq where
  | gong (g : GRef) (n : Nat) (loads : Bool)
  | root (t : TRef)
  deriving DecidableEq, Repr

/-- A load of an overlay: its operation handle, its key, the byte offset of its table entry, its
requests, and words that it read before writes that raced with it (R85). -/
structure OLoad where
  id   : Nat
  key  : OKey
  tab  : Nat
  reqs : List OReq
  got  : List (Loc × Byte) := []
  deriving DecidableEq, Repr

/-- A resident copy: its key and the words the load read (SWORDS and LWORDS are their numbers, R158). -/
structure Image where
  key    : OKey
  scalar : List Word
  lane   : List (BitVec 96)
  loaded : Nat
  bad    : List (Bool × Nat)
  deriving DecidableEq, Repr

/-- Contents of an overlay slot (R161). -/
inductive Slot where
  | empty
  | loading (l : OLoad) (pend : Option OLoad)
  | ready (i : Image)
  | draining (i : Image) (pend : OLoad)
  deriving DecidableEq, Repr

/-- The ramp state of a matrix array (R292). -/
inductive Ramp where
  | down | rampingUp | up | rampingDown
  deriving DecidableEq, Repr

/-- A matrix operation accepted (R289): what it computes on its snapshots. -/
inductive MBody where
  | zero (d : Nat)
  | mma (d : Nat) (a b : BitVec 128)
  | mmab (d : Nat) (a b : BitVec 128)
  | ld (d : Nat) (sp : WSrc) (rot off : Nat)
  | st (d : Nat) (sp : WSrc) (rot off : Nat)
  | cvt (d a : Nat) (ty : LTy) (rnd : Nat) (sat : Bool) (s : Int)
  deriving DecidableEq, Repr

structure MOp where
  by_  : GRef
  body : MBody
  got  : List (Loc × Byte) := []
  deriving DecidableEq, Repr

/-- A line of the accumulation buffer (R96): the partial sums of the eight words of the line at PA. -/
structure ALine where
  region : Nat
  line   : Nat
  sums   : Vector (BitVec 128) 8
  deriving DecidableEq, Repr

/-- A magnitude tracker (R96): budget and withheld magnitude in grid units, descriptor copy, ASK. -/
structure Tracker where
  region : Nat
  b      : Nat
  m      : Nat
  exp    : Int
  pol    : Bool
  limit  : Nat
  deriving DecidableEq, Repr

/-- A line of an L1 (R57, R76 to R79): its line number and key instance, the page's eviction priority, the bytes of
it that this L1 owns, whether it holds a tracked copy of all of it, and, for an untracked `.si` copy, its bytes. -/
structure L1Line where
  line : Nat
  key  : Nat
  prio : Nat
  own  : BitVec 128
  full : Bool
  si   : Option (List Byte)
  deriving DecidableEq, Repr

/-- A line of an L2 slice (R57): its line number, the page's eviction priority, and whether it holds dirty data. -/
structure L2Line where
  line  : Nat
  prio  : Nat
  dirty : Bool
  deriving DecidableEq, Repr

/-- A line of a memory-side cache (R57): its 2 KiB line, its way, the page's eviction priority, and the sectors that
are valid, dirty and touched since it was brought in. -/
structure MLine where
  chunk   : Nat
  way     : Nat
  prio    : Nat
  valid   : BitVec 32
  dirty   : BitVec 32
  touched : BitVec 32
  deriving DecidableEq, Repr

/-- An issue slot's choice on one side (R32): its slot and side, the cycle after the one it last issued in (0: none), and
its pointer among groups of equal age, as the place of the group it chose last. -/
structure Arbiter where
  seat : Nat
  lane : Bool
  last : Nat
  ptr  : Nat
  deriving DecidableEq, Repr

/-- A core: overlay slots by absolute number, replayed loads that wait for a slot (with the one they had), matrix array
with the clock when a product was last accepted (`fed`) and last ended (`ran`), accumulation buffer and trackers (most
recently used first), regions with an outstanding budget request and the budget returned by BRET since it was sent, its
L1 (most recently used first), its issue slots' arbiters, bad words in its arrays, and the uncorrectable errors found in
them since the start (R459, R462). -/
structure Core where
  id    : Nat
  slots : List (Nat × Slot)
  waits : List (Nat × OLoad)
  ramp  : Ramp
  hold  : Nat
  fed   : Nat
  ran   : Nat
  mops  : List MOp
  abuf  : List ALine
  trk   : List Tracker
  asks  : List (Nat × Nat)
  l1    : List L1Line
  arbs  : List Arbiter
  flaws : Nat
  ueAt  : List Nat
  ceAt  : List Nat
  deriving DecidableEq, Repr

/-! ### Engines -/

/-- A traversal position (R309): node address, level, next child (of the node being visited: 1 once its box
tests have been counted), and the instance record entered. -/
structure Node where
  at_  : Nat
  k    : Nat
  s    : Nat
  inst : Option Nat
  deriving DecidableEq, Repr

/-- The best hit so far (R307): its exact t, u and v, instance, primitive and side. -/
structure Best where
  t    : Rat
  u    : Rat
  v    : Rat
  inst : Nat
  prim : Nat
  back : Bool
  deriving DecidableEq, Repr

/-- Traversal state of a lane (R309, R312): stack (top first), trail, dropped, tcur as the best hit's t,
the hit record so far, box tests, restarts, the pairs found and reserved, and where a leaf's box records are being
tested: the next one's address, how many are left, and the leaf's child index. -/
structure Trav where
  stack   : List Node
  trail   : List Nat
  dropped : Bool
  here    : Option Node
  best    : Option Best
  nbox    : Nat
  rst     : Nat
  first   : Option Nat
  count   : Nat
  dropN   : Nat
  leaf    : Option (Nat × Nat × Nat) := none
  deriving DecidableEq, Repr

/-- One lane of a ray operation: its eight operand words, its slot offset, its traversal, finished. -/
structure RayLane where
  lane : Nat
  v    : Vector Word 8
  slot : Nat
  t    : Trav
  fin  : Bool
  deriving DecidableEq, Repr

/-- Engine operations in flight (R66). -/
inductive OpBody where
  | copy (slices : List CopyJob) (lines : List CopyLine) (started : Bool)
  | bvset (bind : Nat) (va : Nat)
  | ray (query any : Bool) (bind : Binding) (mask : Nat) (q : Nat) (lanes : List RayLane)
  | refit (node : Bool) (va root nnodes : Nat) (left : Option Nat)
  | bvleaf (src dst count done : Nat)
  | xdict (bank : Bool) (va : Nat)
  | rfwd (va rank n sent acked : Nat)
  | rrecv (q rank n done : Nat)
  deriving DecidableEq, Repr

/-- An engine operation: its handle (OPID), issuing group, core, gong, whether it has faulted, and words that it read
before writes that raced with it (R85). -/
structure Op where
  id    : Nat
  by_   : GRef
  core  : Nat
  gong  : Nat
  fault : Bool
  body  : OpBody
  got   : List (Loc × Byte) := []
  deriving DecidableEq, Repr

/-! ### Budget homes (R94, R98 to R101) -/

/-- Who asked for a quiet: a stream for the instruction it stands at (`n`); nobody, once the asker is gone. -/
inductive Asker where
  | stream (g : GRef) (st : Stream) (n : Nat)
  | op (id : Nat)
  | seq (coll num : Nat)
  | host (addr : Nat)
  | lock
  | nobody
  deriving DecidableEq, Repr

/-- Work of a budget home, in arrival order: a budget request, a return of budget, or a quiet at a tolerance that
leaves out one core (R104) or none (R105, R420). -/
inductive HJob where
  | breq (core min want : Nat)
  | bret (core ret : Nat)
  | quiet (id : Nat) (who : Asker) (tau : Nat) (but : Option Nat)
  deriving DecidableEq, Repr

/-- Budget messages in flight (R98); a KACK or BRET arrives after the partial sums sent until then. -/
inductive BMsg where
  | breq (core min want : Nat)
  | bgrant (core b : Nat)
  | bdeny (core : Nat)
  | drain (core : Nat)
  | split (core : Nat)
  | kack (core ret upTo : Nat)
  | bret (core ret upTo : Nat)
  deriving DecidableEq, Repr

/-- A drained partial sum or direct addition on its way to its data home (R97, R99, R107), and when it was
sent. -/
structure Partial where
  core   : Nat
  region : Nat
  word   : Nat
  n      : BitVec 128
  sent   : Nat
  deriving DecidableEq, Repr

/-- The budget home of a region: granted budgets, jobs, the KACKs its head job waits for, messages in
flight, quiets that are complete, locked (R420), and the descriptor copy (R93). -/
structure Home where
  region : Nat
  b      : List (Nat × Nat)
  jobs   : List HJob
  await  : Option (List Nat)
  msgs   : List BMsg
  quiet  : List Asker
  locked : Bool
  desc   : Option (BitVec 256)
  deriving DecidableEq, Repr

/-! ### Collectives (R327 to R345) -/

/-- A message this rank sent and keeps until it is acknowledged (R340). -/
structure Sent where
  at_  : SlotRef
  dest : Nat
  body : MsgBody
  deriving DecidableEq, Repr

/-- A chunk of a sequence: fired on this rank, the schedule steps done (log 17), the data it holds, its
result written, and words of its source that were read before writes that raced with it (R85, R330). -/
structure Chunk where
  c     : Nat
  fired : Bool
  step  : Nat
  acc   : Option MsgBody
  final : Bool
  got   : List (Loc × Byte) := []
  deriving DecidableEq, Repr

/-- A sequence on this rank (R329, R339 to R342, R473): its number and run, the descriptor it started
with, CHUNK, RTILE and launch, its chunks, messages in their receive slots with their runs, retained
copies, NACKs sent in a row, the commit message held, the flags, the status, the lowest lost rank, the status
and lost rank it ends with once its result header is written, whether it waits for a REPLAY, the greatest run seen in
a message (R341), whether it has started here (R343), and the run and status of an abort notice that came before this rank
began that run (R341). -/
structure Seq where
  num     : Nat
  run     : Nat
  desc    : Option (BitVec 512)
  chunkB  : Nat
  rtile   : Nat
  lid     : Option Nat
  chunks  : List Chunk
  rx      : List (Nat × SlotRef × MsgBody)
  sent    : List Sent
  nacks   : List (SlotRef × Nat)
  commit  : Option (Nat × BitVec 3)
  flags   : BitVec 3
  status  : Nat
  lost    : Nat
  ending  : Option (Nat × Nat)
  held    : Bool
  seen    : Nat
  begun   : Bool
  told    : Option (Nat × Nat) := none
  deriving DecidableEq, Repr

/-- A collective of a partition (R449): its record, descriptor, sequence count, sequences, the number of
the most recently finished one, lost ranks, loss notices not acknowledged yet (lost rank and receiver, R341),
dictionary banks (bank × 2048 + byte). For remote work (R345):
per sender the records in the mailbox, those released and the NACKs sent in a row for one; per receiver the
records sent and those it has released; and the sent records not acknowledged, with their operations. -/
structure Coll where
  crec    : BitVec 512
  desc    : Option (BitVec 512)
  count   : Nat
  seqs    : List Seq
  last    : Option Nat
  lost    : List Nat
  notices : List (Nat × Nat)
  dict    : Memory
  rxHeld  : List (Nat × Nat)
  rxTaken : List (Nat × Nat)
  rxNacks : List (Nat × Nat × Nat)
  txCount : List (Nat × Nat)
  txFree  : List (Nat × Nat)
  txKept  : List (Nat × Nat × Nat × List Byte)
  deriving DecidableEq, Repr

/-! ### Partitions -/

/-- States of a partition (R412); a partition in NONE is not listed. -/
inductive PState where
  | active | suspending | suspended | destroying
  deriving DecidableEq, Repr

/-- What an open fault record is about (R431). -/
inductive About where
  | group (g : GRef)
  | engine (op : Nat)
  | overlay (core : Nat) (slot : Nat) (l : OLoad)
  | seq (coll seq : Nat)
  | trace (lid i : Nat)
  | ticket (lid q : Nat)
  deriving DecidableEq, Repr

/-- An open fault record (R429 to R431). -/
structure FaultRec where
  seq   : Nat
  about : About
  bits  : BitVec 512
  deriving DecidableEq, Repr

/-- A posting that waits for room, or is held in the save image (R429; `held`). -/
structure Posting where
  about : Option About
  bits  : BitVec 512
  held  : Bool := false
  deriving DecidableEq, Repr

/-- A TLB entry (R444): a virtual page, its size in bytes, and the leaf it was filled from. -/
structure TlbEntry where
  va   : Nat
  size : Nat
  pte  : BitVec 64
  deriving DecidableEq, Repr

/-- A GO/DONE register set (R440). -/
structure Door where
  busy : Option (BitVec 24)
  arg0 : Nat
  arg1 : Nat
  done : Word
  deriving DecidableEq, Repr

/-- A partition (R412, R414). `prec` is its record, `key` its key instance (a fresh one for each PART_CREATE),
`cmd` the command in progress with its code, `saveAt` the save area in use with the cycle the save began in and
the number of its image; `stale` the translations a shootdown in progress removes, `descs` the entries of levels 0 to 2
in the walk caches (R444). -/
structure Part where
  id      : Nat
  state   : PState
  prec    : BitVec 1024
  key     : Nat
  grans   : List Nat
  cmd     : Option (Nat × Cmd)
  nextSeq : Nat
  recs    : List FaultRec
  posts   : List Posting
  heads   : List (Nat × Nat × List (Nat × BitVec 512))
  rot     : Nat
  orders  : Nat
  kicks   : Nat
  place   : Nat
  results : List (Nat × Nat)
  unplace : Nat
  homes   : List Home
  tlb     : List TlbEntry
  stale   : List TlbEntry
  remote  : List (Nat × Nat × Nat × List Byte)
  fetch   : List (Nat × Nat × Nat × Nat)
  nethdr  : BitVec 512
  colls   : List Coll
  saveAt  : Option (Nat × Nat × Nat)
  mixed   : List (Nat × Nat × GRef)
  descs   : List TlbEntry := []
  deriving DecidableEq, Repr

/-! ### The device -/

/-- A pseudo-channel (R62, R63), with times in sixths of a nanosecond: scheduled refreshes so far, owed banks (oldest
first; their number is the debt), busy bank groups, when each group's last read completed, banks under refresh with
the ends of their refreshes, banks due whose group or pseudo-channel is under refresh, the end of an all-bank refresh
that runs, a calibration window (R460) and when the last one began, sectors found bad in this patrol pass (R462). -/
structure Pch where
  stack : Nat
  pch   : Nat
  n     : Nat
  owed  : List Nat
  busy  : List Nat
  last  : List (Nat × Nat)
  banks : List (Nat × Nat)
  due   : List Nat
  all_  : Option Nat
  calib : Bool
  calibAt : Nat
  bad   : Nat
  deriving DecidableEq, Repr

/-- The registers of one partition index in BAR0 (R438). -/
structure PartRegs where
  inv     : Door
  dead    : Door
  net     : Door
  rinv    : Door
  invVa   : BitVec 64
  invLen  : BitVec 64
  deadPa  : BitVec 64
  deadN   : Word
  netTab  : BitVec 64
  rinvPeer : Word
  deriving DecidableEq, Repr

/-- CRC retries of a network port (R462): the second of the last one, how many there were in it, and how many consecutive
seconds before it had more than 1000. -/
structure PortCrc where
  port   : Nat
  second : Nat
  count  : Nat
  run    : Nat
  deriving DecidableEq, Repr

/-- Device registers and boot state (R438, R439, R454 to R458, R463, R465): `flash` is the image in the boot flash,
`stage1` the one the last start booted; `declaring` the ranges of DEAD declarations in progress, with their
partitions, and `raced` the words written there meanwhile (R446); `gateAt` the cycle of the last control step, `sampleAt`
that of the last sample, and `sampled` whether it still calls for a control step (R466); `scrubbed` the ranges of sectors
done in this patrol pass (R460). -/
structure Dev where
  up       : Nat
  failcnt  : Nat
  replace  : Bool
  reason   : BitVec 8
  mrbase   : BitVec 64
  mrlog2   : Word
  mrtail   : Word
  mrhead   : Word
  attAddr  : BitVec 64
  attPart  : Word
  att      : Door
  fwAddr   : BitVec 64
  fwSize   : Word
  fw       : Door
  hkey     : List (Nat × BitVec 8)
  fenceC   : List Nat
  fenceP   : List (Nat × Nat)
  pendC    : List Nat
  fenceN   : List Nat
  badPg    : BitVec 64
  badDue   : Bool
  repCause : Word
  snap     : BitVec 64
  power    : Word
  pwrlim   : Word
  dieTemp  : List (BitVec 16)
  hbmTemp  : List (BitVec 16)
  gate     : Nat
  throt    : BitVec 64
  hbmCe    : BitVec 64
  hbmUe    : BitVec 64
  sramCe   : BitVec 64
  sramUe   : BitVec 64
  scrubP   : BitVec 64
  linkRty  : BitVec 64
  netNack  : BitVec 64
  netLost  : BitVec 64
  trips    : BitVec 64
  tripped  : Bool
  flash    : List Byte
  stage1   : List Byte
  declaring : List (Nat × Nat × Nat)
  raced    : List Nat
  gateAt   : Nat
  sampleAt : Nat
  sampled  : Bool
  portCrc  : List PortCrc
  scrubbed : List (Nat × Nat)
  regs     : Vector PartRegs 8
  deriving DecidableEq, Repr

/-- What leaves the device: a network message, an answer to a host request, an interrupt (R440). -/
inductive Output where
  | send (part coll dest : Nat) (m : Instr)
  | peer (part peer : Nat) (m : Instr)
  | abort (part coll dest seq run status : Nat)
  | hostData (addr : Nat) (bytes : List Byte)
  | hostPoison (addr : Nat)
  | hostDone (addr : Nat)
  | recall (line : Nat)
  | msix (v : Nat)
  deriving DecidableEq, Repr

/-- What the machine is doing: the group and stream that issues (R32). -/
structure Cursor where
  g  : GRef
  st : Stream
  deriving DecidableEq, Repr

/-- The whole machine. `cur`, `script`, `tick`, `pending` and `outbox` are the model's own fields: who
issues, the choices of who moves next, the counter free values are applied to, steps caused from outside,
and what has left the device. `others` are the reads of HBM4E banks that other agents than loads of groups have queued
(R63), and `touched` the lines that a step has such an agent read there, or write (true): it ends empty. -/
structure State where
  cur      : Cursor
  script   : List Nat
  tick     : Nat
  pending  : List Instr
  outbox   : List Output
  clock    : Nat
  mem      : Memory
  skey     : List (Nat × Nat)
  poison   : List Nat
  unwritten : List (Nat × Nat)
  dirty    : List (Nat × Nat)
  l2       : List L2Line
  msc      : List MLine
  pred     : List (Nat × BitVec 32)
  images   : List (Nat × Nat × Nat)
  chip     : Memory
  chipBad  : List Nat
  hostLines : List (Nat × Nat)
  keys     : Nat
  nextId   : Nat
  parts    : List Part
  launches : List Launch
  teams    : List Team
  groups   : List Group
  cores    : List Core
  ops      : List Op
  partials : List (Nat × Partial)
  pchs     : List Pch
  others   : List BankRead
  touched  : List (Nat × Bool)
  dev      : Dev
  deriving DecidableEq, Repr

/-! ### Stops -/

/-- Faults of the model. -/
inductive Fault where
  /-- Raised by every instruction of a stream when the cursor names no live group; no step does that
  (safe: the hardware executes no instruction without a group). -/
  | noIssuer
  deriving DecidableEq, Repr

/-- Refusals of the model. -/
inductive Refusal where
  /-- Raised by the dispatch for an instruction without a meaning yet (safe). -/
  | notModelled (mnemonic : String)
  deriving DecidableEq, Repr

/-! ### Reset -/

/-- A register set of R440 at reset: DONE reads 0. -/
def Door.reset : Door := ⟨none, 0, 0, 0⟩

/-- The device at reset (R439, R440, R463, R465; values the manual does not give: log 7). -/
def Dev.reset : Dev :=
  { up := 0, failcnt := 0, replace := false, reason := 0, mrbase := 0, mrlog2 := 0, mrtail := 0, mrhead := 0,
    attAddr := 0, attPart := 0, att := .reset, fwAddr := 0, fwSize := 0, fw := .reset, hkey := [], fenceC := [],
    fenceP := [], pendC := [], fenceN := [], badPg := 0, badDue := false, repCause := 0, snap := 0, power := 0, pwrlim := 3600000,
    dieTemp := List.replicate 6 0, hbmTemp := List.replicate 8 0, gate := 0, throt := 0, hbmCe := 0, hbmUe := 0,
    sramCe := 0, sramUe := 0, scrubP := 0, linkRty := 0, netNack := 0, netLost := 0, trips := 0, tripped := false,
    flash := [], stage1 := [], declaring := [], raced := [],
    gateAt := 0, sampleAt := 0, sampled := false, portCrc := [], scrubbed := [], regs := Vector.replicate 8 ⟨.reset, .reset, .reset, .reset, 0, 0, 0, 0, 0, 0⟩ }

/-- A core at its power-on state (R415). -/
def Core.reset (k : Nat) : Core :=
  { id := k, slots := [], waits := [], ramp := .down, hold := 0, fed := 0, ran := 0, mops := [], abuf := [], trk := [],
    asks := [], l1 := [], arbs := [], flaws := 0, ueAt := [], ceAt := [] }

/-- A pseudo-channel at reset. -/
def Pch.reset (st c : Nat) : Pch :=
  { stack := st, pch := c, n := 0, owed := [], busy := [], last := [], banks := [], due := [], all_ := none,
    calib := false, calibAt := 0, bad := 0 }

/-- The scalar context of a new group (R21): `a0` is set by the launch. -/
def Ctx.reset : Ctx :=
  { s := Vector.replicate 64 0, a := Vector.replicate 16 0, c := Vector.replicate 8 false, mw := Vector.replicate 16 0,
    f0 := none, f1 := none, stack := [], top := 0, clockHi := 0, ovCount := 0, ovLast := 0, perf0 := 0 }

/-- A gong at reset (R137, R138). -/
def Gong.reset : Gong := ⟨false, .unset, 0, 0, 0, 0, 0, 0⟩

/-- A ticket queue of a new launch. -/
def TQueue.reset : TQueue := ⟨none, 0, 0, 0, [], [], false, none⟩

/-- A new group (R21, R272, R301). -/
def Group.new (r : GRef) (core : Nat) : Group :=
  { ref := r, core := core, seat := 0, state := .loading none, ctx := .reset, p := Vector.replicate 8 0, lregs := [], slc := [],
    queue := [], shapes := Vector.replicate 16 0, binds := Vector.replicate 4 .unbound, fflags := 0, memlat := 0,
    perf := Vector.replicate 6 0, nb := 0, batches := [], cpytN := 0, acks := 0 }

/-- The machine right after reset: BOOTING (R439), the clock 0 (R189), no partition (R412), memory
listing nothing (R73). -/
def State.reset : State :=
  { cur := ⟨⟨0, 0, 0, 0⟩, .frag false⟩, script := [], tick := 0, pending := [], outbox := [], clock := 0, mem := [],
    skey := [], poison := [], unwritten := [], dirty := [], l2 := [], msc := [], pred := [], images := [], chip := [],
    chipBad := [], hostLines := [], keys := 0, nextId := 1, parts := [], launches := [], teams := [], groups := [], cores := [], ops := [], partials := [],
    pchs := [], others := [], touched := [], dev := .reset }

end Sys2Proof.Machine
end

