-- ==== Sys2Proof/Machine/Records.lean ====
section
/-!
DEFINITION. The fields of the records the manual lays out, each accessor with the bits of its table.
-/
namespace Sys2Proof.Machine

/-- Bits hi to lo of a record, as a number. -/
def fld {n : Nat} (r : BitVec n) (hi lo : Nat) : Nat := (r.extractLsb' lo (hi + 1 - lo)).toNat
/-- Bits hi to lo of a record, as a signed number. -/
def sfld {n : Nat} (r : BitVec n) (hi lo : Nat) : Int := (r.extractLsb' lo (hi + 1 - lo)).toInt
/-- A number placed at bit lo of a record. -/
def place (n lo v : Nat) : BitVec n := BitVec.ofNat n v <<< lo

/-- The low n bytes of a number, lowest address first (R4). -/
def leBytes : Nat → Nat → List Byte
  | 0, _ => []
  | n + 1, v => BitVec.ofNat 8 v :: leBytes n (v / 256)
/-- The number that bytes stand for, lowest address first (R4). -/
def ofBytes : List Byte → Nat
  | [] => 0
  | b :: bs => b.toNat + 256 * ofBytes bs

/-! ### Launch record (R34) -/

def lrCode (r : BitVec 1024) : Nat := fld r 63 0
def lrRoot (r : BitVec 1024) : Nat := fld r 71 64
def lrEntry (r : BitVec 1024) : Nat := fld r 81 72
def lrWidthCode (r : BitVec 1024) : Nat := fld r 83 82
/-- Lanes of a group (R11, R34). -/
def lrWidth (r : BitVec 1024) : Nat := 16 * 2 ^ lrWidthCode r
/-- Groups per team. -/
def lrGroups (r : BitVec 1024) : Nat := fld r 89 84 + 1
/-- Lane register bytes per lane. -/
def lrLregs (r : BitVec 1024) : Nat := 64 * (fld r 93 90 + 1)
def lrPair (r : BitVec 1024) : Bool := r.getLsbD 94
def lrCoop (r : BitVec 1024) : Bool := r.getLsbD 95
/-- Scratchpad bytes of a team. -/
def lrSpad (r : BitVec 1024) : Nat := 128 * fld r 109 96
/-- Divergence stack entries; 0 means 16 (R27). -/
def lrDstack (r : BitVec 1024) : Nat := if fld r 117 110 = 0 then 16 else fld r 117 110
def lrDet (r : BitVec 1024) : Nat := fld r 119 118
def lrPlace (r : BitVec 1024) : Nat := fld r 121 120
def lrPrio (r : BitVec 1024) : Nat := fld r 124 122
def lrGx (r : BitVec 1024) : Nat := fld r 159 128
def lrGy (r : BitVec 1024) : Nat := fld r 191 160
def lrGz (r : BitVec 1024) : Nat := fld r 223 192
def lrTeams (r : BitVec 1024) : Nat := lrGx r * lrGy r * lrGz r
def lrPstride (r : BitVec 1024) : Nat := fld r 255 224
def lrPaddr (r : BitVec 1024) : Nat := fld r 319 256
def lrTrace (r : BitVec 1024) : Nat := fld r 383 320
def lrParam (r : BitVec 1024) : Nat := fld r 447 384
def lrColl (r : BitVec 1024) : Nat := fld r 463 448
def lrCmap (r : BitVec 1024) : Nat := fld r 471 464
def lrChunk (r : BitVec 1024) : Nat := fld r 511 480
def lrRtile (r : BitVec 1024) : Nat := fld r 575 512
/-- Base of ticket queue q; 0: absent. -/
def lrTq (r : BitVec 1024) (q : Nat) : Nat := fld r (639 + 64 * q) (576 + 64 * q)
/-- Groups of a pair team on its even core (R11). -/
def lrEven (r : BitVec 1024) : Nat := (lrGroups r + 1) / 2
/-- Pair memory bytes held by the even core (R48). -/
def lrEvenSpad (r : BitVec 1024) : Nat := 128 * ((lrSpad r / 128 + 1) / 2)

/-! ### Partition record (R414) -/

def prPairs (r : BitVec 1024) : BitVec 144 := r.extractLsb' 0 144
def prSlotBase (r : BitVec 1024) : Nat := fld r 148 144
def prNslot (r : BitVec 1024) : Nat := fld r 153 149 + 1
def prKey (r : BitVec 1024) : Nat := fld r 167 160
def prDet (r : BitVec 1024) : Bool := r.getLsbD 168
def prMixDbg (r : BitVec 1024) : Bool := r.getLsbD 169
def prDebug (r : BitVec 1024) : Bool := r.getLsbD 170
def prWdog (r : BitVec 1024) : Nat := fld r 175 171
def prRampUp (r : BitVec 1024) : Nat := fld r 183 176
def prRampDn (r : BitVec 1024) : Nat := fld r 191 184
def prMscWays (r : BitVec 1024) : BitVec 16 := r.extractLsb' 192 16
def prRmWays (r : BitVec 1024) : BitVec 16 := r.extractLsb' 208 16
def prNrdt (r : BitVec 1024) : Nat := fld r 236 224
def prPtRoot (r : BitVec 1024) : Nat := fld r 303 256
def prRdt (r : BitVec 1024) : Nat := fld r 367 320
def prFqBase (r : BitVec 1024) : Nat := fld r 431 384
/-- Fault queue capacity in records. -/
def prFqCap (r : BitVec 1024) : Nat := 2 ^ (fld r 435 432 + 6)
def prGtab (r : BitVec 1024) : Nat := fld r 495 448
def prNgran (r : BitVec 1024) : Nat := fld r 506 496
def prLqtab (r : BitVec 1024) : Nat := fld r 559 512
def prNlq (r : BitVec 1024) : Nat := fld r 566 560
/-- Cores of the partition's pairs, ascending (R472). -/
def prCores (r : BitVec 1024) : List Nat :=
  (List.range 144).flatMap fun k => if (prPairs r).getLsbD k then [2 * k, 2 * k + 1] else []

/-! ### Page table entries (R54, R442) -/

def pteValid (e : BitVec 64) : Bool := e.getLsbD 0
def pteWrite (e : BitVec 64) : Bool := e.getLsbD 1
def pteCode (e : BitVec 64) : Bool := e.getLsbD 2
def pteLevel (e : BitVec 64) : Nat := fld e 4 3
/-- Eviction priority (R54, R57). -/
def ptePrio (e : BitVec 64) : Nat := fld e 9 8
def pteReq (e : BitVec 64) : Nat := fld e 6 5
def pteAcc (e : BitVec 64) : Bool := e.getLsbD 10
def pteDead (e : BitVec 64) : Bool := e.getLsbD 11
def pteRemote (e : BitVec 64) : Bool := e.getLsbD 12
def pteKey (e : BitVec 64) : Nat := fld e 55 48
def pteTable (e : BitVec 64) : Bool := e.getLsbD 63
/-- PA[47:8] of the next-level table. -/
def pteNext (e : BitVec 64) : Nat := 256 * fld e 47 8

/-! ### Shape record (R146) -/

def shBase (r : BitVec 512) : Nat := fld r 63 0
def shRank (r : BitVec 512) : Nat := fld r 66 64
def shEsize (r : BitVec 512) : Nat := fld r 69 67
def shFill (r : BitVec 512) : Nat := fld r 71 70
def shRot (r : BitVec 512) : Nat := fld r 74 72
def shMask (r : BitVec 512) : Bool := r.getLsbD 75
def shSpaceCode (r : BitVec 512) : Nat := fld r 77 76
def shSpace (r : BitVec 512) : Space :=
  match shSpaceCode r with | 0 => .glb | 1 => .chip | 2 => .pmem | _ => .spd
def shFillv (r : BitVec 512) : Nat := fld r 127 96
def shExt (r : BitVec 512) (j : Nat) : Nat := fld r (159 + 32 * j) (128 + 32 * j)
/-- Byte stride of dimension j; dimension 0 is contiguous. -/
def shStr (r : BitVec 512) (j : Nat) : Nat := if j = 0 then 2 ^ shEsize r else fld r (327 + 40 * (j - 1)) (288 + 40 * (j - 1))
/-- Tile box in dimension j, elements. -/
def shBox (r : BitVec 512) (j : Nat) : Nat := fld r (455 + 8 * j) (448 + 8 * j) + 1
def shRow (r : BitVec 512) : Nat := shBox r 0 * 2 ^ shEsize r
/-- Rows of the tile box. -/
def shRows (r : BitVec 512) : Nat := shBox r 1 * shBox r 2 * shBox r 3 * shBox r 4
def shTile (r : BitVec 512) : Nat := shRow r * shRows r

/-! ### Window record (R272) -/

def mwBase (w : BitVec 128) : Nat := fld w 31 0
def mwRpitch (w : BitVec 128) : Nat := fld w 47 32
def mwSoff (w : BitVec 128) : Nat := fld w 63 48
def mwSrc (w : BitVec 128) : WSrc := match fld w 65 64 with | 0 => .spd | 1 => .pmem | _ => .lreg
def mwRot (w : BitVec 128) : Nat := fld w 68 66
def mwFmt (w : BitVec 128) : Nat := fld w 73 69
def mwBlk (w : BitVec 128) : Bool := w.getLsbD 74
def mwMask (w : BitVec 128) : Bool := w.getLsbD 75
def mwValid (w : BitVec 128) : Bool := w.getLsbD 76
def mwTpitch (w : BitVec 128) : Int := sfld w 95 77

/-! ### Region descriptor (R92) -/

def rdExp (r : BitVec 256) : Int := sfld r 15 0
def rdValid (r : BitVec 256) : Bool := r.getLsbD 16
def rdPol (r : BitVec 256) : Bool := r.getLsbD 17
def rdDtol (r : BitVec 256) : Nat := fld r 23 18
def rdNpages (r : BitVec 256) : Nat := fld r 63 32
def rdPage0 (r : BitVec 256) : Nat := fld r 95 64
def rdLimit (r : BitVec 256) : Nat := fld r 191 128

/-! ### Collective descriptor (R327) and records (R449) -/

def cdMode (r : BitVec 512) : Nat := fld r 3 0
def cdSched (r : BitVec 512) : Nat := fld r 5 4
def cdGather (r : BitVec 512) : Bool := r.getLsbD 6
def cdRestart (r : BitVec 512) : Bool := r.getLsbD 7
def cdBf16 (r : BitVec 512) : Bool := r.getLsbD 8
def cdTslot (r : BitVec 512) : Nat := fld r 31 16
def cdExp (r : BitVec 512) : Int := sfld r 47 32
def cdRoot (r : BitVec 512) : Nat := fld r 63 48
def cdBytes (r : BitVec 512) : Nat := fld r 95 64
def cdTimer (r : BitVec 512) : Nat := fld r 127 96
def cdSrcOff (r : BitVec 512) : Nat := fld r 191 128

def crId (r : BitVec 512) : Nat := fld r 15 0
def crRank (r : BitVec 512) : Nat := fld r 28 16
def crN (r : BitVec 512) : Nat := fld r 45 32
def crWin (r : BitVec 512) : Nat := fld r 55 48 + 1
def crHeap (r : BitVec 512) : Nat := fld r 127 64
def crHeapSz (r : BitVec 512) : Nat := 65536 * fld r 159 128
def crNchMax (r : BitVec 512) : Nat := fld r 175 160
def crSlotSz (r : BitVec 512) : Nat := 64 * fld r 191 176
def crRx (r : BitVec 512) : Nat := fld r 239 192
def crMbox (r : BitVec 512) : Nat := fld r 303 256
def crRankPa (r : BitVec 512) : Nat := fld r 367 320

def nhPortW (r : BitVec 512) (j : Nat) : Nat := fld r (8 * j + 7) (8 * j)
def nhPeerPa (r : BitVec 512) : Nat := fld r 175 128
def nhNpeer (r : BitVec 512) : Nat := fld r 189 176
def nhExpPa (r : BitVec 512) : Nat := fld r 239 192
def nhExpN (r : BitVec 512) : Nat := fld r 258 240
def nhNcoll (r : BitVec 512) : Nat := fld r 271 264

/-! ### Link word (R166) -/

/-- Link(T, w, o). DESIGN CHOICE (log 106): the return offset 1024 of a call at word 1023 wraps to 0 in its 10-bit field. -/
def link (t : Bool) (w o : Nat) : Word :=
  place 32 0 (if t then 1 else 0) ||| place 32 2 (w % 1024) ||| place 32 12 (o % 256)
def linkT (l : Word) : Bool := l.getLsbD 0
def linkPcw (l : Word) : Nat := fld l 11 2
def linkOvl (l : Word) : Nat := fld l 19 12

end Sys2Proof.Machine
end

