-- ==== Sys2Proof/Machine/Ops.lean ====
section
/-!
DEFINITION. The named operations over memory, registers, fragments and records; taking a trap, posting
its fault record, and the return from it.
-/
namespace Sys2Proof

/-- The team of a group. -/
def GRef.tref (r : GRef) : Machine.TRef := ⟨r.part, r.lid, r.team⟩
/-- The fragment slot of a scalar stream. -/
def Stream.slot1 : Stream → Bool
  | .frag b => b
  | .lane => false

namespace Machine

/-- What a meaning answers. -/
abbrev Out := Host.Outcome State Fault Refusal

/-! ### Memory -/

/-- The byte at an address. -/
def Memory.rd : Memory → Nat → Byte
  | [], _ => 0
  | (a, b) :: m, k => if a = k then b else Memory.rd m k

/-- Places an entry before the first greater address. -/
def Memory.ins : Memory → Nat → Byte → Memory
  | [], k, v => [(k, v)]
  | (a, b) :: m, k, v => if k < a then (k, v) :: (a, b) :: m else (a, b) :: Memory.ins m k v

/-- Memory with the byte at an address replaced; a byte 0 is not listed. -/
def Memory.wr (m : Memory) (k : Nat) (v : Byte) : Memory :=
  let r := m.filter fun c => c.1 ≠ k
  if v = 0 then r else Memory.ins r k v

/-- The canonical form: addresses strictly rising, no byte 0 listed. -/
def Memory.wf : Memory → Bool
  | [] => true
  | (a, b) :: m => b != 0 && m.all (fun c => a < c.1) && Memory.wf m

/-- n bytes from an address. -/
def Memory.rds (m : Memory) (a n : Nat) : List Byte := (List.range n).map fun i => Memory.rd m (a + i)
/-- Memory with consecutive bytes replaced from an address. -/
def Memory.wrs (m : Memory) (a : Nat) : List Byte → Memory
  | [] => m
  | b :: bs => Memory.wrs (Memory.wr m a b) (a + 1) bs

/-! ### Words and lines of places -/

/-- The first place of the aligned word of a place, and a place further on. -/
def Loc.word : Loc → Loc
  | .slc g o => .slc g (o / 4 * 4)
  | .spd t o => .spd t (o / 4 * 4)
  | .chip o => .chip (o / 4 * 4)
  | .mem a k => .mem (a / 4 * 4) k
  | .rem p i g o => .rem p i g (o / 4 * 4)
  | .lreg g o => .lreg g (o / 4 * 4)
def Loc.plus (i : Nat) : Loc → Loc
  | .slc g o => .slc g (o + i)
  | .spd t o => .spd t (o + i)
  | .chip o => .chip (o + i)
  | .mem a k => .mem (a + i) k
  | .rem p x g o => .rem p x g (o + i)
  | .lreg g o => .lreg g (o + i)
/-- A number for a place, to apply a free choice to. -/
def Loc.number : Loc → Nat
  | .spd _ o => o | .mem a _ => 2 ^ 20 + a | .chip o => 2 ^ 60 + o | .slc _ o | .lreg _ o | .rem _ _ _ o => 2 ^ 61 + o
/-- Two places lie in one line of 128 bytes. -/
def Loc.sameLine : Loc → Loc → Bool
  | .spd t o, .spd u x => t == u && o / 128 == x / 128
  | .chip o, .chip x => o / 128 == x / 128
  | .mem a k, .mem b j => k == j && a / 128 == b / 128
  | x, y => x == y
/-- The byte listed for a place. -/
def byteAt (l : List (Loc × Byte)) (x : Loc) : Option Byte := (l.find? fun e => e.1 = x).map (·.2)
/-- A store writes in the word of a place. -/
def PStore.touches (w : PStore) (l : Loc) : Bool := w.ws.any fun e => e.1.word = l.word

/-! ### Association lists -/

/-- The value under a key, or a default. -/
def getKey (l : List (Nat × Nat)) (k d : Nat) : Nat := ((l.find? fun e => e.1 = k).map (·.2)).getD d
/-- The list with one value under a key. -/
def setKey (l : List (Nat × Nat)) (k v : Nat) : List (Nat × Nat) := (k, v) :: l.filter fun e => e.1 ≠ k

/-- A telemetry counter after n more events: it saturates (R465). -/
def satAdd (c : BitVec 64) (n : Nat) : BitVec 64 := BitVec.ofNat 64 (Nat.min (c.toNat + n) (2 ^ 64 - 1))

/-! ### Looking up and replacing parts of the state -/

namespace State
def group? (s : State) (r : GRef) : Option Group := s.groups.find? fun g => g.ref = r
/-- Replaces the group of that name. -/
def setGroup (s : State) (g : Group) : State :=
  { s with groups := s.groups.map fun h => if h.ref = g.ref then g else h }
def team? (s : State) (r : TRef) : Option Team := s.teams.find? fun t => t.ref = r
def setTeam (s : State) (t : Team) : State :=
  { s with teams := s.teams.map fun u => if u.ref = t.ref then t else u }
def launch? (s : State) (part lid : Nat) : Option Launch :=
  s.launches.find? fun l => l.part = part ∧ l.lid = lid
def setLaunch (s : State) (l : Launch) : State :=
  { s with launches := s.launches.map fun m => if m.part = l.part ∧ m.lid = l.lid then l else m }
def part? (s : State) (p : Nat) : Option Part := s.parts.find? fun q => q.id = p
def setPart (s : State) (p : Part) : State :=
  { s with parts := s.parts.map fun q => if q.id = p.id then p else q }
/-- A core not listed is at its power-on state. -/
def core (s : State) (k : Nat) : Core := (s.cores.find? fun c => c.id = k).getD (Core.reset k)
def setCore (s : State) (c : Core) : State :=
  { s with cores := c :: s.cores.filter fun d => d.id ≠ c.id }
def op? (s : State) (i : Nat) : Option Op := s.ops.find? fun o => o.id = i
def setOp (s : State) (o : Op) : State :=
  { s with ops := s.ops.map fun q => if q.id = o.id then o else q }
def dropOp (s : State) (i : Nat) : State := { s with ops := s.ops.filter fun o => o.id ≠ i }
def pch (s : State) (st c : Nat) : Pch :=
  (s.pchs.find? fun p => p.stack = st ∧ p.pch = c).getD (Pch.reset st c)
def setPch (s : State) (p : Pch) : State :=
  { s with pchs := p :: s.pchs.filter fun q => ¬(q.stack = p.stack ∧ q.pch = p.pch) }
/-- Groups of a team. -/
def teamGroups (s : State) (t : TRef) : List Group := s.groups.filter fun g => g.ref.tref = t
def send (s : State) (o : Output) : State := { s with outbox := s.outbox ++ [o] }
/-- A fresh handle. -/
def fresh (s : State) : State := { s with nextId := s.nextId + 1 }
/-- A free bit of this step. -/
def bit (s : State) (k : Nat) : Bool := Config.freeBit s.tick k
end State

/-! ### The HBM4E address map (R61) -/

/-- Stack-local page index. -/
def hbmL (pa : Nat) : Nat := pa / 2 ^ 19
/-- Bits hi to lo of an address. -/
def bitsOf (x hi lo : Nat) : Nat := x / 2 ^ lo % 2 ^ (hi + 1 - lo)
def hbmStack (pa : Nat) : Nat :=
  bitsOf pa 18 16 ^^^ bitsOf pa 21 19 ^^^ bitsOf pa 24 22 ^^^ bitsOf pa 27 25 ^^^ bitsOf pa 30 28 ^^^
  bitsOf pa 33 31 ^^^ bitsOf pa 36 34 ^^^ bitsOf pa 38 37
def hbmHalf (pa : Nat) : Nat := hbmL pa % 2
def hbmK (pa : Nat) : Nat := hbmL pa / 2 * 32 + bitsOf pa 15 11
def hbmPch (pa : Nat) : Nat := 80 * hbmHalf pa + hbmK pa % 80
def hbmQ (pa : Nat) : Nat := hbmK pa / 80
def hbmBg (pa : Nat) : Nat := (hbmQ pa % 4) ^^^ (hbmQ pa / 16 % 4)
def hbmBank (pa : Nat) : Nat := 4 * hbmBg pa + hbmQ pa / 4 % 4
def hbmRow (pa : Nat) : Nat := hbmQ pa / 16
/-- The home slice of a line on its die (R57). -/
def homeSlice (pa : Nat) : Nat :=
  bitsOf pa 11 7 ^^^ bitsOf pa 16 12 ^^^ bitsOf pa 21 17 ^^^ bitsOf pa 26 22 ^^^ bitsOf pa 31 27 ^^^
  bitsOf pa 36 32 ^^^ bitsOf pa 41 37 ^^^ bitsOf pa 46 42
/-- HBM4E holds the address (R436). -/
def isHbm (pa : Nat) : Bool := pa < 2 ^ 39
/-- Host memory holds the address (R436). -/
def isHost (pa : Nat) : Bool := 2 ^ 47 ≤ pa ∧ pa < 2 ^ 48
/-- The home die of a line: that of its stack, or die 0 for host memory (R61, R436). -/
def homeDie (pa : Nat) : Nat := if isHbm pa then hbmStack pa / 2 else 0

/-! ### Reading and writing one byte -/

/-- A 2 KiB chunk is unwritten (R59). -/
def chunkUnwritten (l : List (Nat × Nat)) (c : Nat) : Bool := l.any fun r => r.1 ≤ c ∧ c < r.1 + r.2
/-- Takes a byte out of the ranges that hold save images. -/
def cutImage : List (Nat × Nat × Nat) → Nat → List (Nat × Nat × Nat)
  | [], _ => []
  | (a, n, i) :: l, x =>
    if a ≤ x ∧ x < a + n then
      (if a < x then [(a, x - a, i)] else []) ++ (if x + 1 < a + n then [(x + 1, a + n - (x + 1), i)] else []) ++ cutImage l x
    else (a, n, i) :: cutImage l x
/-- Takes a chunk out of the unwritten ranges. -/
def chunkWritten : List (Nat × Nat) → Nat → List (Nat × Nat)
  | [], _ => []
  | (a, n) :: l, c =>
    if a ≤ c ∧ c < a + n then
      (if a < c then [(a, c - a)] else []) ++ (if c + 1 < a + n then [(c + 1, a + n - (c + 1))] else []) ++
        chunkWritten l c
    else (a, n) :: chunkWritten l c

namespace State
/-- A pseudo-channel is fenced (R462). -/
def fencedPa (s : State) (pa : Nat) : Bool := isHbm pa && s.dev.fenceP.contains (hbmStack pa, hbmPch pa)

/-- The byte a place holds. An HBM sector written under another key reads as its decryption under this
one (R418), and a byte of a save image as the device wrote it (R434): free values. While its page is being
declared DEAD a word is the old one or 0 (R446). -/
def peek (s : State) : Loc → Byte
  | .slc g o => ((s.group? g).map fun x => Memory.rd x.slc o).getD 0
  | .spd t o => ((s.team? t).map fun x => Memory.rd x.spd o).getD 0
  | .chip o => Memory.rd s.chip o
  | .lreg g o => ((s.group? g).map fun x => Memory.rd x.lregs o).getD 0
  | .rem p i pg o =>
    (((s.part? p).bind fun x => x.remote.find? fun r => r.1 = i ∧ r.2.1 = pg ∧ r.2.2.1 = o / 2048).bind
      fun r => r.2.2.2[o % 2048]?).getD 0
  | .mem pa k =>
    match s.images.find? fun e => e.1 ≤ pa ∧ pa < e.1 + e.2.1 with
    | some e => Config.imageByte e.2.2 pa
    | none =>
      if s.dev.declaring.any (fun d => d.2.1 ≤ pa && pa < d.2.1 + d.2.2) && s.bit (pa / 4) then 0
      else if isHbm pa && getKey s.skey (pa / 64) k != k then Config.freeByte s.tick pa else Memory.rd s.mem pa

/-- A read of the place finds an uncorrectable error or a poison mark (R418, R459, R462). Which word of a core's
arrays is bad is a free value. -/
def bad (s : State) : Loc → Bool
  | .mem pa _ => isHbm pa && (s.poison.contains (pa / 64) || s.fencedPa pa)
  | .chip o => s.chipBad.contains (o / 8)
  | .spd t o => (s.team? t).any fun x => x.roots.any fun e => (s.core e.1).flaws ≠ 0 && s.bit (2000 + o / 8)
  | .slc g o => (s.group? g).any fun x => (s.core x.core).flaws ≠ 0 && s.bit (2000 + o / 8)
  | .lreg g o => (s.group? g).any fun x => (s.core x.core).flaws ≠ 0 && s.bit (2000 + o / 8)
  | .rem _ _ _ _ => false

/-- The marks a write of a physical byte leaves: the key of its sector (of its whole chunk where that was unwritten,
R59), and the sector's data dirty in the caches (R417). A line that the host owns is recalled before it is written
(R77). -/
def markWrite (s : State) (pa k : Nat) : State :=
  let s := { s with images := cutImage s.images pa }
  let s := if s.dev.declaring.any (fun d => d.2.1 ≤ pa && pa < d.2.1 + d.2.2)
    then { s with dev := { s.dev with raced := pa / 4 :: s.dev.raced } } else s
  let c := pa / 2048
  let d : List (Nat × Nat) := setKey s.dirty (pa / 64) k
  if chunkUnwritten s.unwritten c then
    { s with unwritten := chunkWritten s.unwritten c, dirty := d,
             skey := (List.range 32).map (fun i => (32 * c + i, k)) ++ s.skey.filter fun e => e.1 / 32 ≠ c }
  else { s with skey := setKey s.skey (pa / 64) k, dirty := d }

/-- Memory as a write under a key finds it: a sector written under another key holds, under this one, the decryption of its
ciphertext, free values (R418). -/
def rekeyed (s : State) (pa k : Nat) : Memory :=
  if chunkUnwritten s.unwritten (pa / 2048) || getKey s.skey (pa / 64) k == k then s.mem
  else Memory.wrs s.mem (64 * (pa / 64)) ((List.range 64).map fun i => Config.freeByte s.tick (64 * (pa / 64) + i))

/-- The state with the byte of a place replaced. A write to a fenced pseudo-channel is discarded (R462). -/
def poke (s : State) (l : Loc) (b : Byte) : State :=
  match l with
  | .slc g o => { s with groups := s.groups.map fun x => if x.ref = g then { x with slc := Memory.wr x.slc o b } else x }
  | .spd t o => { s with teams := s.teams.map fun x => if x.ref = t then { x with spd := Memory.wr x.spd o b } else x }
  | .chip o => { s with chip := Memory.wr s.chip o b }
  | .lreg g o =>
    { s with groups := s.groups.map fun x => if x.ref = g then { x with lregs := Memory.wr x.lregs o b } else x }
  | .rem _ _ _ _ => s
  | .mem pa k =>
    if isHbm pa then (if s.fencedPa pa then s else { s.markWrite pa k with mem := Memory.wr (s.rekeyed pa k) pa b })
    else { s with mem := Memory.wr s.mem pa b }

def peeks (s : State) (ls : List Loc) : List Byte := ls.map s.peek
/-- Writes bytes to places, in order. -/
def pokeAll (s : State) : List (Loc × Byte) → State
  | [] => s
  | (l, b) :: r => (s.poke l b).pokeAll r
/-- Writes bytes to places, in order; a bad word of the chip scratchpad that is written in whole is good again
(R459). -/
def pokes (s : State) (l : List (Loc × Byte)) : State :=
  if s.chipBad.isEmpty then s.pokeAll l
  else
    let whole := fun (w : Nat) => (List.range 8).all fun i => l.any fun e => e.1 = .chip (8 * w + i)
    { s with chipBad := s.chipBad.filter fun w => !whole w }.pokeAll l

/-- A number read from physical memory under a key instance; the firmware's is 0 (R437). -/
def rdMem (s : State) (pa n k : Nat) : Nat := ofBytes ((List.range n).map fun i => s.peek (.mem (pa + i) k))
def wrMem (s : State) (pa n v k : Nat) : State :=
  s.pokes (((List.range n).zip (leBytes n v)).map fun e => (.mem (pa + e.1) k, e.2))
end State

/-! ### Scalar registers (R19) -/

namespace Ctx
/-- `s0` reads 0. -/
def getS (c : Ctx) (r : SReg) : Word := if r = 0 then 0 else c.s[r.toNat]'r.isLt
/-- A write to `s0` is ignored. -/
def setS (c : Ctx) (r : SReg) (v : Word) : Ctx := if r = 0 then c else { c with s := c.s.set r.toNat v r.isLt }
def getA (c : Ctx) (r : AReg) : Addr := c.a[r.toNat]'r.isLt
def setA (c : Ctx) (r : AReg) (v : Addr) : Ctx := { c with a := c.a.set r.toNat v r.isLt }
def getC (c : Ctx) (r : CReg) : Bool := c.c[r.toNat]'r.isLt
def setC (c : Ctx) (r : CReg) (v : Bool) : Ctx := { c with c := c.c.set r.toNat v r.isLt }
def getMw (c : Ctx) (r : BitVec 4) : BitVec 128 := c.mw[r.toNat]'r.isLt
def setMw (c : Ctx) (r : BitVec 4) (v : BitVec 128) : Ctx := { c with mw := c.mw.set r.toNat v r.isLt }
/-- The fragment of a slot. -/
def frag (c : Ctx) (slot1 : Bool) : Option Frag := if slot1 then c.f1 else c.f0
def setFrag (c : Ctx) (slot1 : Bool) (f : Option Frag) : Ctx :=
  if slot1 then { c with f1 := f } else { c with f0 := f }
end Ctx

/-! ### Program counters and loops (R28) -/

/-- The loop check after an instruction at word `at_` of a slot: the levels left and the next word. -/
def loopCheck (slot at_ : Nat) (next : Nat) : List LoopLevel → List LoopLevel × Nat
  | [] => ([], next)
  | l :: ls =>
    if l.fin = at_ ∧ l.slot = slot then
      if 1 < l.count.toNat then ({ l with count := l.count - 1 } :: ls, l.start) else loopCheck slot at_ next ls
    else (l :: ls, next)

namespace Frag
/-- The fragment after an instruction of n words that does not transfer control. -/
def next (f : Frag) (n : Nat) : Frag :=
  let r := loopCheck f.slot f.pcw (f.pcw + n) f.loops
  { f with loops := r.1, pcw := r.2, wait := .ready }
/-- The fragment after a transfer to a word of a slot. -/
def jump (f : Frag) (slot pcw : Nat) : Frag := { f with slot := slot, pcw := pcw, wait := .ready }
end Frag

namespace Ctx
/-- The fragment of a slot moved past an instruction of n words that has been performed (R231). -/
def retire (c : Ctx) (slot1 : Bool) (n : Nat) : Ctx :=
  match c.frag slot1 with
  | some f => { c.setFrag slot1 (some (f.next n)) with perf0 := c.perf0 + 1 }
  | none => c
/-- The fragment of a slot transferred to a word. -/
def goto (c : Ctx) (slot1 : Bool) (slot pcw : Nat) : Ctx :=
  match c.frag slot1 with
  | some f => { c.setFrag slot1 (some (f.jump slot pcw)) with perf0 := c.perf0 + 1 }
  | none => c
end Ctx

/-! ### Fragments that wait at a join (R23 to R25) -/

/-- A fragment waits at a `join`, since the instant given. -/
def Frag.joinSince (f : Frag) : Option Nat := match f.wait with | .join t => some t | _ => none
/-- Released alone (R24): depth one less, past the `join`. -/
def Frag.release (f : Frag) : Frag := { f.next 1 with depth := f.depth - 1, joins := f.joins.tail }
/-- Fused (R23), in the place of the fragment that waited first. -/
def Frag.fuse (first other : Frag) : Frag :=
  { first.release with mask := first.mask ||| other.mask, tokens := first.tokens ||| other.tokens,
                       runs := first.runs ++ other.runs.filter fun t => !first.runs.contains t }
/-- Two fragments wait at one `join`, at one depth. -/
def Frag.sameJoin (f g : Frag) : Bool := f.slot == g.slot && f.pcw == g.pcw && f.depth == g.depth

namespace Ctx
/-- Resolution of waiting fragments (R24) and pops into a free slot (R25), as often as a row applies;
each pass pops an entry, frees a slot or releases a waiter. -/
def resolve : Nat → Ctx → Ctx
  | 0, c => c
  | n + 1, c =>
    match c.f0, c.f1, c.stack with
    | none, none, [] => c
    | none, f1, e :: st => resolve n { c with f0 := some e, f1 := f1, stack := st, top := c.top - 1 }
    | f0, none, e :: st => resolve n { c with f0 := f0, f1 := some e, stack := st, top := c.top - 1 }
    | some f, none, [] =>
      match f.joinSince with
      | some _ => { c with f0 := some f.release }
      | none => c
    | none, some g, [] =>
      match g.joinSince with
      | some _ => { c with f1 := some g.release }
      | none => c
    | some f, some g, _ =>
      match f.joinSince, g.joinSince with
      | some i, some j =>
        if f.sameJoin g then
          if i ≤ j then resolve n { c with f0 := some (f.fuse g), f1 := none }
          else resolve n { c with f0 := none, f1 := some (g.fuse f) }
        else if g.depth < f.depth ∨ (f.depth = g.depth ∧ i ≤ j) then resolve n { c with f0 := some f.release }
        else resolve n { c with f1 := some g.release }
      | _, _ => c
/-- Passes that suffice: each stack entry can be popped once and each of the two slots released. -/
def settle (c : Ctx) : Ctx := resolve (3 * c.stack.length + 4) c
end Ctx

/-! ### Groups -/

namespace Group
/-- A change of the live scalar context only: what a provisional instruction does (R17). -/
def onCtx (g : Group) (f : Ctx → Ctx) : Group := { g with ctx := f g.ctx }
/-- A change that also stands in the contexts a lane trap would return to: the end of a wait that began
before those blocks were enqueued, or a scalar register a lane instruction writes (R16, R17). -/
def onAll (g : Group) (f : Ctx → Ctx) : Group :=
  { g with ctx := f g.ctx, queue := g.queue.map fun e => { e with after := f e.after } }
/-- Lane predicates: `p7` reads 1 (R19). -/
def getP (g : Group) (r : PReg) : LaneMask := if r = 7 then BitVec.allOnes 64 else g.p[r.toNat]'r.isLt
/-- A write to `p7` is ignored. -/
def setP (g : Group) (r : PReg) (v : LaneMask) : Group := if r = 7 then g else { g with p := g.p.set r.toNat v r.isLt }
/-- Lane register bytes of a lane from a register name, as a number. -/
def lane (g : Group) (l name bytes : Nat) : Nat := ofBytes (Memory.rds g.lregs (1024 * l + 4 * name) bytes)
/-- Writes lane register bytes of a lane. -/
def setLane (g : Group) (l name bytes v : Nat) : Group :=
  { g with lregs := Memory.wrs g.lregs (1024 * l + 4 * name) (leBytes bytes v) }
/-- Adds to a performance counter (R231). -/
def count (g : Group) (n : Fin 6) (v : Nat) : Group := { g with perf := g.perf.set n (g.perf[n] + BitVec.ofNat 32 v) }
/-- ORs flags into `sr.fflags` (R131). -/
def flag (g : Group) (f : BitVec 5) : Group := { g with fflags := g.fflags ||| f }
end Group

/-- The fragment's instruction counts as complete when its group halts (R205): a `pause`, and an `lbar` whose phase
has completed, by the counts of the launch's barriers. -/
def Frag.ends (bars : Nat → Nat) (f : Frag) : Bool :=
  match f.wait with
  | .pause => true
  | .lbar n k => bars n != k
  | _ => false
/-- A halted fragment executes its instruction again (R205); the arrival of a `gsync` stays, and a fragment that
waits at a `join` goes on waiting. -/
def Frag.halted (bars : Nat → Nat) (f : Frag) : Frag :=
  match f.wait with
  | .gong _ _ | .join _ => f
  | _ => if f.ends bars then f.next 1 else { f with wait := .ready }

/-- A wait of an instruction that is performed but for its end. -/
def Wait.begun : Wait → Bool
  | .load _ | .pause | .xinit _ | .gong _ _ | .lbar _ _ | .drain _ => true
  | _ => false

/-- The instruction of n words at which a fragment stands completes with a change of the context, also in
the contexts a lane trap would return to in which it has begun (R17). -/
def Group.finish (g : Group) (slot1 : Bool) (n : Nat) (f : Ctx → Ctx) : Group :=
  let k := fun (c : Ctx) => (f c).retire slot1 n
  { g with ctx := k g.ctx,
           queue := g.queue.map fun e =>
             { e with after := if (e.after.frag slot1).any fun x => x.wait.begun then k e.after else e.after } }

/-- The fragments of a halted group (R30, R205); what counts as complete has been performed (R231). -/
def Ctx.halted (bars : Nat → Nat) (c : Ctx) : Ctx :=
  { c with f0 := c.f0.map (Frag.halted bars), f1 := c.f1.map (Frag.halted bars), stack := c.stack.map (Frag.halted bars),
           perf0 := c.perf0 + BitVec.ofNat 32
             ((c.f0.toList ++ c.f1.toList ++ c.stack).filter (Frag.ends bars)).length }

/-- The lane queue after its head's current word has completed (R14, R231). -/
def Group.nextWord (g : Group) (last : Bool) : Group :=
  let g := g.count 1 1
  match g.queue with
  | e :: es => { g with queue := if last then es else { e with word := e.word + 1, wait := .ready } :: es }
  | [] => g

/-- Lane register values returned by atomics that were performed at issue (R265). -/
def Group.fillOlds (g : Group) (d bytes : Nat) (vals : List (Nat × Nat)) : Group :=
  vals.foldl (fun g e => g.setLane e.1 d bytes e.2) g

/-- The group with an atomic that has issued, but has not returned, held up by it no more: a halt does not repeat it. -/
def Group.returned (g : Group) : Group :=
  match g.queue with
  | e :: _ =>
    match e.wait with
    | .load l => (match l.fill with | .olds _ _ last _ => { g with loads := g.loads ++ [l] }.nextWord last | _ => g)
    | _ => g
  | [] => g

/-- A fragment waits parked (R29, R432). -/
def Wait.parkedNow : Wait → Bool
  | .parked | .join _ | .gong _ _ | .lbar _ _ | .drain _ | .xinit _ => true
  | _ => false

/-- When the instruction at a fragment's PC was first held up: now, where it never was. -/
def Frag.from_ (s : State) (f : Frag) : Nat := if f.wait = .ready then s.tick else f.mark

/-- The fragment holding at its instruction: the hold counts from when it began, and the park from when it was last not
parked (R432). -/
def Frag.hold (s : State) (w : Wait) (f : Frag) : Frag :=
  { f with wait := w, mark := f.from_ s,
           since := if f.wait.parkedNow ∨ f.wait = w then f.since else s.clock }
/-- A group that goes on: its parks count from now (R432). -/
def Ctx.awake (s : State) (c : Ctx) : Ctx :=
  { c with f0 := c.f0.map fun f => { f with since := s.clock }, f1 := c.f1.map fun f => { f with since := s.clock } }
def Group.awake (s : State) (g : Group) : Group := { g with ctx := g.ctx.awake s }

namespace State
/-- Sets the wait of a stream of a group. -/
def setWait (s : State) (g : Group) (st : Stream) (w : Wait) : State :=
  match st with
  | .frag b => s.setGroup (g.onCtx fun c => c.setFrag b ((c.frag b).map (Frag.hold s w)))
  | .lane => s.setGroup { g with queue := match g.queue with | e :: es => { e with wait := w } :: es | [] => [] }
/-- Parks the stream that issues until it is scheduled again; a stream that is past its arrival stays so. -/
def park (s : State) (g : Group) (perf : Option (Fin 6)) : State :=
  let g := match perf with | some n => g.count n (Config.freeWait s.tick n.val) | none => g
  match s.cur.st with
  | .frag b =>
    s.setGroup (g.onCtx fun c => c.setFrag b ((c.frag b).map fun f =>
      match f.wait with
      | .ready => f.hold s .parked
      | _ => f))
  | .lane => s.setWait g .lane .parked
end State

/-- Goes on with the group as it now stands. -/
def State.regroup (s : State) (r : GRef) (k : Group → State) : State :=
  match s.group? r with
  | some g => k g
  | none => s

/-! ### Instructions of a stream -/

/-- Runs a scalar instruction: the group and fragment that issue, or no issuer. -/
def onFrag (s : State) (k : Group → Frag → State) : Out :=
  match s.group? s.cur.g, s.cur.st with
  | some g, .frag b =>
    match g.ctx.frag b with
    | some f => if g.state = .live then .next (k g f) else .fault .noIssuer
    | none => .fault .noIssuer
  | _, _ => .fault .noIssuer

/-- Runs a lane instruction: the group and the entry at the head of its lane queue. -/
def onLane (s : State) (k : Group → Entry → State) : Out :=
  match s.group? s.cur.g, s.cur.st with
  | some g, .lane =>
    match g.queue with
    | e :: _ => if g.state = .live then .next (k g e) else .fault .noIssuer
    | [] => .fault .noIssuer
  | _, _ => .fault .noIssuer

/-- A scalar instruction of n words that only changes registers and runs on: the shape of all integer and
address arithmetic (R202). -/
def regOp (s : State) (n : Nat) (f : Ctx → Ctx) : Out :=
  onFrag s fun g _ => s.setGroup (g.onCtx fun c => (f c).retire s.cur.st.slot1 n)

/-! ### Traps and fault records (R200, R429 to R431) -/

/-- Traps of R200. -/
inductive Trap where
  | illegalOpcode | illegalOperand | privilege | misalign | pageFault | protection | mixedSize | shapeInvalid
  | copyMisalign | spillOverflow | gongMisuse | gongFault | nondetAtomic | accOverflow | poison | break_
  | userTrap | watchdog | ticketOrder
  deriving DecidableEq, Repr

def Trap.code : Trap → Nat
  | .illegalOpcode => 0x01 | .illegalOperand => 0x02 | .privilege => 0x03 | .misalign => 0x04 | .pageFault => 0x05
  | .protection => 0x06 | .mixedSize => 0x07 | .shapeInvalid => 0x08 | .copyMisalign => 0x09 | .spillOverflow => 0x0A
  | .gongMisuse => 0x0B | .gongFault => 0x0C | .nondetAtomic => 0x0D | .accOverflow => 0x0E | .poison => 0x0F
  | .break_ => 0x10 | .userTrap => 0x11 | .watchdog => 0x12 | .ticketOrder => 0x13

/-- Fields of a fault record (R430) other than SEQ. -/
structure RecordFields where
  code : Nat := 0
  kind : Nat := 0
  user : Nat := 0
  lid  : Nat := 0
  team : Nat := 0
  grp  : Nat := 0
  core : Nat := 0
  pcw  : Nat := 0
  pcslot : Nat := 0
  lword : Nat := 0
  lane : Nat := 0
  turns : Nat := 0
  ovl  : Nat := 0
  addr : Nat := 0
  opid : Nat := 0

/-- The 64 bytes of a fault record (R430) with SEQ 0. -/
def RecordFields.bits (f : RecordFields) : BitVec 512 :=
  place 512 0 (f.code % 256) ||| place 512 8 (f.kind % 16) ||| place 512 16 (f.user % 65536) |||
  place 512 32 (f.lid % 2 ^ 32) ||| place 512 64 (f.team % 2 ^ 32) ||| place 512 96 (f.grp % 64) |||
  place 512 102 (f.core % 512) ||| place 512 112 (f.pcw % 1024) ||| place 512 122 (f.pcslot % 32) |||
  place 512 128 (f.lword % 1024) ||| place 512 138 (f.lane % 64) ||| place 512 144 (f.turns % 16) |||
  place 512 152 (f.ovl % 256) ||| place 512 160 (f.addr % 2 ^ 64) ||| place 512 256 (f.opid % 2 ^ 32)

/-- A posting of a launch's status, which the distributor makes (R430). -/
def Posting.isLaunch (q : Posting) : Bool := q.bits.extractLsb' 8 4 == 5

namespace State
/-- The first line that the host owns of n bytes. -/
def hostHeld (s : State) (pa n : Nat) : Option Nat :=
  (s.hostLines.find? fun e => pa / 128 ≤ e.1 ∧ e.1 ≤ (pa + n - 1) / 128).map (·.1)
/-- The first line that the host owns of some areas. -/
def hostHeldIn (s : State) (as : List (Nat × Nat)) : Option Nat :=
  if s.hostLines.isEmpty then none else as.findSome? fun a => if a.2 = 0 then none else s.hostHeld a.1 a.2
/-- Recalls a line that the host owns, once (R77). -/
def askHost (s : State) (line : Nat) : State :=
  if getKey s.hostLines line 1 = 1 then s else { s with hostLines := setKey s.hostLines line 1 }.send (.recall line)

/-- The line of a fault queue's header, or of its next record, that the host owns: postings wait for it (R77, R429). -/
def fqHeld (s : State) (p : Part) : Option Nat :=
  let base := prFqBase p.prec
  s.hostHeldIn [(base, 64), (base + 64 + 64 * (s.rdMem base 4 0 % prFqCap p.prec), 64)]
/-- The fault queue has room: PROD − CONS below the capacity (R429). -/
def faultRoom (s : State) (p : Part) : Bool :=
  (s.rdMem (prFqBase p.prec) 4 0 + 2 ^ 32 - s.rdMem (prFqBase p.prec + 4) 4 0) % 2 ^ 32 < prFqCap p.prec
/-- It has room for n records at once. -/
def faultRoomFor (s : State) (p : Part) (n : Nat) : Bool :=
  (s.rdMem (prFqBase p.prec) 4 0 + 2 ^ 32 - s.rdMem (prFqBase p.prec + 4) 4 0) % 2 ^ 32 + n ≤ prFqCap p.prec

/-- Writes a record into the fault queue under the next SEQ and then PROD (R429); a record about nothing
is informational and closes when posted (R431). -/
def writeRecord (s : State) (p : Part) (about : Option About) (bits : BitVec 512) : State :=
  let base := prFqBase p.prec
  let prod := s.rdMem base 4 0
  let r := bits ||| place 512 224 (p.nextSeq % 2 ^ 32)
  let s := (s.wrMem (base + 64 + 64 * (prod % prFqCap p.prec)) 64 r.toNat 0).wrMem base 4 (prod + 1) 0
  (s.setPart { p with nextSeq := p.nextSeq + 1,
                      recs := p.recs ++ (about.elim [] fun a => [⟨p.nextSeq, a, r⟩]) }).send (.msix (1 + p.id))

/-- Posts a fault record; with the queue full the posting waits, or is held in the save image while the
partition is SUSPENDING, and OVF is set (R429). While the host owns a line of the queue that is to be read or written
the posting waits for its recall (R77). -/
def post (s : State) (part : Nat) (about : Option About) (f : RecordFields) : State :=
  match s.part? part with
  | none => s
  | some p =>
    match s.fqHeld p with
    | some l => (s.askHost l).setPart { p with posts := p.posts ++ [⟨about, f.bits, false⟩] }
    | none =>
      if s.faultRoom p && p.posts.isEmpty then s.writeRecord p about f.bits
      else (if s.faultRoomFor p (p.posts.length + 1) then s else s.wrMem (prFqBase p.prec + 8) 1 1 0).setPart
        { p with posts := p.posts ++ [⟨about, f.bits, p.state == .suspending⟩] }

/-- Relative slot j of a partition is absolute slot SLOTBASE + j (R416). -/
def absSlot (s : State) (part rel : Nat) : Nat := ((s.part? part).map fun p => prSlotBase p.prec).getD 0 + rel
/-- What a core's overlay slot holds. -/
def slotOf (s : State) (core abs : Nat) : Slot :=
  (((s.core core).slots.find? fun e => e.1 = abs).map (·.2)).getD .empty
/-- The copy that the holders of a slot fetch from (R161, R170). -/
def imageOf (s : State) (core abs : Nat) : Option Image :=
  match s.slotOf core abs with
  | .ready i => some i
  | .draining i _ => some i
  | _ => none
/-- The copy a group fetches from in a relative slot. -/
def image (s : State) (g : Group) (slot : Nat) : Option Image := s.imageOf g.core (s.absSlot g.ref.part slot)

/-- The launch record of a group's launch. -/
def lrec (s : State) (r : GRef) : BitVec 1024 := ((s.launch? r.part r.lid).map (·.lrec)).getD 0
/-- The index of the pair (t, x) in ticket order (R153). -/
def turnOf (s : State) (r : GRef) : Nat := r.team * lrGroups (s.lrec r) + r.grp
/-- The group holds the open turn on queue q (R153, R154). DESIGN CHOICE (log 103): a turn whose closing header write is
in progress or has faulted counts as closed. -/
def holdsTurn (s : State) (r : GRef) (q : Fin 4) : Bool :=
  match s.launch? r.part r.lid with
  | some l => lrTq l.lrec q.val != 0 && (l.tq[q]).turn == s.turnOf r && (l.tq[q]).closing.isNone
  | none => false
/-- TURNS of R430. -/
def turnBits (s : State) (r : GRef) : Nat :=
  (List.finRange 4).foldl (fun n q => if s.holdsTurn r q then n + 2 ^ q.val else n) 0

/-- Answers of peers that refused or were not reached are used up by the trap or fault they cause: a replayed
access asks again (R60, R453). -/
def forgetAnswers (s : State) (part code : Nat) : State :=
  if code = 5 ∨ code = 6 then
    { s with parts := s.parts.map fun p => if p.id = part then { p with fetch := p.fetch.filter fun f => f.2.2.2 = 0 } else p }
  else s

/-- Completions so far of the launch barriers of a group's launch. -/
def barCounts (s : State) (r : GRef) (n : Nat) : Nat :=
  (((s.launch? r.part r.lid).bind fun l => l.bars[n]?).map (·.count)).getD 0
/-- A group that halts withdraws its arrival at an open barrier phase: the `lbar` is not yet performed (R205). -/
def withdraw (s : State) (r : GRef) : State :=
  { s with launches := s.launches.map fun l =>
      if l.part = r.part ∧ l.lid = r.lid then { l with bars := l.bars.map fun b => { b with here := b.here.filter (· ≠ r) } } else l }

/-- Quiets of someone who is gone. -/
def forgetQuiet (s : State) (part : Nat) (gone : Asker → Bool) : State :=
  match s.part? part with
  | some p => s.setPart { p with homes := p.homes.map fun h =>
      { h with quiet := h.quiet.filter (fun w => !gone w),
               jobs := h.jobs.map fun j => match j with
                 | .quiet i w t b => .quiet i (if gone w then .nobody else w) t b
                 | x => x } }
  | none => s
/-- Quiets that a group's streams asked for: a halted instruction asks again. -/
def forgetStreams (s : State) (r : GRef) : State :=
  s.forgetQuiet r.part fun w => match w with | .stream g _ _ => g == r | _ => false

/-- Takes a trap of a group: the group halts at the boundary before the trapping instruction (R30) and a
record of KIND 0 is posted. A lane trap discards every provisional scalar instruction and later block
(R17): the scalar context returns to its value just after the `lrun`, and loads that discarded instructions issued
do not return. -/
def halt (s : State) (g : Group) (st : Stream) (t : Trap) (va lane user gong : Nat) : State :=
  let s := ((s.forgetAnswers g.ref.part t.code).withdraw g.ref).forgetStreams g.ref
  let bars := s.barCounts g.ref
  let g := { g with fetches := [] }
  let h := GState.halted (.trap t.code gong st)
  let ovl := fun slot => ((s.image g slot).map fun i => i.key.ovl).getD 0
  let rf : RecordFields :=
    { code := t.code, user := user, lid := g.ref.lid, team := g.ref.team, grp := g.ref.grp, core := g.core,
      lane := lane, turns := s.turnBits g.ref, addr := va }
  match st with
  | .frag b =>
    let f := g.ctx.frag b
    let slot := (f.map (·.slot)).getD 0
    let g := { g.onAll (Ctx.halted bars) with state := h }
    (s.setGroup g).post g.ref.part (some (.group g.ref))
      { rf with pcw := (f.map (·.pcw)).getD 0, pcslot := slot, ovl := ovl slot }
  | .lane =>
    match g.queue with
    | e :: _ =>
      let x := e.after.halted bars
      let g := { g with state := h, ctx := x, queue := [{ e with wait := .ready, after := x }],
                        loads := g.loads.filter fun l => l.st = .lane || l.at_ ≤ e.at_ }
      (s.setGroup g).post g.ref.part (some (.group g.ref))
        { rf with pcw := e.lrunAt, pcslot := e.slot, lword := e.word, ovl := ovl e.slot }
    | [] => s

/-- The instruction at a fragment's PC is provisional (R17): a block enqueued before it was first held up has not
completed, or a lane load has not returned. -/
def provisional (s : State) (g : Group) (b : Bool) : Bool :=
  let m := ((g.ctx.frag b).map fun f => f.from_ s).getD s.tick
  g.queue.any (fun e => e.at_ ≤ m) || g.loads.any fun l => l.st = .lane && l.blk ≤ m

/-- Takes a trap at the instruction that issues. A scalar instruction that is provisional waits instead
until it no longer is (R17). -/
def trap (s : State) (g : Group) (t : Trap) (va : Nat := 0) (lane : Nat := 0) (user : Nat := 0) (gong : Nat := 0) :
    State :=
  match s.cur.st with
  | .frag b => if s.provisional g b then s.park g none else s.halt g (.frag b) t va lane user gong
  | .lane => s.halt g .lane t va lane user gong

/-- Takes a trap at the instruction the cursor names. -/
def takeTrap (s : State) (t : Trap) : Out :=
  match s.cur.st with
  | .frag _ => onFrag s fun g _ => s.trap g t
  | .lane => onLane s fun g _ => s.trap g t

/-- The return from a trap (R431): the group goes on, and a fragment that waits starts to wait anew (R432). REPLAY
executes the trapping instruction again; on RESUME a scalar stream continues at the next word. -/
def resumeGroup (s : State) (g : Group) (skip : Bool) : State :=
  match g.state with
  | .halted (.trap _ _ (.frag b)) =>
    s.setGroup { (if skip then g.onCtx fun c => c.retire b 1 else g).awake s with state := .live }
  | .halted _ => s.setGroup { g.awake s with state := .live }
  | _ => s
end State

end Machine
end Sys2Proof
end

