-- ==== Sys2Proof/Machine/Cache.lean ====
section
/-!
DEFINITION. The caches (R57, R76 to R79): which lines they hold, what leaves them, who owns which bytes, and the
reads of HBM4E banks that a load must wait for, with their refresh stalls (R62 to R65). Values are those of the
memory, but for `.si` copies; time is in sixths of a nanosecond, of which a cycle takes five.
-/
namespace Sys2Proof.Machine

/-- The time on the core clock. -/
def State.now (s : State) : Nat := 5 * s.clock
/-- Core cycles of a span of time, rounded up (R64). -/
def cyclesOf (t : Nat) : Nat := (t + 4) / 5

/-- The set of a line in an L1, and in an L2 slice, of 1024 sets; of a 2 KiB line in a memory-side cache, of 2048 (R57:
16 ways of 2048 KiB, 2 MiB and 64 MiB). Which set a line has is free. -/
def l1SetOf (line : Nat) : Nat := Config.l1Set line % 1024
def l2SetOf (line : Nat) : Nat := Config.l2Set line % 1024
def mscSetOf (chunk : Nat) : Nat := Config.mscSet chunk % 2048

/-- The line that leaves a full set (R57): of the lowest priority, the least recently used; the set is listed with the
most recently used line first, each line with its priority. -/
def victim (set : List (Nat × Nat)) : Option Nat :=
  let low := set.foldl (fun m e => Nat.min m e.2) 3
  ((set.filter fun e => Nat.min e.2 3 = low).getLast?).map (·.1)

/-- A group after an acquire: no later load of it reads what stood before a write of another agent (R70). -/
def Group.noSeen (g : Group) : Group := { g with seen := [], ctx := { g.ctx with dep := [] } }

namespace State

/-! ### The memory-side cache -/

/-- A 2 KiB line leaves the memory-side cache: its dirty sectors are written back, and its footprint is recorded. -/
def mscEvict (s : State) (m : MLine) : State :=
  { s with
    msc := s.msc.filter fun e => e.chunk ≠ m.chunk
    dirty := s.dirty.filter fun e => !(e.1 / 32 == m.chunk && m.dirty.getLsbD (e.1 % 32))
    pred := (Config.footprint m.chunk % 65536, m.touched) :: s.pred.filter fun e => e.1 ≠ Config.footprint m.chunk % 65536 }

/-- Sectors of a 2 KiB line come into the ways of the partition that asks: with the demanded ones those that the
footprint predictor marks, when the line was not there. -/
def mscFill (s : State) (p : Part) (chunk prio : Nat) (sectors dirty : BitVec 32) : State :=
  match s.msc.find? fun m => m.chunk = chunk with
  | some m =>
    { s with msc := { m with valid := m.valid ||| sectors, dirty := m.dirty ||| dirty, touched := m.touched ||| sectors } ::
        s.msc.filter fun e => e.chunk ≠ chunk }
  | none =>
    let ways := (List.range 16).filter fun w => (prMscWays p.prec).getLsbD w && !(prRmWays p.prec).getLsbD w
    let set := s.msc.filter fun m => hbmStack (2048 * m.chunk) == hbmStack (2048 * chunk) && mscSetOf m.chunk == mscSetOf chunk
    let marked := ((s.pred.find? fun e => e.1 = Config.footprint chunk % 65536).map (·.2)).getD 0
    let put := fun (s : State) (way : Nat) =>
      { s with msc := ⟨chunk, way, prio, sectors ||| marked, dirty, sectors⟩ :: s.msc }
    match ways.find? fun w => !set.any fun m => m.way = w with
    | some w => put s w
    | none =>
      match (victim ((set.filter fun m => ways.contains m.way).map fun m => (m.chunk, m.prio))).bind fun c =>
          set.find? fun m => m.chunk = c with
      | some m => put (s.mscEvict m) m.way
      | none => s

/-- The sectors of a line, within its 2 KiB line. -/
def lineSectors (line : Nat) : BitVec 32 := 3#32 <<< (2 * (line % 16))

/-! ### The L2 slices -/

/-- A line leaves its L2 slice: dirty data go to the memory-side cache, and the records of R82 on it end. -/
def l2Evict (s : State) (p : Part) (l : L2Line) : State :=
  let s := { s with l2 := s.l2.filter (fun e => e.line ≠ l.line),
                    parts := s.parts.map fun q => { q with mixed := q.mixed.filter fun m => m.1 / 128 ≠ l.line } }
  if l.dirty && isHbm (128 * l.line) then s.mscFill p (l.line / 16) l.prio (lineSectors l.line) (lineSectors l.line) else s

/-- A line comes into its home slice. -/
def l2Fill (s : State) (p : Part) (line prio : Nat) (dirty : Bool) : State :=
  match s.l2.find? fun l => l.line = line with
  | some l => { s with l2 := { l with dirty := l.dirty || dirty } :: s.l2.filter fun e => e.line ≠ line }
  | none =>
    let set := s.l2.filter fun l => homeDie (128 * l.line) == homeDie (128 * line) &&
      homeSlice (128 * l.line) == homeSlice (128 * line) && l2SetOf l.line == l2SetOf line
    let s := if set.length < 16 then s
      else match (victim (set.map fun l => (l.line, l.prio))).bind fun v => set.find? fun l => l.line = v with
        | some l => s.l2Evict p l
        | none => s
    { s with l2 := ⟨line, prio, dirty⟩ :: s.l2 }

/-! ### The L1s -/

/-- Replaces a core's lines in its L1. -/
def setL1 (s : State) (core : Nat) (ls : List L1Line) : State := s.setCore { s.core core with l1 := ls }
/-- The line that a core's L1 holds. -/
def l1Line (s : State) (core line key : Nat) : Option L1Line := (s.core core).l1.find? fun e => e.line = line ∧ e.key = key

/-- A line leaves an L1: the bytes it owns go to the home slice. -/
def l1Evict (s : State) (p : Part) (core : Nat) (e : L1Line) : State :=
  let s := s.setL1 core ((s.core core).l1.filter fun x => ¬(x.line = e.line ∧ x.key = e.key))
  if e.own = 0 then s else s.l2Fill p e.line e.prio true

/-- A line comes into an L1 in the place of what it held of it. -/
def l1Fill (s : State) (p : Part) (core : Nat) (e : L1Line) : State :=
  match s.l1Line core e.line e.key with
  | some _ => s.setL1 core (e :: (s.core core).l1.filter fun x => ¬(x.line = e.line ∧ x.key = e.key))
  | none =>
    let set := (s.core core).l1.filter fun x => l1SetOf x.line == l1SetOf e.line
    let s := if set.length < 16 then s
      else match (victim (set.map fun x => (x.line, x.prio))).bind fun v => set.find? fun x => x.line = v with
        | some x => s.l1Evict p core x
        | none => s
    s.setL1 core (e :: (s.core core).l1)

/-- An L1's owned bytes are written back, and it holds nothing (R433). -/
def l1Flush (s : State) (p : Part) (core : Nat) : State := (s.core core).l1.foldl (fun s e => s.l1Evict p core e) s
/-- `.si` copies of lines leave a core: an acquire, or a read that must not be older than one before it (R73, R79). -/
def dropSi (s : State) (core : Nat) (lines : List Nat) : State :=
  if (s.core core).l1.all fun e => e.si.isNone || !lines.contains e.line then s
  else s.setL1 core ((s.core core).l1.filter fun e => e.si.isNone || !lines.contains e.line)
/-- A core holds no `.si` copy any more. -/
def clearSi (s : State) (core : Nat) : State :=
  if (s.core core).l1.all fun e => e.si.isNone then s else s.setL1 core ((s.core core).l1.filter fun e => e.si.isNone)
/-- A group acquires. -/
def forgetSeen (s : State) (r : GRef) : State :=
  if s.groups.any fun g => g.ref = r ∧ (!g.seen.isEmpty ∨ !g.ctx.dep.isEmpty) then
    { s with groups := s.groups.map fun g => if g.ref = r then g.noSeen else g }
  else s
/-- An acquire of a group wider than `.grp` discards its core's `.si` copies (R79; log 43). -/
def discardSi (s : State) (g : Group) : State := (s.clearSi g.core).forgetSeen g.ref

/-! ### Owned bytes (R77, R78) -/

/-- The bits of a line's bytes from a to a + n − 1, as far as they lie in the line. -/
def byteMask (line a n : Nat) : BitVec 128 :=
  (List.range 128).foldl (fun m i => if a ≤ 128 * line + i ∧ 128 * line + i < a + n then m ||| (1#128 <<< i) else m) 0
/-- The bytes of the words that a mask touches. -/
def wordMask (m : BitVec 128) : BitVec 128 :=
  (List.range 32).foldl (fun r w => if m &&& (15#128 <<< (4 * w)) = 0 then r else r ||| (15#128 <<< (4 * w))) 0

/-- A read of bytes of a line: the words of them that other L1s own are recalled. -/
def recallRead (s : State) (core : Option Nat) (line : Nat) (m : BitVec 128) : State :=
  { s with cores := s.cores.map fun c =>
      if some c.id = core then c
      else { c with l1 := c.l1.map fun e => if e.line = line then { e with own := e.own &&& ~~~wordMask m } else e } }

/-- Another L1 than the core's owns some of the bytes of a line. -/
def ownedElsewhere (s : State) (core : Option Nat) (line : Nat) (m : BitVec 128) : Bool :=
  s.cores.any fun c => some c.id ≠ core && c.l1.any fun e => e.line == line && e.own &&& m != 0

/-- A write of bytes of a line by a core, or by another agent: with `.own` the core is granted them, and where another
L1 owned some of them every owner loses all it owns of the line (R78); other types recall their words. Other L1s' tracked
copies go. -/
def recallWrite (s : State) (core : Option Nat) (line : Nat) (m : BitVec 128) (own : Bool) : State :=
  let merge := own && s.ownedElsewhere core line m
  { s with cores := s.cores.map fun c =>
      if some c.id = core then c
      else { c with l1 := (c.l1.map fun e =>
          if e.line = line then
            { e with full := false, own := if own then (if merge then 0 else e.own) else e.own &&& ~~~wordMask m }
          else e).filter fun e => e.line ≠ line || e.own ≠ 0 || e.si.isSome } }

end State

/-! ### Reads of HBM4E banks (R63, R64) -/

/-- The end of the refresh that a bank is under at a time. -/
def Pch.refreshEnd (p : Pch) (bank t : Nat) : Option Nat :=
  match p.all_ with
  | some e => if t < e then some e else none
  | none => ((p.banks.find? fun b => b.1 = bank).map (·.2)).bind fun e => if t < e then some e else none

/-- A read that would start at its time waits for the refresh its bank is then under, and is charged the wait. -/
def BankRead.await (r : BankRead) (p : Pch) : BankRead :=
  match p.refreshEnd r.bank r.at_ with
  | some e => { r with stall := r.stall + (e - r.at_), at_ := e }
  | none => r

/-- Changes the loads of a group that have not returned. -/
def Wait.mapLoad (f : Load → Load) : Wait → Wait
  | .load l => .load (f l)
  | w => w
def Frag.mapLoad (f : Load → Load) (x : Frag) : Frag := { x with wait := x.wait.mapLoad f }
def Group.mapLoads (g : Group) (f : Load → Load) : Group :=
  { g with loads := g.loads.map f, fetches := g.fetches.map f,
           ctx := { g.ctx with f0 := g.ctx.f0.map (Frag.mapLoad f), f1 := g.ctx.f1.map (Frag.mapLoad f) },
           queue := g.queue.map fun e => { e with wait := e.wait.mapLoad f } }
/-- The loads of a group that have not returned. -/
def Wait.loads : Wait → List Load
  | .load l => [l]
  | _ => []
def Group.allLoads (g : Group) : List Load :=
  (g.ctx.f0.toList ++ g.ctx.f1.toList).flatMap (fun f => f.wait.loads) ++ g.queue.flatMap (fun e => e.wait.loads) ++ g.loads ++ g.fetches

/-- The end of a bank group's hold window: 480 ns after its last read completed. -/
def Pch.idleAt (p : Pch) (bg : Nat) : Option Nat := (p.last.find? fun e => e.1 = bg).map fun e => e.2 + 2880

namespace State
/-- Queued reads, of the groups' loads and of other agents. -/
def bankReads (s : State) : List BankRead := (s.groups.flatMap fun g => g.allLoads.flatMap fun l => l.reads) ++ s.others
/-- A bank group holds a queued read at a time: one that was queued by then. -/
def queued (s : State) (stack pch bg t : Nat) : Bool :=
  s.bankReads.any fun r => r.stack = stack ∧ r.pch = pch ∧ r.bank / 4 = bg ∧ r.at_ - r.stall ≤ t
/-- The bank group is busy at a time (R63): it holds a queued read, or its last read completed less than 480 ns
before. -/
def bankBusy (s : State) (p : Pch) (bg t : Nat) : Bool :=
  p.busy.contains bg && (s.queued p.stack p.pch bg t || (p.idleAt bg).any fun e => t < e)

/-- A read is queued at the bank of an address; in a calibration window it waits for its end first, and is charged no wait
(R461). -/
def queueRead (s : State) (pa : Nat) : State × BankRead :=
  let p := s.pch (hbmStack pa) (hbmPch pa)
  let bg := hbmBank pa / 4
  let r : BankRead := ⟨hbmStack pa, hbmPch pa, hbmBank pa, s.now, 0⟩
  (s.setPch { p with busy := if p.busy.contains bg then p.busy else bg :: p.busy }, if p.calib then r else r.await p)

/-- A read of a bank group by another agent than a group completes. -/
def otherRead (s : State) (stack pch bg : Nat) : State :=
  let p := s.pch stack pch
  s.setPch { p with busy := if p.busy.contains bg then p.busy else bg :: p.busy, last := setKey p.last bg s.now }

/-- Changes every load that has not returned. -/
def mapReads (s : State) (f : Load → Load) : State := { s with groups := s.groups.map fun g => g.mapLoads f }
/-- Changes every queued read. -/
def eachRead (s : State) (f : BankRead → BankRead) : State :=
  { s.mapReads fun l => { l with reads := l.reads.map f } with others := s.others.map f }
/-- Reads of a pseudo-channel whose turn has come. -/
def readTurn (s : State) (p : Pch) (r : BankRead) : Bool :=
  r.stack == p.stack && r.pch == p.pch && r.at_ ≤ s.now && !p.calib
/-- The queued reads of a pseudo-channel whose turn has come complete: their groups' loads keep the largest stall. -/
def completeReads (s : State) (stack pch : Nat) : State :=
  let p := s.pch stack pch
  let bgs := ((s.bankReads.filter (s.readTurn p)).map fun r => r.bank / 4).eraseDups
  let done := fun (l : Load) => { l with
    reads := l.reads.filter (fun r => !s.readTurn p r),
    stall := (l.reads.filter (s.readTurn p)).foldl (fun m r => Nat.max m (cyclesOf r.stall)) l.stall }
  { s.mapReads done with others := s.others.filter fun r => !s.readTurn p r }.setPch
    { p with last := bgs.foldl (fun l b => setKey l b s.now) p.last }

/-- Reads that wait at a bank when a refresh of it starts (of every bank: none), or that a calibration window held
back, at a time: they start when the refresh ends, and are charged the wait. -/
def delayReads (s : State) (p : Pch) (bank : Option Nat) (t : Nat) : State :=
  if p.calib then s
  else s.eachRead fun (r : BankRead) =>
    if r.stack = p.stack ∧ r.pch = p.pch ∧ bank.getD r.bank = r.bank ∧ t ≤ r.at_ then r.await p else r
/-- Reads that a calibration window held back start at its end, unless a refresh holds them further (R461). -/
def resumeReads (s : State) (p : Pch) : State :=
  s.eachRead fun (r : BankRead) =>
    if r.stack = p.stack ∧ r.pch = p.pch then { r with at_ := Nat.max r.at_ (Nat.min s.now (p.calibAt + 6000)) }.await p else r

/-! ### What a load or store does to the caches -/

/-- A read of a line at its home must read HBM4E: no cache there holds it, and it is written. -/
def fromBank (s : State) (line : Nat) : Bool :=
  !(s.l2.any fun l => l.line = line) && !(s.msc.any fun m => m.chunk = line / 16 && m.valid &&& lineSectors line = lineSectors line) &&
    isHbm (128 * line) && !chunkUnwritten s.unwritten (line / 16)
/-- Another agent than a load of a group reads lines at their homes, or writes them past the caches. -/
def touch (s : State) (lines : List Nat) (write : Bool) : State :=
  let ls := lines.filter fun l => if write then isHbm (128 * l) else s.fromBank l
  if ls.isEmpty then s else { s with touched := s.touched ++ ls.map fun l => (l, write) }

/-- The home serves a line to a request of a level: whether HBM4E must be read, and the caches after. -/
def homeRead (s : State) (p : Part) (line prio lvl : Nat) : State × Bool :=
  let here := s.l2.any fun l => l.line = line
  let dram := s.fromBank line
  let s := if here || lvl = 3 || !isHbm (128 * line) then s else s.mscFill p (line / 16) prio (lineSectors line) 0
  (if lvl ≤ 1 then s.l2Fill p line prio false else s, dram)

/-- The home takes the new data of a line written at a level; below the caches nothing of it stays dirty. -/
def homeWrite (s : State) (p : Part) (line prio lvl : Nat) : State :=
  if lvl ≤ 1 then s.l2Fill p line prio true
  else if lvl = 2 ∧ isHbm (128 * line) then s.mscFill p (line / 16) prio (lineSectors line) (lineSectors line)
  else s.touch [line] true

/-- The lines of physical places, with their keys, once each. -/
def linesOf (ls : List Loc) : List (Nat × Nat) :=
  (ls.filterMap fun l => match l with | .mem pa k => some (pa / 128, k) | _ => none).eraseDups
/-- The bytes of a line among places. -/
def maskIn (line : Nat) (ls : List Loc) : BitVec 128 :=
  ls.foldl (fun m l => match l with
    | .mem pa _ => if pa / 128 = line then m ||| (1#128 <<< (pa % 128)) else m
    | _ => m) 0

/-- An agent without an L1 reads places at their homes: words of them that L1s own are recalled (R77), and lines that no
cache there holds are read from their banks (R63). -/
def recalls (s : State) (ls : List Loc) : State :=
  (linesOf ls).foldl (fun s e => s.recallRead none e.1 (maskIn e.1 ls)) (s.touch ((linesOf ls).map (·.1)) false)

/-- The writer's own copy of a line takes what it writes, and is most recently used; with `.own` its L1 takes the line. -/
def writeCopy (s : State) (p : Part) (core line key prio : Nat) (own : Bool) (granted : BitVec 128) (ws : List (Loc × Byte)) : State :=
  match s.l1Line core line key with
  | some x => s.l1Fill p core { x with
      own := x.own ||| granted
      si := x.si.map fun bs => (List.range 128).map fun i => (byteAt ws (.mem (128 * line + i) key)).getD (bs[i]?.getD 0) }
  | none => if own then s.l1Fill p core ⟨line, key, prio, granted, false, none⟩ else s

/-- What a write of a core, or of another agent, does to the caches (R76 to R78): the bytes are granted or recalled
elsewhere (with `.own` the line goes to the writer as its single owner where another L1 owned some of them), the writer's
own copy is updated and most recently used, and the home or the L1 holds the new data. -/
def cacheWrite (s : State) (core : Option Nat) (req prio lvl : Nat) (ws : List (Loc × Byte)) : State :=
  (linesOf (ws.map (·.1))).foldl (fun s e =>
    let m := maskIn e.1 (ws.map (·.1))
    let all := req == 0 && s.ownedElsewhere core e.1 m
    let s := s.recallWrite core e.1 m (req == 0)
    match core with
    | none => s
    | some c =>
      let granted := if req ≠ 0 then 0 else if all then BitVec.allOnes 128 else m
      ((s.groups.find? fun g => g.core = c).bind fun g => s.part? g.ref.part).elim s fun p =>
        let s := s.writeCopy p c e.1 e.2 prio (req == 0) granted ws
        if req = 0 then s else s.homeWrite p e.1 prio lvl) s

end State

end Sys2Proof.Machine
end

