-- ==== Sys2Proof/Machine/Operands.lean ====
section
/-!
DEFINITION. Operand forms of the scalar stream: sums, immediates and control targets.
-/
namespace Sys2Proof.Machine

/-- A whole SI imm12, sign-extended (R202). -/
def imm12 (i : BitVec 12) : Word := i.signExtend 32
/-- An operand written as a sum (R202). -/
def Ctx.sum (c : Ctx) (a : SReg) (i : Word) : Word := c.getS a + i
/-- Signed reading of a scalar register. -/
def Ctx.getI (c : Ctx) (a : SReg) : Int := (c.getS a).toInt

/-- A number in a 32-bit register, taken mod 2³². -/
def word (n : Nat) : Word := BitVec.ofNat 32 n
/-- An integer in a 32-bit register, taken mod 2³². -/
def wordI (n : Int) : Word := BitVec.ofInt 32 n
/-- A truth value in a register. -/
def wordB (b : Bool) : Word := if b then 1 else 0

/-- The word a relative branch names (R212): none before word 0. -/
def branchTarget (pcw : Nat) (off : BitVec 20) : Option Nat :=
  let t := (pcw : Int) + off.toInt
  if t < 0 then none else some t.toNat

namespace State
/-- SWORDS of the overlay a fragment executes (R158). -/
def swords (s : State) (g : Group) (f : Frag) : Nat := ((s.image g f.slot).map fun i => i.scalar.length).getD 0
/-- LWORDS of that overlay. -/
def lwords (s : State) (g : Group) (f : Frag) : Nat := ((s.image g f.slot).map fun i => i.lane.length).getD 0
/-- The index of that overlay (R166, R213). -/
def curOvl (s : State) (g : Group) (f : Frag) : Nat := ((s.image g f.slot).map fun i => i.key.ovl).getD 0
/-- A scalar target lies in the current overlay (R204). -/
def inOverlay (s : State) (g : Group) (f : Frag) (t : Nat) : Bool := t < s.swords g f

/-- The relative slot of the team's root on the group's core (R172). -/
def rootSlot (s : State) (g : Group) : Nat :=
  match s.team? g.ref.tref with
  | some t => ((t.roots.find? fun e => e.1 = g.core).map (·.2)).getD 0
  | none => 0
end State

end Sys2Proof.Machine
end

