-- ==== Sys2Proof/Machine/Vm.lean ====
section
/-!
DEFINITION. Addresses: translation with its TLBs (R441 to R445), the checks of R257, the spaces of R45 to
R53 and what makes an access wait (R52, R84).
-/
namespace Sys2Proof.Machine

/-! ### Page walks (R441 to R443) -/

/-- The place of the entry that a walk reads at a level of its tables, and what an entry of a level covers. -/
def entryAt (va level tab : Nat) : Nat :=
  tab + 8 * (if level = 0 then bitsOf va 51 39 else if level = 1 then bitsOf va 38 30
    else if level = 2 then bitsOf va 29 21 else bitsOf va 20 16)
def levelSize (level : Nat) : Nat := if level = 0 then 2 ^ 39 else if level = 1 then 2 ^ 30 else if level = 2 then 2 ^ 21 else 2 ^ 16

/-- The next step of a walk at a level. -/
def walkFrom (s : State) (p : Part) (va : Nat) : Nat → Nat → Except Trap TlbEntry
  | 0, _ => .error .pageFault
  | n + 1, tab =>
    let level := 3 - n
    let pa := entryAt va level tab
    if (List.range 8).any fun i => s.bad (.mem (pa + i) 0) then .error .poison else
    let e := BitVec.ofNat 64 (s.rdMem pa 8 0)
    if !pteValid e then .error .pageFault
    else if level = 0 ∨ (level < 3 ∧ pteTable e) then
      if isHbm (pteNext e) then walkFrom s p va n (pteNext e) else .error .protection
    else if pteKey e ≠ prKey p.prec then .error .protection
    else
      .ok ⟨va / levelSize level * levelSize level, levelSize level, e⟩

/-- The first line with an entry of the walk that the host owns: it is recalled before the walk goes on (R77). -/
def walkHeldFrom (s : State) (va : Nat) : Nat → Nat → Option Nat
  | 0, _ => none
  | n + 1, tab =>
    let level := 3 - n
    match s.hostHeld (entryAt va level tab) 8 with
    | some l => some l
    | none =>
      let e := BitVec.ofNat 64 (s.rdMem (entryAt va level tab) 8 0)
      if pteValid e && (level = 0 || (level < 3 && pteTable e)) && isHbm (pteNext e) then walkHeldFrom s va n (pteNext e) else none
/-- Where a walk of an address starts, with the levels it has still to read: at the root of the tables, or at one that a
cached entry of levels 0 to 2 names, freely (R444). -/
def walkStart (s : State) (p : Part) (va : Nat) : Nat × Nat :=
  let ds := p.descs.filter fun e => e.va ≤ va ∧ va < e.va + e.size
  match ds[Config.freeOrder s.tick (2 ^ 70 + va / 65536) % (ds.length + 1)]? with
  | some d => (if d.size = 2 ^ 39 then 3 else if d.size = 2 ^ 30 then 2 else 1, pteNext d.pte)
  | none => (4, prPtRoot p.prec)
/-- The first line of a walk in a partition's tables that the host owns. -/
def walkHeld (s : State) (p : Part) (va : Nat) : Option Nat :=
  if s.hostLines.isEmpty then none else walkHeldFrom s va (walkStart s p va).1 (walkStart s p va).2

/-- The table entries that a walk reads, with their levels and places. -/
def walkEntries (s : State) (va : Nat) : Nat → Nat → List (Nat × Nat × BitVec 64)
  | 0, _ => []
  | n + 1, tab =>
    let level := 3 - n
    let e := BitVec.ofNat 64 (s.rdMem (entryAt va level tab) 8 0)
    (level, entryAt va level tab, e) ::
      if pteValid e && (level = 0 || (level < 3 && pteTable e)) && isHbm (pteNext e) then walkEntries s va n (pteNext e) else []
def walkPlaces (s : State) (p : Part) (va : Nat) : List Loc :=
  (walkEntries s va (walkStart s p va).1 (walkStart s p va).2).flatMap fun e => (List.range 8).map fun i => Loc.mem (e.2.1 + i) 0

/-- A walk of a virtual address in a partition's tables. -/
def walk (s : State) (p : Part) (va : Nat) : Except Trap TlbEntry := walkFrom s p va (walkStart s p va).1 (walkStart s p va).2

/-- The physical address an entry gives (R54, R442). -/
def TlbEntry.pa (e : TlbEntry) (va : Nat) : Nat := fld e.pte 47 16 * 65536 / e.size * e.size + va % e.size

/-! ### TLB lookups (R444) -/

/-- What a lookup gives: a leaf, a fault of the walk, a miss, or a line of the tables to recall from the host. -/
inductive Xl where
  | hit (e : TlbEntry)
  | fail (t : Trap)
  | miss
  | recall (line : Nat)

/-- Cached leaves that cover an address. -/
def Part.tlbFor (p : Part) (va : Nat) : List TlbEntry := (p.tlb ++ p.stale).filter fun e => e.va ≤ va ∧ va < e.va + e.size

/-- The translations an access may use while something is cached for it: every cached version, and the
tables as they stand (R444). -/
def xlateChoices (s : State) (p : Part) (va : Nat) : List Xl :=
  let hits := p.tlbFor va
  hits.map .hit ++ (match walkHeld s p va with
    | some l => [.recall l]
    | none => match walk s p va with
      | .ok e => if hits.contains e then [] else [.hit e]
      | .error t => [.fail t])

/-- Translation of an address; with nothing cached it is a miss. -/
def xlate (s : State) (p : Part) (va k : Nat) : Xl :=
  if (p.tlbFor va).isEmpty then .miss
  else
    let cs := xlateChoices s p va
    (cs[if cs.length = 1 then 0 else Config.freeOrder s.tick k % cs.length]?).getD .miss

/-- Translation by an engine, which walks at once where nothing is cached. -/
def xlateNow (s : State) (p : Part) (va k : Nat) : Xl :=
  match xlate s p va k with
  | .miss =>
    match walkHeld s p va with
    | some l => .recall l
    | none => match walk s p va with | .ok e => .hit e | .error t => .fail t
  | x => x

/-- A leaf is cached by the walk that found it (R443). -/
def Part.cache (p : Part) (e : TlbEntry) : Part := if p.tlb.contains e then p else { p with tlb := e :: p.tlb }
/-- The walk caches keep the entries of levels 0 to 2 that a walk has read on its way to a leaf (R443, R444). -/
def Part.cacheWalk (s : State) (p : Part) (va : Nat) (e : TlbEntry) : Part :=
  let read := (walkEntries s va (walkStart s p va).1 (walkStart s p va).2).dropLast.map fun x =>
    (⟨va / levelSize x.1 * levelSize x.1, levelSize x.1, x.2.2⟩ : TlbEntry)
  { p.cache e with descs := read.filter (fun d => !p.descs.contains d) ++ p.descs }

/-! ### Accumulation regions (R92, R93) -/

/-- The descriptor of a region in its table. -/
def tableDesc (s : State) (p : Part) (r : Nat) : BitVec 256 := BitVec.ofNat 256 (s.rdMem (prRdt p.prec + 32 * r) 32 0)
/-- The descriptor of a region: the copy its budget home keeps, or the table's. -/
def descOf (s : State) (p : Part) (r : Nat) : BitVec 256 :=
  match p.homes.find? fun h => h.region = r with
  | some h => h.desc.getD (tableDesc s p r)
  | none => tableDesc s p r

/-- The valid region with the lowest index that contains a physical page. -/
def regionOf (s : State) (p : Part) (pa : Nat) : Option Nat :=
  (List.range (prNrdt p.prec)).find? fun r =>
    let d := descOf s p r
    rdValid d && rdPage0 d ≤ pa / 65536 && pa / 65536 < rdPage0 d + rdNpages d

/-! ### On-chip spaces -/

/-- The word within its line that a rotation code reaches (R49). -/
def rotWord (k w r : Nat) : Nat :=
  match k with
  | 0 => w
  | 1 => w ^^^ (r % 32)
  | 2 => (w + r) % 32
  | 3 => w ^^^ (4 * (r % 8))
  | _ => w ^^^ (8 * (r % 4))
/-- The physical scratchpad byte of an offset under a rotation code (R49). -/
def rotByte (k a : Nat) : Nat := a / 128 * 128 + 4 * rotWord k (a / 4 % 32) (a / 128) + a % 4

/-- The group runs on the odd core of a pair team (R11). -/
def onOdd (s : State) (g : Group) : Bool := lrPair (s.lrec g.ref) && lrEven (s.lrec g.ref) ≤ g.ref.grp
/-- Pair memory offset of `.spd` offset 0, and SHARE (R45, R48). -/
def spdBase (s : State) (g : Group) : Nat := if onOdd s g then lrEvenSpad (s.lrec g.ref) else 0
def spdShare (s : State) (g : Group) : Nat :=
  let l := s.lrec g.ref
  if !lrPair l then lrSpad l else if onOdd s g then lrSpad l - lrEvenSpad l else lrEvenSpad l
/-- CWIN (R45, R419). -/
def chipWindow (p : Part) : Nat := 65536 * p.grans.length
/-- The physical chip scratchpad byte of a window offset (R419). -/
def chipByte (p : Part) (o : Nat) : Nat := (p.grans[o / 65536]?).getD 0 * 65536 + o % 65536

/-- The upper limit of an on-chip space for a group (R45). -/
def spaceLimit (s : State) (g : Group) (p : Part) : Space → Nat
  | .slc => 256
  | .spd => spdShare s g
  | .pmem => lrSpad (s.lrec g.ref)
  | .chip => chipWindow p
  | .glb => 2 ^ 52

/-- The place of an on-chip byte, for a lane, under a rotation code. The line that the code rotates by is that of the
access's own offset (R49). -/
def chipLoc (s : State) (g : Group) (p : Part) (sp : Space) (lane rot o : Nat) : Loc :=
  match sp with
  | .slc => .slc g.ref (256 * lane + o)
  | .spd => .spd g.ref.tref (spdBase s g + rotByte rot o)
  | .pmem => .spd g.ref.tref (rotByte rot o)
  | _ => .chip (chipByte p o)

/-! ### What makes an access wait -/

/-- Presence count of a line of a team's pair memory (R52). -/
def Team.count (t : Team) (line : Nat) : Nat := getKey t.pres line 0
def Team.setCount (t : Team) (line n : Nat) : Team :=
  { t with pres := if n = 0 then t.pres.filter fun e => e.1 ≠ line else setKey t.pres line n }

/-- The scratchpad lines of an on-chip access. -/
def accLines (s : State) (g : Group) (sp : Space) (a n : Nat) : List Nat :=
  let b := if sp = .spd then spdBase s g else 0
  (List.range ((b + a + n - 1) / 128 + 1 - (b + a) / 128)).map fun i => (b + a) / 128 + i

/-- A scratchpad line that the access touches is absent. -/
def absent (s : State) (g : Group) (sp : Space) (a n : Nat) : Bool :=
  match sp with
  | .spd | .pmem =>
    match s.team? g.ref.tref with
    | some t => (accLines s g sp a n).any fun l => t.count l ≠ 0
    | none => false
  | _ => false

/-- The access touches the slots of a ticket queue of the launch (R152). -/
def inQueue (s : State) (g : Group) (q : Nat) (va n : Nat) : Bool :=
  match s.launch? g.ref.part g.ref.lid with
  | some l => match l.tq[q]? with
    | some t => match t.hdr with
      | some (cap, slotb) => lrTq l.lrec q + 64 ≤ va + n - 1 && va < lrTq l.lrec q + 64 + cap * slotb
      | none => true
    | none => false
  | none => false

/-- An engine operation of the group owns a line that the global access touches and has not finished it
(R84, R314): until it has read where it writes, any that it may write. -/
def owned (s : State) (g : Group) (va n : Nat) : Bool :=
  s.ops.any fun o =>
    match o.body with
    | .copy js ls _ => ls.any fun l => l.sp == .glb && !l.done && va / 128 ≤ l.line && l.line ≤ (va + n - 1) / 128 &&
        (js[l.slice]?).any fun j => j.by_ == g.ref
    | .refit _ _ root _ (some left) => o.by_ == g.ref && root ≤ va + n - 1 && va < root + 128 * left
    | .refit _ _ _ _ none => o.by_ == g.ref
    | .ray true _ _ _ q _ => o.by_ == g.ref && inQueue s g q va n
    | .rrecv q _ _ _ => o.by_ == g.ref && inQueue s g q va n
    | .bvleaf _ dst count done => o.by_ == g.ref && (dst + 32 * done) / 128 ≤ (va + n - 1) / 128 &&
        va / 128 ≤ (dst + 32 * count - 1) / 128
    | _ => false

/-- The access waits. -/
def stalls (s : State) (g : Group) (sp : Space) (a n : Nat) : Bool :=
  match sp with
  | .glb => owned s g a n
  | _ => absent s g sp a n

/-! ### The checks of R257 -/

/-- What kind of access is checked: a write, a strong access, an atomic, an `xadd`, an overlay load, and
the alignment where it is not the access's size. -/
structure Kind where
  write  : Bool := false
  strict : Bool := false
  atomic : Bool := false
  xadd   : Bool := false
  code   : Bool := false
  align  : Nat := 0

/-- A resolved access: its bytes' places, its region on an ACC page, the request type actually used (R55, R76):
0 `.own`, 1 `.wt`, 2 `.si`, 3 `.nc`; and the page's eviction priority and cache level (R54). -/
structure Acc where
  locs : List Loc
  acc  : Option Nat
  req  : Nat
  va   : Nat
  prio : Nat := 0
  lvl  : Nat := 0
  deriving DecidableEq, Repr

/-- The outcome of an access's checks: a trap with the order of the check that failed, a page to walk, a
REMOTE line to fetch, or the resolved access. -/
inductive Chk where
  | fail (order : Nat) (t : Trap) (va : Nat)
  | walk (va : Nat)
  | fetch (peer page line : Nat)
  | ok (a : Acc)

/-- Request codes of R190 against the page default, as R55 then replaces them. -/
def reqUsed (e : BitVec 64) (host : Bool) (code : Nat) : Nat :=
  let r := if code = 0 then pteReq e else code - 1
  if (pteLevel e ≠ 0 || host) && (r == 0 || r == 2) then 1 else r

/-- Check 5 for the page of an address of an access of n bytes from `whole`: the permission rules (R54, R60, R93, R95,
R263, R436), and the region. -/
def pageCheck (s : State) (p : Part) (e : TlbEntry) (va whole n : Nat) (k : Kind) : Except Trap (Option Nat) :=
  let pa := e.pa va
  let remote := pteRemote e.pte
  if (k.write || k.xadd) && (!pteWrite e.pte || remote) then .error .protection
  else if !remote && !isHbm pa && !isHost pa then .error .protection
  else if !remote && isHost pa && (pteAcc e.pte || pteDead e.pte) then .error .protection
  else if k.code && (!pteCode e.pte || pteAcc e.pte) then .error .protection
  else if pteAcc e.pte && !remote then
    match regionOf s p pa with
    | none => .error .protection
    | some r =>
      if k.atomic then .error .protection
      else if whole % (if k.align = 0 then n else k.align) ≠ 0 then .error .misalign
      else .ok (some r)
  else if k.xadd then .error .protection
  else .ok none

/-- The number that stands for the host in the place of a peer index: the line is one to recall (R77, R87). -/
def hostPeer : Nat := 8192
/-- The state of a REMOTE line: fetched, refused, unreachable, or to be fetched (R453); the page bits that a large leaf
ignores come from the address (R442). -/
def remoteLine (p : Part) (e : TlbEntry) (va : Nat) : Chk :=
  let peer := fld e.pte 47 35
  let page := e.pa va / 65536 % 2 ^ 19
  let line := va % 65536 / 2048
  if nhNpeer p.nethdr ≤ peer then .fail 5 .protection va
  else if p.remote.any fun r => r.1 = peer ∧ r.2.1 = page ∧ r.2.2.1 = line then .ok ⟨[], none, 0, va, 0, 0⟩
  else match p.fetch.find? fun f => f.1 = peer ∧ f.2.1 = page ∧ f.2.2.1 = line with
    | some (_, _, _, 1) => .fail 5 .protection va
    | some (_, _, _, 2) => .fail 5 .pageFault va
    | some (_, _, _, 3) => .fail 6 .poison va
    | _ => .fetch peer page line

/-- The state of the REMOTE lines that n bytes of one page touch: the first that is not there, or fetched. -/
def remoteLines (p : Part) (e : TlbEntry) (va n : Nat) : Chk :=
  let first := va / 2048
  let cs := (List.range ((va + n - 1) / 2048 + 1 - first)).map fun i => remoteLine p e (Nat.max va (2048 * (first + i)))
  (cs.find? fun c => match c with | .ok _ => false | _ => true).getD (.ok ⟨[], none, 0, va, 0, 0⟩)

/-- The bytes of an access on one page, after checks 4 and 5. DESIGN CHOICE (log 122): whatever stops a page walk, also its
own `PROTECTION` or `POISON` (R443), is a failure of check 4. -/
def onePage (s : State) (p : Part) (x : Xl) (va n whole n0 : Nat) (k : Kind) (req : Nat) : Chk :=
  match x with
  | .miss => .walk va
  | .recall l => .fetch hostPeer 0 l
  | .fail t => .fail 4 t va
  | .hit e =>
    match if pteAcc e.pte then s.hostHeld (prRdt p.prec) (32 * prNrdt p.prec) else none with
    | some l => .fetch hostPeer 0 l
    | none =>
    match pageCheck s p e va whole n0 k with
    | .error t => .fail 5 t va
    | .ok r =>
      if pteRemote e.pte then
        match remoteLines p e va n with
        | .ok _ => .ok ⟨(List.range n).map fun i => .rem p.id (fld e.pte 47 35) (e.pa va / 65536 % 2 ^ 19) ((va + i) % 65536),
            none, 3, va, ptePrio e.pte, pteLevel e.pte⟩
        | c => c
      else
        let pa := e.pa va
        match s.hostHeld pa n with
        | some l => .fetch hostPeer 0 l
        | none => .ok ⟨(List.range n).map fun i => .mem (pa + i) (if isHbm pa then p.key else 0), r,
            if r.isSome then 3 else reqUsed e.pte (isHost pa) req, va, ptePrio e.pte, if r.isSome || isHost pa then 1 else pteLevel e.pte⟩

/-- Two pages of one access: translation of both comes before the permission checks of either (R257). -/
def bothPages (x y : Chk) : Chk :=
  match x, y with
  | .fail 4 t a, _ => .fail 4 t a
  | _, .fail 4 t a => .fail 4 t a
  | .walk a, _ => .walk a
  | _, .walk a => .walk a
  | .ok a, .ok b => .ok { a with locs := a.locs ++ b.locs, acc := a.acc <|> b.acc }
  | .ok _, c => c
  | c, .fail o t a => (match c with | .fail _ _ _ => c | _ => .fail o t a)
  | c, _ => c

/-- ADDR of a trap at an address of a space: a virtual address, or 0 (R430). -/
def trapAddr (sp : Space) (a : Nat) : Nat := if sp = .glb then a else 0
/-- Checks 2 to 5 of R257 for one access of n bytes by a lane; a trap on an on-chip access names no address (R430). -/
def check (s : State) (g : Group) (p : Part) (sp : Space) (a n lane : Nat) (k : Kind) (req : Nat) (now : Bool) : Chk :=
  let al := if k.align = 0 then n else k.align
  if k.strict && a % al ≠ 0 then .fail 2 .misalign (trapAddr sp a)
  else match sp with
    | .glb =>
      if 2 ^ 52 ≤ a || 2 ^ 52 < a + n then .fail 3 .protection a
      else
        let tr := if now then xlateNow s p else xlate s p
        let n1 := min n (65536 - a % 65536)
        let x := onePage s p (tr a (2 * lane)) a n1 a n k req
        if n1 = n then x
        else bothPages x (onePage s p (tr (a + n1) (2 * lane + 1)) (a + n1) (n - n1) a n k req)
    | _ =>
      if spaceLimit s g p sp < a + n then .fail 3 .protection 0
      else .ok ⟨(List.range n).map fun i => chipLoc s g p sp lane 0 (a + i), none, 0, a, 0, 0⟩

/-! ### Checks of a whole instruction -/

/-- The outcome for an instruction: every lane's access resolved, or what comes first. -/
inductive ChkAll where
  | fail (t : Trap) (va lane : Nat)
  | walk (va lane : Nat)
  | fetch (peer page line : Nat)
  | ok (as : List (Nat × Acc))

/-- The failure of the lowest check order and, within it, the lowest lane (R257). -/
def firstFail : List (Nat × Chk) → Option (Nat × Trap × Nat × Nat)
  | [] => none
  | (l, .fail o t va) :: r =>
    match firstFail r with
    | some (o', t', va', l') => if o' < o then some (o', t', va', l') else some (o, t, va, l)
    | none => some (o, t, va, l)
  | _ :: r => firstFail r

def firstWalk (cs : List (Nat × Chk)) : Option (Nat × Nat) :=
  cs.findSome? fun c => match c.2 with | .walk va => some (va, c.1) | _ => none
def firstFetch (cs : List (Nat × Chk)) : Option (Nat × Nat × Nat) :=
  cs.findSome? fun c => match c.2 with | .fetch a b d => some (a, b, d) | _ => none
def accOks (cs : List (Nat × Chk)) : List (Nat × Acc) :=
  cs.filterMap fun c => match c.2 with | .ok a => some (c.1, a) | _ => none

/-- Combines the lanes' checks: failures before translation, then walks, then later failures, then
fetches. -/
def combine (cs : List (Nat × Chk)) : ChkAll :=
  let late := fun (_ : Unit) => match firstFail cs with
    | some (_, t, va, l) => ChkAll.fail t va l
    | none => match firstFetch cs with
      | some (a, b, d) => .fetch a b d
      | none => .ok (accOks cs)
  match firstFail cs with
  | some (o, t, va, l) => if o < 4 then .fail t va l else (match firstWalk cs with | some v => .walk v.1 v.2 | none => late ())
  | none => match firstWalk cs with
    | some v => .walk v.1 v.2
    | none => late ()

/-- The ports of a die that carry a partition's traffic are all fenced (R449, R462). -/
def State.dieCut (s : State) (p : Part) (die : Nat) : Bool :=
  let ports := (List.range 8).filter fun j => nhPortW p.nethdr (8 * die + j) ≠ 0
  !ports.isEmpty && ports.all fun j => s.dev.fenceN.contains (8 * die + j)
/-- A message leaves for another rank of a collective, unless no port carries it. -/
def State.netSend (s : State) (o : Output) : State :=
  match o with
  | .send part coll _ _ | .abort part coll _ _ _ _ => if (s.part? part).any fun p => s.dieCut p (coll % 2) then s else s.send o
  | _ => s.send o

/-- Asks a peer for a REMOTE line, or the host for a line it owns, once (R60, R77, R453). -/
def State.askPeer (s : State) (p : Part) (peer page line : Nat) : State :=
  if peer = hostPeer then s.askHost line
  else if p.fetch.any fun f => f.1 = peer ∧ f.2.1 = page ∧ f.2.2.1 = line then s
  else if s.dieCut p 0 && s.dieCut p 1 then s.setPart { p with fetch := (peer, page, line, 2) :: p.fetch }
  else (s.setPart { p with fetch := (peer, page, line, 0) :: p.fetch }).send
    (.peer p.id peer (.remoteFetchRequest p.id 0 page line))

/-! ### Engine accesses -/

/-- What an engine's access to global memory gives: its places and region, a fault with its trap code, or
a REMOTE line still to be fetched. -/
inductive Eng where
  | ok (locs : List Loc) (acc : Option Nat)
  | fail (t : Trap) (va : Nat)
  | fetch (peer page line : Nat)

/-- An engine's access to n bytes (at most 64 KiB) of global memory at its access point (R83, R95). -/
def engine (s : State) (p : Part) (va n k : Nat) (write code : Bool) : Eng :=
  let none_ : Group := Group.new ⟨p.id, 0, 0, 0⟩ 0
  match check s none_ p .glb va n k { write := write, code := code, align := 4 } 0 true with
  | .fail _ t a => .fail t a
  | .walk a => .fail .pageFault a
  | .fetch a b c => .fetch a b c
  | .ok a => if !write && a.locs.any s.bad then .fail .poison va else .ok a.locs a.acc

/-- What stops an engine before it is done: a fault with its cause and address, or a line it waits for. -/
inductive EngStop where
  | fault (code va : Nat)
  | fetch (peer page line : Nat)
  deriving DecidableEq, Repr

/-- Bytes that engines of a partition read in the place of those in memory (R85): what stood in a word before an access of
which only some units have been performed; for an operation of one of the groups given also what stood there before the
group's stores since its last release fence, while one of them to that word is not performed. -/
def State.heldBack (s : State) (part : Nat) (of : List GRef) : List (Loc × Byte) :=
  s.groups.flatMap fun g =>
    if g.ref.part ≠ part ∨ g.stores.isEmpty then []
    else (if of.contains g.ref then g.before.filter fun e => g.stores.any (·.touches e.1) else []) ++ g.stores.flatMap (·.olds)
/-- The byte that an engine reads at a place: a listed one, or the one there. -/
def State.readBy (s : State) (got : List (Loc × Byte)) (l : Loc) : Byte := (byteAt got l).getD (s.peek l)
/-- Bytes an engine reads, with those it read before writes that raced with it; `of` are the groups it works for. -/
def engineBytes (s : State) (p : Part) (va n k : Nat) (code : Bool) (got : List (Loc × Byte) := []) (of : List GRef := []) :
    Except EngStop (List Byte) :=
  match engine s p va n k false code with
  | .ok ls _ => .ok (ls.map (s.readBy (got ++ s.heldBack p.id of)))
  | .fail t a => .error (.fault t.code a)
  | .fetch a b c => .error (.fetch a b c)

/-- The words of an engine's read of global memory, and of the table entries it is translated by, are recalled from the
L1s that own them (R77). -/
def State.recallVa (s : State) (p : Part) (va n : Nat) : State :=
  let s := if (p.tlbFor va).isEmpty then s.recalls (walkPlaces s p va) else s
  match engine s p va n (va / 65536) false false with
  | .ok ls _ => s.recalls ls
  | _ => s

/-! ### Mixed-size debug mode (R82) -/

/-- The address a record of R82 is kept under: physical memory, or chip scratchpad above it. -/
def mixAddr : Loc → Option Nat
  | .mem pa _ => some pa
  | .chip o => some (2 ^ 48 + o)
  | _ => none

/-- A strong access of this size by this group meets a record of another size and group. The record goes with its line
from the L2 (R57). -/
def mixedHit (p : Part) (g : GRef) (a : Acc) (n : Nat) : Bool :=
  prMixDbg p.prec && match a.locs.head?.bind mixAddr with
    | some x => p.mixed.any fun m => m.1 < x + n && x < m.1 + m.2.1 && m.2.1 != n && m.2.2 != g
    | none => false
/-- The record of R82 left by a strong access. -/
def Part.mix (p : Part) (g : GRef) (a : Acc) (n : Nat) : Part :=
  if prMixDbg p.prec then
    match a.locs.head?.bind mixAddr with
    | some x => { p with mixed := (x, n, g) :: p.mixed.filter fun m => m.1 / 16 ≠ x / 16 }
    | none => p
  else p

end Sys2Proof.Machine
end

