-- ==== Sys2Proof/Machine/Budget.lean ====
section
/-!
DEFINITION. Exact accumulation: magnitudes, accumulation buffers and trackers, and the budget protocol
with its homes (R89 to R109).
-/
namespace Sys2Proof.Machine

/-! ### The magnitude format (R96) -/

/-- The greatest magnitude that can be represented. -/
def magMax : Nat := 2047 * 2 ^ 62
/-- The step between magnitudes at a value: values below 2048 are all representable. -/
def magStep (v : Nat) : Nat := 2 ^ (Nat.log2 v - 10)
/-- The greatest representable value at or below v. -/
def roundDown16 (v : Nat) : Nat := if magMax ≤ v then magMax else v / magStep v * magStep v
/-- The least representable value at or above v, if there is one. -/
def roundUp16 (v : Nat) : Option Nat :=
  let r := (v + magStep v - 1) / magStep v * magStep v
  if r ≤ magMax then some r else none

/-! ### Budget homes (R94) -/

/-- A home with nothing granted. -/
def Home.new (r : Nat) : Home :=
  { region := r, b := [], jobs := [], await := none, msgs := [], quiet := [], locked := false, desc := none }

def Part.home (p : Part) (r : Nat) : Home := (p.homes.find? fun h => h.region = r).getD (Home.new r)
def Part.setHome (p : Part) (h : Home) : Part := { p with homes := h :: p.homes.filter fun k => k.region ≠ h.region }

namespace State
/-- Changes the budget home of a region. -/
def onHome (s : State) (part r : Nat) (f : Home → Home) : State :=
  match s.part? part with
  | some p => s.setPart (p.setHome (f (p.home r)))
  | none => s
/-- The budget home of a region. -/
def home (s : State) (part r : Nat) : Home := ((s.part? part).map fun p => p.home r).getD (Home.new r)
/-- The descriptor a home serves. -/
def homeDesc (s : State) (part r : Nat) : BitVec 256 := ((s.part? part).map fun p => descOf s p r).getD 0
/-- Sends a budget message. -/
def bsend (s : State) (part r : Nat) (m : BMsg) : State := s.onHome part r fun h => { h with msgs := h.msgs ++ [m] }
end State

/-- The core a budget message is from or to, and whether it goes to the home. -/
def BMsg.core : BMsg → Nat
  | .breq c _ _ | .bgrant c _ | .bdeny c | .drain c | .split c | .kack c _ _ | .bret c _ _ => c
def BMsg.toHome : BMsg → Bool
  | .breq _ _ _ | .kack _ _ _ | .bret _ _ _ => true
  | _ => false

/-- The messages that may arrive next: between a core and the home, in the order they were sent (log 15). -/
def Home.next (h : Home) : List BMsg :=
  (h.msgs.foldl (fun (r : List (Nat × Bool) × List BMsg) m =>
    if r.1.contains (m.core, m.toHome) then r else ((m.core, m.toHome) :: r.1, r.2 ++ [m])) ([], [])).2
/-- Takes a message out of those in flight. -/
def Home.take (h : Home) (m : BMsg) : Home := { h with msgs := h.msgs.erase m }

/-- Budget granted to a core, and to all. -/
def Home.granted (h : Home) (c : Nat) : Nat := getKey h.b c 0
def Home.sum (h : Home) : Nat := h.b.foldl (fun n e => n + e.2) 0
/-- Budget returned by a core (R101). DESIGN CHOICE (log 98): what a core returns beyond b(c), as after R100's return of
a whole grant that came to no tracker, leaves b(c) at 0. With no budget held anywhere the descriptor copy goes (R93);
DESIGN CHOICE (log 99): a copy read for a use that led to no grant stays until then, or until the region is unlocked. -/
def Home.returned (h : Home) (c ret : Nat) : Home :=
  let b := (setKey h.b c (h.granted c - ret)).filter fun e => e.2 ≠ 0
  { h with b := b, desc := if b.isEmpty then none else h.desc }

/-- Holders, the largest budget first and among equal budgets the lowest core (R104). -/
def insertHolder (x : Nat × Nat) : List (Nat × Nat) → List (Nat × Nat)
  | [] => [x]
  | y :: ys => if y.2 < x.2 ∨ (y.2 = x.2 ∧ x.1 < y.1) then x :: y :: ys else y :: insertHolder x ys
def Home.holders (h : Home) : List (Nat × Nat) := (h.b.filter fun e => e.2 ≠ 0).foldl (fun l e => insertHolder e l) []

/-- The holders a quiet selects while the budgets left exceed the tolerance (R104). -/
def selectHolders (tau : Nat) : List (Nat × Nat) → List Nat
  | [] => []
  | e :: es => if tau < (e :: es).foldl (fun n x => n + x.2) 0 then e.1 :: selectHolders tau es else []

/-- The head job of a home is done. -/
def Home.pop (h : Home) : Home := { h with jobs := h.jobs.tail, await := none }

/-- Answers a budget request whose knells have been answered (R101). -/
def serveBreq (s : State) (part r c min want : Nat) : State :=
  let h := (s.home part r)
  let lim := rdLimit (s.homeDesc part r)
  let f := lim - h.sum
  if h.locked || h.granted c + f < min then (s.onHome part r Home.pop).bsend part r (.bdeny c)
  else
    let b := Nat.min want (roundDown16 (h.granted c + f))
    (s.onHome part r fun h => { h.pop with b := setKey h.b c b }).bsend part r (.bgrant c b)

/-- A quiet is complete: whoever asked may go on. A region lock then takes effect (R420). -/
def quietDone (s : State) (part r : Nat) (who : Asker) : State :=
  s.onHome part r fun h =>
    { h.pop with quiet := if who = .nobody ∨ who = .lock then h.quiet else who :: h.quiet, locked := h.locked || who == .lock }

/-- A home's budget requests, in arrival order up to the first that waits; a quiet at the head waits for
its own step (R94, R101). -/
def homeRun (part r : Nat) : Nat → State → State
  | 0, s => s
  | n + 1, s =>
    let h := s.home part r
    match h.jobs, h.await with
    | .breq c min want :: _, none =>
      let others := (h.holders.map (·.1)).filter (· ≠ c)
      if !h.locked && h.granted c + (rdLimit (s.homeDesc part r) - h.sum) < want && !others.isEmpty then
        others.foldl (fun s o => s.bsend part r (.split o)) (s.onHome part r fun h => { h with await := some others })
      else homeRun part r n (serveBreq s part r c min want)
    | .bret c ret :: _, none => homeRun part r n (s.onHome part r fun h => (h.returned c ret).pop)
    | .breq c min want :: _, some [] => homeRun part r n (serveBreq s part r c min want)
    | .quiet _ who _ _ :: _, some [] => homeRun part r n (quietDone s part r who)
    | _, _ => s

/-- Runs a home as far as it goes. -/
def State.runHome (s : State) (part r : Nat) : State := homeRun part r ((s.home part r).jobs.length + 1) s

/-- Adds a job to a home. -/
def State.homeJob (s : State) (part r : Nat) (j : HJob) : State :=
  (s.onHome part r fun h => { h with jobs := h.jobs ++ [j] }).runHome part r

/-! ### Cores (R96, R97, R100) -/

def Core.tracker (c : Core) (r : Nat) : Option Tracker := c.trk.find? fun t => t.region = r
/-- A budget request of the core for a region is outstanding. -/
def Core.asksFor (c : Core) (r : Nat) : Bool := c.asks.any fun e => e.1 = r
/-- A tracker in use becomes the most recently used. -/
def Core.setTracker (c : Core) (t : Tracker) : Core := { c with trk := t :: c.trk.filter fun u => u.region ≠ t.region }
def Core.dropTracker (c : Core) (r : Nat) : Core := { c with trk := c.trk.filter fun u => u.region ≠ r }

/-- The partial sums of a line. -/
def ALine.parts (l : ALine) (core t : Nat) : List Partial :=
  (List.finRange 8).filterMap fun i =>
    if l.sums.get i = 0 then none
    else some ⟨core, l.region, l.line * 128 + 16 * i.val, l.sums.get i, t⟩

namespace State
/-- Sends partial sums to their data homes. -/
def sendPartials (s : State) (part : Nat) (ps : List Partial) : State :=
  { s with partials := s.partials ++ ps.map fun x => (part, x) }
/-- Drains the lines of a core that a test selects (R97, R107). -/
def drainLines (s : State) (part core : Nat) (sel : ALine → Bool) : State :=
  let c := s.core core
  (s.setCore { c with abuf := c.abuf.filter (fun l => !sel l) }).sendPartials part
    ((c.abuf.filter sel).flatMap fun l => l.parts core s.tick)
/-- M is reset only when the core holds no withheld line of the region (R97). -/
def resetM (s : State) (core r : Nat) : State :=
  let c := s.core core
  if c.abuf.any fun l => l.region = r then s
  else s.setCore { c with trk := c.trk.map fun t => if t.region = r then { t with m := 0 } else t }
/-- Drains a region's lines of a core and gives its tracker up with a message (R100). -/
def giveUp (s : State) (part core r : Nat) (m : Nat → BMsg) : State :=
  let b := (((s.core core).tracker r).map (·.b)).getD 0
  let s := s.drainLines part core fun l => l.region == r
  (s.setCore ((s.core core).dropTracker r)).bsend part r (m b)
/-- Gives up a tracker that is evicted or saved: its budget goes back by BRET, and a request of the core that is
outstanding remembers it. -/
def evictTracker (s : State) (part core r : Nat) : State :=
  let b := (((s.core core).tracker r).map (·.b)).getD 0
  let s := s.giveUp part core r fun b => .bret core b s.tick
  s.setCore { s.core core with asks := (s.core core).asks.map fun e => if e.1 = r then (r, e.2 + b) else e }
/-- Drains a core's whole buffer and returns every budget (R108, R109). -/
def drainAll (s : State) (part core : Nat) : State :=
  (s.core core).trk.foldl (fun s t => s.evictTracker part core t.region)
    (s.drainLines part core fun _ => true)
/-- The tracker for an addition, allocated where the core has none; the 65th evicts the least recently
used one (R97). -/
def trackerFor (s : State) (part core r : Nat) : State × Tracker :=
  match (s.core core).tracker r with
  | some t => (s.setCore ((s.core core).setTracker t), t)
  | none =>
    let s := match (s.core core).trk.reverse with
      | u :: _ => if 64 ≤ (s.core core).trk.length
          then s.evictTracker part core u.region else s
      | [] => s
    let d := s.homeDesc part r
    let s := s.onHome part r fun h => { h with desc := some (h.desc.getD d) }
    let t : Tracker := ⟨r, 0, 0, rdExp d, rdPol d, rdLimit d⟩
    (s.setCore ((s.core core).setTracker t), t)
/-- Adds to the partial sum of a word; a line that does not fit evicts the least recently used. -/
def withhold (s : State) (part core r word : Nat) (n : BitVec 128) : State :=
  let c := s.core core
  let line := word / 128
  let i : Fin 8 := ⟨word / 16 % 8, Nat.mod_lt _ (by decide)⟩
  match c.abuf.find? fun l => l.region = r ∧ l.line = line with
  | some l =>
    let rest := c.abuf.filter fun k => ¬(k.region = r ∧ k.line = line)
    s.setCore { c with abuf := { l with sums := l.sums.set i.val (l.sums[i.val] + n) } :: rest }
  | none =>
    let s := match c.abuf.reverse with
      | e :: _ => if 512 ≤ c.abuf.length then (s.drainLines part core fun l => l == e).resetM core e.region else s
      | [] => s
    let c := s.core core
    s.setCore { c with abuf := ⟨r, line, (Vector.replicate 8 0).set i.val n⟩ :: c.abuf }
/-- An addition n to a word of a region by a core (R97); n = 0 has no effect (R90). -/
def accAdd (s : State) (part core r word : Nat) (n : Int) : State :=
  if n = 0 then s
  else
    let (s, t) := s.trackerFor part core r
    let v := BitVec.ofInt 128 n
    let up := roundUp16 (t.m + n.natAbs)
    if up.any fun u => u ≤ t.b then
      (s.withhold part core r word v).setCore
        (((s.withhold part core r word v).core core).setTracker { t with m := up.getD 0 })
    else
      let s := s.sendPartials part [⟨core, r, word, v, s.tick⟩]
      match up with
      | some min =>
        if min ≤ t.limit ∧ ¬(s.core core).asksFor r then
          let want := (roundUp16 (Nat.min (2 * min) t.limit)).getD 0
          (s.setCore { s.core core with asks := (r, 0) :: (s.core core).asks }).bsend part r (.breq core min want)
        else s
      | none => s
/-- Partial sums and direct additions of a core that were sent up to an instant are performed (R106). -/
def sentDone (s : State) (part core upTo : Nat) (r : Option Nat) : Bool :=
  !s.partials.any fun e => e.1 == part && e.2.core == core && e.2.sent ≤ upTo && (r.all fun k => e.2.region == k)
end State

/-! ### Quiets (R104, R105) -/

/-- Quiets under way or complete for someone. -/
def Home.asked (h : Home) (who : Asker) : Bool :=
  h.jobs.any fun j => match j with | .quiet _ w _ _ => w == who | _ => false

/-- A quiet of a stream of a group. -/
def Asker.ofStream (r : GRef) (st : Stream) : Asker → Bool
  | .stream g x _ => g == r && x == st
  | _ => false
/-- A stream of a group has asked for a quiet, or has one. -/
def Home.askedBy (h : Home) (r : GRef) (st : Stream) : Bool :=
  h.quiet.any (Asker.ofStream r st) || h.jobs.any fun j => match j with | .quiet _ w _ _ => Asker.ofStream r st w | _ => false

namespace State
/-- Quiets that an earlier instruction of the stream that asks has left are used by none. -/
def forgetEarlier (s : State) (part : Nat) (who : Asker) : State :=
  match who with
  | .stream r st _ =>
    if (s.part? part).any fun p => p.homes.any fun h => h.quiet.any (fun w => Asker.ofStream r st w && w != who) ||
        h.jobs.any fun j => match j with | .quiet _ w _ _ => Asker.ofStream r st w && w != who | _ => false
    then s.forgetQuiet part fun w => Asker.ofStream r st w && w != who else s
  | _ => s
/-- Asks for a quiet; with nothing to knell and nothing before it, it is complete at once. -/
def askQuiet (s : State) (part r : Nat) (who : Asker) (tau : Nat) (but : Option Nat) : State :=
  let h := s.home part r
  if h.quiet.contains who || h.asked who then s
  else if h.jobs.isEmpty && (selectHolders tau (h.holders.filter fun e => but ≠ some e.1)).isEmpty then
    s.onHome part r fun h => { h with quiet := who :: h.quiet }
  else (s.fresh).homeJob part r (.quiet s.nextId who tau but)
/-- A quiet that was asked for is complete. -/
def isQuiet (s : State) (part r : Nat) (who : Asker) : Bool := (s.home part r).quiet.contains who
/-- A complete quiet is used. -/
def useQuiet (s : State) (part r : Nat) (who : Asker) : State :=
  s.onHome part r fun h => { h with quiet := h.quiet.filter fun w => w ≠ who }
/-- Asks for the quiets of a list of regions at their tolerances; the answer tells whether all are
complete. -/
def quiets (s : State) (part : Nat) (rs : List (Nat × Nat)) (who : Asker) (but : Option Nat) : State × Bool :=
  let s := rs.foldl (fun s e => s.askQuiet part e.1 who e.2 but) (s.forgetEarlier part who)
  (s, rs.all fun e => s.isQuiet part e.1 who)
end State

/-! ### Steps of the protocol -/

/-- A message from a core arrives at the home of its region: the message is in flight, is the next of its
core, and the partial sums it waits for have been performed. -/
def arrives (s : State) (part r : Nat) (ok : BMsg → Bool) (k : BMsg → State → State) : Out :=
  match (s.home part r).next.find? ok with
  | some m =>
    let due := match m with
      | .kack c _ t | .bret c _ t => s.sentDone part c t (some r)
      | _ => true
    .next (if due then k m (s.onHome part r fun h => h.take m) else s)
  | none => .next s

/-- `BREQ` (R101). -/
def execBreq (part core region min want : Nat) (s : State) : Out :=
  arrives s part region (· == .breq core min want) fun _ s => s.homeJob part region (.breq core min want)

/-- `BGRANT` (R100): without a tracker the budget is returned at once. DESIGN CHOICE (log 98): a tracker allocated since
the request was sent takes the grant less the budget that the core has returned by BRET meanwhile, which R102 asks
for: the home has granted it, and takes it back when the BRET arrives. The difference is kept as it is, although the
16-bit magnitude format could not represent every such number (R96). -/
def execBgrant (part core region b : Nat) (s : State) : Out :=
  arrives s part region (· == .bgrant core b) fun _ s =>
    let c := s.core core
    let back := getKey c.asks region 0
    let s := s.setCore { c with asks := c.asks.filter (·.1 ≠ region) }
    match c.tracker region with
    | some _ =>
      let c := s.core core
      s.setCore { c with trk := c.trk.map fun u => if u.region = region then { u with b := b - back } else u }
    | none => s.bsend part region (.bret core b s.tick)

/-- `BDENY` (R100). -/
def execBdeny (part core region : Nat) (s : State) : Out :=
  arrives s part region (· == .bdeny core) fun _ s =>
    let c := s.core core
    let s := s.setCore { c with asks := c.asks.filter (·.1 ≠ region) }
    match c.tracker region with
    | some t =>
      let s := s.drainLines part core fun l => l.region == region
      if 0 < t.b then s.resetM core region else s.setCore ((s.core core).dropTracker region)
    | none => s

/-- The drain knell (R100): from ASK the core stays in ASK. -/
def execDrainKnell (part core region : Nat) (s : State) : Out :=
  arrives s part region (· == .drain core) fun _ s =>
    match (s.core core).tracker region with
    | some t =>
      if (s.core core).asksFor region then
        let s := (s.drainLines part core fun l => l.region == region).bsend part region (.kack core t.b s.tick)
        let c := s.core core
        s.setCore { c with trk := c.trk.map fun u => if u.region = region then { u with b := 0, m := 0 } else u }
      else s.giveUp part core region fun b => .kack core b s.tick
    | none => s.bsend part region (.kack core 0 s.tick)

/-- The split knell (R100). -/
def execSplitKnell (part core region : Nat) (s : State) : Out :=
  arrives s part region (· == .split core) fun _ s =>
    match (s.core core).tracker region with
    | some t =>
      let b := Nat.max ((roundUp16 t.m).getD t.m) (roundDown16 (t.b / 2))
      let c := s.core core
      (s.setCore { c with trk := c.trk.map fun u => if u.region = region then { u with b := b } else u }).bsend part region
        (.kack core (t.b - b) s.tick)
    | none => s.bsend part region (.kack core 0 s.tick)

/-- `KACK` (R101). -/
def execKack (part core region ret : Nat) (s : State) : Out :=
  arrives s part region (fun m => match m with | .kack c n _ => c == core && n == ret | _ => false) fun _ s =>
    (s.onHome part region fun h =>
      { h.returned core ret with await := h.await.map fun l => l.filter (· ≠ core) }).runHome part region

/-- `BRET` (R101), handled in arrival order with the requests and quiets (R94). -/
def execBret (part core region ret : Nat) (s : State) : Out :=
  arrives s part region (fun m => match m with | .bret c n _ => c == core && n == ret | _ => false) fun _ s =>
    s.homeJob part region (.bret core ret)

/-- A quiet at the head of a home's jobs selects the holders it knells, or is complete (R104, R105). -/
def execToleranceQuiet (part region id : Nat) (s : State) : Out :=
  let h := s.home part region
  match h.jobs, h.await with
  | .quiet i who tau but :: _, none =>
    if i = id then
      let sel := selectHolders tau (h.holders.filter fun e => but ≠ some e.1)
      if sel.isEmpty then .next ((quietDone s part region who).runHome part region)
      else .next (sel.foldl (fun s o => s.bsend part region (.drain o))
        (s.onHome part region fun h => { h with await := some sel }))
    else .next s
  | _, _ => .next s

/-- A direct addition or drained partial sum is performed at its data home (R97): N := (N + n) mod 2¹²⁸. -/
def execPartialSumPerformed (part core word n : Nat) (s : State) : Out :=
  match s.partials.find? fun e => e.1 = part ∧ e.2.core = core ∧ e.2.word = word ∧ e.2.n.toNat = n with
  | some e =>
    match s.hostHeld word 16 with
    | some l => .next (s.askHost l)
    | none =>
    let k := ((s.part? part).map (·.key)).getD 0
    let s := { s with partials := s.partials.erase e }
    .next (s.wrMem word 16 ((s.rdMem word 16 k + n) % 2 ^ 128) k)
  | none => .next s

/-- Budget steps that may come next. -/
def budgetMoves (s : State) : List Instr :=
  s.parts.flatMap fun p => p.homes.flatMap fun h =>
    (h.next.map fun m => match m with
      | .breq c a b => .breq p.id c h.region a b
      | .bgrant c b => .bgrant p.id c h.region b
      | .bdeny c => .bdeny p.id c h.region
      | .drain c => .drainKnell p.id c h.region
      | .split c => .splitKnell p.id c h.region
      | .kack c n _ => .kack p.id c h.region n
      | .bret c n _ => .bret p.id c h.region n) ++
    (match h.jobs, h.await with
      | .quiet i _ _ _ :: _, none => [.toleranceQuiet p.id h.region i]
      | _, _ => [])

end Sys2Proof.Machine
end

