-- ==== Sys2Proof/Machine/Flags.lean ====
section
/-!
DEFINITION. Number formats and every flag computation: exact values, rounding, the float formats, q4 and
XSF words (R89, R90, R112 to R134).
-/
namespace Sys2Proof.Machine

/-! ### Flags (R131) -/

abbrev FFlags := BitVec 5
def flagNV : FFlags := 1
def flagDZ : FFlags := 2
def flagOF : FFlags := 4
def flagUF : FFlags := 8
def flagNX : FFlags := 16

/-! ### Exact values -/

/-- A NaN (signalling or quiet), an infinity, or ± num / den with den > 0; zero keeps a sign. -/
inductive FVal where
  | nan (signalling : Bool)
  | inf (neg : Bool)
  | fin (neg : Bool) (num den : Nat)
  deriving DecidableEq, Repr

/-- m × 2^e. -/
def FVal.dyadic (neg : Bool) (m : Nat) (e : Int) : FVal :=
  if 0 ≤ e then .fin neg (m * 2 ^ e.toNat) 1 else .fin neg m (2 ^ (-e).toNat)
/-- An integer, +0 for zero. -/
def FVal.ofInt (n : Int) : FVal := .fin (decide (n < 0)) n.natAbs 1
/-- A value times 2^e. -/
def FVal.scale (e : Int) : FVal → FVal
  | .fin s n d => if 0 ≤ e then .fin s (n * 2 ^ e.toNat) d else .fin s n (d * 2 ^ (-e).toNat)
  | v => v
def FVal.isNan : FVal → Bool
  | .nan _ => true
  | _ => false
def FVal.isSig : FVal → Bool
  | .nan s => s
  | _ => false
def FVal.negate : FVal → FVal
  | .fin s n d => .fin (!s) n d
  | .inf s => .inf (!s)
  | v => v
/-- The sign bit of a value that is not a NaN. -/
def FVal.neg : FVal → Bool
  | .fin s _ _ => s
  | .inf s => s
  | .nan _ => false
/-- The signed numerator of a finite value. -/
def signed (neg : Bool) (n : Nat) : Int := if neg then -(n : Int) else n

/-! ### Formats (R112, R113) -/

def expBits : LTy → Nat
  | .f64 => 11 | .f32 => 8 | .f16 => 5 | .bf16 => 8 | .e4m3 => 4 | .e5m2 => 5 | _ => 0
def bias (t : LTy) : Nat := 2 ^ (expBits t - 1) - 1
def emin (t : LTy) : Int := 1 - (bias t : Int)
/-- The largest finite value as an integer times 2^q. -/
def maxFin (t : LTy) : Nat × Int :=
  if t = .e4m3 then (14, 5) else (2 ^ t.prec - 1, (bias t : Int) - t.prec + 1)
def signBit (t : LTy) : Nat := 2 ^ (8 * t.bytes - 1)
def defaultNan : LTy → Nat
  | .f64 => 0x7FF8000000000000 | .f32 => 0x7FC00000 | .f16 => 0x7E00 | .bf16 => 0x7FC0 | .e4m3 => 0x7F | .e5m2 => 0x7E
  | _ => 0
def infBits : LTy → Nat
  | .f64 => 0x7FF0000000000000 | .f32 => 0x7F800000 | .f16 => 0x7C00 | .bf16 => 0x7F80 | .e5m2 => 0x7C | _ => 0
/-- The encoding of the largest finite value. -/
def maxBits (t : LTy) : Nat := if t = .e4m3 then 0x7E else infBits t - 1
def withSign (t : LTy) (neg : Bool) (b : Nat) : Nat := if neg then b + signBit t else b

/-- The value of an encoding (R112, R114). -/
def decodeF (t : LTy) (b : Nat) : FVal :=
  let p := t.prec
  let s := decide (b / signBit t % 2 = 1)
  let x := b / 2 ^ (p - 1) % 2 ^ expBits t
  let f := b % 2 ^ (p - 1)
  if t = .e4m3 then
    if x = 15 ∧ f = 7 then .nan false
    else if x = 0 then .dyadic s f (-9) else .dyadic s (8 + f) (x - 10)
  else if x = 2 ^ expBits t - 1 then
    if f = 0 then .inf s else .nan (t ≠ .e5m2 && f < 2 ^ (p - 2))
  else if x = 0 then .dyadic s f (emin t - p + 1)
  else .dyadic s (2 ^ (p - 1) + f) ((x : Int) - bias t - p + 1)

/-- The encoding of k × 2^q, a value of the format. -/
def encodeF (t : LTy) (neg : Bool) (k : Nat) (q : Int) : Nat :=
  let p := t.prec
  let (k, q) := if 2 ^ p ≤ k then (k / 2, q + 1) else (k, q)
  if k < 2 ^ (p - 1) then withSign t neg k
  else withSign t neg ((q + (p - 1) + bias t).toNat * 2 ^ (p - 1) + (k - 2 ^ (p - 1)))

/-! ### Rounding (R121, R124) -/

/-- The multiple of u = 2^q that Round picks for n / d, and whether it is exact. -/
def roundMul (n : Int) (d : Nat) (q : Int) (mode : Rnd) (r : Nat) : Int × Bool :=
  let n := if 0 ≤ q then n else n * 2 ^ (-q).toNat
  let d : Int := if 0 ≤ q then d * 2 ^ q.toNat else d
  let lo := n / d
  let rem := n % d
  if rem = 0 then (lo, true)
  else
    (match mode with
      | .rn => if 2 * rem < d then lo else if d < 2 * rem then lo + 1 else if lo % 2 = 0 then lo else lo + 1
      | .rz => if 0 < n then lo else lo + 1
      | .rd => lo
      | .ru => lo + 1
      | .rs => if (r : Int) < rem * 2 ^ 32 / d then lo + 1 else lo, false)

/-- floor(log2 (n / d)). -/
def log2Q (n d : Nat) : Int :=
  let l : Int := (Nat.log2 n : Int) - Nat.log2 d
  if (if 0 ≤ l then decide (d * 2 ^ l.toNat ≤ n) else decide (d ≤ n * 2 ^ (-l).toNat)) then l else l - 1

def towardZero (mode : Rnd) (neg : Bool) : Bool :=
  match mode with
  | .rz => true
  | .rd => !neg
  | .ru => neg
  | _ => false

/-- FloatRound (R124): the encoding and the flags. -/
def floatRound (t : LTy) (v : FVal) (mode : Rnd) (sat : Bool) (r : Nat) : Nat × FFlags :=
  match v with
  | .nan s => (defaultNan t, if s then flagNV else 0)
  | .inf s =>
    if sat then (withSign t s (maxBits t), flagOF ||| flagNX)
    else if t = .e4m3 then (defaultNan t, flagNV)
    else (withSign t s (infBits t), 0)
  | .fin s n d =>
    if n = 0 then (withSign t s 0, 0)
    else
      let e := log2Q n d
      let q := (if e < emin t then emin t else e) - t.prec + 1
      let (k, exact) := roundMul (signed s n) d q mode r
      let fl : FFlags := if exact then 0 else if e < emin t then flagUF ||| flagNX else flagNX
      let (mk, mq) := maxFin t
      let big := if q ≤ mq then decide (mk * 2 ^ (mq - q).toNat < k.natAbs) else k ≠ 0
      if big then
        (if sat || towardZero mode s then withSign t s (maxBits t)
         else if t = .e4m3 then defaultNan t else withSign t s (infBits t), fl ||| flagOF ||| flagNX)
      else (encodeF t s k.natAbs q, fl)

/-! ### Exact arithmetic (R126, R127) -/

/-- The sum of two values that are not NaN, in a rounding mode. -/
def FVal.add (mode : Rnd) : FVal → FVal → FVal × FFlags
  | .inf a, .inf b => if a = b then (.inf a, 0) else (.nan false, flagNV)
  | .inf a, _ => (.inf a, 0)
  | _, .inf b => (.inf b, 0)
  | .fin a n d, .fin b m e =>
    let x := signed a n * e + signed b m * d
    if x = 0 then (.fin (if a = b then a else mode == .rd) 0 1, 0)
    else (.fin (decide (x < 0)) x.natAbs (d * e), 0)
  | _, _ => (.nan false, 0)
/-- The product of two values that are not NaN. -/
def FVal.mul : FVal → FVal → FVal × FFlags
  | .inf a, .inf b => (.inf (a != b), 0)
  | .inf a, .fin b m _ => if m = 0 then (.nan false, flagNV) else (.inf (a != b), 0)
  | .fin a n _, .inf b => if n = 0 then (.nan false, flagNV) else (.inf (a != b), 0)
  | .fin a n d, .fin b m e => (.fin (a != b) (n * m) (d * e), 0)
  | _, _ => (.nan false, 0)
/-- 1 / v for a value that is not NaN. -/
def FVal.rcp : FVal → FVal × FFlags
  | .inf a => (.fin a 0 1, 0)
  | .fin a n d => if n = 0 then (.inf a, flagDZ) else (.fin a d n, 0)
  | v => (v, 0)

/-- The integer square root, by Newton steps from above; the fuel is twice the number of bits. -/
def isqrtFrom (n : Nat) : Nat → Nat → Nat
  | 0, x => x
  | f + 1, x => let y := (x + n / x) / 2; if y < x then isqrtFrom n f y else x
def isqrt (n : Nat) : Nat := if n = 0 then 0 else isqrtFrom n (2 * Nat.log2 n + 2) (2 ^ (Nat.log2 n / 2 + 1))

/-- A value that every format rounds like the square root of n / d: the root where it is a multiple of
2^−t, else a value inside the same interval of width 2^−t, t leaving more than 100 significant bits. -/
def sqrtProxy (n d : Nat) : FVal :=
  let t := 128 + (if n < d then Nat.log2 d - Nat.log2 n + 1 else 0)
  let x := n * 4 ^ t / d
  let k := isqrt x
  if k * k = x ∧ x * d = n * 4 ^ t then .fin false k (2 ^ t) else .fin false (2 * k + 1) (2 ^ (t + 1))

/-- The square root of a value that is not NaN. -/
def FVal.sqrt : FVal → FVal × FFlags
  | .inf false => (.inf false, 0)
  | .fin s n d => if n = 0 then (.fin s 0 1, 0) else if s then (.nan false, flagNV) else (sqrtProxy n d, 0)
  | .inf true => (.nan false, flagNV)
  | v => (v, 0)

/-- NaN operands decide first: a signalling one sets NV, and the result is the default NaN. -/
def nanOr (t : LTy) (vs : List FVal) (f : Unit → Nat × FFlags) : Nat × FFlags :=
  if vs.any FVal.isSig then (defaultNan t, flagNV)
  else if vs.any FVal.isNan then (defaultNan t, 0)
  else f ()

/-- Rounds an exact result with its own flags. -/
def finish (t : LTy) (mode : Rnd) (sat : Bool) (x : FVal × FFlags) : Nat × FFlags :=
  let r := floatRound t x.1 mode sat 0
  (r.1, r.2 ||| x.2)

def fAdd (t : LTy) (mode : Rnd) (a b : FVal) : Nat × FFlags := nanOr t [a, b] fun _ => finish t mode false (a.add mode b)
def fMul (t : LTy) (mode : Rnd) (a b : FVal) : Nat × FFlags := nanOr t [a, b] fun _ => finish t mode false (a.mul b)
/-- a × b + c, rounded once; 0 × ∞ sets NV also when c is a quiet NaN. -/
def fFma (t : LTy) (mode : Rnd) (a b c : FVal) : Nat × FFlags :=
  if [a, b, c].any FVal.isSig then (defaultNan t, flagNV)
  else if a.isNan || b.isNan then (defaultNan t, 0)
  else
    let p := a.mul b
    if p.1.isNan then (defaultNan t, p.2)
    else if c.isNan then (defaultNan t, 0)
    else finish t mode false (p.1.add mode c)
def fRcp (t : LTy) (mode : Rnd) (a : FVal) : Nat × FFlags := nanOr t [a] fun _ => finish t mode false a.rcp
def fSqrt (t : LTy) (mode : Rnd) (a : FVal) : Nat × FFlags := nanOr t [a] fun _ => finish t mode false a.sqrt

/-- Less than, for values that are not NaN. -/
def FVal.lt : FVal → FVal → Bool
  | .inf a, .inf b => a && !b
  | .inf a, .fin _ _ _ => a
  | .fin _ _ _, .inf b => !b
  | .fin a n d, .fin b m e => signed a n * e < signed b m * d
  | _, _ => false
/-- Equal as numbers: −0 equals +0. -/
def FVal.eqv (a b : FVal) : Bool := !a.isNan && !b.isNan && !a.lt b && !b.lt a
/-- Less than in the order where −0 is below +0 (R128). -/
def FVal.ltZ (a b : FVal) : Bool := a.lt b || (a.eqv b && a.neg && !b.neg)

/-- Minimum and maximum (R128), on encodings. -/
def fMinMax (t : LTy) (max : Bool) (a b : Nat) : Nat × FFlags :=
  let x := decodeF t a
  let y := decodeF t b
  let fl : FFlags := if x.isSig || y.isSig then flagNV else 0
  if x.isNan && y.isNan then (defaultNan t, fl)
  else if x.isNan then (b, fl)
  else if y.isNan then (a, fl)
  else (if (if max then y.ltZ x else x.ltZ y) then a else b, fl)

/-! ### Conversions (R130) -/

/-- Minimum and maximum of an integer type. -/
def intMin (t : LTy) : Int := if t.isSigned then -(2 ^ (8 * t.bytes - 1)) else 0
def intMax (t : LTy) : Int := if t.isSigned then 2 ^ (8 * t.bytes - 1) - 1 else 2 ^ (8 * t.bytes) - 1
/-- The integer that bits of a type stand for. -/
def asInt (t : LTy) (b : Nat) : Int :=
  if t.isSigned && 2 ^ (8 * t.bytes - 1) ≤ b then (b : Int) - 2 ^ (8 * t.bytes) else b
/-- An integer in a type, modulo 2^width. -/
def wrapInt (t : LTy) (n : Int) : Nat := (n % 2 ^ (8 * t.bytes)).toNat
/-- An integer clamped to a type. -/
def clampInt (t : LTy) (n : Int) : Int := if n < intMin t then intMin t else if intMax t < n then intMax t else n

/-- Float to integer. -/
def floatToInt (t : LTy) (v : FVal) (mode : Rnd) : Nat × FFlags :=
  match v with
  | .nan _ => (0, flagNV)
  | .inf s => (wrapInt t (if s then intMin t else intMax t), flagNV)
  | .fin s n d =>
    let (k, exact) := roundMul (signed s n) d 0 mode 0
    if k < intMin t ∨ intMax t < k then (wrapInt t (clampInt t k), flagNV)
    else (wrapInt t k, if exact then 0 else flagNX)

/-! ### XSF words (R89, R90, R120) -/

/-- What XsfFromF32 gives: the grid integer n, its flags, and whether x was a NaN or was clamped. -/
structure Grid where
  n     : Int
  flags : FFlags
  nan   : Bool
  big   : Bool
  deriving DecidableEq, Repr

/-- XsfFromF32 (R90). -/
def xsfFrom (v : FVal) (e : Int) : Grid :=
  match v.scale (-e) with
  | .nan _ => ⟨0, flagNV, true, false⟩
  | .inf s => ⟨signed s (2 ^ 100 - 1), flagOF ||| flagNX, false, true⟩
  | .fin s n d =>
    let (k, exact) := roundMul (signed s n) d 0 .rn 0
    if 2 ^ 100 ≤ k.natAbs then ⟨signed s (2 ^ 100 - 1), flagOF ||| flagNX, false, true⟩
    else ⟨k, if exact then 0 else flagNX, false, false⟩
/-- The value of an XSF word: N × 2^e. -/
def xsfVal (n : Nat) (e : Int) : FVal := (FVal.ofInt (BitVec.ofNat 128 n).toInt).scale e

/-! ### q4 (R116 to R119, R125) -/

/-- Eight times the grid value of magnitude index m, types 1 to 3. -/
def gridMag : Nat → Nat → Nat
  | 1, m => [0, 4, 8, 12, 16, 24, 32, 48].getD m 0
  | 2, m => [1, 2, 4, 8, 16, 32, 64, 128].getD m 0
  | _, m => [0, 8, 16, 24, 32, 48, 64, 96].getD m 0
/-- Eight times g(c) and its sign. -/
def grid8 (ty c : Nat) : Bool × Nat :=
  if ty = 0 then (decide (8 ≤ c), if c < 8 then 8 * c + 4 else 8 * (15 - c) + 4)
  else (decide (8 ≤ c), gridMag ty (c % 8))
/-- Q4Decode (R119). -/
def q4Decode (c sc : Nat) : FVal :=
  let g := grid8 (sc / 64 % 4) (c % 16)
  (FVal.fin g.1 g.2 8).scale ((sc % 64 : Nat) - 32)

/-- The code of a sign and magnitude index. -/
def q4Code (ty : Nat) (neg : Bool) (m : Nat) : Nat := if neg then (if ty = 0 then 15 - m else 8 + m) else m
/-- The codes in ascending value, without the −0 of types 1 and 3. -/
def q4Codes (ty : Nat) : List (Nat × Int × Nat) :=
  ((List.range 8).reverse.map fun m => (q4Code ty true m, -((grid8 ty (q4Code ty true m)).2 : Int), m)).filter
    (fun e => e.2.1 ≠ 0) ++
  (List.range 8).map fun m => (q4Code ty false m, ((grid8 ty (q4Code ty false m)).2 : Int), m)

/-- Q4Encode (R125). -/
def q4Encode (v : FVal) (sc : Nat) (rs : Bool) (r : Nat) : Nat × FFlags :=
  let ty := sc / 64 % 4
  match v.scale (32 - (sc % 64 : Nat)) with
  | .nan _ => (0, flagNV)
  | .inf s => (q4Code ty s 7, flagOF ||| flagNX)
  | .fin s n d =>
    let y : Int := signed s n * 8
    if ((grid8 ty 7).2 : Int) * d < y.natAbs then (q4Code ty s 7, flagOF ||| flagNX)
    else match (q4Codes ty).find? fun e => e.2.1 * d = y with
      | some e => (if e.2.1 = 0 ∧ s then 8 else e.1, 0)
      | none =>
        let lo := ((q4Codes ty).filter fun e => e.2.1 * d < y).getLast?.getD (0, 0, 0)
        let hi := ((q4Codes ty).find? fun e => y < e.2.1 * d).getD (0, 0, 0)
        let down := y - lo.2.1 * d
        let up := hi.2.1 * d - y
        let g :=
          if rs then (if (r : Int) < down * 2 ^ 32 / (down + up) then hi else lo)
          else if down < up then lo else if up < down then hi
          else if lo.2.2 % 2 = 0 ∧ hi.2.2 % 2 = 1 then lo
          else if hi.2.2 % 2 = 0 ∧ lo.2.2 % 2 = 1 then hi
          else if s then lo else hi
        (if g.2.1 = 0 ∧ s then 8 else g.1, flagNX)

/-! ### Sums of products (R134) -/

/-- The exact sum of products that are not NaN; none where infinities disagree. -/
def sumProducts : List FVal → Option FVal
  | [] => some (.fin true 0 1)
  | p :: ps =>
    match sumProducts ps with
    | none => none
    | some s => match p.add .rn s with
      | (.nan _, _) => none
      | (v, _) => some v

/-- One chunk of ChunkDot: the accumulator's encoding and flags. -/
def chunkStep (acc : Nat) (ps : List (FVal × FVal)) : Nat × FFlags :=
  if ps.isEmpty then (acc, 0)
  else
    let a := decodeF .f32 acc
    let nv : FFlags := if ps.any fun p => p.1.isSig || p.2.isSig then flagNV else 0
    let sigA : FFlags := if a.isSig then flagNV else 0
    let prods := ps.map fun p => if p.1.isNan || p.2.isNan then (FVal.nan false, (0 : FFlags)) else p.1.mul p.2
    let bad := prods.foldl (fun f p => f ||| p.2) nv
    if prods.any fun p => p.1.isNan then
      (defaultNan .f32, bad ||| sigA ||| (if (prods.any fun p => p.1 = .inf false) && prods.any fun p => p.1 = .inf true then flagNV else 0))
    else match sumProducts (prods.map (·.1)) with
      | none => (defaultNan .f32, bad ||| sigA ||| flagNV)
      | some sum =>
        if a.isNan then (defaultNan .f32, bad ||| sigA)
        else
          let r := finish .f32 .rn false (a.add .rn sum)
          (r.1, r.2 ||| bad)

/-- ChunkDot (R134): chunks in ascending order. -/
def chunkDot (acc : Nat) : List (List (FVal × FVal)) → Nat × FFlags
  | [] => (acc, 0)
  | c :: cs =>
    let x := chunkStep acc c
    let y := chunkDot x.1 cs
    (y.1, x.2 ||| y.2)

/-- The value of a float operand by type: default for other types is never used. -/
def fval (t : LTy) (b : Nat) : FVal := decodeF t b

end Sys2Proof.Machine
end

