-- ==== Sys2Proof/Machine/Sync.lean ====
section
/-!
DEFINITION. Gongs (R136 to R144), launch barriers (R145) and the turns of ticket queues (R152 to R154).
-/
namespace Sys2Proof.Machine

/-! ### Gongs -/

namespace Gong
/-- A phase completes at once when its arrivals and, for a BYTE phase, its balance are complete (R141). -/
def complete (g : Gong) : Gong :=
  if 1 ≤ g.need ∧ g.arrived = g.need ∧ (g.mode = .count ∨ (g.mode = .byte ∧ g.bal = 0)) then
    { phase := !g.phase, mode := .unset, arrived := 0, need := 0, bal := 0, bits := 0
      real := if g.mode = .byte then g.cur else g.real
      cur := if g.mode = .byte then 0 else g.cur }
  else g

/-- R140 forbids the arrival of group x of n naming count k. -/
def badArrival (g : Gong) (x k n : Nat) : Bool :=
  k == 0 || n < k || (g.need != 0 && k != g.need) || g.bits.getLsbD x

/-- `garrive`, or the arrival of `gsync` (R139). -/
def arrive (g : Gong) (x k n : Nat) : Except Trap Gong :=
  match g.mode with
  | .faulted => .error .gongFault
  | .byte => .error .gongMisuse
  | _ =>
    if g.badArrival x k n then .error .gongMisuse
    else .ok { g with mode := .count, need := k, arrived := g.arrived + 1, bits := g.bits ||| (1#64 <<< x) }.complete

/-- `garm` (R139, R140). -/
def arm (g : Gong) (x k n b : Nat) : Except Trap Gong :=
  match g.mode with
  | .faulted => .error .gongFault
  | .count => .error .gongMisuse
  | _ =>
    if g.badArrival x k n || 2 ^ 30 < b || 2 ^ 31 ≤ g.bal + b then .error .gongMisuse
    else .ok { g with mode := .byte, need := k, arrived := g.arrived + 1, bal := g.bal + b,
                      bits := g.bits ||| (1#64 <<< x) }.complete

/-- An engine credit of c nominal and d real bytes (R139, R143). DESIGN CHOICE (log 102): BAL has no lower bound, where
R140 bounds only an arming. -/
def credit (g : Gong) (c d : Nat) : Gong :=
  let m : GMode := match g.mode with | .count | .faulted => .faulted | _ => .byte
  { g with mode := m, need := if g.mode = GMode.unset then 0 else g.need, bal := g.bal - c,
           cur := g.cur + BitVec.ofNat 32 d }.complete

/-- What an engine operation naming the gong finds at its issue (R143, R144). -/
def engineTrap (g : Gong) : Option Trap :=
  match g.mode with
  | .count => some .gongMisuse
  | .faulted => some .gongFault
  | _ => none

/-- A FAULTED gong returns to BYTE (R143); the phase may then be complete. -/
def heal (g : Gong) : Gong := match g.mode with | .faulted => { g with mode := .byte }.complete | _ => g

/-- The words `gget` reads (R137). -/
def status (g : Gong) : Word :=
  let m := match g.mode with | .unset => 0 | .count => 1 | .byte => 2 | .faulted => 3
  word ((if g.phase then 1 else 0) + 2 * m + 8 * g.arrived + 1024 * g.need)
end Gong

/-- A gong of a team. -/
def Team.gong (t : Team) (n : Nat) : Gong := (t.gongs[n]?).getD .reset
def Team.setGong (t : Team) (n : Nat) (g : Gong) : Team := { t with gongs := t.gongs.set n g }

namespace State
/-- Makes a gong FAULTED and posts the engine's record (R143). -/
def faultGong (s : State) (r : GRef) (n code kind op va : Nat) (about : About) : State :=
  let s := s.forgetAnswers r.part code
  let s := match s.team? r.tref with
    | some t => s.setTeam (t.setGong n { t.gong n with mode := .faulted })
    | none => s
  s.post r.part (some about)
    { code := code, kind := kind, user := n, lid := r.lid, team := r.team, grp := r.grp,
      core := ((s.group? r).map (·.core)).getD 0, addr := va, opid := op }

/-- Credits a gong for an operation; a credit that reaches a COUNT phase makes it FAULTED, with a record
whose cause is `GONG_MISUSE` (log 14). -/
def credit (s : State) (r : GRef) (n nominal real kind op : Nat) : State :=
  match s.team? r.tref with
  | some t =>
    let g := t.gong n
    let s := s.setTeam (t.setGong n (g.credit nominal real))
    if g.mode = .count then s.faultGong r n Trap.gongMisuse.code kind op 0 (.engine op) else s
  | none => s

/-- A replayed operation's gong returns to BYTE, and the groups that trapped `GONG_FAULT` on it resume
(R143, R431). -/
def healGong (s : State) (r : GRef) (n : Nat) : State :=
  let s := match s.team? r.tref with
    | some t => s.setTeam (t.setGong n (t.gong n).heal)
    | none => s
  (s.teamGroups r.tref).foldl (fun (s : State) (g : Group) =>
    match g.state with
    | .halted (.trap c k _) =>
      if c = Trap.gongFault.code ∧ k = n then
        let s := s.resumeGroup g false
        match s.part? r.part with
        | some p => s.setPart { p with recs := p.recs.filter fun f => f.about ≠ .group g.ref }
        | none => s
      else s
    | _ => s) s
end State

/-! ### Launch barriers (R145) -/

/-- Groups of a launch that are not DONE. -/
def State.launchGroups (s : State) (part lid : Nat) : List Group :=
  s.groups.filter fun g => g.ref.part = part ∧ g.ref.lid = lid ∧ g.state ≠ .done

/-- A barrier phase completes when every group that is not DONE has arrived. -/
def LBar.complete (b : LBar) (gs : List Group) : LBar :=
  if !b.here.isEmpty && gs.all fun g => b.here.contains g.ref then ⟨b.count + 1, []⟩ else b

/-- Completes the barrier phases of a launch that can complete. -/
def State.settleBars (s : State) (part lid : Nat) : State :=
  match s.launch? part lid with
  | some l => s.setLaunch { l with bars := l.bars.map fun b => b.complete (s.launchGroups part lid) }
  | none => s

/-! ### Ticket turns (R153, R154) -/

namespace TQueue
/-- The turn with this index has closed, or is to close when its engine reservations are complete. -/
def isClosed (q : TQueue) (i : Nat) : Bool :=
  i < q.turn || q.closed.contains i || q.asked.contains i || (i == q.turn && q.closing.isSome)

/-- The next turn opens, past turns already closed; after the first grant each close makes its own header
write (R154). The fuel is the number of turns closed early. -/
def openNext : Nat → TQueue → TQueue
  | 0, q => { q with turn := q.turn + 1, closing := none }
  | n + 1, q =>
    let t := q.turn + 1
    if q.closed.contains t then
      let q := { q with turn := t, closed := q.closed.filter (· ≠ t), closing := none }
      if q.granted then { q with closing := some false } else openNext n q
    else { q with turn := t, closing := none }

/-- The turn with this index closes: at once when no reservation was granted, else with a header write. -/
def close (q : TQueue) (i : Nat) : TQueue :=
  let q := { q with asked := q.asked.filter (· ≠ i) }
  if i < q.turn || (i == q.turn && q.closing.isSome) then q
  else if i = q.turn then (if q.granted then { q with closing := some false } else openNext q.closed.length q)
  else if q.closed.contains i then q else { q with closed := i :: q.closed }
end TQueue

/-- An engine operation has reservations to make on a queue of its launch (R311, R347). -/
def Op.reserves (o : Op) (q : Nat) : Bool :=
  match o.body with
  | .ray true _ _ _ q' lanes => q' == q && lanes.any fun l => !l.fin
  | .rrecv q' _ n done => q' == q && done < n
  | _ => false

namespace State
/-- A group's turn on a queue is to close: now, or once its engine reservations there are made (R311). -/
def closeTurn (s : State) (r : GRef) (q : Fin 4) : State :=
  match s.launch? r.part r.lid with
  | some l =>
    if lrTq l.lrec q.val = 0 then s
    else
      let i := s.turnOf r
      let t := l.tq[q]
      let t := if s.ops.any fun o => o.by_ = r ∧ o.reserves q.val
        then (if t.isClosed i then t else { t with asked := i :: t.asked })
        else t.close i
      s.setLaunch { l with tq := l.tq.set q t }
  | none => s

/-- Every turn of a group closes (R153). -/
def closeTurns (s : State) (r : GRef) : State := (List.finRange 4).foldl (fun s q => s.closeTurn r q) s

/-- Turns asked to close whose engine reservations are complete close (R311). -/
def settleTurns (s : State) (r : GRef) : State :=
  match s.launch? r.part r.lid with
  | some l => (List.finRange 4).foldl (fun s q => if (l.tq[q]).asked.contains (s.turnOf r) then s.closeTurn r q else s) s
  | none => s
end State

end Sys2Proof.Machine
end

