-- ==== Sys2Proof/Machine/Access.lean ====
section
/-!
DEFINITION. How an instruction's memory accesses go on once they are checked: page walks, REMOTE lines and
quiets they wait for (R60, R95, R104, R257); stores that are not performed yet and what loads see of them (R70, R74,
R80, R81); loads that have not returned.
-/
namespace Sys2Proof.Machine

/-! ### Stores that are not performed yet (R70, R74, R80) -/

/-- A store or atomic access writes a place. -/
def PStore.covers (w : PStore) (l : Loc) : Bool := w.ws.any fun e => e.1 = l
/-- The byte a store leaves at a place; what an atomic access leaves is not known before it is performed. -/
def PStore.byte (w : PStore) (l : Loc) : Option Byte :=
  if w.rmw.isSome then none else (w.ws.find? fun e => e.1 = l).map (·.2)
/-- Two stores overlap. -/
def PStore.meets (w x : PStore) : Bool := w.ws.any fun e => x.covers e.1
/-- Atomic accesses of a group are not performed. -/
def Group.reading (g : Group) : Bool := g.stores.any (·.rmw.isSome)
/-- A load follows an atomic access of its group to the same bytes (R70). -/
def Group.readsFirst (g : Group) (ls : List Loc) : Bool := g.stores.any fun w => w.rmw.isSome && ls.any w.covers
/-- An atomic that returns old values has performed all its lanes' accesses. -/
def Group.answered (g : Group) (l : Load) : Bool :=
  match l.fill with
  | .olds _ _ _ _ => !g.stores.any fun w => w.rmw.any fun r => r.at_ == l.at_
  | _ => true
/-- The byte that a group's latest store to a place leaves there, while it is not performed. -/
def Group.pending (g : Group) (l : Loc) : Option Byte := g.stores.reverse.findSome? fun w => w.byte l

/-- What a store of its group's list becomes when another one has been performed, over these bytes: of the same access it
is the rest (R84, R85). -/
def PStore.splits (w : PStore) (os : List (Loc × Byte)) (x : PStore) : PStore :=
  if x.ev = w.ev then
    { x with cut := true, olds := x.olds ++ os.filter fun e => x.touches e.1 && (byteAt x.olds e.1).isNone }
  else x

/-- The naturally aligned words, or single bytes, in which a weak access is performed; a strong one is one (R80). -/
def unitsOf {α : Type} (strong : Bool) (va : Nat) (xs : List α) : List (List α) :=
  if strong then [xs]
  else if va % xs.length ≠ 0 then xs.map fun x => [x]
  else (List.range ((xs.length + 3) / 4)).map fun i => (xs.drop (4 * i)).take 4
/-- The accesses of a load: for each its lane, address and places. -/
def Load.parts (l : Load) : List (Nat × Nat × List Loc) :=
  match l.fill with
  | .scalar _ _ _ va ls => [(0, va, ls)]
  | .lanes _ _ _ _ ps => ps
  | .olds _ _ _ _ => []
/-- The units in which a load is performed. -/
def Load.units (l : Load) : List (List Loc) := l.parts.flatMap fun p => unitsOf (l.size ≠ 0) p.2.1 p.2.2
/-- The places a load reads. -/
def Load.places (l : Load) : List Loc := l.units.flatten
/-- Lines fetched from peers leave the remote-read ways: a load issued on one of them returns the old copy (R453). -/
def State.dropRemote (s : State) (p : Part) (gone : Nat × Nat × Nat × List Byte → Bool) : State :=
  let lost := fun (x : Loc) => match x with
    | .rem i peer page o => i == p.id && p.remote.any fun e => gone e && e.1 == peer && e.2.1 == page && e.2.2.1 == o / 2048
    | _ => false
  (s.mapReads fun l => { l with got := l.got ++
    (l.places.filter fun x => lost x && !l.got.any fun y => y.1 = x).map fun x => (x, s.peek x) }).setPart
      { p with remote := p.remote.filter fun e => !gone e }
/-- The groups that a load of an overlay works for. -/
def OLoad.groups (l : OLoad) : List GRef := l.reqs.filterMap fun r => match r with | .gong g _ _ => some g | .root _ => none

/-- The value that an atomic operation leaves of an old one, or none where it does not write (R264). -/
def atomNew (t : LTy) (op old b c : Nat) : Option Nat :=
  match op with
  | 0 => some (if t.isFloat then (fAdd t .rn (decodeF t old) (decodeF t b)).1 else (old + b) % 2 ^ (8 * t.bytes))
  | 1 => some (if t.isFloat then (fMinMax t false old b).1 else if asInt t old ≤ asInt t b then old else b)
  | 2 => some (if t.isFloat then (fMinMax t true old b).1 else if asInt t old ≤ asInt t b then b else old)
  | 3 => some (old &&& b)
  | 4 => some (old ||| b)
  | 5 => some (old ^^^ b)
  | 6 => some b
  | _ => if old = c then some b else none

/-- An old value arrives at the load that returns it. -/
def Load.answer (r : Rmw) (old : Nat) (l : Load) : Load :=
  match r.to_, l.fill with
  | some lane, .olds d n last vs => if l.at_ = r.at_ then { l with fill := .olds d n last (vs ++ [(lane, old)]) } else l
  | _, _ => l

def Group.answer (r : Rmw) (old : Nat) (g : Group) : Group :=
  { g with loads := g.loads.map (Load.answer r old),
           queue := g.queue.map fun e => { e with wait := e.wait.mapLoad (Load.answer r old) } }

namespace State
/-- A place in the scratchpad of a team lies in an absent line (R52). -/
def absentLoc (s : State) : Loc → Bool
  | .spd t o => (s.team? t).any fun x => x.count (o / 128) != 0
  | _ => false

/-- Words that an engine operation has read before a write of these places, each or not, freely (R85): `unit` is 4 bytes,
or the line that an engine writes, of which all or nothing is read before (R84); `held` is what it reads in the place of
the bytes there. -/
def early (s : State) (id : Nat) (got held : List (Loc × Byte)) (ls : List Loc) (unit : Nat) : List (Loc × Byte) :=
  ((ls.map Loc.word).eraseDups.filter fun w =>
    s.bit (2 ^ 80 * (id + 1) + w.number / unit) && !got.any fun e => e.1 = w).flatMap fun w =>
    (List.range 4).map fun i => (w.plus i, (byteAt held (w.plus i)).getD (s.peek (w.plus i)))
/-- Lines that a ray operation may still read as they were before a write: a visit reads a node, which is a line, wholly
old or wholly new (R313). -/
def earlyLines (s : State) (id : Nat) (got : List (Loc × Byte)) (ls : List Loc) : List (Loc × Byte) :=
  (linesOf ls).foldl (fun got e =>
    if s.bit (2 ^ 80 * (id + 1) + e.1) then
      got.filter (fun x => !x.1.sameLine (.mem (128 * e.1) e.2)) ++
        (List.range 128).map fun i => (.mem (128 * e.1 + i) e.2, s.peek (.mem (128 * e.1 + i) e.2))
    else got) got
/-- A write of places races with the engine operations of a partition that are under way (R85, R289), and with the chunks
that are fired (R330): a copy reads once it has started, and nothing is read in absent lines. -/
def racing (s : State) (part : Nat) (ls : List Loc) (unit : Nat := 4) : State :=
  let ls := ls.filter fun l => !s.absentLoc l
  let onLoad := fun (l : OLoad) => if l.key.part = part then
    { l with got := l.got ++ s.early l.id l.got (s.heldBack part l.groups) ls unit } else l
  let onSlot := fun (x : Slot) => match x with
    | .loading l p => Slot.loading (onLoad l) p
    | y => y
  let onOp := fun (o : Op) =>
    if o.by_.part ≠ part ∨ o.fault then o
    else match o.body with
      | .copy _ _ false => o
      | .ray _ _ _ _ _ _ => { o with got := s.earlyLines o.id o.got ls }
      | _ => { o with got := o.got ++ s.early o.id o.got (s.heldBack part [o.by_]) ls unit }
  let onChunk := fun (n : Nat) (k : Chunk) =>
    if k.fired && !k.final then { k with got := k.got ++ s.early (2 ^ 50 * (n + 1) + k.c) k.got (s.heldBack part []) ls unit } else k
  { s with
    ops := s.ops.map onOp
    parts := s.parts.map fun p => if p.id ≠ part then p else
      { p with colls := p.colls.map fun c => { c with seqs := c.seqs.map fun q =>
          { q with chunks := q.chunks.map (onChunk (2 ^ 20 * crId c.crec + q.num)) } } }
    cores := s.cores.map fun c =>
      { c with mops := c.mops.zipIdx.map fun m => if m.1.by_.part = part then
                 { m.1 with got := m.1.got ++ s.early (2 ^ 40 * (c.id + 1) + m.2) m.1.got (s.heldBack part [m.1.by_]) ls unit }
                 else m.1
               slots := c.slots.map fun e => (e.1, onSlot e.2) } }

/-- What groups keep of the bytes that stood where another agent writes: a later load of theirs that does not follow an
acquire may still read them (R70), each word of a group's write or not, freely; of a line that an engine writes all or
nothing (R84). `sees` are the groups that may not: the writer, and those that see the write already. -/
def remember (s : State) (part : Nat) (sees : Group → Bool) (ls : List Loc) (line : Bool) : State :=
  { s with groups := s.groups.zipIdx.map fun x =>
      let h := x.1
      if h.ref.part ≠ part ∨ h.state ≠ .live ∨ sees h then h
      else
        let take := fun (l : Loc) => s.bit (2 ^ 200 * (x.2 + 1) + l.number / (if line then 128 else 4))
        let ws := (ls.map Loc.word).eraseDups.filter take
        let old := h.seen.filter fun e => !(line && ls.any fun l => l.sameLine e.1 && !take l)
        let old := old.map fun (e : Loc × Byte × Nat) => if line && ls.any (·.sameLine e.1) then (e.1, e.2.1, s.tick) else e
        { h with seen := old ++ (ws.filter fun w => !old.any fun e => e.1 = w).flatMap fun w =>
            (List.range 4).map fun i => (w.plus i, s.peek (w.plus i), s.tick) } }
/-- Another agent writes places: what a group has stored there before is no longer under way (R85). -/
def overwrite (s : State) (of : Option GRef) (ls : List Loc) : State :=
  if s.groups.all fun g => g.before.isEmpty && g.stores.all (·.olds.isEmpty) then s
  else
    let drop := fun (g : Group) => { g with
      before := g.before.filter fun e => !ls.contains e.1
      stores := g.stores.map fun w => { w with olds := w.olds.filter fun e => !ls.contains e.1 } }
    { s with groups := s.groups.map fun g => if some g.ref = of then g else drop g }

/-- The byte of a store that the groups of a core see before others do (R74). -/
def earlyByte (s : State) (core : Nat) (l : Loc) : Option Byte :=
  s.groups.findSome? fun g => if g.core = core then (g.stores.filter (·.early)).findSome? fun w => w.byte l else none
/-- The byte that a load of a group reads at a place (R70, R74): of its own latest store, of a store its core sees, or
the one performed. -/
def view (s : State) (g : Group) (l : Loc) : Byte :=
  match g.pending l with
  | some b => b
  | none => (s.earlyByte g.core l).getD (s.peek l)

/-- The n-th store of a group may be performed: no earlier store of its group overlaps it, none of another group
that its core sees already, the lines it writes are present, and earlier loads and atomic accesses have their values
(R70). -/
def storeReady (s : State) (g : Group) (n : Nat) (w : PStore) : Bool :=
  !w.ws.any (fun e => s.absentLoc e.1) &&
  !(g.stores.take n).any (fun x => x.meets w || x.rmw.any fun r => w.rmw.all fun q => q.at_ ≠ r.at_) &&
  !(g.allLoads.any fun l => l.at_ < w.ev / 64) &&
  !s.groups.any fun h => h.core == g.core && h.ref != g.ref && h.stores.any fun x => x.early && x.meets w

/-- The scope set of a scope of a group holds another group (R67). -/
def inScope (sc : Scope) (g h : Group) : Bool :=
  g.ref.part == h.ref.part && match sc with
  | .grp => g.ref == h.ref
  | .team => g.ref.tref == h.ref.tref
  | .pair => g.core / 2 == h.core / 2
  | .dev | .sys => true
/-- A strong access of a group, or of the host at `.sys`, is morally strong towards one of another group (R68). -/
def morally (a : Option Scope) (g : Option Group) (b : Option Scope) (h : Group) : Bool :=
  match a, b with
  | some x, some y => (match g with
    | some g => inScope x g h && inScope y h g
    | none => x == .sys && y == .sys)
  | _, _ => false

/-- A strong write over places, of a size, meets accesses of other groups, of other sizes, that are morally strong and not
performed: of each byte, freely, the other store comes first, whose byte is then gone; an atomic access or a load has read
the old one (R81). A write of an atomic access (`rmw`) comes after no part of a store. -/
def mixWith (s : State) (g : Option Group) (scope : Option Scope) (size : Nat) (rmw : Bool) (ls : List Loc) : State :=
  if scope.isNone then s
  else
    { s with groups := s.groups.zipIdx.map (fun y =>
    let h := y.1
    let pick := fun (l : Loc) => ls.contains l && s.bit (2 ^ 210 * (y.2 + 1) + l.number)
    if g.map (·.ref) = some h.ref then h
    else
      let h' := h.mapLoads fun l =>
        if l.size = 0 ∨ l.size = size ∨ !morally scope g l.scope h then l
        else { l with got := l.got ++ ((l.places.filter fun x => pick x && (byteAt (l.got ++ l.past) x).isNone).map fun x =>
          (x, s.view h x)) }
      if h.stores.isEmpty then h'
      else { h' with stores := (h.stores.zipIdx.map fun e =>
        let x := e.1
        if x.size = size ∨ !morally scope g x.scope h ∨ !s.storeReady h e.2 x then x
        else if x.rmw.isSome then
          { x with past := x.past ++ ((x.ws.map (·.1)).filter fun l => pick l && (byteAt x.past l).isNone).map fun l => (l, s.peek l) }
        else if rmw then x
        else { x with ws := x.ws.filter fun b => !pick b.1 }).filter fun x => !x.ws.isEmpty }) }

/-- A store as it is performed: of an atomic access, whose old value is read, the new value (R265), but where it has read
before a write of another size (R81); its core's `.si` copies of what it read go (R73). The group is that before it. -/
def resolveStore (s : State) (g : Group) (w : PStore) : State × PStore :=
  match w.rmw with
  | none => (s, w)
  | some r =>
    let ls := w.ws.map (·.1)
    let old := ofBytes (ls.map fun l => (byteAt w.past l).getD (s.view { g with stores := [] } l))
    let s := { s with groups := s.groups.map fun (h : Group) => if h.ref = g.ref then h.answer r old else h }
    ((s.touch ((State.linesOf ls).map (·.1)) false).dropSi g.core ((State.linesOf ls).map (·.1)),
     { w with rmw := none, ws := match atomNew r.ty r.op old r.b r.c with
        | some v => (ls.zip (leBytes r.ty.bytes v)).filter fun e => (byteAt w.past e.1).isNone
        | none => [] })
/-- A store of a group writes its bytes: other agents' accesses and engines race with it, and the caches take it. -/
def applyStore (s : State) (g : Group) (w : PStore) : State :=
  let (s, x) := s.resolveStore g w
  let ls := x.ws.map (·.1)
  let sees := fun (h : Group) => h.ref == g.ref || (w.early && h.core == g.core)
  (((((s.mixWith (some g) w.scope w.size w.rmw.isSome ls).racing g.ref.part ls).remember g.ref.part sees ls false).overwrite
    (some g.ref) ls).cacheWrite (some g.core) w.req w.prio w.lvl x.ws).pokes x.ws

/-- The group whose n-th store is performed: the store leaves its list, and what stood there is kept (R85). -/
def performed (s : State) (g : Group) (n : Nat) (w : PStore) : Group :=
  let os := w.ws.map fun e => (e.1, s.peek e.1)
  { g with stores := (g.stores.eraseIdx n).map (w.splits os)
           before := g.before ++ os.filter fun e => (byteAt g.before e.1).isNone
           seen := g.seen.filter fun e => !w.covers e.1 }

/-- The n-th store of a group is performed (R70, R76); a line that the host owns is recalled first (R77). -/
def performStore (s : State) (r : GRef) (n : Nat) : State :=
  match s.group? r with
  | none => s
  | some g =>
    match g.stores[n]? with
    | none => s
    | some w =>
      if !s.storeReady g n w then s
      else match (w.ws.findSome? fun e => match e.1 with | .mem pa _ => s.hostHeld pa 1 | _ => none) with
        | some l => s.askHost l
        | none =>
          let s := (s.setGroup (s.performed g n w)).applyStore g w
          if w.lvl = 3 then { s with dirty := s.dirty.filter fun e => !w.ws.any fun x => match x.1 with
            | .mem pa _ => pa / 64 == e.1 | _ => false } else s

/-- The rest of accesses of which some units have been performed, in lines that an engine is to write, is performed before
it (R84), with what those units must follow. -/
def performCut (s : State) (part : Nat) (ls : List Loc) : State :=
  let cut := fun (w : PStore) => w.cut && w.ws.any fun e => ls.any e.1.sameLine
  let first := fun (s : State) (g : Group) =>
    let ws := g.stores.zipIdx
    (ws.find? fun e => s.storeReady g e.2 e.1 && (ws.drop e.2).any fun x => cut x.1).map (·.2)
  s.groups.foldl (fun s g => if g.ref.part ≠ part then s else
    (List.range g.stores.length).foldl (fun s _ => match (s.group? g.ref).bind (first s) with
      | some n => s.performStore g.ref n
      | none => s) s) s

/-- The n-th store of a group becomes visible to the groups of its core: a weak one, or a strong one at `.grp` or
`.team` (R74), to global memory: a write elsewhere is visible to all at once (R75). -/
def showStore (s : State) (r : GRef) (n : Nat) : State :=
  match s.group? r with
  | none => s
  | some g =>
    match g.stores[n]? with
    | none => s
    | some w =>
      if (w.scope = none ∨ w.scope = some .grp ∨ w.scope = some .team) ∧ w.rmw = none ∧
          (w.ws.all fun e => match e.1 with | .mem _ _ => true | _ => false) ∧ s.storeReady g n w then
        s.setGroup { g with stores := g.stores.set n { w with early := true } }
      else s

/-- Bytes that a load reads at places now, and the state after: what it reads of them now no later load of its group reads
older (R73). -/
def readNow (s : State) (g : Group) (l : Load) (ls : List Loc) : State × List (Loc × Byte) :=
  (if g.seen.isEmpty then s else s.regroup g.ref fun h => s.setGroup { h with seen := h.seen.filter fun e =>
      !(h.seen.any fun x => x.2.2 == e.2.2 && x.1.sameLine e.1 && ls.contains x.1 && (byteAt l.past x.1).isNone) },
   ls.map fun x => (x, (byteAt (l.got ++ l.past) x).getD (s.view g x)))
/-- Loads that have performed part of their access to a line perform the rest of it before an engine writes the line
(R84). -/
def finishSamples (s : State) (part : Nat) (ls : List Loc) : State :=
  let rest := fun (g : Group) (l : Load) => l.parts.flatMap fun a =>
    let here := a.2.2.filter fun x => ls.any x.sameLine
    if here.any fun x => (byteAt l.got x).isSome then
      (here.filter fun x => (byteAt (l.got ++ l.past) x).isNone).map fun x => (x, s.view g x)
    else []
  { s with groups := s.groups.map fun g =>
      if g.ref.part = part then g.mapLoads fun l => { l with got := l.got ++ rest g l } else g }

/-- An engine of a partition writes bytes of lines: accesses that have begun there are finished before (R84), others may
have read before (R70, R85), and caches lose their copies. -/
def agentWrites (s : State) (part : Nat) (sees : Group → Bool) (ws : List (Loc × Byte)) : State :=
  let ls := ws.map (·.1)
  let s := (s.performCut part ls).finishSamples part ls
  ((((s.racing part ls 128).remember part sees ls true).overwrite none ls).cacheWrite none 1 0 0 ws).pokes ws

/-- Loads of a group read places that have not returned. -/
def outstanding (g : Group) (ls : List Loc) : Bool :=
  g.loads.any fun l => match l.fill with
    | .scalar _ _ _ _ ms => ms.any ls.contains
    | .lanes _ _ _ _ ps => ps.any fun p => p.2.2.any ls.contains
    | .olds _ _ _ _ => false

/-- A group's stores have been performed, and additions that are not withheld and that its core has sent (R71, R106). -/
def settled (s : State) (g : Group) : Bool := s.sentDone g.ref.part g.core s.tick none
/-- Beside that, no group of its core has a store that the core sees already: what the group has read of it others read
too (R72). -/
def released (s : State) (g : Group) : Bool :=
  g.stores.isEmpty && s.settled g &&
  !s.groups.any fun h => h.core == g.core && h.ref.part == g.ref.part && h.stores.any (·.early)
end State

/-! ### Issue of loads and stores -/

namespace State
/-- The partition of a group; every listed group's partition is listed. -/
def partOf (s : State) (g : Group) (k : Part → State) : State :=
  match s.part? g.ref.part with
  | some p => k p
  | none => s

/-- Bytes m of a line are recalled for a load, and its home serves the line (R57, R77, R78): whether HBM4E must be read, and
whether the L1 becomes the line's single owner. -/
def homeServes (s : State) (g : Group) (p : Part) (a : Acc) (line : Nat) (m : BitVec 128) : State × Bool × Bool :=
  let merge := a.req == 0 && s.ownedElsewhere (some g.core) line m
  let t := s.recallRead (if !merge && a.req == 3 then none else some g.core) line (if merge then BitVec.allOnes 128 else m)
  ((t.homeRead p line a.prio a.lvl).1, (t.homeRead p line a.prio a.lvl).2, merge)
/-- The L1 takes a line that the home has served. -/
def takeServed (s : State) (g : Group) (p : Part) (a : Acc) (line key : Nat) (merge : Bool) : State :=
  if a.lvl = 0 ∧ a.acc = none ∧ a.req ≤ 1 then
    s.l1Fill p g.core ⟨line, key, a.prio,
      if merge then BitVec.allOnes 128 else ((s.l1Line g.core line key).map (·.own)).getD 0, true, none⟩
  else s
/-- A load of a line is served at its home; where no cache there holds it a read of its bank is queued. -/
def loadHome (s : State) (g : Group) (p : Part) (a : Acc) (l : Load) (line key : Nat) (m : BitVec 128) : State × Load :=
  let x := s.homeServes g p a line m
  let t := x.1.takeServed g p a line key x.2.2
  if x.2.1 then ((t.queueRead (128 * line)).1, { l with reads := l.reads ++ [(t.queueRead (128 * line)).2] }) else (t, l)
/-- A load of a line is looked up in the caches (R57, R76 to R79): a weak one may hit an `.si` copy, whose bytes it
reads now; one that no cache serves queues a read of its bank. An `.nc` one is served at the home. An `.own` one that
reads bytes which another L1 owns makes its L1 the line's single owner (R78; log 112). -/
def loadLine (s : State) (g : Group) (p : Part) (a : Acc) (l : Load) (line key : Nat) : State × Load :=
  let ls := a.locs.filter fun x => match x with | .mem pa _ => pa / 128 = line | _ => false
  let m := maskIn line ls
  match if a.req = 3 then none else s.l1Line g.core line key with
  | some e =>
    if e.full ∨ m &&& ~~~e.own = 0 then (s.l1Fill p g.core e, l)
    else match e.si with
      | some bs =>
        if l.weak && s.bit line then
          let hit := (ls.filter fun x => (g.pending x).isNone && (byteAt l.past x).isNone).filterMap fun x =>
            match x with | .mem pa _ => some (x, bs[pa % 128]?.getD 0) | _ => none
          (s.l1Fill p g.core e, { l with got := l.got ++ hit })
        else s.loadHome g p a l line key m
      | none => s.loadHome g p a l line key m
  | none => s.loadHome g p a l line key m

/-- The bytes that a load reads as they were before writes of other agents (R70): of each of its units all or none, where
they were kept after its address was known, and freely; of what one engine write left in a line each lane reads all or
nothing (R84). -/
def pastOf (s : State) (g : Group) (l : Load) : List (Loc × Byte) :=
  l.parts.flatMap fun a => (unitsOf (l.size ≠ 0) a.2.1 a.2.2).flatMap fun u =>
    match u.head?.bind fun x => (g.seen.find? fun e => e.1 = x).map fun e => (x, e.2.2) with
    | some (x, c) =>
      if l.since ≤ c && (u.all fun y => (g.pending y).isNone && g.seen.any fun e => e.1 = y ∧ e.2.2 = c) &&
          s.bit (2 ^ 220 * (c + 1) + 2 ^ 64 * a.1 + x.number / 128)
      then u.map fun y => (y, ((g.seen.find? fun e => e.1 = y).map (·.2.1)).getD 0)
      else []
    | none => []

/-- A load is looked up line by line; `.si` copies may be older than what it has read already, and go. -/
def startLoad (s : State) (g : Group) (p : Part) (as : List (Nat × Acc)) (l : Load) : State × Load :=
  let past := if g.seen.isEmpty ∨ as.any fun a => a.2.acc.isSome then [] else s.pastOf g l
  let s := s.dropSi g.core ((linesOf (past.map (·.1))).map (·.1))
  as.foldl (fun r a => (linesOf a.2.locs).foldl (fun r e => r.1.loadLine g p a.2 r.2 e.1 e.2) r) (s, { l with past := past })

/-- A load has read places: `.si` copies it did not hit are older than what it read and go, and those it asked for are
filled, with what its core sees (R73, R76). -/
def endLoad (s : State) (g : Group) (p : Part) (l : Load) (ls : List Loc) : State :=
  let missed := linesOf (ls.filter fun x => !(l.got ++ l.past).any fun e => e.1 = x)
  let s := s.dropSi g.core (missed.map (·.1))
  missed.foldl (fun s e => match l.si.find? fun x => x.1 = e.1 with
    | some x => s.l1Fill p g.core ⟨e.1, e.2, x.2, 0, false, some ((List.range 128).map fun i =>
        (s.earlyByte g.core (.mem (128 * e.1 + i) e.2)).getD (s.peek (.mem (128 * e.1 + i) e.2)))⟩
    | none => s) s

/-- Stores in an order that the device chooses: where they overlap the last one stands (R80, R259). -/
def insertKeyed {α : Type} (x : Nat × α) : List (Nat × α) → List (Nat × α)
  | [] => [x]
  | y :: ys => if x.1 < y.1 then x :: y :: ys else y :: insertKeyed x ys
def freely {α : Type} (s : State) (xs : List (Nat × α)) : List α :=
  ((xs.map fun x => (Config.freeOrder s.tick x.1, x.2)).foldr insertKeyed []).map (·.2)

/-- A place is private to its group. -/
def Loc.private_ : Loc → Bool
  | .slc _ _ | .lreg _ _ => true
  | _ => false

/-- The units in which the accesses of an instruction store (R80): with each its lane and address as one number; `t` is
the instruction's. -/
def storeUnits (t : Nat) (scope : Option Scope) (as : List (Nat × Acc × List Byte)) : List (Nat × Acc × PStore) :=
  as.flatMap fun a => (unitsOf scope.isSome a.2.1.va (a.2.1.locs.zip a.2.2)).zipIdx.map fun u =>
    (64 * (a.2.1.va + u.2) + a.1, a.2.1,
     { ws := u.1, scope := scope, size := if scope.isSome then a.2.2.length else 0, req := a.2.1.req, prio := a.2.1.prio,
       lvl := a.2.1.lvl, early := false, ev := 64 * t + a.1 })

/-- A group stores to resolved places. Private and accumulation locations are written at once (R75, R105), unless an
earlier store or load there waits; other stores wait, in the units of R80, until they are performed (R70). Units of
several lanes come in a free order. -/
def store (s : State) (g : Group) (scope : Option Scope) (as : List (Nat × Acc × List Byte)) : State :=
  let us := storeUnits s.tick scope as
  let us := if as.length ≤ 1 then us.map (·.2) else s.freely us
  let now := fun (u : Acc × PStore) =>
    u.1.acc.isSome || (u.1.locs.any Loc.private_ && !g.stores.any u.2.meets && !outstanding g u.1.locs)
  (s.setGroup { g with stores := g.stores ++ ((us.filter fun u => !now u).map (·.2)).filter fun w => !w.ws.isEmpty }).pokes
    ((us.filter now).flatMap fun u => u.2.ws)

/-- The stream that issues, as it asks for a quiet: for the instruction it stands at. -/
def asker (s : State) (g : Group) : Asker :=
  .stream g.ref s.cur.st (match s.cur.st with
    | .frag b => ((g.ctx.frag b).map fun f => f.from_ s).getD 0
    | .lane => g.perf[1].toNat)
/-- Goes on with checked accesses, or takes the trap or the wait that comes first. Quiets are asked for the
regions given with their tolerances; a region's own drained sums are performed before the access goes on. -/
def proceed (s : State) (g : Group) (p : Part) (c : ChkAll) (quiet : List (Nat × Acc) → List (Nat × Nat))
    (but : Option Nat) (k : State → List (Nat × Acc) → State) : State :=
  match c with
  | .fail t va lane => s.trap g t va lane
  | .walk va lane => s.setWait g s.cur.st (.walk va lane)
  | .fetch a b d => (s.askPeer p a b d).park g none
  | .ok as =>
    let rs := quiet as
    if rs.isEmpty then k s as
    else
      let who := s.asker g
      let (s, ok) := s.quiets p.id rs who but
      if !ok || s.partials.any fun e => e.1 == p.id && e.2.core == g.core && rs.any fun r => r.1 == e.2.region
      then s.park g none
      else k (rs.foldl (fun s r => s.useQuiet p.id r.1 who) s) as

/-- Mixed-size debug mode keeps a memory instruction waiting for the acknowledgement of an earlier strong access to
global memory or chip scratchpad (R82). -/
def ackWait (s : State) (g : Group) : Bool :=
  ((s.part? g.ref.part).map fun p => prMixDbg p.prec).getD false &&
  (g.acks ≠ 0 || g.stores.any (fun w => w.scope.isSome && w.ws.any fun e => (mixAddr e.1).isSome) ||
   g.allLoads.any fun l => l.holds && l.units.any fun u => u.any fun x => (mixAddr x).isSome)

/-- A core drains its own partial sums of a word's line before a load of it (R104, step 1). -/
def drainOwn (s : State) (g : Group) (as : List (Nat × Acc)) : State :=
  as.foldl (fun s a => match a.2.acc, a.2.locs with
    | some r, .mem pa _ :: _ =>
      (s.drainLines g.ref.part g.core fun l => l.region == r && l.line == pa / 128).resetM g.core r
    | _, _ => s) s

/-- The regions of accesses at tolerance 0, once each. -/
def exactRegions (as : List (Nat × Acc)) : List (Nat × Nat) :=
  (as.filterMap fun a => a.2.acc).eraseDups.map fun r => (r, 0)

/-- Goes on with a checked load: it waits where `wait` says, and for earlier loads of the same bytes (R70); then its
core's own sums of the lines are drained and the regions are quiet at their tolerances (R104). -/
def loading (s : State) (g : Group) (p : Part) (c : ChkAll) (wait : Bool) (perf : Option (Fin 6))
    (quiet : List (Nat × Acc) → List (Nat × Nat)) (k : State → List (Nat × Acc) → State) : State :=
  match c with
  | .ok as =>
    if wait || outstanding g (as.flatMap fun a => a.2.locs) || g.readsFirst (as.flatMap fun a => a.2.locs) then s.park g perf
    else (s.drainOwn g as).proceed g p c quiet (some g.core) k
  | _ => s.proceed g p c quiet none k

/-- Goes on with a checked store: it waits where `wait` says, on an ACC page also for earlier loads (R70); then each
region it stores to is quiet (R105). DESIGN CHOICE (log 116): no store po-after one that faults is performed before the
trap, which R86 would allow. -/
def storing (s : State) (g : Group) (p : Part) (c : ChkAll) (wait : Bool) (perf : Option (Fin 6))
    (k : State → List (Nat × Acc) → State) : State :=
  match c with
  | .ok as => if wait || (!g.loads.isEmpty && as.any fun a => a.2.acc.isSome) then s.park g perf
    else s.proceed g p c exactRegions none k
  | _ => s.proceed g p c exactRegions none k

/-- Records a strong access in mixed-size debug mode, or finds that it meets one of another size (R82). -/
def strongMix (s : State) (g : Group) (p : Part) (sp : Space) (n : Nat) (as : List (Nat × Acc)) : Except (Nat × Nat) State :=
  if sp ≠ .glb ∧ sp ≠ .chip then .ok s
  else
    let q := (s.part? p.id).getD p
    match as.find? fun a => mixedHit q g.ref a.2 n with
    | some a => .error (trapAddr sp a.2.va, a.1)
    | none => .ok (s.setPart (as.foldl (fun p a => p.mix g.ref a.2 n) q))

/-- Bytes read at issue by a precise load: a strong `.dev` one (R220, R327), or a weak one (R319). Where a bank that it needs
is under refresh or calibration the stream waits, and the refresh stall is charged (R64, R65). -/
def readAt (s : State) (g : Group) (strong : Bool) (va n align : Nat) (k : State → List Byte → State) : State :=
  s.partOf g fun p =>
    let c := combine [(0, check s g p .glb va n 0 { strict := true, align := align } 0 false)]
    s.loading g p c (owned s g va n || s.ackWait g) none exactRegions fun s as =>
      let ls := as.flatMap fun a => a.2.locs
      if ls.any s.bad then s.trap g .poison va
      else match (if strong then s.strongMix g p .glb n as else .ok s) with
        | .error e => s.trap g .mixedSize e.1 e.2
        | .ok s =>
          let l : Load := { fill := .olds 0 0 false [], glb := true, weak := !strong, acq := false, size := if strong then n else 0,
                            si := as.flatMap fun a => if a.2.req = 2 then (linesOf a.2.locs).map fun e => (e.1, a.2.prio) else [] }
          let found := fun (s : State) (l : Load) => let (s, bs) := s.readNow g l ls; k (s.endLoad g p l ls) (bs.map (·.2))
          match g.fetches.find? fun f => f.st = s.cur.st with
          | some f =>
            if f.reads ≠ [] then s.park g none
            else found (s.regroup g.ref fun h => s.setGroup { h with
              fetches := h.fetches.filter fun x => x.st ≠ s.cur.st
              memlat := BitVec.ofNat 32 (Nat.min (h.memlat.toNat + f.stall) (2 ^ 32 - 1)) }) l
          | none =>
            let (s, l) := s.startLoad g p as l
            if l.reads.all fun r => r.at_ ≤ s.now && !(s.pch r.stack r.pch).calib
            then found (l.reads.foldl (fun s r => s.otherRead r.stack r.pch (r.bank / 4)) s) l
            else s.regroup g.ref fun h => (s.setGroup { h with
              fetches := { l with st := s.cur.st, at_ := s.tick } :: h.fetches.filter fun x => x.st ≠ s.cur.st }).regroup g.ref fun h =>
                s.park h none
end State

end Sys2Proof.Machine
end

