-- ==== Sys2Proof/Machine/Tiles.lean ====
section
/-!
DEFINITION. Element arithmetic of the Tambour: tiles and how they decode and combine (R332 to R334), and the
elements of ORDERED and EXACT (R337, R338).
-/
namespace Sys2Proof.Machine

/-- A pixel: for DEPTH and ALPHA four FP16 codes and an FP32 depth; for SAMPLE three FP32 sums and a count. -/
abbrev Pixel := List Nat

/-- A decoded tile: its key and its 64 pixels. -/
structure TileVal where
  key : Nat
  px  : List Pixel
  deriving DecidableEq, Repr

/-- Little-endian fields of w bytes. -/
def fieldsOf (w : Nat) : Nat → List Byte → List Nat
  | 0, _ => []
  | n + 1, bs => ofBytes (bs.take w) :: fieldsOf w n (bs.drop w)

/-- Payload bytes of a colour mode and of a depth mode (R333). -/
def colourBytes (sample : Bool) : Nat → Nat
  | 0 => 0 | 1 => if sample then 16 else 8 | 2 => 24 | 3 => 64 | _ => if sample then 1024 else 512
def depthBytes : Nat → Nat
  | 0 => 0 | 1 => 4 | 2 => 12 | 3 => 64 | _ => 256

/-- One PLANE channel at (x, y): exact before one rounding; a term whose coordinate is 0 is 0 (R333). -/
def planeAt (t : LTy) (b dx dy x y : Nat) : Nat × FFlags :=
  let term := fun (c v : Nat) => if c = 0 then (FVal.fin false 0 1, (0 : FFlags)) else (FVal.fin false c 1).mul (decodeF t v)
  let tx := term x dx
  let ty := term y dy
  let vb := decodeF t b
  if vb.isNan || tx.1.isNan || ty.1.isNan then (defaultNan t, flagNV)
  else
    let u := vb.add .rn tx.1
    if u.1.isNan then (defaultNan t, flagNV)
    else
      let v := u.1.add .rn ty.1
      if v.1.isNan then (defaultNan t, flagNV) else floatRound t v.1 .rn false 0

/-- The tile of a stored slot, or none where the slot is bad (R332, R333); with it NV of its decoding. -/
def decodeTile (sample : Bool) (tslot : Nat) (bank : Bool → Nat → Nat) (bs : List Byte) : Option (TileVal × FFlags) :=
  let h := BitVec.ofNat 64 (ofBytes (bs.take 8))
  let cm := fld h 2 0
  let dm := fld h 5 3
  let plen := fld h 31 16
  let bk := h.getLsbD 6
  let cb := colourBytes sample cm
  if 5 ≤ cm ∨ 5 ≤ dm ∨ fld h 15 7 ≠ 0 ∨ plen ≠ cb + depthBytes dm ∨ tslot < 8 + plen ∨
      (sample ∧ (cm = 2 ∨ cm = 3 ∨ dm ≠ 0)) then none
  else
    let col := (bs.drop 8).take cb
    let dep := (bs.drop (8 + cb)).take (depthBytes dm)
    let w := if sample then 4 else 2
    let cf := fieldsOf w (cb / w) col
    let df := fieldsOf 4 (depthBytes dm / 4) dep
    let px := (List.range 64).map fun i =>
      let c : List (Nat × FFlags) := match cm with
        | 0 => List.replicate 4 (0, 0)
        | 1 => (List.range 4).map fun k => (cf.getD k 0, 0)
        | 2 => (List.range 4).map fun k => planeAt .f16 (cf.getD k 0) (cf.getD (4 + k) 0) (cf.getD (8 + k) 0) (i % 8) (i / 8)
        | 3 => (fieldsOf 2 4 (leBytes 8 (bank bk ((col.getD i 0).toNat)))).map fun v => (v, 0)
        | _ => (List.range 4).map fun k => (cf.getD (4 * i + k) 0, 0)
      let d : List (Nat × FFlags) := if sample then [] else [match dm with
        | 0 => (infBits .f32, 0)
        | 1 => (df.getD 0 0, 0)
        | 2 => planeAt .f32 (df.getD 0 0) (df.getD 1 0) (df.getD 2 0) (i % 8) (i / 8)
        | 3 => (bank bk ((dep.getD i 0).toNat) % 2 ^ 32, 0)
        | _ => (df.getD i 0, 0)]
      c ++ d
    some (⟨fld h 63 32, px.map fun p => p.map (·.1)⟩,
      px.foldl (fun f p => p.foldl (fun f e => f ||| (e.2 &&& flagNV)) f) 0)

/-- A stored tile refers to a dictionary bank (R333). -/
def tileRefers (bank : Bool) (bs : List Byte) : Bool :=
  let h := BitVec.ofNat 64 (ofBytes (bs.take 8))
  h.getLsbD 6 == bank && (fld h 2 0 == 3 || fld h 5 3 == 3)

/-- The depth order (R334): −0 equals +0, a NaN is above +∞ and equal to any NaN. -/
def depthLt (a b : Nat) : Bool :=
  let x := decodeF .f32 a
  let y := decodeF .f32 b
  if x.isNan then false else if y.isNan then true else x.lt y
def depthFlags (a b : Nat) : FFlags :=
  if (decodeF .f32 a).isSig || (decodeF .f32 b).isSig then flagNV else 0

/-- One ALPHA channel: front + (1 − α) × back in FP16, rounded once. -/
def alphaOver (front alpha back : Nat) : Nat × FFlags :=
  let f := decodeF .f16 front
  let a := decodeF .f16 alpha
  let b := decodeF .f16 back
  nanOr .f16 [f, a, b] fun _ =>
    let k := (FVal.fin false 1 1).add .rn a.negate
    let p := k.1.mul b
    if p.1.isNan then (defaultNan .f16, p.2)
    else finish .f16 .rn false (f.add .rn p.1)

/-- Two pixels combined (R334); aFirst: the first wins on equality, by the shard index. -/
def combinePixel (mode : Nat) (aFirst aFront : Bool) (a b : Pixel) : Pixel × FFlags :=
  if mode = 2 then
    let r := (List.range 3).map fun k => fAdd .f32 .rn (decodeF .f32 (a.getD k 0)) (decodeF .f32 (b.getD k 0))
    (r.map (·.1) ++ [Nat.min (a.getD 3 0 + b.getD 3 0) (2 ^ 32 - 1)], r.foldl (fun f e => f ||| e.2) 0)
  else
    let da := a.getD 4 0
    let db := b.getD 4 0
    let aWins := depthLt da db || (!depthLt db da && aFirst)
    if mode = 0 then (if aWins then a else b, depthFlags da db)
    else
      let f := if aFront then a else b
      let k := if aFront then b else a
      let r := (List.range 4).map fun i => alphaOver (f.getD i 0) (f.getD 3 0) (k.getD i 0)
      (r.map (·.1) ++ [if aWins then da else db], r.foldl (fun f e => f ||| e.2) (depthFlags da db))

/-- Bytes of a pixel in a message or a result: 12, or 16 for SAMPLE. -/
def pixelBytes (mode : Nat) : Nat := if mode = 2 then 16 else 12
def pixelOut (mode : Nat) (p : Pixel) : List Byte :=
  if mode = 2 then p.flatMap (leBytes 4) else (p.take 4).flatMap (leBytes 2) ++ leBytes 4 (p.getD 4 0)
def pixelsIn (mode : Nat) (bs : List Byte) : List Pixel :=
  (List.range (bs.length / pixelBytes mode)).map fun i =>
    let q := (bs.drop (pixelBytes mode * i)).take (pixelBytes mode)
    if mode = 2 then fieldsOf 4 4 q else fieldsOf 2 4 q ++ [ofBytes (q.drop 8)]

/-- Elements of w bytes folded in order by ORDERED (R337). -/
def orderedFold (t : LTy) : List Nat → List Nat → List Nat × FFlags
  | a :: as, b :: bs =>
    let r := fAdd t .rn (decodeF t a) (decodeF t b)
    let q := orderedFold t as bs
    (r.1 :: q.1, r.2 ||| q.2)
  | _, _ => ([], 0)

/-- Words added by XsfAdd (R120). -/
def xsfFold (a b : List Nat) : List Nat := (a.zip b).map fun e => (e.1 + e.2) % 2 ^ 128

/-- The least two's-complement width that holds a 128-bit word. -/
def signedWidth (n : Nat) : Nat :=
  let i := (BitVec.ofNat 128 n).toInt
  let m := if i < 0 then (-i - 1).toNat else i.toNat
  if m = 0 then 1 else Nat.log2 m + 2

/-- Status flags NV, OF and NX of arithmetic flags (R342). -/
def statusFlags (f : FFlags) : BitVec 3 :=
  (if f.getLsbD 0 then 1 else 0) ||| (if f.getLsbD 2 then 2 else 0) ||| (if f.getLsbD 4 then 4 else 0)

end Sys2Proof.Machine
end

