-- ==== Sys2Proof/Machine/Collective.lean ====
section
/-!
DEFINITION. The Tambour on this rank: sequences, their chunks and schedules, messages, loss and finishing
(R327 to R342, R449 to R452, R473).
-/
namespace Sys2Proof.Machine

/-! ### Collectives and sequences of a partition -/

namespace State
def coll? (s : State) (part id : Nat) : Option Coll :=
  (s.part? part).bind fun p => p.colls.find? fun c => crId c.crec = id
def onColl (s : State) (part id : Nat) (f : Coll → Coll) : State :=
  match s.part? part with
  | some p => s.setPart { p with colls := p.colls.map fun c => if crId c.crec = id then f c else c }
  | none => s
def seq? (s : State) (part id num : Nat) : Option Seq := (s.coll? part id).bind fun c => c.seqs.find? fun q => q.num = num
def onSeq (s : State) (part id num : Nat) (f : Seq → Seq) : State :=
  s.onColl part id fun c => { c with seqs := c.seqs.map fun q => if q.num = num then f q else q }
end State

/-- A sequence that has its number only, or of which only messages are known. -/
def Seq.new (num : Nat) : Seq :=
  { num := num, run := 0, desc := none, chunkB := 0, rtile := 0, lid := none, chunks := [], rx := [], sent := [],
    nacks := [], commit := none, flags := 0, status := 0, lost := 0, ending := none, held := false, seen := 0, begun := false }

/-- Adds the entry of a sequence where there is none. -/
def State.knowSeq (s : State) (part id num : Nat) : State :=
  s.onColl part id fun c => if c.seqs.any fun q => q.num = num then c else { c with seqs := c.seqs ++ [Seq.new num] }

/-- It has finished, or ends once its result header is written. -/
def Seq.over (q : Seq) : Bool := q.status != 0 || q.ending.isSome
def Seq.started (q : Seq) : Bool := q.desc.isSome || q.over
/-- The flags of the commit message that this run has received. -/
def Seq.commitNow (q : Seq) : Option (BitVec 3) :=
  match q.commit with
  | some (r, fl) => if r = q.run then some fl else none
  | none => none
/-- Started and not finished. -/
def Seq.live (q : Seq) : Bool := q.desc.isSome && !q.over

/-! ### Layout (R329, R330) -/

def cdComposite (d : BitVec 512) : Bool := cdMode d ≤ 2
/-- Result bytes RB. -/
def resultBytes (d : BitVec 512) : Nat :=
  if cdMode d ≤ 1 then cdBytes d / cdTslot d * 768 else if cdMode d = 2 then cdBytes d / cdTslot d * 1024 else cdBytes d
def chunkCount (d : BitVec 512) (chunk : Nat) : Nat := (cdBytes d + chunk - 1) / chunk
/-- Source bytes of a chunk. -/
def chunkLen (d : BitVec 512) (chunk c : Nat) : Nat := Nat.min chunk (cdBytes d - c * chunk)
/-- Pixel rows of a chunk. -/
def chunkRows (d : BitVec 512) (chunk c : Nat) : Nat := 8 * (chunkLen d chunk c / cdTslot d)
def Seq.resultAt (q : Seq) : Nat := q.rtile + q.num % 2 * (64 + (q.desc.map resultBytes).getD 0)
/-- The descriptor's digest: RESTART cleared, and of the fields of R327 only (R7, R328; log 17). -/
def digest (d : BitVec 512) : Nat := (d.extractLsb' 0 192 &&& ~~~(place 192 7 1 ||| place 192 9 127)).toNat
/-- log2 of the rank count, where it is a power of two. -/
def ranksLog (n : Nat) : Nat := Nat.log2 n
def isPow2 (n : Nat) : Bool := n == 2 ^ Nat.log2 n && n != 0

/-- The halves of a region of pixel rows (R335). -/
def firstHalf (n : Nat) : Nat := if 16 ≤ n then 8 * ((n / 8 + 1) / 2) else n / 2
/-- A region can be halved a number of times on every path. -/
def canHalve (n : Nat) : Nat → Bool
  | 0 => true
  | m + 1 => 2 ≤ n && canHalve (firstHalf n) m && canHalve (n - firstHalf n) m
/-- The region of a rank after k rounds of the binary swap: first row and rows. -/
def swapRegion (rank rows : Nat) : Nat → Nat × Nat
  | 0 => (0, rows)
  | k + 1 =>
    let (a, n) := swapRegion rank rows k
    if rank / 2 ^ k % 2 = 0 then (a, firstHalf n) else (a + firstHalf n, n - firstHalf n)

/-- The conditions of R328 and R451 that one rank sees. -/
def badConfig (d cr : BitVec 512) (chunk : Nat) : Bool :=
  let n := crN cr
  5 ≤ cdMode d || 2 ≤ cdSched d || cdBytes d == 0 || cdBytes d % 16 != 0 ||
  (cdComposite d && (cdTslot d % 16 != 0 || cdTslot d < 16 || 1040 < cdTslot d)) || 1000 < cdTimer d ||
  (cdGather d && n ≤ cdRoot d) || (cdSched d == 0 && !isPow2 n) || ((cdMode d == 3 || cdMode d == 4) && cdSched d != 1) ||
  (cdComposite d && (cdBytes d % cdTslot d != 0 || chunk % cdTslot d != 0)) || chunk % 16 != 0 ||
  (cdSched d == 0 && (List.range (chunkCount d chunk)).any fun c => !canHalve (chunkRows d chunk c) (ranksLog n)) ||
  crNchMax cr < chunkCount d chunk || crSlotSz cr < chunk + 64

/-- Schedule slots of the commit message and of the confirmation (R451). -/
def kCommit (d cr : BitVec 512) : Nat := if cdSched d = 0 then ranksLog (crN cr) + crN cr - 1 else 3
def kConfirm (d cr : BitVec 512) : Nat := kCommit d cr + 1
/-- Schedule slots of a collective (R451). -/
def slotsOf (c : BitVec 512) : Nat := if isPow2 (crN c) then Nat.max 5 (crN c + ranksLog (crN c) + 1) else 5
/-- The physical address of a receive slot of a sequence (R451). -/
def slotPa (c : BitVec 512) (num : Nat) (x : SlotRef) : Nat :=
  crRx c + crSlotSz c * (x.k + slotsOf c * (x.chunk + crNchMax c * (num % 2)))
/-- The gather slot of a sender at ROOT in the binary swap (log 17). -/
def kGather (d cr : BitVec 512) (sender : Nat) : Nat :=
  ranksLog (crN cr) + (if sender < cdRoot d then sender else sender - 1)

/-! ### Heap accesses (R450) -/

/-- Places and regions of a run of heap bytes, in pieces, or what stops the access. -/
def heapPieces (s : State) (p : Part) (va : Nat) (write : Bool) : Nat → Nat → Except EngStop (List Loc × List Nat)
  | 0, _ => .ok ([], [])
  | f + 1, n =>
    if n = 0 then .ok ([], [])
    else
      let k := Nat.min n 4096
      match engine s p va k 0 write false with
      | .ok ls r =>
        match heapPieces s p (va + k) write f (n - k) with
        | .ok (ms, rs) => .ok (ls ++ ms, r.toList ++ rs)
        | .error e => .error e
      | .fail t a => .error (.fault t.code a)
      | .fetch a b c => .error (.fetch a b c)

/-- Places of heap bytes at an offset; an offset past the heap gives cause 0x22. -/
def heapAt (s : State) (p : Part) (cr : BitVec 512) (off n : Nat) (write : Bool) : Except EngStop (List Loc × List Nat) :=
  if crHeapSz cr < off + n then .error (.fault 0x22 (crHeap cr + off)) else heapPieces s p (crHeap cr + off) write (n / 4096 + 1) n

/-- What a heap access comes to: the places, or it waits (for quiets, or for REPLAY after a fault). -/
def heapUse (s : State) (part id num off n : Nat) (write : Bool) : State × Option (List Loc) :=
  match s.part? part, s.coll? part id, s.seq? part id num with
  | some p, some c, some q =>
    match heapAt s p c.crec off n write with
    | .ok (ls, rs) =>
      let who := Asker.seq id num
      let (s, ok) := s.quiets part (rs.eraseDups.map fun r => (r, 0)) who none
      if ok && !s.partials.any fun e => e.1 == part && rs.contains e.2.region then
        (rs.eraseDups.foldl (fun s r => s.useQuiet part r who) s, some ls)
      else (s, none)
    | .error (.fetch a b d) => (s.askPeer p a b d, none)
    | .error (.fault code va) =>
      let s := s.onSeq part id num fun q => { q with held := true }
      (s.post part (some (.seq id num)) { code := code, kind := 4, lid := q.lid.getD 0, addr := va }, none)
  | _, _, _ => (s, none)

def heapRead (s : State) (part id num off n : Nat) (got : List (Loc × Byte)) : State × Option (List Byte) :=
  match heapUse s part id num off n false with
  | (s, some ls) => (s.recalls ls, some (ls.map (s.readBy (got ++ s.heldBack part []))))
  | (s, none) => (s, none)
def heapWrite (s : State) (part id num off : Nat) (bs : List Byte) : State × Bool :=
  match heapUse s part id num off bs.length true with
  | (s, some ls) =>
    let ws := ls.zip bs
    (s.agentWrites part (fun _ => false) ws, true)
  | (s, none) => (s, false)

/-! ### Finishing (R341, R342) -/

/-- The status word. -/
def Seq.word (q : Seq) : Nat := q.status + 256 * q.flags.toNat + 65536 * (if q.status = 2 then q.lost else 0)

namespace State
/-- A sequence that ends has finished, and Fn is its number, once its result header has been written; one that
ends before its launch is taken on this rank has no RTILE until then (log 36). -/
def endSeq (s : State) (part id num : Nat) : State :=
  match s.seq? part id num with
  | some q =>
    match q.ending with
    | some (st, lost) =>
      let held := (s.coll? part id).bind (·.desc)
      let q := { q with status := st, lost := lost, ending := none, desc := q.desc <|> held }
      if q.held || q.lid.isNone then s
      else match heapWrite s part id num q.resultAt (leBytes 4 q.word ++ leBytes 4 num ++ List.replicate 56 0) with
        | (s, true) => (s.onSeq part id num fun x => { x with status := st, lost := lost, ending := none }).onColl part id
            fun c => { c with last := some num }
        | (s, false) => s
    | none => s
  | none => s
/-- A rank's sequence ends with the first status that applies. -/
def finishSeq (s : State) (part id num status lost : Nat) : State :=
  (s.onSeq part id num fun q => if q.over then q else { q with ending := some (status, lost), held := false }).endSeq part id num
/-- Adds to NETNACK and NETLOST (R465). -/
def bumpNet (s : State) (nacks lost : Nat) : State :=
  { s with dev := { s.dev with netNack := satAdd s.dev.netNack nacks, netLost := satAdd s.dev.netLost lost } }
/-- Every other rank. -/
def otherRanks (s : State) (part id : Nat) : List Nat :=
  match s.coll? part id with
  | some c => (List.range (crN c.crec)).filter fun r => r ≠ crRank c.crec
  | none => []
/-- A rank's sequence finishes, and every other rank learns it. -/
def abortSeq (s : State) (part id num status : Nat) : State :=
  let run := ((s.seq? part id num).map (·.run)).getD 0
  let s := s.finishSeq part id num status 0
  (s.otherRanks part id).foldl (fun s r => s.netSend (.abort part id r num run status)) s
/-- Sends a loss notice to a rank (R341). -/
def sendNotice (s : State) (part id lost dest : Nat) : State :=
  match s.coll? part id with
  | some c =>
    let num := ((c.seqs.filter Seq.live).map (·.num)).headD (c.count - 1)
    s.netSend (.send part id dest (.lossNotice ⟨part, id, num, 0⟩ ⟨lost, crRank c.crec⟩))
  | none => s
/-- A rank is lost (R340, R341): every sequence in progress finishes MEMBER_LOST, and where this rank had not learned of
the loss it is flooded: each other rank's notice is sent again until it is acknowledged or that rank is lost too. -/
def loseRank (s : State) (part id rank : Nat) : State :=
  match s.coll? part id with
  | none => s
  | some c =>
    if c.lost.contains rank then s
    else
      let told := (s.otherRanks part id).filter fun r => r ≠ rank && !c.lost.contains r
      let s := (s.onColl part id fun c =>
        { c with lost := rank :: c.lost,
                 notices := (c.notices.filter fun e => e.2 ≠ rank) ++ told.map fun r => (rank, r) }).bumpNet 0 1
      let s := told.foldl (fun s r => s.sendNotice part id rank r) s
      let low := (c.lost.foldl Nat.min rank)
      (c.seqs.filter Seq.live).foldl (fun s q => s.finishSeq part id q.num 2 low) s
end State

/-! ### Messages -/

namespace State
/-- Sends a data message and keeps a copy until it is acknowledged (R340). -/
def sendMsg (s : State) (part id num dest c k : Nat) (b : MsgBody) : State :=
  match s.seq? part id num with
  | some q =>
    (s.onSeq part id num fun q => { q with sent := q.sent ++ [⟨⟨c, k⟩, dest, b⟩] }).netSend
      (.send part id dest (.tambourMessage ⟨part, id, num, q.run⟩ ⟨c, k⟩ b))
  | none => s
/-- Releases the retained copy of a message that its receiver has acknowledged (R340). -/
def acked (s : State) (part id num run : Nat) (x : SlotRef) (dest : Nat) : State :=
  s.onSeq part id num fun q =>
    if q.run = run then { q with sent := q.sent.filter fun m => ¬(m.at_ = x ∧ m.dest = dest) } else q
/-- A message has been combined, and a message to its sender will carry the acknowledgement (R340). -/
def ackLater (s : State) (part id num c k : Nat) : State :=
  s.onSeq part id num fun q => { q with nacks := q.nacks.filter fun n => n.1 ≠ ⟨c, k⟩ }
/-- Acknowledges a message that has been combined or written, where no later message to its sender carries the
acknowledgement (R340). -/
def ack (s : State) (part id num c k sender : Nat) : State :=
  match s.seq? part id num, s.coll? part id with
  | some q, some cl =>
    (s.onSeq part id num fun q => { q with nacks := q.nacks.filter fun n => n.1 ≠ ⟨c, k⟩ }).netSend
      (.send part id sender (.acknowledgement ⟨part, id, num, q.run⟩ (.slot ⟨c, k⟩) (crRank cl.crec)))
  | _, _ => s
end State

/-- The message of this run in a receive slot. -/
def Seq.got (q : Seq) (c k : Nat) : Option MsgBody := ((q.rx.find? fun e => e.1 = q.run ∧ e.2.1 = ⟨c, k⟩).map (·.2.2))

/-- A message body with the sequence's own fields. -/
def bodyOf (d cr : BitVec 512) (q : Seq) (shard width : Nat) (keys : List (BitVec 32)) (bytes : List Byte) : MsgBody :=
  { digest := digest d, sender := crRank cr, shard := shard, width := width, exp := cdExp d, flags := q.flags, bad := 0,
    keys := keys, bytes := bytes, stored := false, acks := [] }

/-- Part of a compositing body: n pixel rows from row a of a region whose first row is base. -/
def bodyRows (b : MsgBody) (mode base a n : Nat) : MsgBody :=
  let rb := 8 * pixelBytes mode
  { b with bytes := (b.bytes.drop (rb * (a - base))).take (rb * n)
           keys := (b.keys.drop (a / 8 - base / 8)).take ((a + n + 7) / 8 - a / 8) }

/-- Two compositing bodies over the region from row a combined (R334); comparisons of depths and of ALPHA's KEYs set NV for
a signalling NaN (R127). -/
def combineBodies (mode a : Nat) (x y : MsgBody) : MsgBody × FFlags :=
  let px := pixelsIn mode x.bytes
  let py := pixelsIn mode y.bytes
  let first := decide (x.shard < y.shard)
  let keyFlags := if mode = 1 then (x.keys.zip y.keys).foldl (fun f k => f ||| depthFlags k.1.toNat k.2.toNat) 0 else 0
  let r := (px.zip py).zipIdx.map fun e =>
    let t := (a + e.2 / 8) / 8 - a / 8
    let kx := (x.keys.getD t 0).toNat
    let ky := (y.keys.getD t 0).toNat
    let front := depthLt kx ky || (!depthLt ky kx && first)
    combinePixel mode first front e.1.1 e.1.2
  ({ x with shard := Nat.min x.shard y.shard
            keys := (x.keys.zip y.keys).map fun k => if depthLt k.2.toNat k.1.toNat then k.2 else k.1
            bytes := r.flatMap fun e => pixelOut mode e.1 },
    r.foldl (fun f e => f ||| e.2) keyFlags)

/-- Source tiles of a message decoded with this rank's own banks (R333, R344); none where a tile is bad. -/
def openBody (c : Coll) (d : BitVec 512) (m : MsgBody) : Option (MsgBody × FFlags) :=
  if !m.stored then some (m, 0)
  else
    let bank := fun (b : Bool) (i : Nat) => ofBytes (Memory.rds c.dict ((if b then 2048 else 0) + 8 * i) 8)
    let ts := (List.range (m.bytes.length / cdTslot d)).map fun i =>
      decodeTile (cdMode d == 2) (cdTslot d) bank ((m.bytes.drop (i * cdTslot d)).take (cdTslot d))
    if ts.any Option.isNone then none
    else
      let tv := ts.filterMap id
      some ({ m with keys := tv.map fun t => BitVec.ofNat 32 t.1.key
                     bytes := tv.flatMap fun t => t.1.px.flatMap (pixelOut (cdMode d)), stored := false },
        tv.foldl (fun f t => f ||| t.2) 0)

/-- This rank's own chunk as it travels: source tiles, or the elements, as stored (R333). -/
def ownBody (c : Coll) (d : BitVec 512) (q : Seq) (bs : List Byte) : MsgBody :=
  let w := if cdMode d = 4 then (fieldsOf 16 (bs.length / 16) bs).foldl (fun m n => Nat.max m (signedWidth n)) 0 else 0
  { bodyOf d c.crec q (crRank c.crec) w [] bs with stored := cdComposite d }

/-- The source tiles that hold n pixel rows from row a of a chunk (R335). -/
def storedRows (d : BitVec 512) (b : MsgBody) (a n : Nat) : MsgBody :=
  { b with bytes := (b.bytes.drop (cdTslot d * (a / 8))).take (cdTslot d * ((a + n + 7) / 8 - a / 8)) }

/-- The received accumulation combined with this rank's own chunk (R336 to R338). -/
def foldBody (d : BitVec 512) (acc own : MsgBody) : MsgBody × FFlags :=
  if cdComposite d then combineBodies (cdMode d) 0 acc own
  else if cdMode d = 4 then
    let n := own.bytes.length / 16
    ({ acc with bytes := (xsfFold (fieldsOf 16 n acc.bytes) (fieldsOf 16 n own.bytes)).flatMap (leBytes 16) }, 0)
  else
    let w := if cdBf16 d then 2 else 4
    let n := own.bytes.length / w
    let r := orderedFold (if cdBf16 d then .bf16 else .f32) (fieldsOf w n acc.bytes) (fieldsOf w n own.bytes)
    ({ acc with bytes := r.1.flatMap (leBytes w) }, r.2)

/-- Result writes of a body over rows a of a chunk: offsets within the result data with their bytes. -/
def resultWrites (d : BitVec 512) (chunk c a : Nat) (b : MsgBody) : List (Nat × List Byte) :=
  if cdComposite d then
    let mode := cdMode d
    let tile0 := c * chunk / cdTslot d
    let cb := if mode = 2 then 16 else 8
    let tb := if mode = 2 then 1024 else 768
    ((pixelsIn mode b.bytes).zipIdx).flatMap fun e =>
      let i := 8 * a + e.2
      let at_ := tb * (tile0 + i / 64)
      if mode = 2 then [(at_ + cb * (i % 64), pixelOut mode e.1)]
      else [(at_ + cb * (i % 64), (pixelOut mode e.1).take 8), (at_ + 512 + 4 * (i % 64), (pixelOut mode e.1).drop 8)]
  else [(c * chunk, b.bytes)]

/-- Writes them all, or waits. -/
def writeAll (s : State) (part id num base : Nat) : List (Nat × List Byte) → State × Bool
  | [] => (s, true)
  | w :: ws =>
    match heapWrite s part id num (base + w.1) w.2 with
    | (s, true) => writeAll s part id num base ws
    | (s, false) => (s, false)

/-! ### Chunks -/

namespace State
def onChunk (s : State) (part id num c : Nat) (f : Chunk → Chunk) : State :=
  s.onSeq part id num fun q => { q with chunks := q.chunks.map fun k => if k.c = c then f k else k }
def orFlags (s : State) (part id num : Nat) (f : BitVec 3) : State :=
  s.onSeq part id num fun q => { q with flags := q.flags ||| f }
/-- Writes a final value of rows from a and marks the chunk. -/
def writeFinal (s : State) (part id num c a step : Nat) (d : BitVec 512) (q : Seq) (b : MsgBody) : State × Bool :=
  match writeAll s part id num (q.resultAt + 64) (resultWrites d q.chunkB c a b) with
  | (s, true) => (s.onChunk part id num c fun k => { k with step := step, final := true, acc := some b }, true)
  | (s, false) => (s, false)
end State

/-- A body's tiles decoded; a bad tile finishes the sequence BAD_TILE on every rank (R333). -/
def opened (s : State) (part id num : Nat) (cl : Coll) (d : BitVec 512) (m : MsgBody) : State × Option MsgBody :=
  match openBody cl d m with
  | some (b, f) => (s.orFlags part id num (statusFlags f), some b)
  | none => (s.abortSeq part id num 4, none)
/-- Reads this rank's own chunk: as stored, and decoded. -/
def readOwn (s : State) (part id num c : Nat) (cl : Coll) (d : BitVec 512) (q : Seq) : State × Option (MsgBody × MsgBody) :=
  match heapRead s part id num (cdSrcOff d + num % 2 * cdBytes d + c * q.chunkB) (chunkLen d q.chunkB c)
      (((q.chunks.find? fun k => k.c = c).map (·.got)).getD []) with
  | (s, some bs) =>
    let b := ownBody cl d q bs
    match opened s part id num cl d b with
    | (s, some x) => (s, some (b, x))
    | (s, none) => (s, none)
  | (s, none) => (s, none)

/-- The next step of a chunk in the ring (R336 to R338), and whether one was made: step 0 agreement not
passed on, 1 agreement passed on (or not needed), 2 reduced, 3 final. -/
def ringStep (s : State) (part id num : Nat) (cl : Coll) (d : BitVec 512) (q : Seq) (k : Chunk) : State × Bool :=
  let n := crN cl.crec
  let rank := crRank cl.crec
  let o := k.c % n
  let j := (rank + n - o) % n
  let nxt := (rank + 1) % n
  let prev := (rank + n - 1) % n
  let exact := cdMode d == 4 && n != 1
  let setStep := fun (s : State) (v : Nat) => s.onChunk part id num k.c fun x => { x with step := v }
  -- the rank that the next message of this chunk goes to, and the slots whose messages from it that message acknowledges
  let carries := fun (dest : Nat) (pass : Nat) => if dest = prev then [SlotRef.mk k.c pass] else []
  -- the last rank's gather message goes to the rank before it, and carries the agreement pass's acknowledgement too
  let viaRoot := exact && j + 1 = n && cdGather d && cdRoot d ≠ rank && cdRoot d = prev && nxt ≠ prev
  let took := fun (s : State) (dest : Nat) (pass : Nat) =>
    if dest = prev || (pass = 0 && viaRoot) then s.ackLater part id num k.c pass else s.ack part id num k.c pass prev
  let reduced := fun (s : State) (own b : MsgBody) (pass : Option Nat) =>
    let final := j + 1 = n
    let toRoot := cdGather d ∧ cdRoot d ≠ rank
    let dest := if final ∧ toRoot then some (cdRoot d) else if final ∧ (cdGather d ∨ n = 1) then none else some nxt
    let fix := fun (b : MsgBody) => { b with sender := rank, digest := digest d,
                                             acks := (match pass, dest with | some p, some t => carries t p | _, _ => []) ++
                                               if viaRoot then [⟨k.c, 0⟩] else [] }
    let ackd := fun (s : State) => match pass with
      | some p => (match dest with | some t => took s t p | none => s.ack part id num k.c p prev)
      | none => s
    if final then
      if toRoot then
        (((ackd s).sendMsg part id num (cdRoot d) k.c 2 (fix b)).onChunk part id num k.c fun x =>
          { x with step := 3, final := true }, true)
      else
        match s.writeFinal part id num k.c 0 3 d q (fix b) with
        | (s, true) => (if cdGather d ∨ n = 1 then ackd s else (ackd s).sendMsg part id num nxt k.c 2 (fix b), true)
        | (s, false) => (s, false)
    else
      let s := (ackd s).sendMsg part id num nxt k.c 1 (fix (if pass = some 1 then b else own))
      (s.onChunk part id num k.c fun x => { x with step := 2, final := cdGather d && cdRoot d != rank }, true)
  match k.step with
  | 0 =>
    if !exact then (setStep s 1, true)
    else if !k.fired then (s, false)
    else
      match (if j = 0 then some (bodyOf d cl.crec q 0 0 [] []) else q.got k.c 0) with
      | none => (s, false)
      | some m =>
        if m.exp ≠ cdExp d then (s.abortSeq part id num 5, true)
        else match readOwn s part id num k.c cl d q with
          | (s, some own) =>
            let s := if j = 0 then s else took s nxt 0
            (setStep (s.sendMsg part id num nxt k.c 0 { own.1 with
              width := Nat.max own.1.width m.width, bytes := [], acks := if j = 0 then [] else carries nxt 0 }) 1, true)
          | (s, none) => (s, false)
  | 1 =>
    if !k.fired then (s, false)
    else if j = 0 then
      match (if exact then q.got k.c 0 else some (bodyOf d cl.crec q 0 0 [] [])) with
      | none => (s, false)
      | some m =>
        match readOwn s part id num k.c cl d q with
        | (s, some own) =>
          let w := Nat.min 128 (m.width + (Nat.log2 (2 * n - 1)) + 1)
          reduced s { own.1 with width := w } { own.2 with width := w } (if exact then some 0 else none)
        | (s, none) => (s, false)
    else
      match q.got k.c 1 with
      | none => (s, false)
      | some m =>
        match readOwn s part id num k.c cl d q with
        | (s, some own) =>
          match opened s part id num cl d m with
          | (s, some m) =>
            let r := foldBody d m own.2
            let s := s.orFlags part id num (m.flags ||| statusFlags r.2)
            reduced s own.1 { r.1 with flags := m.flags ||| statusFlags r.2 } (some 1)
          | (s, none) => (s, false)
        | (s, none) => (s, false)
  | 2 =>
    if cdGather d ∧ cdRoot d ≠ rank then (s, false)
    else match q.got k.c 2 with
      | none => (s, false)
      | some m =>
        match s.writeFinal part id num k.c 0 3 d q m with
        | (s, true) =>
          let s := (s.orFlags part id num m.flags).ack part id num k.c 2 m.sender
          (if cdGather d ∨ j + 2 = n ∨ n ≤ j + 1 then s else s.sendMsg part id num nxt k.c 2 { m with sender := rank, acks := [] }, true)
        | (s, false) => (s, false)
  | _ => (s, false)

/-- The next step of a chunk in the binary swap (R335): step 0 not begun, r + 1 the half of round r sent,
m + 1 all rounds combined, m + 2 final. -/
def swapStep (s : State) (part id num : Nat) (cl : Coll) (d : BitVec 512) (q : Seq) (k : Chunk) : State × Bool :=
  let n := crN cl.crec
  let m := ranksLog n
  let rank := crRank cl.crec
  let mode := cdMode d
  let rows := chunkRows d q.chunkB k.c
  -- the half that is given up: of source tiles those that hold it travel as stored
  let sendHalf := fun (s : State) (r : Nat) (b : MsgBody) =>
    let (a, len) := swapRegion rank rows r
    let f := firstHalf len
    let give := if rank / 2 ^ r % 2 = 0 then (a + f, len - f) else (a, f)
    s.sendMsg part id num (rank ^^^ 2 ^ r) k.c r
      { (if b.stored then storedRows d b give.1 give.2 else bodyRows b mode a give.1 give.2) with sender := rank, acks := [] }
  -- the round whose partner is ROOT: this rank's gather message to it carries the acknowledgement
  let viaGather := fun (r : Nat) => cdGather d && cdRoot d == rank ^^^ 2 ^ r
  if k.step = 0 then
    if !k.fired then (s, false)
    else match readOwn s part id num k.c cl d q with
      | (s, some own) =>
        let s := if m = 0 then s else sendHalf s 0 own.1
        (s.onChunk part id num k.c fun x => { x with step := 1, acc := some own.2 }, true)
      | (s, none) => (s, false)
  else if k.step ≤ m then
    let r := k.step - 1
    match q.got k.c r, k.acc with
    | some raw, some acc =>
      let (a, _) := swapRegion rank rows r
      let (b, len) := swapRegion rank rows (r + 1)
      match opened s part id num cl d raw with
      | (s, none) => (s, false)
      | (s, some whole) =>
      let msg := if raw.stored then bodyRows whole mode (b / 8 * 8) b len else whole
      let x := combineBodies mode b (bodyRows acc mode a b len) msg
      let s := s.orFlags part id num (msg.flags ||| statusFlags x.2)
      let s := if viaGather r then s.ackLater part id num k.c r else s.ack part id num k.c r (rank ^^^ 2 ^ r)
      let s := if r + 1 < m then sendHalf s (r + 1) { x.1 with flags := msg.flags ||| statusFlags x.2 } else s
      (s.onChunk part id num k.c fun y => { y with step := r + 2, acc := some x.1 }, true)
    | _, _ => (s, false)
  else if k.step = m + 1 then
    let (a, _) := swapRegion rank rows m
    let acc := (k.acc.getD (bodyOf d cl.crec q rank 0 [] []))
    match writeAll s part id num (q.resultAt + 64) (resultWrites d q.chunkB k.c a acc) with
    | (s, true) =>
      let s := if cdGather d ∧ cdRoot d ≠ rank
        then s.sendMsg part id num (cdRoot d) k.c (kGather d cl.crec rank)
          { acc with sender := rank, acks := ((List.range m).filter viaGather).map fun r => SlotRef.mk k.c r } else s
      (s.onChunk part id num k.c fun x => { x with step := m + 2, final := !(cdGather d && cdRoot d == rank && n != 1) }, true)
    | (s, false) => (s, false)
  else if k.step = m + 2 ∧ !k.final then
    let senders := (List.range n).filter (· ≠ rank)
    let ms := senders.map fun r => (r, q.got k.c (kGather d cl.crec r))
    if ms.any fun e => e.2.isNone then (s, false)
    else
      let ws := ms.flatMap fun e => match e.2 with
        | some b => resultWrites d q.chunkB k.c (swapRegion e.1 rows m).1 b
        | none => []
      match writeAll s part id num (q.resultAt + 64) ws with
      | (s, true) =>
        let s := ms.foldl (fun s e => (s.orFlags part id num ((e.2.map (·.flags)).getD 0)).ack part id num k.c
          (kGather d cl.crec e.1) e.1) s
        (s.onChunk part id num k.c fun x => { x with final := true }, true)
      | (s, false) => (s, false)
  else (s, false)

/-- Steps of one chunk while they can be made. -/
def chunkRun (part id num c : Nat) : Nat → State → State
  | 0, s => s
  | f + 1, s =>
    match s.coll? part id, s.seq? part id num with
    | some cl, some q =>
      match q.desc, q.chunks.find? fun k => k.c = c with
      | some d, some k =>
        if q.over ∨ q.held then s
        else match (if cdSched d = 0 then swapStep s part id num cl d q k else ringStep s part id num cl d q k) with
          | (s, true) => chunkRun part id num c f s
          | (s, false) => s
      | _, _ => s
    | _, _ => s

/-- This rank holds its result: every chunk has reached its end here. -/
def Seq.complete (q : Seq) (d : BitVec 512) : Bool :=
  (List.range (chunkCount d q.chunkB)).all fun c => q.chunks.any fun k => k.c = c ∧ k.final

/-- The commit pass (R341): rank 0 starts it, and each rank passes it on, once it holds its result. -/
def commitRun (s : State) (part id num : Nat) : State :=
  match s.coll? part id, s.seq? part id num with
  | some cl, some q =>
    match q.desc with
    | some d =>
      let n := crN cl.crec
      let rank := crRank cl.crec
      let r : SeqRef := ⟨part, id, num, q.run⟩
      let keep := fun (s : State) (dest k : Nat) (fl : BitVec 3) => s.onSeq part id num fun q =>
        { q with sent := q.sent ++ [⟨⟨0, k⟩, dest, { bodyOf d cl.crec q 0 0 [] [] with flags := fl }⟩] }
      if q.over ∨ q.held ∨ !q.complete d then s
      else if n = 1 then s.finishSeq part id num 1 0
      else if rank = 0 then
        match q.commitNow with
        | some fl =>
          -- the confirmation to the last rank carries the acknowledgement of its commit message
          let s := (s.orFlags part id num fl).ackLater part id num 0 (kCommit d cl.crec)
          let all := ((s.seq? part id num).map (·.flags)).getD 0
          let s := (List.range (n - 1)).foldl (fun s i =>
            (keep s (i + 1) (kConfirm d cl.crec) all).netSend (.send part id (i + 1) (.confirmation r all))) s
          s.finishSeq part id num 1 0
        | none =>
          if q.sent.any fun m => m.at_ = ⟨0, kCommit d cl.crec⟩ then s
          else if q.nacks.any fun e => e.1 = ⟨1, kCommit d cl.crec⟩ then s
          else ((keep s 1 (kCommit d cl.crec) q.flags).onSeq part id num fun q =>
              { q with nacks := (⟨1, kCommit d cl.crec⟩, 0) :: q.nacks }).netSend (.send part id 1 (.commitMessage r q.flags))
      else
        match q.commitNow with
        | some fl =>
          if q.nacks.any fun e => e.1 = ⟨1, kCommit d cl.crec⟩ then s
          else
            let s := if n = 2 then s.ackLater part id num 0 (kCommit d cl.crec)
              else s.ack part id num 0 (kCommit d cl.crec) (rank - 1)
            ((keep s ((rank + 1) % n) (kCommit d cl.crec) (fl ||| q.flags)).onSeq part id num fun q =>
              { q with nacks := (⟨1, kCommit d cl.crec⟩, 0) :: q.nacks }).netSend
              (.send part id ((rank + 1) % n) (.commitMessage r (fl ||| q.flags)))
        | none => s
    | none => s
  | _, _ => s

/-- Everything a sequence can do on this rank. -/
def advance (s : State) (part id num : Nat) : State :=
  let s := s.endSeq part id num
  match s.seq? part id num, s.coll? part id with
  | some q, some cl =>
    commitRun (q.chunks.foldl (fun s k => chunkRun part id num k.c (crN cl.crec + 5) s) s) part id num
  | _, _ => s

/-! ### Starting (R473) -/

/-- A message whose digest differs from the descriptor's finishes the sequence BAD_CONFIG (R328). -/
def digestCheck (s : State) (part id num : Nat) : State :=
  match s.seq? part id num with
  | some q =>
    match q.desc with
    | some d =>
      if !q.over ∧ (q.rx.any fun e => e.1 = q.run ∧ e.2.2.digest ≠ digest d) then s.abortSeq part id num 5
      else advance s part id num
    | none => s
  | none => s

/-- A sequence starts on this rank, with the descriptor then held; firedAll: a rerun. -/
def startSeq (s : State) (part id num : Nat) (firedAll : Bool) : State :=
  match s.coll? part id, s.seq? part id num with
  | some cl, some q =>
    match cl.desc with
    | none => s.abortSeq part id num 5
    | some d =>
      let n := chunkCount d q.chunkB
      let bad := badConfig d cl.crec q.chunkB
      let s := s.onSeq part id num fun q =>
        { q with desc := some d, chunks := if bad then [] else (List.range n).map fun c => ⟨c, firedAll, 0, none, false, []⟩ }
      match cl.lost with
      | l :: ls => s.finishSeq part id num 2 (ls.foldl Nat.min l)
      | [] => if bad then s.abortSeq part id num 5 else digestCheck s part id num
  | _, _ => s

/-- Fires a chunk of a launch's sequence (R226, R330): the first firing starts the sequence. -/
def fireChunk (s : State) (part lid c : Nat) : State :=
  match s.launch? part lid with
  | none => s
  | some l =>
    match l.seqNo with
    | none => s
    | some num =>
      let id := lrColl l.lrec
      let s := match s.seq? part id num with
        | some q => if q.started then s else startSeq s part id num false
        | none => s
      let s := s.onSeq part id num fun q => { q with begun := true }
      match s.seq? part id num with
      | some q =>
        if q.over then s
        else
          let s := s.onChunk part id num c fun k => { k with fired := true }
          advance s part id num
      | none => s

/-- Chunks that a launch's collective has: of the sequence once it has started, else of the descriptor
that the rank holds; none while it holds none (R226). -/
def nchOf (s : State) (l : Launch) : Option Nat :=
  match s.coll? l.part (lrColl l.lrec) with
  | some cl =>
    let d := match (l.seqNo.bind fun n => s.seq? l.part (lrColl l.lrec) n).bind (·.desc) with
      | some d => some d
      | none => cl.desc
    d.map fun d => chunkCount d (lrChunk l.lrec)
  | none => none

/-! ### Waits for sequences (R227) -/

/-- Fn: the most recently finished sequence, or 0xFFFF_FFFF. -/
def Coll.fn (c : Coll) : Word := match c.last with | some n => word n | none => 0xFFFFFFFF
/-- A sequence has finished by the test of R227. -/
def Coll.finished (c : Coll) (q : Word) : Bool := (c.fn - q).toNat < 2 ^ 31

/-- Sequences with something left to do here, looked at again (a source or a destination that waits). -/
def seqRetries (s : State) : List (Nat × Nat × Nat) :=
  s.parts.flatMap fun p => p.colls.flatMap fun c => (c.seqs.filter fun q => (q.live || q.ending.isSome) && !q.held).map fun q =>
    (p.id, crId c.crec, q.num)

end Sys2Proof.Machine
end

