-- ==== Sys2Proof/Machine/Store.lean ====
section
/-!
DEFINITION. The instruction store: overlay slots, residency holds, loads and drains (R158 to R173).
-/
namespace Sys2Proof.Machine

/-! ### Residency holds (R165) -/

/-- Fragments of a scalar context, live or spilled. -/
def Ctx.frags (c : Ctx) : List Frag := c.f0.toList ++ c.f1.toList ++ c.stack

/-- Fragments of a group whose tokens count: its own, and those a lane trap would return to (R17). -/
def Group.allFrags (g : Group) : List Frag := g.ctx.frags ++ g.queue.flatMap fun e => e.after.frags

/-- A group holds a relative slot by a token or a queued lane block. -/
def Group.holds (g : Group) (rel : Nat) : Bool :=
  (g.allFrags.any fun f => f.tokens.getLsbD rel) || (g.queue.any fun e => e.slot == rel) || g.loads.any fun l => l.slot == some rel

/-- The group still has its context on a core. -/
def GState.present : GState → Bool
  | .done | .saved _ => false
  | _ => true
def GState.isLoading : GState → Bool
  | .loading _ => true
  | _ => false
/-- A team has its pins on a core (R165, R172). -/
def TState.present : TState → Bool
  | .done | .killed | .saved => false
  | _ => true

/-- What a slot holds or is being loaded with. -/
def Slot.key : Slot → Option OKey
  | .ready i | .draining i _ => some i.key
  | .loading l _ => some l.key
  | .empty => none

namespace State
/-- The key of a team's root. -/
def rootKey (s : State) (t : TRef) : OKey :=
  let r := ((s.launch? t.part t.lid).map (·.lrec)).getD 0
  ⟨t.part, lrCode r, lrRoot r⟩
/-- The count of a slot is not 0: it is pinned by a team whose root it holds, or held by a token or a queued block
(R165). -/
def slotHeld (s : State) (core abs : Nat) : Bool :=
  (s.teams.any fun t => t.state.present && (t.roots.any fun r => r.1 == core && s.absSlot t.ref.part r.2 == abs) &&
    (s.slotOf core abs).key == some (s.rootKey t.ref)) ||
  (s.groups.any fun g => g.core == core && g.state.present && s.absSlot g.ref.part 0 ≤ abs &&
    g.holds (abs - s.absSlot g.ref.part 0))

def setSlot (s : State) (core abs : Nat) (x : Slot) : State :=
  let c := s.core core
  s.setCore { c with slots := (abs, x) :: c.slots.filter fun e => e.1 ≠ abs }

/-- The slot that holds a key as a usable overlay. -/
def readySlot (s : State) (core : Nat) (k : OKey) : Option Nat :=
  (s.core core).slots.findSome? fun e => match e.2 with | .ready i => if i.key = k then some e.1 else none | _ => none
/-- The slot into which a key is being loaded, or in which it is pending. -/
def loadingSlot (s : State) (core : Nat) (k : OKey) : Option Nat :=
  (s.core core).slots.findSome? fun e => match e.2 with
    | .loading l p => if l.key = k ∨ (p.map (·.key)) = some k then some e.1 else none
    | .draining _ p => if p.key = k then some e.1 else none
    | _ => none

/-- Credits the requests of a load: 16384 nominal bytes each, the real bytes to the one that loaded (R163). -/
def creditLoad (s : State) (rs : List OReq) (real id : Nat) : State :=
  rs.foldl (fun s r => match r with
    | .gong g n loads => s.credit g n 16384 (if loads then real else 0) 3 id
    | .root _ => s) s

/-- A load is accepted into a slot (R161); a load it replaces is credited as one that fetched nothing. -/
def acceptLoad (s : State) (core abs : Nat) (l : OLoad) : State :=
  match s.slotOf core abs with
  | .empty => s.setSlot core abs (.loading l none)
  | .ready i => s.setSlot core abs (if s.slotHeld core abs then .draining i l else .loading l none)
  | .draining i p => (s.setSlot core abs (.draining i l)).creditLoad p.reqs 0 p.id
  | .loading k p => (s.setSlot core abs (.loading k (some l))).creditLoad ((p.map (·.reqs)).getD []) 0 ((p.map (·.id)).getD 0)

/-- Attaches a request to the load of a key in a slot (R162). -/
def attach (s : State) (core abs : Nat) (k : OKey) (r : OReq) : State :=
  match s.slotOf core abs with
  | .loading l p =>
    if l.key = k then s.setSlot core abs (.loading { l with reqs := l.reqs ++ [r] } p)
    else s.setSlot core abs (.loading l (p.map fun x => { x with reqs := x.reqs ++ [r] }))
  | .draining i p => s.setSlot core abs (.draining i { p with reqs := p.reqs ++ [r] })
  | _ => s

/-- Drains that are complete: a DRAINING slot whose count is 0 starts its pending load (R161, R170). -/
def drainCore (s : State) (core : Nat) : State :=
  (s.core core).slots.foldl (fun s e => match e.2 with
    | .draining _ p => if s.slotHeld core e.1 then s else s.setSlot core e.1 (.loading p none)
    | _ => s) s

/-- The slot a load takes by R172: the lowest EMPTY one of the range, else the least recently loaded READY
one that is not held, nor among those kept. -/
def freeSlot (s : State) (p : Part) (core : Nat) (keep : List Nat) : Option Nat :=
  let range := (List.range (prNslot p.prec)).map fun i => prSlotBase p.prec + i
  match range.find? fun a => s.slotOf core a = .empty with
  | some a => some a
  | none =>
    (range.foldl (fun best a => match s.slotOf core a with
      | .ready i =>
        if s.slotHeld core a || keep.contains a then best
        else match best with
          | some (_, t) => if i.loaded < t then some (a, i.loaded) else best
          | none => some (a, i.loaded)
      | _ => best) (none : Option (Nat × Nat))).map (·.1)

/-- Takes a pending load of a key out of its slot (R172), with its requests. DESIGN CHOICE (log 118): a slot that drained
for it is READY again, as R172 has it, also where its own key has come to another slot meanwhile, which R160 would
forbid; what looks the key up then finds one of the two. -/
def unpend (s : State) (core : Nat) (k : OKey) : State × List OReq :=
  (s.core core).slots.foldl (fun (r : State × List OReq) e => match e.2 with
    | .loading l (some p) =>
      if p.key = k ∧ l.key ≠ k then (r.1.setSlot core e.1 (.loading l none), r.2 ++ p.reqs) else r
    | .draining i p => if p.key = k then (r.1.setSlot core e.1 (.ready i), r.2 ++ p.reqs) else r
    | _ => r) (s, [])

/-- Makes an overlay resident or loading on a core for a team (R172, R173): the state and the slot, or
none where no slot can take it; slots the team takes already are kept. A pending load of the key that is removed leaves a
slot that drained for it READY again: where that slot holds the key itself, it is shared (R160). DESIGN CHOICE (log 104):
an `ovld` whose pending load moves to the new load still counts as the one that fetched. -/
def makeResident (s : State) (p : Part) (core : Nat) (k : OKey) (tab : Nat) (t : TRef) (keep : List Nat) : Option (State × Nat) :=
  match s.readySlot core k with
  | some a => some (s, a)
  | none =>
    match (s.core core).slots.find? fun e => match e.2 with | .loading l _ => l.key = k | _ => false with
    | some e => some (s.attach core e.1 k (.root t), e.1)
    | none =>
      let (s, rs) := s.unpend core k
      match s.readySlot core k with
      | some a => some (s.creditLoad rs 0 s.nextId, a)
      | none =>
      match s.freeSlot p core keep with
      | some a => some ((s.fresh).setSlot core a (.loading ⟨s.nextId, k, tab, .root t :: rs, []⟩ none), a)
      | none => none
end State

/-! ### Reading an overlay (R159, R163, R181) -/

/-- Words of w bytes each, lowest address first. -/
def wordsOf (w : Nat) : Nat → List Byte → List Nat
  | 0, _ => []
  | n + 1, bs => ofBytes (bs.take w) :: wordsOf w n (bs.drop w)

/-- The overlay that a load reads, or the cause of its fault with the address. -/
def readOverlay (s : State) (p : Part) (l : OLoad) : Except EngStop Image :=
  let bytes := fun (va n k : Nat) => engineBytes s p va n k true l.got (l.reqs.filterMap fun r => match r with | .gong g _ _ => some g | .root _ => none)
  match bytes l.tab 16 0 with
  | .error e => .error e
  | .ok eb =>
    let e := BitVec.ofNat 128 (ofBytes eb)
    let so := fld e 31 0
    let lo := fld e 63 32
    let sw := fld e 74 64
    let lw := fld e 85 75
    if sw = 0 ∨ 1024 < sw ∨ 1024 < lw ∨ so % 128 ≠ 0 ∨ lo % 128 ≠ 0 then .error (.fault 0x25 l.tab)
    else match bytes (l.key.code + so) (4 * sw) 1 with
      | .error e => .error e
      | .ok sb =>
        if lw = 0 then .ok ⟨l.key, (wordsOf 4 sw sb).map (BitVec.ofNat 32), [], l.id, []⟩
        else match bytes (l.key.code + lo) (12 * lw) 2 with
          | .error e => .error e
          | .ok lb =>
            .ok ⟨l.key, (wordsOf 4 sw sb).map (BitVec.ofNat 32), (wordsOf 12 lw lb).map (BitVec.ofNat 96), l.id, []⟩

/-- Real bytes of a load (R163). -/
def Image.real (i : Image) : Nat := 4 * i.scalar.length + 12 * i.lane.length

namespace State
/-- A slot's load has written its last byte (R161). -/
def loadDone (s : State) (core abs : Nat) (l : OLoad) (pend : Option OLoad) (i : Image) : State :=
  let s := (s.setSlot core abs (.ready { i with loaded := s.tick })).creditLoad l.reqs i.real l.id
  match pend with
  | some p => s.acceptLoad core abs p
  | none => s

/-- A slot's load has faulted at its access point (R161, R163): the gongs of its requests become FAULTED,
and one record is posted. -/
def loadFault (s : State) (core abs : Nat) (l : OLoad) (pend : Option OLoad) (code va : Nat) : State :=
  let s := (s.setSlot core abs (match pend with | some p => .loading p none | none => .empty)).forgetAnswers l.key.part code
  let s := l.reqs.foldl (fun s r => match r with
    | .gong g n _ =>
      match s.team? g.tref with
      | some t => s.setTeam (t.setGong n { t.gong n with mode := .faulted })
      | none => s
    | .root _ => s) s
  let rf : RecordFields := { code := code, kind := 3, core := core, addr := va, opid := l.id }
  s.post l.key.part (some (.overlay core abs l)) (match l.reqs.head? with
    | some (.gong g n _) => { rf with user := n, lid := g.lid, team := g.team, grp := g.grp }
    | some (.root t) => { rf with lid := t.lid, team := t.team }
    | none => rf)
end State

end Sys2Proof.Machine
end

