-- ==== Sys2Proof/Machine/Lifecycle.lean ====
section
/-!
DEFINITION. How groups, teams and launches end: exits, kills and completions (R25, R30, R31, R219, R330,
R425 to R428), launch records and their checks (R34, R35, R385, R386), and kicks (R220, R427).
-/
namespace Sys2Proof.Machine

/-- A launch has completed. -/
def LState.isComplete : LState → Bool
  | .complete _ => true
  | _ => false

/-! ### Records of a launch (R426 to R428) -/

namespace State
/-- Writes bytes to virtual memory for the distributor: the state, or the fault, or the line that the host is first
asked for (R87). -/
def writeVa (s : State) (p : Part) (va : Nat) (bs : List Byte) : Except EngStop State :=
  match engine s p va bs.length 0 true false with
  | .ok ls _ => .ok ((s.cacheWrite none 1 0 0 (ls.zip bs)).pokes (ls.zip bs))
  | .fail t a => .error (.fault t.code a)
  | .fetch a b c => .error (.fetch a b c)
/-- Posts a record of KIND 5: a launch's status. -/
def postLaunch (s : State) (part code status lid va : Nat) : State :=
  s.post part none { code := code, kind := 5, user := status, lid := lid, addr := va }
/-- The header of a cadence trace: MAGIC, COUNT and PAIRS (R428). -/
def traceHeader (s : State) (l : Launch) : List Byte :=
  leBytes 64 (0x45434143 + 2 ^ 32 * l.trace.length +
    2 ^ 64 * ((s.part? l.part).map fun p => (prPairs p.prec).toNat).getD 0)

/-- A launch's write waits for a line of the host's. -/
def owe (s : State) (part lid i : Nat) : State :=
  { s with launches := s.launches.map fun l => if l.part = part ∧ l.lid = lid then { l with owed := i :: l.owed } else l }

/-- Writes the header of a cadence trace (0), or entry i − 1; a fault posts a record of KIND 6 and waits for
REPLAY (R428). -/
def writeTrace (s : State) (l : Launch) (i : Nat) : State :=
  match s.part? l.part with
  | none => s
  | some p =>
    let e := l.trace.getD (i - 1) (0, 0)
    let w := if i = 0 then s.writeVa p (lrTrace l.lrec) ((s.traceHeader l).take 26)
      else s.writeVa p (lrTrace l.lrec + 64 + 8 * (i - 1)) (leBytes 8 (e.1 + 2 ^ 32 * e.2))
    match w with
    | .ok s => s
    | .error (.fetch a b c) => (s.askPeer p a b c).owe l.part l.lid (i + 1)
    | .error (.fault code va) =>
      (s.setLaunch { l with traceBad := i :: l.traceBad }).post l.part (some (.trace l.lid i))
        { code := code, kind := 6, lid := l.lid, team := if i = 0 then 0 else e.1, core := if i = 0 then 0 else e.2, addr := va }

/-- Writes the completion word of a launch (R426). -/
def writeDone (s : State) (p : Part) (l : Launch) (status : Nat) : State :=
  if l.doneAt = 0 then s
  else match s.writeVa p l.doneAt (leBytes 8 (status + 2 ^ 32 * l.lid)) with
    | .ok s => s
    | .error (.fetch a b c) => (s.askPeer p a b c).owe p.id l.lid 0
    | .error (.fault code va) => s.postLaunch p.id code status l.lid va
/-- Makes again the writes of a launch that wait for lines of the host's. -/
def payOwed (s : State) (part lid : Nat) : State :=
  match s.launch? part lid, s.part? part with
  | some l, some p => l.owed.reverse.foldl (fun s i =>
      if i = 0 then (match l.state with | .complete status => s.writeDone p l status | _ => s)
      else match s.launch? part lid with | some l => s.writeTrace l (i - 1) | none => s) (s.setLaunch { l with owed := [] })
  | _, _ => s

/-- A launch completes with a status (R426, R427): its result, its completion word, and for one that
recorded its cadence the trace header. -/
def completeLaunch (s : State) (part lid status : Nat) : State :=
  match s.launch? part lid, s.part? part with
  | some l, some p =>
    let s := s.setPart { p with results := ((lid, status) :: p.results).take 65536 }
    let s := s.setLaunch { l with state := .complete status }
    let s := if lrDet l.lrec = 1 ∧ lrTrace l.lrec ≠ 0 then
        s.writeTrace { l with state := .complete status } 0 else s
    let s := match l.kicker, l.state with
      | some k, _ => if status = 1 then s else s.postLaunch part 0x24 status k 0
      | none, .read _ _ true => s.postLaunch part 0x24 status lid 0
      | none, _ => s.writeDone p l status
    -- a bound launch that ends without its sequence having started, and no descriptor held (R473)
    match l.seqNo, s.coll? part (lrColl l.lrec) with
    | some n, some c =>
      if c.desc.isNone && ((s.seq? part (lrColl l.lrec) n).map fun q => !q.started).getD false
        then s.abortSeq part (lrColl l.lrec) n 5 else s
    | _, _ => s
  | _, _ => s

/-! ### Teams -/

/-- Cores that hold something of a team. -/
def teamCores (s : State) (t : Team) : List Nat :=
  if lrPair (s.lrec ⟨t.ref.part, t.ref.lid, t.ref.team, 0⟩) then [t.core, t.core + 1] else [t.core]
/-- Drains that a team's holds kept waiting (R165, R170). -/
def releaseCores (s : State) (cs : List Nat) : State := cs.foldl (fun s c => s.drainCore c) s

/-- What an open record is about once a launch is killed; none where it closes. The record of an overlay load
stays open for the requests of other launches that wait for the load. -/
def afterKill (lid : Nat) (keep : OReq → Bool) (bits : BitVec 512) : About → Option About
  | .overlay core slot l =>
    if l.reqs.any keep ∨ l.reqs = [] then some (.overlay core slot { l with reqs := l.reqs.filter keep }) else none
  | a => if fld bits 63 32 = lid then none else some a

/-- The launch's open records close (R425, R431); what a posting that waits is about closes, but the record is posted
(R429). -/
def closeRecords (s : State) (part : Nat) (f : BitVec 512 → About → Option About) : State :=
  match s.part? part with
  | some p => s.setPart { p with
      recs := p.recs.filterMap fun r => (f r.bits r.about).map fun a => { r with about := a },
      posts := p.posts.map fun q => { q with about := q.about.bind (f q.bits) } }
  | none => s

/-- A team of a launch that is killed becomes KILLED once its groups are DONE: its engine operations stop, the presence
counts they raised fall, turns that waited for their reservations close (R153), and it holds nothing of its cores any more. -/
def killTeam (s : State) (r : TRef) : State :=
  let mine := fun (g : GRef) => decide (g.tref = r)
  let keep := fun (q : OReq) => match q with
    | .gong g _ _ => !mine g
    | .root t => t != r
  let s := s.forgetQuiet r.part fun w => match w with
    | .op i => ((s.op? i).map fun o => mine o.by_).getD false
    | _ => false
  let onSlot := fun (x : Slot) => match x with
    | .loading l p => Slot.loading { l with reqs := l.reqs.filter keep } (p.map fun q => { q with reqs := q.reqs.filter keep })
    | .draining i p => .draining i { p with reqs := p.reqs.filter keep }
    | y => y
  let onCore := fun (c : Core) =>
    { c with mops := c.mops.filter (fun m => !mine m.by_), slots := c.slots.map (fun e => (e.1, onSlot e.2)),
             waits := c.waits.map fun e => (e.1, { e.2 with reqs := e.2.reqs.filter keep }) }
  let onTeam := fun (t : Team) => if t.ref = r then { t with state := .killed, pres := [] } else t
  (s.teamGroups r).foldl (fun s g => s.settleTurns g.ref)
    { s with ops := s.ops.filter (fun o => !mine o.by_), cores := s.cores.map onCore, teams := s.teams.map onTeam }

/-- The teams of a launch that is killed whose groups are DONE become KILLED; with the last the launch completes, and
its records close. -/
def settleKill (s : State) (part lid : Nat) : State :=
  match s.launch? part lid with
  | some l =>
    if !l.killed || l.state.isComplete then s
    else
      let ts := s.teams.filter fun t => t.ref.part = part ∧ t.ref.lid = lid ∧ t.state ≠ .done ∧ t.state ≠ .killed
      let ended := fun (t : Team) => (s.teamGroups t.ref).all fun g => g.state == .done
      let keep := fun (r : OReq) => match r with
        | .gong g _ _ => !(g.part == part && g.lid == lid)
        | .root t => !(t.part == part && t.lid == lid)
      let u := (ts.filter ended).foldl (fun s t => (s.killTeam t.ref).releaseCores (s.teamCores t)) s
      if ts.all ended then (u.closeRecords part (afterKill lid keep)).completeLaunch part lid 2 else u
  | none => s

/-- The chunk that CMAP maps a team to, and how many teams it has (R330). -/
def chunkOf (l : Launch) (t : Nat) : Option (Nat × Nat) :=
  let x := lrGx l.lrec
  let y := lrGy l.lrec
  match lrCmap l.lrec with
  | 0 => some (t, 1)
  | 1 => some (t / x % y + y * (t / (x * y)), x)
  | 2 => some (t / (x * y), x * y)
  | _ => none

/-- A team that becomes DONE fires its chunk when every team mapped to it is DONE (R330). With BYTES = 0 there is
no chunk and the exit fires none; the sequence finishes BAD_CONFIG (R328, log 35). -/
def teamChunk (s : State) (r : TRef) : State :=
  match s.launch? r.part r.lid with
  | some l =>
    if lrColl l.lrec = 0 then s
    else match chunkOf l r.team with
      | none => s
      | some (c, n) =>
        let ended := (s.teams.filter fun t => t.ref.part = r.part ∧ t.ref.lid = r.lid ∧ t.state = .done ∧
          (chunkOf l t.ref.team).map (·.1) = some c).length
        match nchOf s l with
        | none => fireChunk s r.part r.lid c
        | some nch => if nch = 0 ∨ (c < nch ∧ ended = n) then fireChunk s r.part r.lid c else s
  | none => s

/-- A team whose groups are all DONE becomes DONE, and with the last team its launch (R31); where the launch is killed
`settleKill` ends it. -/
def settleTeam (s : State) (r : TRef) : State :=
  match s.team? r, s.launch? r.part r.lid with
  | some t, some l =>
    if l.killed then s.settleKill r.part r.lid
    else if t.state = .running && (s.teamGroups r).all fun g => g.state == .done then
      let s := s.setTeam { t with state := .done }
      let s := (s.releaseCores (s.teamCores t)).teamChunk r
      match s.launch? r.part r.lid with
      | some l =>
        let s := s.setLaunch { l with ended := l.ended + 1 }
        if l.ended + 1 = lrTeams l.lrec then s.completeLaunch r.part r.lid 1 else s
      | none => s
    else s
  | _, _ => s

/-- A group with both slots free, no spilled fragment and an empty lane queue is DONE (R25): its turns
close, barriers it is excused from may complete, and its team may end. -/
def settleGroup (s : State) (r : GRef) : State :=
  match s.group? r with
  | some g =>
    if g.state = .live ∧ g.ctx.f0 = none ∧ g.ctx.f1 = none ∧ g.ctx.stack = [] ∧ g.queue = [] ∧ g.loads = [] ∧
        g.stores = [] then
      let s := s.setGroup { g with state := .done }
      (((s.closeTurns r).settleBars r.part r.lid).drainCore g.core).settleTeam r.tref
    else s
  | none => s
end State

/-! ### Halts (R44) and kills (R425) -/

/-- A group halted at an instruction boundary of both streams: provisional instructions are discarded, and
waits begin again (R205). DESIGN CHOICE (log 97): with several blocks queued the scalar context returns to just after
the last of their `lrun`s, which R217 keeps, so the instructions of both fragments before it stay performed. -/
def Group.halted (g : Group) (bars : Nat → Nat) (h : Halt) : Group :=
  let c := match g.queue.getLast? with | some e => e.after | none => g.ctx
  let last := (g.queue.getLast?).map (·.at_)
  let g := g.returned
  { g with state := .halted h, ctx := c.halted bars,
           loads := g.loads.filter (fun l => l.st = .lane || last.all fun t => l.at_ ≤ t), fetches := [],
           queue := g.queue.map fun e => { e with wait := .ready, after := e.after.halted bars } }

namespace State
/-- A group halts for a pre-emption or a migration: its arrival at a barrier that it has not passed and the quiets it
asked for are withdrawn. -/
def haltGroup (s : State) (g : Group) : State :=
  let s := (s.withdraw g.ref).forgetStreams g.ref
  s.setGroup (g.halted (s.barCounts g.ref) .move)
/-- A halted group has nothing under way: its stores are performed, its loads have returned, and what its core sent
for its partition has been performed (R106). -/
def quietGroup (s : State) (g : Group) : Bool := g.loads.isEmpty && s.released g

/-- Lowers presence counts of lines of a team's pair memory. -/
def lowerLines (s : State) (r : TRef) (ls : List Nat) : State :=
  match s.team? r with
  | some t => s.setTeam (ls.foldl (fun t l => t.setCount l (t.count l - 1)) t)
  | none => s

/-- A kill ends a group that has halted at an instruction boundary: it becomes DONE and its turns close. DESIGN CHOICE
(log 110): each of its accesses that are not performed, unit by unit, is performed or never is (R362). -/
def killGroup (s : State) (g : Group) : State :=
  let ws := (g.stores.zipIdx.filter fun e => s.bit (5000 + e.2)).map (·.1)
  let s := ws.foldl (fun s w => s.applyStore g w) (s.forgetStreams g.ref)
  s.regroup g.ref fun g =>
    ((s.setGroup { g with state := .done, queue := [], loads := [], fetches := [], stores := [], acks := 0,
                          ctx := { g.ctx with f0 := none, f1 := none, stack := [] } }).closeTurns g.ref).settleBars
      g.ref.part g.ref.lid

/-- A group of a launch that is killed ends (R425); with the last the launch completes. -/
def killStep (s : State) (r : GRef) : State :=
  match s.group? r, s.launch? r.part r.lid with
  | some g, some l =>
    if !l.killed || g.state == .done then s
    else match g.stores.findSome? fun w => w.ws.findSome? fun e => match e.1 with | .mem pa _ => s.hostHeld pa 1 | _ => none with
      | some x => s.askHost x
      | none => (s.killGroup g).settleKill r.part r.lid
  | _, _ => s

/-- Kills a launch (R425): groups that do not run end at once, the others each at an instruction boundary; its records
close. -/
def killLaunch (s : State) (part lid : Nat) : State :=
  match s.launch? part lid with
  | some l =>
    let s := s.setLaunch { l with killed := true }
    let mine := s.groups.filter fun g => g.ref.part = part ∧ g.ref.lid = lid ∧ g.state ≠ .done ∧ g.state ≠ .live
    (mine.foldl (fun s g => s.killStep g.ref) s).settleKill part lid
  | none => s
end State

/-! ### Launch records and code object headers (R34, R35, R385, R386) -/

/-- Fields of a code object's header that the device reads. -/
structure Header where
  novl  : Nat
  tab   : Nat
  gongs : Nat
  nacc  : Nat
  deriving DecidableEq, Repr

def sliceBytes (r : BitVec 1024) : Nat := lrDstack r * 64 + lrWidth r * 256

/-- What the team of a launch needs on its core, or on one core of its pair: groups, lane register bytes
and scratchpad bytes. -/
structure Need where
  groups : Nat
  lregs  : Nat
  spad   : Nat
  deriving DecidableEq, Repr

def needOf (r : BitVec 1024) (groups spad : Nat) : Need :=
  { groups := groups, lregs := lrLregs r * lrWidth r * groups, spad := spad + groups * sliceBytes r }
def needs (r : BitVec 1024) : List Need :=
  if lrPair r then [needOf r (lrEven r) (lrEvenSpad r), needOf r (lrGroups r - lrEven r) (lrSpad r - lrEvenSpad r)]
  else [needOf r (lrGroups r) (lrSpad r)]
def Need.fitsEmpty (n : Need) : Bool := n.lregs ≤ 524288 && n.spad ≤ 786432

/-- Teams that one empty core, or one empty pair, can hold at once. -/
def capacity (r : BitVec 1024) (gongs nacc : Nat) : Nat :=
  let per := fun (n : Need) =>
    Nat.min (if n.groups = 0 then 64 else 64 / n.groups) (Nat.min (if n.lregs = 0 then 64 else 524288 / n.lregs)
      (if n.spad = 0 then 64 else 786432 / n.spad))
  let m := (needs r).foldl (fun m n => Nat.min m (per n)) 64
  Nat.min m (Nat.min (if gongs = 0 then 64 else 32 / gongs) (if nacc = 0 then 64 else 16 / nacc))

/-- Why a launch is not taken: it completes with a status, or a line its checks read is still to come. -/
inductive LaunchStop where
  | status (n : Nat)
  | fetch (peer page line : Nat)

/-- A read of the distributor that stops: a fault gives a status. -/
def LaunchStop.ofRead (st : Nat) : EngStop → LaunchStop
  | .fault _ _ => .status st
  | .fetch a b c => .fetch a b c

/-- The checks of R35 on a launch record, with the header (R386): a status other than DONE, or the header. -/
def checkLaunch (s : State) (p : Part) (r : BitVec 1024) : Except LaunchStop Header :=
  if lrWidthCode r = 3 ∨ lrDet r = 3 ∨ 2 ≤ lrPlace r ∨ 2 ^ 52 ≤ lrCode r ∨ lrCode r % 128 ≠ 0 ∨ lrTeams r = 0 ∨
      2 ^ 32 < lrTeams r ∨ (32 < lrGroups r ∧ !lrPair r) ∨ (lrDet r ≠ 0 ∧ lrTrace r = 0) ∨
      (lrColl r ≠ 0 ∧ (lrChunk r = 0 ∨ !(p.colls.any fun c => crId c.crec = lrColl r))) then .error (.status 0x10)
  else match engineBytes s p (lrCode r) 128 0 false with
    | .error e => .error (.ofRead 0x13 e)
    | .ok hb =>
      let h := BitVec.ofNat 1024 (ofBytes hb)
      let x : Header := { novl := fld h 63 48, tab := fld h 95 64, gongs := fld h 101 96, nacc := fld h 106 102 }
      if fld h 31 0 ≠ 0x4C454445 ∨ fld h 47 32 ≠ 1 ∨ x.novl = 0 ∨ 256 < x.novl ∨ x.tab % 16 ≠ 0 ∨ 32 < x.gongs ∨
          16 < x.nacc ∨ prNslot p.prec < fld h 111 107 + 1 ∨ x.novl ≤ lrRoot r then .error (.status 0x10)
      else match engineBytes s p (lrCode r + x.tab + 16 * lrRoot r) 16 1 false with
        | .error e => .error (.ofRead 0x13 e)
        | .ok eb =>
          let sw := fld (BitVec.ofNat 128 (ofBytes eb)) 74 64
          if sw ≤ 16 then .error (.status 0x10)
          else if (needs r).any (fun n => !n.fitsEmpty) ∨ (lrPair r ∧ 1572864 < lrSpad r) then .error (.status 0x11)
          else
            let units := if lrPair r then (prCores p.prec).length / 2 else (prCores p.prec).length
            if lrCoop r ∧ units * capacity r x.gongs x.nacc < lrTeams r then .error (.status 0x12) else .ok x

/-- The cadence trace that a launch with DET = 2 reads before it places any team: its entries, or none where
it does not match (R428). -/
def readTrace (s : State) (p : Part) (r : BitVec 1024) : Except LaunchStop (List (Nat × Nat)) :=
  match engineBytes s p (lrTrace r) 64 0 false with
  | .error e => .error (.ofRead 0x10 e)
  | .ok hb =>
    let h := BitVec.ofNat 512 (ofBytes hb)
    let n := lrTeams r
    if fld h 31 0 ≠ 0x45434143 ∨ h.extractLsb' 64 144 ≠ prPairs p.prec ∨ fld h 63 32 ≠ n then .error (.status 0x10)
    else
      let es := (List.range n).mapM fun i => (engineBytes s p (lrTrace r + 64 + 8 * i) 8 0 false).map fun b =>
        let e := BitVec.ofNat 64 (ofBytes b)
        (fld e 31 0, fld e 40 32)
      match es with
      | .error e => .error (.ofRead 0x10 e)
      | .ok ok =>
      if (ok.map (·.1)).eraseDups.length = n && ok.all (fun e => e.1 < n && (prCores p.prec).contains e.2 &&
          !(lrPair r && e.2 % 2 == 1)) then .ok ok else .error (.status 0x10)

/-- A launch as read from a queue entry or a kick, with nothing placed. -/
def Launch.new (part lid recAt doneAt : Nat) (kicker : Option Nat) (st : LState) : Launch :=
  { part := part, lid := lid, state := st, recAt := recAt, doneAt := doneAt, kicker := kicker, lrec := 0, gongs := 0,
    nacc := 0, novl := 0, tab := 0, seqNo := none, next := 0, ended := 0, waited := false, trace := [], traceBad := [],
    tq := Vector.replicate 4 .reset, bars := Vector.replicate 8 ⟨0, []⟩, fired := [], owed := [], killed := false }

namespace State
/-- Adds a launch; an old complete one of that id goes, with what it still lists. -/
def addLaunch (s : State) (l : Launch) : State :=
  { s with launches := l :: s.launches.filter (fun m => ¬(m.part = l.part ∧ m.lid = l.lid)),
           teams := s.teams.filter (fun t => ¬(t.ref.part = l.part ∧ t.ref.lid = l.lid)),
           groups := s.groups.filter fun g => ¬(g.ref.part = l.part ∧ g.ref.lid = l.lid) }

/-- A launch whose record has been read is checked and taken, or completes with the failing check's
status (R35); a bound launch takes the next sequence number of its collective (R329). Where a line is still
to come, which. -/
def takeLaunch (s : State) (part lid : Nat) (rec : Except EngStop (BitVec 1024)) : Except (Nat × Nat × Nat) State :=
  match s.launch? part lid, s.part? part with
  | some l, some p =>
    match rec with
    | .error (.fetch a b c) => .error (a, b, c)
    | .error _ => .ok (s.completeLaunch part lid 0x13)
    | .ok r =>
      let l := { l with lrec := r }
      let s := (s.recallVa p (lrCode r) 128).setLaunch l
      let s := if lrDet r = 2 then s.recallVa p (lrTrace r) (64 + 8 * lrTeams r) else s
      match checkLaunch s p r with
      | .error (.fetch a b c) => .error (a, b, c)
      | .error (.status st) => .ok (s.completeLaunch part lid st)
      | .ok h =>
        match (if lrDet r = 2 then readTrace s p r else .ok []) with
        | .error (.fetch a b c) => .error (a, b, c)
        | .error (.status st) => .ok (s.completeLaunch part lid st)
        | .ok tr =>
          let n := ((s.coll? part (lrColl r)).map (·.count)).getD 0
          let bound := lrColl r ≠ 0
          let s := s.setLaunch { l with state := .taken p.orders, gongs := h.gongs, nacc := h.nacc, novl := h.novl,
                                        tab := h.tab, trace := tr, seqNo := if bound then some n else none }
          let s := s.setPart { p with orders := p.orders + 1 }
          .ok <| if bound then
            ((s.onColl part (lrColl r) fun c => { c with count := n + 1 }).knowSeq part (lrColl r) n).onSeq part (lrColl r) n
              fun q => { q with chunkB := lrChunk r, rtile := lrRtile r, lid := some lid }
          else s
  | _, _ => .ok s

/-- Kicked launches of a partition that are incomplete (R220). -/
def kicksOpen (s : State) (part : Nat) : Nat :=
  (s.launches.filter fun l => l.part = part ∧ l.kicker.isSome ∧ !l.state.isComplete).length

/-- Hands a kicked launch's record to the distributor (R220, R427). -/
def kickLaunch (s : State) (part lid : Nat) (r : BitVec 1024) : Except (Nat × Nat × Nat) State :=
  match s.part? part with
  | none => .ok s
  | some p =>
    let id := 0x80000000 + p.kicks % 2 ^ 31
    let s := s.setPart { p with kicks := p.kicks + 1 }
    (s.addLaunch (Launch.new part id 0 0 (some lid) (.taken 0))).takeLaunch part id (.ok r)
end State

end Sys2Proof.Machine
end

