-- ==== Sys2Proof/Machine/Control.lean ====
section
/-!
DEFINITION. Control of the scalar stream: branches, calls, loops, divergence, the lane queue, exit, kick,
traps and breaks (R22 to R28, R212 to R221, R231).
-/
namespace Sys2Proof.Machine

/-! ### Branches and calls -/

def execBr (off : BitVec 20) (s : State) : Out :=
  onFrag s fun g f =>
    match branchTarget f.pcw off with
    | some t =>
      if s.inOverlay g f t then s.setGroup (g.onCtx fun c => c.goto s.cur.st.slot1 f.slot t) else s.trap g .illegalOpcode
    | none => s.trap g .illegalOpcode

def execBrc (neg : Bool) (c : CReg) (off : BitVec 20) (s : State) : Out :=
  onFrag s fun g f =>
    match branchTarget f.pcw off with
    | some t =>
      if s.inOverlay g f t then
        if g.ctx.getC c != neg then s.setGroup (g.onCtx fun c => c.goto s.cur.st.slot1 f.slot t)
        else s.setGroup (g.onCtx fun c => c.retire s.cur.st.slot1 1)
      else s.trap g .illegalOpcode
    | none => s.trap g .illegalOpcode

def execCall (off : BitVec 20) (s : State) : Out :=
  onFrag s fun g f =>
    match branchTarget f.pcw off with
    | some t =>
      if s.inOverlay g f t then
        s.setGroup (g.onCtx fun c => (c.setS 63 (link false (f.pcw + 1) (s.curOvl g f))).goto s.cur.st.slot1 f.slot t)
      else s.trap g .illegalOpcode
    | none => s.trap g .illegalOpcode

def execRet (s : State) : Out :=
  onFrag s fun g f =>
    let l := g.ctx.getS 63
    if linkT l || linkOvl l ≠ s.curOvl g f || s.swords g f ≤ linkPcw l then s.trap g .illegalOperand
    else s.setGroup (g.onCtx fun c => c.goto s.cur.st.slot1 f.slot (linkPcw l))

/-! ### Loops (R28, R215) -/

/-- Opens a loop level of a count with its body from start to fin; the instruction has n words. DESIGN CHOICE (log 120):
an END outside the overlay is found before four valid levels. -/
def openLoop (s : State) (n count fin : Nat) : Out :=
  onFrag s fun g f =>
    if s.swords g f ≤ fin then s.trap g .illegalOpcode
    else if 4 ≤ f.loops.length then s.trap g .illegalOperand
    else if count = 0 then s.setGroup (g.onCtx fun c => c.goto s.cur.st.slot1 f.slot (fin + 1))
    else
      let l : LoopLevel := { count := word count, start := f.pcw + n, fin := fin, slot := f.slot }
      s.setGroup (g.onCtx fun c =>
        (c.setFrag s.cur.st.slot1 (some { f with loops := l :: f.loops })).retire s.cur.st.slot1 n)

def execLoop (a : SReg) (fin : BitVec 10) (s : State) : Out :=
  match s.group? s.cur.g with
  | some g => openLoop s 1 (g.ctx.getS a).toNat fin.toNat
  | none => .fault .noIssuer
def execLoopi (count : BitVec 20) (fin : BitVec 10) (s : State) : Out := openLoop s 2 count.toNat fin.toNat

/-- `lbrk` goes on after END, in the slot of the level (DESIGN CHOICE, log 47: the rules name no slot). -/
def execLbrk (s : State) : Out :=
  onFrag s fun g f =>
    match f.loops with
    | [] => s.trap g .illegalOperand
    | l :: ls =>
      s.setGroup (g.onCtx fun c =>
        (c.setFrag s.cur.st.slot1 (some { f with loops := ls })).goto s.cur.st.slot1 l.slot (l.fin + 1))

/-! ### Divergence (R22 to R26) -/

/-- A loop level in its 64 bits, and a divergence stack entry in its 64 bytes (R27). -/
def LoopLevel.bits (l : LoopLevel) : Nat :=
  l.count.toNat + 2 ^ 32 * l.start + 2 ^ 42 * l.fin + 2 ^ 52 * l.slot + 2 ^ 57
def Frag.entry (f : Frag) : BitVec 512 :=
  f.loops.reverse.zipIdx.foldl (fun b l => b ||| place 512 (192 + 64 * l.2) l.1.bits)
    (place 512 2 f.pcw ||| place 512 12 f.slot ||| place 512 32 (f.joins.headD 0) ||| place 512 64 f.mask.toNat |||
     place 512 128 f.solo.toNat ||| place 512 448 f.tokens.toNat ||| place 512 480 f.depth |||
     place 512 488 (if f.joinSince.isSome then 1 else 0))
/-- The entries of a group's divergence stack of n entries, each with its offset in the slice area (R27, R51): a ring,
whose top entry is the first of the stack. -/
def Ctx.ring (c : Ctx) (n : Nat) : List (Nat × BitVec 512) :=
  c.stack.zipIdx.map fun e => (64 * ((c.top - e.2) % n).toNat, e.1.entry)

/-- Bit k of a solo vector, for depth k from 1 to 64. -/
def soloBit (k : Nat) : BitVec 64 := 1#64 <<< (k - 1)

/-- The wait of a fragment that can be pushed onto the divergence stack: its outstanding access or its pause
ends first (log 12). -/
def Frag.canSpill (f : Frag) : Bool :=
  match f.wait with
  | .load _ | .walk _ _ | .pause | .xinit _ => false
  | _ => true

/-- A stream's instruction has asked for a quiet, or has it: it goes on before its fragment is spilled. -/
def State.askedQuiet (s : State) (g : Group) (b : Bool) : Bool :=
  (s.part? g.ref.part).any fun p => p.homes.any fun h =>
    h.askedBy g.ref (.frag b)

/-- `split`. DESIGN CHOICE (log 120): a target or join address outside the overlay is found before a full depth. -/
def execSplit (p : PReg) (target joinAt : BitVec 10) (s : State) : Out :=
  onFrag s fun g f =>
    let b := s.cur.st.slot1
    let t := f.mask &&& g.getP p
    let u := f.mask &&& ~~~(g.getP p)
    if s.swords g f ≤ target.toNat ∨ s.swords g f ≤ joinAt.toNat then s.trap g .illegalOpcode
    else if f.depth = 64 then s.trap g .spillOverflow
    else
      let deep := { f with depth := f.depth + 1, joins := (4 * joinAt.toNat + 4096 * f.slot) :: f.joins }
      let count := fun (c : Ctx) => { c with perf0 := c.perf0 + 1 }
      if u = 0 then
        let x := { deep with solo := f.solo ||| soloBit (f.depth + 1) }
        s.setGroup (g.onCtx fun c => count (c.setFrag b (some (x.jump f.slot target.toNat))))
      else if t = 0 then
        let x := { deep with solo := f.solo ||| soloBit (f.depth + 1) }
        s.setGroup (g.onCtx fun c => count (c.setFrag b (some (x.next 2))))
      else
        let half := { deep with solo := f.solo &&& ~~~(soloBit (f.depth + 1)) }
        let new := ({ half with mask := t }).jump f.slot target.toNat
        let old := ({ half with mask := u }).next 2
        match g.ctx.frag (!b) with
        | none => s.setGroup (g.onCtx fun c => (count ((c.setFrag b (some old)).setFrag (!b) (some new))).settle)
        | some other =>
          if lrDstack (s.lrec g.ref) ≤ g.ctx.stack.length then s.trap g .spillOverflow
          else if s.askedQuiet g (!b) || !other.canSpill then s.park g none
          else s.setGroup (g.onCtx fun c =>
            (count { ((c.setFrag b (some old)).setFrag (!b) (some new)) with
              stack := other :: c.stack, top := c.top + 1 }).settle)

def execJoin (s : State) : Out :=
  onFrag s fun g f =>
    let b := s.cur.st.slot1
    if f.depth = 0 then s.setGroup (g.onCtx fun c => c.retire b 1)
    else if f.solo &&& soloBit f.depth ≠ 0 then
      let x := { f.next 1 with solo := f.solo &&& ~~~(soloBit f.depth), depth := f.depth - 1, joins := f.joins.tail }
      s.setGroup (g.onCtx fun c => { c.setFrag b (some x) with perf0 := c.perf0 + 1 })
    else
      s.setGroup (g.onCtx fun c =>
        { c.setFrag b (some (f.hold s (.join s.tick))) with perf0 := c.perf0 + 1 }.settle)

/-- `yield` (R26): with an empty stack the next scalar issue is the other fragment's, if it is ready. -/
def execYield (s : State) : Out :=
  onFrag s fun g f =>
    let b := s.cur.st.slot1
    match g.ctx.stack with
    | [] => s.setGroup { g.onCtx (fun c => c.retire b 1) with last1 := b }
    | e :: st =>
      s.setGroup (g.onCtx fun c =>
        { c.setFrag b (some e) with stack := st ++ [f.next 1], top := c.top - 1, perf0 := c.perf0 + 1 }.settle)

/-! ### The lane queue (R14, R18, R217, R218) -/

def execLrun (off : BitVec 10) (s : State) : Out :=
  onFrag s fun g f =>
    if s.lwords g f ≤ off.toNat then s.trap g .illegalOpcode
    else if 8 ≤ g.queue.length then s.park g (some 3)
    else
      let f := { f with runs := s.tick :: f.runs.filter fun t => g.queue.any fun e => e.at_ = t }
      let c := (g.ctx.setFrag s.cur.st.slot1 (some f)).retire s.cur.st.slot1 1
      let e : Entry := { slot := f.slot, start := off.toNat, word := off.toNat, mask := f.mask, capS := g.ctx.s,
                         capA := g.ctx.a, frag := s.cur.st.slot1, lrunAt := f.pcw, wait := .ready, after := c, at_ := s.tick,
                         dep := g.ctx.dep }
      s.setGroup { g with ctx := c, queue := g.queue ++ [e] }

def execLwait (s : State) : Out :=
  onFrag s fun g _ =>
    if g.queue.isEmpty && g.loads.all (fun l => l.st ≠ .lane) then s.setGroup (g.onCtx fun c => c.retire s.cur.st.slot1 1)
    else s.park g none

/-- `exit` (R219): the fragment's lanes retire and its tokens are released. -/
def execExit (s : State) : Out :=
  onFrag s fun g _ =>
    if s.provisional g s.cur.st.slot1 || !g.loads.isEmpty || !s.released g then s.park g none
    else
      let s := s.setGroup (g.onCtx fun c =>
        { c.setFrag s.cur.st.slot1 none with perf0 := c.perf0 + 1 }.settle)
      (s.drainCore g.core).settleGroup g.ref

/-! ### Launching, traps, breaks and timing (R220, R221, R231) -/

def execTrap (i : BitVec 16) (s : State) : Out := onFrag s fun g _ => s.trap g .userTrap 0 0 i.toNat

/-- `brkpt`: `BREAK` where the driver enabled debug, else no effect. -/
def execBrkpt (i : BitVec 16) (s : State) : Out :=
  onFrag s fun g _ =>
    if ((s.part? g.ref.part).map fun p => prDebug p.prec).getD false then s.trap g .break_ 0 0 i.toNat
    else s.setGroup (g.onCtx fun c => c.retire s.cur.st.slot1 1)

def execKick (a : AReg) (s : State) : Out :=
  onFrag s fun g _ =>
    if 256 ≤ s.kicksOpen g.ref.part || !s.released g then
      (if (g.ctx.getA a).toNat % 128 ≠ 0 then s.trap g .misalign (g.ctx.getA a).toNat else s.park g none)
    else
      s.readAt g true (g.ctx.getA a).toNat 128 128 fun s bs =>
        match (s.regroup g.ref fun g => s.setGroup (g.onCtx fun c => c.retire s.cur.st.slot1 1)).kickLaunch g.ref.part g.ref.lid
            (BitVec.ofNat 1024 (ofBytes bs)) with
        | .ok s => s
        | .error (x, y, z) => s.partOf g fun p => (s.askPeer p x y z).park g none

/-- `pause` (R221): `pause 0` is `nop`; otherwise the fragment waits. -/
def execPause (n : BitVec 12) (s : State) : Out :=
  onFrag s fun g _ =>
    if n = 0 then s.setGroup (g.onCtx fun c => c.retire s.cur.st.slot1 1) else s.setWait g s.cur.st .pause

/-- The cycles of a `pause` have passed. -/
def execPauseEnd (r : GRef) (slot1 : Bool) (s : State) : Out :=
  match s.group? r with
  | some g =>
    match g.ctx.frag slot1 with
    | some f =>
      if f.wait = .pause ∧ g.state = .live then .next (s.setGroup (g.finish slot1 1 id)) else .next s
    | none => .next s
  | none => .next s

/-- Performance counter n of a group (R231). -/
def Group.counter (g : Group) (n : Nat) : Word :=
  if n = 0 then g.ctx.perf0 else (g.perf[n]?).getD 0
def execPerf (d : SReg) (n : BitVec 3) (s : State) : Out :=
  onFrag s fun g _ => s.setGroup (g.onCtx fun c => (c.setS d (g.counter n.toNat)).retire s.cur.st.slot1 1)

/-- A word that decodes to no assigned opcode (R185, R193, R198): it traps. -/
def execIllegalOpcodeWord (s : State) : Out := s.takeTrap .illegalOpcode

/-- A fragment parked too long raises `WATCHDOG` at the instruction it is parked on (R432); a `pause` is no
park. -/
def execWatchdogExpiry (r : GRef) (slot1 : Bool) (s : State) : Out :=
  match s.group? r with
  | some g =>
    match g.ctx.frag slot1, s.part? r.part with
    | some f, some p =>
      if prWdog p.prec ≠ 0 ∧ g.state = .live ∧ f.wait.parkedNow ∧ 2 ^ (prWdog p.prec + 10) ≤ s.clock - f.since ∧
          !s.provisional g slot1
      then .next (s.halt g (.frag slot1) .watchdog 0 0 0 0) else .next s
    | _, _ => .next s
  | none => .next s

end Sys2Proof.Machine
end

