-- ==== Sys2Proof/Machine/Engine.lean ====
section
/-!
DEFINITION. What engine operations share: their accesses to global memory, their acceptance, and how they
stop at the access point (R83, R143, R150, R312).
-/
namespace Sys2Proof.Machine

/-! ### Reads of an engine -/

/-- A ray engine read of n bytes of global memory; it has no access to an ACC page (R83, R312; log 25). -/
def engineRead (s : State) (p : Part) (va n : Nat) : Except EngStop Nat :=
  match engine s p va n (va / 65536) false false with
  | .ok ls none => .ok (ofBytes (s.peeks ls))
  | .ok _ (some _) => .error (.fault Trap.protection.code va)
  | .fail t a => .error (.fault t.code a)
  | .fetch a b c => .error (.fetch a b c)
/-- The places of a ray engine write of n bytes. -/
def engineWrite (s : State) (p : Part) (va n : Nat) : Except EngStop (List Loc) :=
  match engine s p va n (va / 65536) true false with
  | .ok ls none => .ok ls
  | .ok _ (some _) => .error (.fault Trap.protection.code va)
  | .fail t a => .error (.fault t.code a)
  | .fetch a b c => .error (.fetch a b c)

/-! ### Operations -/

/-- The operation has not stopped and its team is not in a save image. -/
def Op.active (s : State) (o : Op) : Bool := !o.fault && ((s.team? o.by_.tref).map fun t => t.state != .saved).getD true

namespace State
/-- An engine operation is accepted: its handle is the counter's value. -/
def accept (s : State) (g : Group) (gong : Nat) (b : OpBody) : State :=
  { s.fresh with ops := s.ops ++ [{ id := s.nextId, by_ := g.ref, core := g.core, gong := gong, fault := false, body := b }] }
/-- An operation stops at its access point: its gong becomes FAULTED and a record is posted (R143, R312). -/
def stopOp (s : State) (o : Op) (kind code va : Nat) : State :=
  (s.setOp { o with fault := true }).faultGong o.by_ o.gong code kind o.id va (.engine o.id)
/-- What an engine's access that is not done yet leads to. -/
def engStop (s : State) (o : Op) (kind : Nat) : EngStop → State
  | .fault code va => s.stopOp o kind code va
  | .fetch a b c => ((s.part? o.by_.part).map fun p => s.askPeer p a b c).getD s
end State

/-- The bytes that an operation reads in the place of those in memory: words that it has read before writes that raced with
it, and words that are being written (R85). -/
def State.opReads (s : State) (o : Op) : List (Loc × Byte) := o.got ++ s.heldBack o.by_.part [o.by_]
/-- The state with bytes in the place of those in memory; the first listed of a place counts. -/
def State.asRead (s : State) (got : List (Loc × Byte)) : State :=
  got.foldr (fun e s => match e.1 with
    | .mem a _ => { s with mem := Memory.wr s.mem a e.2 }
    | .chip o => { s with chip := Memory.wr s.chip o e.2 }
    | .spd t o => { s with teams := s.teams.map fun x => if x.ref = t then { x with spd := Memory.wr x.spd o e.2 } else x }
    | _ => s) s

/-- An operation writes bytes: other operations may have read the words before (R85), caches lose their copies, and the
cores of its team their `.si` copies too, which its own strong loads may not read any more (R67, R74). -/
def State.engineWrites (s : State) (o : Op) (ws : List (Loc × Byte)) : State :=
  let s := s.agentWrites o.by_.part (fun h => h.ref.tref == o.by_.tref) ws
  let lines := (State.linesOf (ws.map (·.1))).map (·.1)
  match s.team? o.by_.tref with
  | some t => (s.teamCores t).foldl (fun s c => s.dropSi c lines) s
  | none => s

/-- Runs a step of an engine operation that is active. -/
def onOp (s : State) (i : Nat) (k : Op → Part → State) : Out :=
  match s.op? i with
  | some o =>
    match s.part? o.by_.part with
    | some p => .next (if o.active s then k o p else s)
    | none => .next s
  | none => .next s

/-- What an engine access that waits for quiets comes to (R95). -/
inductive EngGet where
  | wait
  | stop (e : EngStop)
  | ok (ls : List Loc)

/-- An operation's access to global memory; on an ACC page it waits until the region is quiet. -/
def engineGet (s : State) (o : Op) (p : Part) (va n : Nat) (write : Bool) : State × EngGet :=
  match engine s p va n (va / 65536) write false with
  | .ok ls none => (if write then s else s.recalls ls, .ok ls)
  | .ok ls (some r) =>
    let (s, ok) := s.quiets p.id [(r, 0)] (.op o.id) none
    if ok then (s.useQuiet p.id r (.op o.id), .ok ls) else (s, .wait)
  | .fail t a => (s, .stop (.fault t.code a))
  | .fetch a b c => (s, .stop (.fetch a b c))

/-- An operation may reserve on a queue: earlier operations of its group there have made their reservations,
and the group holds the open turn (R311, R347). -/
def turnReady (s : State) (o : Op) (q : Fin 4) : Bool :=
  s.holdsTurn o.by_ q && !((s.ops.takeWhile fun x => x.id != o.id).any fun x => x.by_ == o.by_ && x.reserves q.val)

end Sys2Proof.Machine
end

