-- ==== Sys2Proof/Machine/SyncInstr.lean ====
section
/-!
DEFINITION. Gong, launch barrier, ticket and collective instructions of the scalar stream (R222 to R227),
and the header write of a closing turn (R154).
-/
namespace Sys2Proof.Machine

/-! ### Gongs -/

/-- Runs an instruction on a gong of the group's team. -/
def onGong (s : State) (n : GReg) (k : Group → Frag → Team → Gong → State) : Out :=
  onFrag s fun g f =>
    match s.team? g.ref.tref with
    | some t => k g f t (t.gong n.toNat)
    | none => s

/-- The fragment that issues moves on past n words. -/
def State.done (s : State) (g : Group) (n : Nat) : State := s.setGroup (g.finish s.cur.st.slot1 n id)

/-- `garrive`: a release, of what its group has done before it (R72, R106, R142). -/
def execGarrive (n : GReg) (a : SReg) (i : BitVec 12) (s : State) : Out :=
  onGong s n fun g _ t x =>
    match x.arrive g.ref.grp (g.ctx.sum a (imm12 i)).toNat (lrGroups (s.lrec g.ref)) with
    | .error e => s.trap g e 0 0 0 n.toNat
    | .ok y => if !s.released g then s.park g none else (s.setTeam (t.setGong n.toNat y)).done g 1

/-- What a wait for PHASE ≠ q finds (R141, R143); its return is an acquire (R72). -/
def waitGong (s : State) (g : Group) (n : GReg) (x : Gong) (q : Bool) : State :=
  if x.mode = .faulted then s.trap g .gongFault 0 0 0 n.toNat
  else if x.phase ≠ q then (s.done g 1).discardSi g
  else s.park g (some 4)

def execGwait (n : GReg) (a : SReg) (q : Bool) (s : State) : Out :=
  onGong s n fun g _ _ x => waitGong s g n x ((g.ctx.sum a (wordB q)).getLsbD 0)

def execGsync (n : GReg) (a : SReg) (i : BitVec 12) (s : State) : Out :=
  onGong s n fun g f t x =>
    match f.wait with
    | .gong _ q => waitGong s g n x q
    | _ =>
      match x.arrive g.ref.grp (g.ctx.sum a (imm12 i)).toNat (lrGroups (s.lrec g.ref)) with
      | .error e => s.trap g e 0 0 0 n.toNat
      | .ok y =>
        if !s.released g then s.park g none else
        let s := s.setTeam (t.setGong n.toNat y)
        if y.phase ≠ x.phase then (s.done g 1).discardSi g else s.setWait g s.cur.st (.gong n.toNat x.phase)

def execGarm (n : GReg) (a b : SReg) (count : BitVec 7) (bytes : BitVec 25) (s : State) : Out :=
  onGong s n fun g _ t x =>
    match x.arm g.ref.grp (g.ctx.sum a (count.setWidth 32)).toNat (lrGroups (s.lrec g.ref))
        (g.ctx.sum b (bytes.setWidth 32)).toNat with
    | .error e => s.trap g e 0 0 0 n.toNat
    | .ok y => if !s.released g then s.park g none else (s.setTeam (t.setGong n.toNat y)).done g 2

def execGget (d : SReg) (n : GReg) (sel : BitVec 2) (s : State) : Out :=
  onGong s n fun g _ _ x =>
    let v := if sel = 0 then x.status else if sel = 1 then wordI x.bal else x.real
    s.setGroup (g.onCtx fun c => (c.setS d v).retire s.cur.st.slot1 1)

/-! ### Launch barriers (R145, R224) -/

/-- `lbar`: an arrival, which is a release, and the wait for the completion of the phase it arrived at. -/
def execLbar (n : BitVec 3) (s : State) : Out :=
  onFrag s fun g f =>
    match s.launch? g.ref.part g.ref.lid with
    | none => s
    | some l =>
      if !lrCoop l.lrec then s.trap g .gongMisuse
      else
        let b := l.bars[n.toNat]'n.isLt
        match f.wait with
        | .lbar _ k => if b.count ≠ k then (s.done g 1).discardSi g else s.park g (some 4)
        | _ =>
          if (List.finRange 8).any fun i => i.val ≠ n.toNat && (l.bars[i]).here.contains g.ref then s.trap g .gongMisuse
          else if !s.released g then s.park g none
          else
            let b' := { b with here := if b.here.contains g.ref then b.here else g.ref :: b.here }
            let s := (s.setLaunch { l with bars := l.bars.set n.toNat b' n.isLt }).settleBars g.ref.part g.ref.lid
            if s.barCounts g.ref n.toNat ≠ b.count then (s.done g 1).discardSi g
            else s.setWait g s.cur.st (.lbar n.toNat b.count)

/-! ### Tickets (R152 to R154, R225) -/

/-- A header is valid (R152). -/
def headerOk (h : Nat × Nat) : Bool := h.1 != 0 && h.2 != 0 && h.2 % 16 == 0
/-- CAP and SLOTB of header bytes. -/
def headerOf (bs : List Byte) : Nat × Nat :=
  let r := BitVec.ofNat 512 (ofBytes bs)
  (fld r 31 0, fld r 47 32)

/-- The header as the launch's queue holds it, read by its first reservation: what stops the reservation,
a walk, or the header with the state that holds it. -/
inductive Hdr where
  | trap (t : Trap)
  | walk
  | recall (line : Nat)
  | ok (s : State) (h : Nat × Nat)

/-- The checks of a queue's base, made at each reservation (R152, R436): what stops it, or the header's physical address. -/
def headerAt (s : State) (p : Part) (base : Nat) (now : Bool) : Except Hdr Nat :=
  if base % 128 ≠ 0 then .error (.trap .illegalOperand)
  else if 2 ^ 52 ≤ base then .error (.trap .protection)
  else match (if now then xlateNow s p base 0 else xlate s p base 0) with
    | .miss => .error .walk
    | .recall l => .error (.recall l)
    | .fail t => .error (.trap t)
    | .hit e =>
      let pa := e.pa base
      if pteRemote e.pte || pteAcc e.pte || (!isHbm pa && !isHost pa) || (isHost pa && pteDead e.pte) then .error (.trap .protection)
      else .ok pa
/-- The places of a header. -/
def headerLocs (p : Part) (pa : Nat) : List Loc := (List.range 64).map fun i => .mem (pa + i) (if isHbm pa then p.key else 0)

/-- The base's checks, then the header, which the launch's first reservation reads. -/
def readHeader (s : State) (p : Part) (l : Launch) (q : Fin 4) (now : Bool) : Hdr :=
  match headerAt s p (lrTq l.lrec q.val) now with
  | .error x => x
  | .ok pa =>
    match (l.tq[q]).hdr with
    | some h => if headerOk h then .ok s h else .trap .illegalOperand
    | none => match s.hostHeld pa 64 with
      | some l => .recall l
      | none =>
        if (headerLocs p pa).any s.bad then .trap .poison
        else
          let h := headerOf (s.peeks (headerLocs p pa))
          let s := s.setLaunch { l with tq := l.tq.set q { l.tq[q] with hdr := some h } }
          if headerOk h then .ok s h else .trap .illegalOperand

/-- The queue's state after a header that was read and found invalid: it stays invalid. -/
def noteHeader (s : State) (p : Part) (l : Launch) (q : Fin 4) : State :=
  match (l.tq[q]).hdr, headerAt s p (lrTq l.lrec q.val) true with
  | none, .ok pa =>
    if (headerLocs p pa).any s.bad then s
    else s.setLaunch { l with tq := l.tq.set q { l.tq[q] with hdr := some (headerOf (s.peeks (headerLocs p pa))) } }
  | _, _ => s

/-- Takes n slots: the first index, and the queue after (R153, R154). -/
def TQueue.reserve (t : TQueue) (cap n : Nat) : Nat × TQueue :=
  (t.next, { t with next := t.next + n, granted := true,
                    drop := t.drop + (Nat.max (t.next + n) cap - Nat.max t.next cap) })

/-- `tkt` (R225); the grant is an acquire of the previous close (R154). -/
def execTkt (d a : SReg) (count : BitVec 10) (q : BitVec 2) (s : State) : Out :=
  onFrag s fun g _ =>
    match s.launch? g.ref.part g.ref.lid, s.part? g.ref.part with
    | some l, some p =>
      let qi : Fin 4 := q.toFin
      let n := (g.ctx.sum a (count.setWidth 32)).toNat
      if lrTq l.lrec qi.val = 0 ∨ n = 0 ∨ 2 ^ 24 < n then s.trap g .illegalOperand
      else match readHeader s p l qi false with
        | .walk => s.setWait g s.cur.st (.walk (lrTq l.lrec qi.val) 0)
        | .recall x => (s.askHost x).park g none
        | .trap t => (noteHeader s p l qi).trap g t (lrTq l.lrec qi.val)
        | .ok s h =>
          match s.launch? g.ref.part g.ref.lid with
          | none => s
          | some l =>
            let t := l.tq[qi]
            let i := s.turnOf g.ref
            if t.isClosed i then s.trap g .ticketOrder
            else if i = t.turn ∧ ¬(s.ops.any fun o => o.by_ = g.ref ∧ o.reserves qi.val) then
              let r := t.reserve h.1 n
              ((s.setLaunch { l with tq := l.tq.set qi r.2 }).setGroup (g.onCtx fun c =>
                (c.setS d (word r.1)).retire s.cur.st.slot1 1)).discardSi g
            else s.park g (some 5)
    | _, _ => s

/-- `tktv`: the close of a turn is a release of what its group did (R106, R154). -/
def execTktv (q : BitVec 2) (s : State) : Out :=
  onFrag s fun g _ =>
    match s.launch? g.ref.part g.ref.lid with
    | some l =>
      let qi : Fin 4 := q.toFin
      if lrTq l.lrec qi.val = 0 then s.trap g .illegalOperand
      else
        let t := l.tq[qi]
        let i := s.turnOf g.ref
        if t.isClosed i then s.trap g .ticketOrder
        else if i = t.turn then (if !s.released g then s.park g none else (s.done g 1).closeTurn g.ref qi)
        else s.park g (some 5)
    | none => s

/-- The header write of a closing turn (R154): NEXT and DROP are written and the next turn opens, or a
record of KIND 7 naming the closing group is posted. -/
def execTicketHeaderWriteDone (part lid q : Nat) (s : State) : Out :=
  match s.launch? part lid, s.part? part with
  | some l, some p =>
    if h : q < 4 then
      let t := l.tq[q]
      if t.closing = some false then
        match s.writeVa p (lrTq l.lrec q + 8) (leBytes 4 t.next ++ leBytes 4 t.drop) with
        | .ok s => .next (s.setLaunch { l with tq := l.tq.set q (TQueue.openNext t.closed.length t) })
        | .error (.fetch a b c) => .next (s.askPeer p a b c)
        | .error (.fault code va) =>
          let n := lrGroups l.lrec
          let r : GRef := ⟨part, lid, t.turn / n, t.turn % n⟩
          .next ((s.setLaunch { l with tq := l.tq.set q { t with closing := some true } }).post part (some (.ticket lid q))
            { code := code, kind := 7, user := q, lid := lid, team := r.team, grp := r.grp,
              core := ((s.group? r).map (·.core)).getD 0, turns := s.turnBits r, addr := va })
      else .next s
    else .next s
  | _, _ => .next s

/-- Header writes in flight. -/
def ticketMoves (s : State) : List Instr :=
  s.launches.flatMap fun l => (List.finRange 4).flatMap fun q =>
    if (l.tq[q]).closing = some false then [.ticketHeaderWriteDone l.part l.lid q.val] else []

/-! ### Collectives (R226, R227, R331) -/

def execXfire (a : SReg) (i : BitVec 12) (s : State) : Out :=
  onFrag s fun g _ =>
    match s.launch? g.ref.part g.ref.lid with
    | some l =>
      let c := (g.ctx.sum a (imm12 i)).toNat
      if lrColl l.lrec = 0 then s.trap g .illegalOperand
      else if (nchOf s l).any fun n => n ≤ c then s.trap g .illegalOperand
      else if !s.released g then s.park g none
      else fireChunk (s.done g 1) g.ref.part g.ref.lid c
    | none => s

/-- The launch's own sequence, waited for in a launch that is not cooperative (R331). -/
def ownWait (l : Launch) (q : Word) : Bool :=
  !lrCoop l.lrec && (match l.seqNo with | some n => word n == q | none => false)

/-- `xwait` (R227); its return is an acquire. -/
def execXwait (a : SReg) (i : BitVec 12) (s : State) : Out :=
  onFrag s fun g _ =>
    match s.launch? g.ref.part g.ref.lid with
    | some l =>
      let q := g.ctx.sum a (imm12 i)
      if lrColl l.lrec = 0 || ownWait l q then s.trap g .illegalOperand
      else match s.coll? g.ref.part (lrColl l.lrec) with
        | some c => if c.finished q then (s.done g 1).discardSi g else s.park g none
        | none => s.park g none
    | none => s

end Sys2Proof.Machine
end

