-- ==== Sys2Proof/Machine/Windows.lean ====
section
/-!
DEFINITION. Matrix windows: their layout (R275 to R278), the bytes a matrix operation reads, and the
group's accesses that wait for it (R289).
-/
namespace Sys2Proof.Machine

/-! ### Layout (R275, R276, R278) -/

/-- The format of a window. -/
def mwTy (m : BitVec 128) : LTy := (LTy.ofCode (mwFmt m)).getD .f32
/-- Twice the element size in bytes. -/
def es2 (t : LTy) : Nat := if t = .q4 then 1 else 2 * t.bytes
/-- The depth K of a format. -/
def depthOf (t : LTy) : Nat := match t with | .q4 => 256 | .e4m3 | .e5m2 => 128 | .f32 => 16 | _ => 64
/-- The chunk length kc of R134. -/
def chunkOfTy (t : LTy) : Nat := match t with | .q4 | .e4m3 | .e5m2 => 32 | .f32 => 8 | _ => 16
/-- Codes of a scale block. -/
def mwBlock (m : BitVec 128) : Nat := if mwBlk m then 32 else 16

/-- A role of a window: rows, bytes of a row, and bytes of its scale area. -/
structure Role where
  rows  : Nat
  bytes : Nat
  scale : Nat
  deriving DecidableEq, Repr
/-- The A role: 64 rows, or 256 for `mmab`. -/
def roleA (blocked : Bool) (m : BitVec 128) : Role :=
  let rows := if blocked then 256 else 64
  let t := mwTy m
  ⟨rows, depthOf t * es2 t / 2, if t = .q4 then 16 * (rows - 1) + depthOf t / mwBlock m else 0⟩
/-- The B role: K rows of 64 elements, or 256 for `mmab`. -/
def roleB (blocked : Bool) (m : BitVec 128) : Role :=
  let n := if blocked then 256 else 64
  let t := mwTy m
  ⟨depthOf t, n * es2 t / 2, if t = .q4 then depthOf t / mwBlock m * n else 0⟩

/-- The mask's offset: the first 16-byte boundary after the rows (R278). -/
def maskAt (m : BitVec 128) (r : Role) : Nat := (mwBase m + r.rows * mwRpitch m + 15) / 16 * 16
/-- The row of a window within one lane or the source, after rows have been dealt to lanes (R277). -/
def lastRow (m : BitVec 128) (width rows : Nat) : Nat := if mwSrc m = .lreg then (rows - 1) / width else rows - 1
/-- One past the last byte that a window reads in a role (R279). -/
def windowEnd (m : BitVec 128) (width : Nat) (r : Role) : Nat :=
  Nat.max (mwBase m + lastRow m width r.rows * mwRpitch m + r.bytes)
    (Nat.max (if r.scale = 0 then 0 else mwBase m + 16 * mwSoff m + r.scale)
      (if mwMask m then maskAt m r + 4 * ((r.rows + 31) / 32) else 0))

/-- Bytes of a tile row by its tag (R284). -/
def tagRow (tag : Nat) : Nat := 64 * ((LTy.ofCode tag).elim 4 LTy.bytes)
/-- One past the last byte of a tile moved by `macc.ld` or `macc.st` (R284). -/
def tileEnd (sp : WSrc) (width off rb : Nat) : Nat := off + (if sp = .lreg then 63 / width else 63) * rb + rb

/-! ### What operations read -/

/-- A range of bytes read in pair memory or in each lane's region. -/
structure Span where
  lreg : Bool
  lo   : Nat
  hi   : Nat
  deriving DecidableEq, Repr

/-- The pair memory offset of a window source's offset 0 for a group. -/
def srcBase (s : State) (g : Group) (sp : WSrc) : Nat := if sp = .spd then spdBase s g else 0
def spanOf (s : State) (g : Group) (sp : WSrc) (lo hi : Nat) : Span :=
  if sp = .lreg then ⟨true, lo, hi⟩ else ⟨false, srcBase s g sp + lo, srcBase s g sp + hi⟩

/-- The ranges that a window is read in: its rows, the scale bytes used, which the A role has in rows of 16, and its
mask. -/
def windowSpans (s : State) (g : Group) (m : BitVec 128) (a : Bool) (r : Role) : List Span :=
  let sp := fun (lo n : Nat) => spanOf s g (mwSrc m) lo (lo + n)
  let scale := mwBase m + 16 * mwSoff m
  (List.range (lastRow m (lrWidth (s.lrec g.ref)) r.rows + 1)).map (fun i => sp (mwBase m + i * mwRpitch m) r.bytes) ++
  (if r.scale = 0 then []
    else if a then (List.range r.rows).map fun i => sp (scale + 16 * i) (depthOf (mwTy m) / mwBlock m) else [sp scale r.scale]) ++
  (if mwMask m then [sp (maskAt m r) (4 * ((r.rows + 31) / 32))] else [])

/-- The ranges that a matrix operation reads. -/
def MBody.reads (s : State) (g : Group) : MBody → List Span
  | .mma _ a b => windowSpans s g a true (roleA false a) ++ windowSpans s g b false (roleB false b)
  | .mmab _ a b => windowSpans s g a true (roleA true a) ++ windowSpans s g b false (roleB true b)
  | .ld _ sp _ off => [spanOf s g sp off (tileEnd sp (lrWidth (s.lrec g.ref)) off 256)]
  | _ => []

/-- Matrix operations of a group that are accepted and not complete. -/
def mopsOf (s : State) (g : Group) : List MOp := (s.core g.core).mops.filter fun m => m.by_ = g.ref

/-- A store of the group to scratchpad waits for a matrix operation that reads those lines (R289). -/
def mopReads (s : State) (g : Group) (sp : Space) (a n : Nat) : Bool :=
  match sp with
  | .spd | .pmem =>
    let lo := (if sp = .spd then spdBase s g else 0) + a
    (mopsOf s g).any fun m => (m.body.reads s g).any fun x =>
      !x.lreg && decide (lo / 128 ≤ (x.hi - 1) / 128) && decide (x.lo / 128 ≤ (lo + n - 1) / 128)
  | _ => false

/-- A lane instruction's write of register bytes waits for a matrix operation that reads them (R289). -/
def mopReadsLane (s : State) (g : Group) (lo n : Nat) : Bool :=
  (mopsOf s g).any fun m => (m.body.reads s g).any fun x => x.lreg && decide (lo < x.hi) && decide (x.lo < lo + n)

end Sys2Proof.Machine
end

