-- ==== Sys2Proof/Machine/ScalarMem.lean ====
section
/-!
DEFINITION. Memory instructions of the scalar stream (R255 to R262, R267 to R269), and the steps that end
a memory access: a load's return, the end of a page walk, a store's acknowledgement (R17, R65, R79, R82,
R257, R443).
-/
namespace Sys2Proof.Machine

/-- Bytes of an access size. -/
def Size.count : Size → Nat
  | .b8 => 1 | .b16 => 2 | .b32 => 4 | .b64 => 8
/-- The code of a request type (R190). -/
def Req.code : Req → Nat
  | .page => 0 | .own => 1 | .wt => 2 | .si => 3 | .nc => 4
/-- The annotation acquires, or releases. -/
def Order.acquires : Order → Bool
  | .acq | .ar => true
  | _ => false
def Order.releases : Order → Bool
  | .rel | .ar => true
  | _ => false

/-- The address of a scalar access (R255). -/
def scalarAddr (c : Ctx) (sp : Space) (base : BitVec 6) (off : BitVec 32) : Nat :=
  match sp with
  | .glb => (c.getA (base.setWidth 4) + off.signExtend 64).toNat
  | _ => (c.getS base + off).toNat

/-! ### Loads -/

/-- Until when values that registers depend on were loaded: by their numbers in `dep`. -/
def sinceOf (dep : List (Nat × Nat)) (ks : List Nat) : Nat := ks.foldl (fun n k => Nat.max n (getKey dep k 0)) 0
def Ctx.since (c : Ctx) (ks : List Nat) : Nat := sinceOf c.dep ks
/-- The number in `dep` of the base register of an access to a space. -/
def baseKey (sp : Space) (base : BitVec 6) : Nat := if sp = .glb then 64 + (base.setWidth 4).toNat else base.toNat
/-- The lane registers of some bytes from a register on. -/
def regsFrom (x : Nat × Nat) : List Nat := (List.range ((x.2 + 3) / 4)).map (x.1 + ·)
/-- Registers now depend on values loaded until then; with 0 on none. -/
def setDeps (dep : List (Nat × Nat)) (ks : List Nat) (t : Nat) : List (Nat × Nat) :=
  if t = 0 then dep.filter fun e => !ks.contains e.1 else ks.foldl (fun d k => setKey d k t) dep
/-- The same of the base register of a scalar access. -/
def Ctx.baseSince (c : Ctx) (sp : Space) (base : BitVec 6) : Nat :=
  c.since [baseKey sp base]

/-- STALL after a load (R65). -/
def Group.stall (g : Group) (n : Nat) : Group := { g with memlat := word (Nat.min (g.memlat.toNat + n) (2 ^ 32 - 1)) }

/-- The load that a checked access of this annotation becomes: what holds later accesses back is an acquire, and in
mixed-size debug mode every strong access (R70, R82). A load on an ACC page is an `ldt` (R95, R261), which is strong;
`since` tells when its address was known. -/
def loadOf (s : State) (g : Group) (sp : Space) (scope : Option Scope) (order : Order) (n : Nat) (as : List (Nat × Acc))
    (fill : Fill) (since : Nat) : Load :=
  { fill := fill, glb := sp == .glb,
    weak := match scope with
      | none | some .grp => true
      | some .team => !lrPair (s.lrec g.ref)
      | _ => false
    si := as.flatMap fun a => if sp == .glb && a.2.req == 2 && a.2.lvl == 0 then
        a.2.locs.filterMap (fun l => match l with | .mem pa _ => some (pa / 128, a.2.prio) | _ => none) else []
    acq := Order.acquires order && scope ≠ some .grp
    holds := Order.acquires order || (scope.isSome && ((s.part? g.ref.part).map fun p => prMixDbg p.prec).getD false)
    size := if scope.isSome || as.any (fun a => a.2.acc.isSome) then n else 0
    scope := if as.any (fun a => a.2.acc.isSome) then some (scope.getD .dev) else scope
    since := since
    st := s.cur.st
    at_ := match s.cur.st with | .frag b => ((g.ctx.frag b).map fun f => f.from_ s).getD s.tick | .lane => s.tick
    blk := match s.cur.st, g.queue with | .lane, e :: _ => e.at_ | _, _ => 0
    ran := match s.cur.st, g.queue with | .lane, e :: _ => e.after.perf0 | _, _ => 0 }

/-! ### Loads and stores (R258) -/

/-- The wait of a scalar access before it is performed (R52, R82, R84). -/
def accessWaits (s : State) (g : Group) (sp : Space) (a n : Nat) : Bool := stalls s g sp a n || s.ackWait g
/-- Waiting for absent lines is counted (R231). -/
def waitCounter (sp : Space) : Option (Fin 6) := if sp = .spd ∨ sp = .pmem then some 2 else none

/-- A scalar load: the fragment waits for its return. -/
def scalarLoad (sp : Space) (m : SMem) (s : State) : Out :=
  onFrag s fun g _ => s.partOf g fun p =>
    let a := scalarAddr g.ctx sp m.base m.off
    let n := Size.count m.size
    let c := combine [(0, check s g p sp a n 0 { strict := m.scope.isSome, align := n } (Req.code m.req) false)]
    s.loading g p c (accessWaits s g sp a n) (waitCounter sp) State.exactRegions fun s as =>
      match (if m.scope.isSome then s.strongMix g p sp n as else .ok s) with
      | .error e => s.trap g .mixedSize e.1 e.2
      | .ok s =>
        let (s, l) := s.startLoad g p as (loadOf s g sp m.scope m.order n as
          (.scalar m.size m.sext m.data a (as.flatMap fun x => x.2.locs)) (g.ctx.baseSince sp m.base))
        s.setWait g s.cur.st (.load l)

/-- The bytes a scalar store writes. -/
def storeData (c : Ctx) (m : SMem) : List Byte :=
  leBytes (Size.count m.size) (if m.size = .b64 then (c.getA (m.data.setWidth 4)).toNat else (c.getS m.data).toNat)

/-- A scalar store. -/
def scalarStore (sp : Space) (m : SMem) (s : State) : Out :=
  onFrag s fun g _ => s.partOf g fun p =>
    let a := scalarAddr g.ctx sp m.base m.off
    let n := Size.count m.size
    let c := combine [(0, check s g p sp a n 0 { write := true, strict := m.scope.isSome, align := n } (Req.code m.req) false)]
    let wait := accessWaits s g sp a n || mopReads s g sp a n || (Order.releases m.order && !(s.released g && g.loads.isEmpty))
    s.storing g p c wait (waitCounter sp) fun s as =>
      match (if m.scope.isSome then s.strongMix g p sp n as else .ok s) with
      | .error e => s.trap g .mixedSize e.1 e.2
      | .ok s =>
        let s := if Order.acquires m.order && m.scope ≠ some .grp then s.discardSi g else s
        let g := if Order.acquires m.order then g.noSeen else g
        s.store (g.onCtx fun c => c.retire s.cur.st.slot1 2) m.scope (as.map fun x => (x.1, x.2, storeData g.ctx m))

def execLdSpd (m : SMem) (s : State) : Out := scalarLoad .spd m s
def execLdPmem (m : SMem) (s : State) : Out := scalarLoad .pmem m s
def execLdChip (m : SMem) (s : State) : Out := scalarLoad .chip m s
def execLdGlb (m : SMem) (s : State) : Out := scalarLoad .glb m s
def execStSpd (m : SMem) (s : State) : Out := scalarStore .spd m s
def execStPmem (m : SMem) (s : State) : Out := scalarStore .pmem m s
def execStChip (m : SMem) (s : State) : Out := scalarStore .chip m s
def execStGlb (m : SMem) (s : State) : Out := scalarStore .glb m s

/-! ### Tolerance loads (R103, R104, R262) -/

/-- τ of a tolerance code. -/
def tolerance (t : Nat) : Nat := if t = 0 then 0 else 2 ^ (t - 1)
/-- The tolerance of an `ldt` in a region: its own code, or DTOL. -/
def ldtTau (s : State) (p : Part) (dflt : Bool) (t r : Nat) : Nat :=
  tolerance (if dflt then rdDtol (s.homeDesc p.id r) else t)
/-- The regions of an `ldt`'s accesses with the tolerance each needs quiet. -/
def ldtRegions (s : State) (p : Part) (dflt : Bool) (t : Nat) (as : List (Nat × Acc)) : List (Nat × Nat) :=
  (as.filterMap fun a => a.2.acc).eraseDups.map fun r => (r, ldtTau s p dflt t r)

def execLdt (m : SLdt) (s : State) : Out :=
  onFrag s fun g _ => s.partOf g fun p =>
    let a := (g.ctx.getA m.base + m.off.signExtend 64).toNat
    let n := Size.count m.size
    let c := combine [(0, check s g p .glb a n 0 { strict := true, align := n } 0 false)]
    s.loading g p c (accessWaits s g .glb a n) none (ldtRegions s p m.dflt m.tol.toNat) fun s as =>
      match s.strongMix g p .glb n as with
      | .error e => s.trap g .mixedSize e.1 e.2
      | .ok s =>
        let (s, l) := s.startLoad g p as (loadOf s g .glb (some .dev) (if m.acq then .acq else .none) n as
          (.scalar m.size false m.data a (as.flatMap fun x => x.2.locs)) (g.ctx.baseSince .glb (m.base.setWidth 6)))
        s.setWait g s.cur.st (.load l)

/-! ### Fences (R71, R106, R267) -/

/-- A fence: where it releases more widely than to its own group it waits until the group's stores and its additions
that are not withheld are performed; where it acquires its atomic accesses have been performed, it discards `.si`
copies, and its later loads read nothing older; after a release wider than `.grp` engines read what the group has stored
(R83). -/
def fenceRun (s : State) (g : Group) (acq rel : Bool) (sc : Scope) (k : State → Group → State) : State :=
  if (rel && !(if sc = .grp then s.settled g else s.released g)) || (acq && g.reading) || s.ackWait g then s.park g none
  else
    let s := if acq then (if sc = .grp then s.forgetSeen g.ref else s.discardSi g) else s
    if (acq || (rel && sc ≠ .grp)) && (!g.seen.isEmpty || !g.ctx.dep.isEmpty || !g.before.isEmpty) then
      k s { g with seen := if acq then [] else g.seen, ctx := if acq then { g.ctx with dep := [] } else g.ctx,
                   before := if rel && sc ≠ .grp then [] else g.before }
    else k s g

/-- A scalar fence. -/
def scalarFence (acq rel : Bool) (sc : Scope) (s : State) : Out :=
  onFrag s fun g _ => fenceRun s g acq rel sc fun s g => s.done g 1

def execFenceAcq (sc : Scope) (s : State) : Out := scalarFence true false sc s
def execFenceRel (sc : Scope) (s : State) : Out := scalarFence false true sc s
def execFenceAr (sc : Scope) (s : State) : Out := scalarFence true true sc s

/-! ### Prefetch and presence (R268, R269) -/

/-- A prefetch reads HBM4E: its bank group has completed a read (R63). -/
def State.prefetched (s : State) (pa : Nat) : State := s.otherRead (hbmStack pa) (hbmPch pa) (hbmBank pa / 4)

/-- A prefetch of one address (R268): the line comes into its home L2 slice, or its sector into the memory-side cache, or
the fetch of a REMOTE line starts. An address that would fault, or on a poisoned, ACC or DEAD-unwritten location, or
whose page keeps out of that cache, or that the host holds, is dropped. -/
def prefetch (s : State) (g : Group) (msc : Bool) (va k : Nat) : State :=
  s.partOf g fun p =>
    if 2 ^ 52 ≤ va then s
    else match xlateNow s p va k with
      | .hit e =>
        let p := if (p.tlbFor va).contains e then p else p.cache e
        let s := s.setPart p
        let pa := e.pa va
        if pteRemote e.pte then
          (if msc && pteLevel e.pte ≤ 2 then
            (match remoteLine p e va with
            | .fetch a b d => s.askPeer p a b d
            | _ => s) else s)
        else if pteAcc e.pte || !(isHbm pa || isHost pa) || chunkUnwritten s.unwritten (pa / 2048) ||
            s.bad (.mem pa p.key) || (s.hostHeld pa 1).isSome then s
        else if msc then
          (if isHbm pa && pteLevel e.pte ≤ 2 then
            (s.mscFill p (pa / 2048) (ptePrio e.pte) (1#32 <<< (pa / 64 % 32)) 0).prefetched pa else s)
        else if (if isHost pa then 1 else pteLevel e.pte) ≤ 1 then
          (match s.homeRead p (pa / 128) (ptePrio e.pte) (if isHost pa then 1 else pteLevel e.pte) with
          | (s, dram) => if dram then s.prefetched pa else s)
        else s
      | _ => s

def execPrf (msc : Bool) (a : AReg) (off : BitVec 32) (s : State) : Out :=
  onFrag s fun g _ =>
    (prefetch s g msc (g.ctx.getA a + off.signExtend 64).toNat 0).setGroup (g.onCtx fun c => c.retire s.cur.st.slot1 2)

def execPres (d a : SReg) (i : BitVec 12) (s : State) : Out :=
  onFrag s fun g _ =>
    let o := (g.ctx.sum a (imm12 i)).toNat
    if spdShare s g ≤ o then s.trap g .protection
    else
      let n := ((s.team? g.ref.tref).map fun t => t.count ((spdBase s g + o) / 128)).getD 0
      s.setGroup (g.onCtx fun c => (c.setS d (word n)).retire s.cur.st.slot1 1)

/-! ### Ends of accesses -/

/-- What a stream of a group waits for. -/
def Group.waitOf (g : Group) : Stream → Option Wait
  | .frag b => (g.ctx.frag b).map (·.wait)
  | .lane => g.queue.head?.map (·.wait)

/-- The value a scalar load writes (R258). -/
def Ctx.fill (c : Ctx) (size : Size) (sext : Bool) (data : BitVec 6) (v : Nat) : Ctx :=
  match size with
  | .b64 => c.setA (data.setWidth 4) (BitVec.ofNat 64 v)
  | .b8 => c.setS data (if sext then (BitVec.ofNat 8 v).signExtend 32 else word v)
  | .b16 => c.setS data (if sext then (BitVec.ofNat 16 v).signExtend 32 else word v)
  | .b32 => c.setS data (word v)

/-- A lane word has completed: the next word of its block, or the next block; with the last, the overlay it
held and the group may end (R14, R25, R170). -/
def State.laneDone (s : State) (g : Group) (last : Bool) : State :=
  let s := s.setGroup (g.nextWord last)
  if last then (s.drainCore g.core).settleGroup g.ref else s

/-- The register bytes a lane load of a value writes: narrow types fill 32 bits (R198, R233). -/
def laneFill (bytes size : Nat) (sext : Bool) (v : Nat) : Nat :=
  if sext && 2 ^ (8 * size - 1) ≤ v then v + 2 ^ (8 * bytes) - 2 ^ (8 * size) else v

/-- What a group gets when a load returns (R17, R65): its destinations from the bytes read, and its stall. -/
def Group.landed (g : Group) (l : Load) (bs : List (Loc × Byte)) (put : (Ctx → Ctx) → Group → Group) : Group :=
  let val := fun (ls : List Loc) => ofBytes (ls.map fun x => ((bs.find? fun e => e.1 = x).map (·.2)).getD 0)
  match l.fill with
  | .scalar size sext data _ ls => put (fun c => c.fill size sext data (val ls)) (g.stall l.stall)
  | .lanes d n sext _ ps =>
    (ps.foldl (fun (g : Group) e => g.setLane e.1 d n (laneFill n e.2.2.length sext (val e.2.2))) g).stall l.stall
  | .olds d n _ vs => g.fillOlds d n vs

/-- The first line that a load reads and the host owns. -/
def State.loadHeld (s : State) (l : Load) : Option Nat :=
  if s.hostLines.isEmpty then none
  else l.places.findSome? fun x => match x with | .mem pa _ => s.hostHeld pa 1 | _ => none

/-- What depends on a load's value was not known before it returned: this matters where the group may still read values
older than that (R70). -/
def State.learned (s : State) (r : GRef) (l : Load) : State :=
  match s.group? r with
  | some g =>
    if g.seen.isEmpty then s
    else s.setGroup (match l.fill with
      | .scalar size _ d _ _ =>
        g.onAll fun c => { c with dep := setKey c.dep (if size = .b64 then 64 + (d.setWidth 4).toNat else d.toNat) s.tick }
      | .lanes d n _ _ _ | .olds d n _ _ => { g with ldep := setDeps g.ldep (regsFrom (d, n)) s.tick })
  | none => s

/-- A load of a group returns: its bytes are read, as far as they are not read yet, and go on to `k` with the state
after; a line that the host has taken meanwhile is recalled first (R77). -/
def State.land (s : State) (g : Group) (l : Load) (k : State → List (Loc × Byte) → State) : State :=
  match s.loadHeld l with
  | some x => s.askHost x
  | none =>
    let ls := l.places
    let (s', bs) := s.readNow g l ls
    let s' := ((s'.part? g.ref.part).map fun p => s'.endLoad g p l ls).getD s'
    let s' := (k s' bs).learned g.ref l
    if l.acq then s'.discardSi g else if l.holds then s'.forgetSeen g.ref else s'

/-- `MEMORY_RETURN`: once its bank reads have completed a load's data arrive and the destination is written, or the
stream traps `POISON`. -/
def execMemoryReturn (r : GRef) (st : Stream) (s : State) : Out :=
  match s.group? r with
  | none => .next s
  | some g =>
    match g.waitOf st with
    | some (.load l) =>
      if g.state ≠ .live ∨ l.reads ≠ [] ∨ !g.answered l then .next s
      else match l.fill with
        | .scalar _ _ _ va ls =>
          if ls.any s.bad then .next (s.halt g st .poison (if l.glb then va else 0) 0 0 0)
          else .next (s.land g l fun s bs => s.regroup r fun g =>
            s.setGroup (g.landed l bs fun f g => g.finish st.slot1 2 f))
        | .lanes _ _ _ last ps =>
          (match ps.find? fun e => e.2.2.any s.bad with
          | some e => .next (s.halt g st .poison (if l.glb then e.2.1 else 0) e.1 0 0)
          | none => .next (s.land g l fun s bs => s.regroup r fun g => s.laneDone (g.landed l bs fun _ g => g) last))
        | .olds _ _ last _ => .next (s.land g l fun s bs => s.regroup r fun g => s.laneDone (g.landed l bs fun _ g => g) last)
    | _ => .next s

/-! ### Loads that hold nothing up (R70, R401) -/

/-- A load that no later access must wait for, and that will not trap, lets its stream go on: what names its
destinations waits for it, and it returns on its own. -/
def detach (r : GRef) (st : Stream) (s : State) : State :=
  match s.group? r with
  | none => s
  | some g =>
    match g.waitOf st with
    | some (.load l) =>
      if g.state ≠ .live ∨ l.holds ∨ l.places.any s.bad then s
      else
        let late := fun (slot : Option Nat) => { g with loads := g.loads ++ [{ l with slot := slot }] }
        let at_ := fun (last : Bool) => if last then g.queue.head?.map (·.slot) else none
        match l.fill with
        | .scalar _ _ _ _ _ => s.setGroup ((late none).finish st.slot1 2 id)
        | .lanes _ _ _ last _ => s.laneDone (late (at_ last)) last
        | .olds _ _ last _ => s.laneDone (late (at_ last)) last
    | _ => s

/-- A load that holds nothing up returns: its destinations are written, also in the contexts that a trap of a block
enqueued after it returns to; where it was of its block's last word the block is complete (R165). -/
def landLate (r : GRef) (n : Nat) (s : State) : State :=
  match s.group? r with
  | none => s
  | some g =>
    match g.loads[n]? with
    | some l =>
      if l.reads ≠ [] ∨ !g.answered l then s
      else s.land g l fun s bs => s.regroup r fun g =>
        (s.setGroup ({ g with loads := g.loads.eraseIdx n }.landed l bs fun f g =>
          { g with ctx := f g.ctx, queue := g.queue.map fun (e : Entry) => if l.at_ < e.at_ then { e with after := f e.after } else e })
          |> fun s => if l.slot.isSome then s.drainCore g.core else s).settleGroup r
    | none => s

/-- The n-th unit of an outstanding load is performed now, before the rest of it (R80): of a load of the list that
holds nothing up, or of the one a stream waits for. -/
def sample (r : GRef) (st : Option Stream) (n k : Nat) (s : State) : State :=
  match s.group? r with
  | none => s
  | some g =>
    let of := fun (l : Load) => if l.reads ≠ [] ∨ (s.loadHeld l).isSome then none
      else (l.units[k]?).map fun u =>
        let x := s.readNow g l u
        (x.1, { l with got := l.got ++ x.2.filter fun e => !l.got.any fun y => y.1 = e.1 })
    match st with
    | none =>
      match (g.loads[n]?).bind of with
      | some (s, l) => s.regroup r fun g => s.setGroup { g with loads := g.loads.set n l }
      | none => s
    | some st =>
      match g.waitOf st with
      | some (.load l) =>
        match of l with
        | some (s, l) => s.regroup r fun g => s.setWait g st (.load l)
        | none => s
      | _ => s

/-- `PAGE_WALK_COMPLETE`: the leaf is cached and the access goes on, or the stream traps (R443). -/
def execPageWalkComplete (r : GRef) (st : Stream) (s : State) : Out :=
  match s.group? r with
  | none => .next s
  | some g =>
    match g.waitOf st, s.part? r.part with
    | some (.walk va lane), some p =>
      if g.state ≠ .live then .next s
      else match walkHeld s p va with
      | some l => .next (s.askHost l)
      | none => match walk s p va with
        | .ok e => .next (((s.recalls (walkPlaces s p va)).setPart (p.cacheWalk s va e)).setWait g st .parked)
        | .error t => .next (s.halt g st t va lane 0 0)
    | _, _ => .next s

/-- `STORE_ACKNOWLEDGEMENT` (R74, R76, R82): the n-th store or atomic access of a group that waits is performed and
acknowledged; beyond them, an exact addition already performed is. -/
def execStoreAcknowledgement (x : StoreRef) (s : State) : Out :=
  match s.group? x.g with
  | some g =>
    .next (if x.n < g.stores.length then (s.performStore x.g x.n).settleGroup x.g else s.setGroup { g with acks := g.acks - 1 })
  | none => .next s

end Sys2Proof.Machine
end

