-- ==== Sys2Proof/Machine/Matrix.lean ====
section
/-!
DEFINITION. The matrix array: windows, accumulator tiles, operations, batches and ramps (R270 to R293).
-/
namespace Sys2Proof.Machine

/-! ### Tiles (R270, R271) -/

/-- A tile at its first state: +0 with tag FP32. -/
def Tile.new (odd : Bool) (i : Nat) : Tile := { odd := odd, idx := i, tag := 14, data := [] }
def Team.tile (t : Team) (odd : Bool) (i : Nat) : Tile :=
  (t.tiles.find? fun x => x.odd = odd ∧ x.idx = i).getD (Tile.new odd i)
def Team.setTile (t : Team) (x : Tile) : Team :=
  { t with tiles := x :: t.tiles.filter fun y => ¬(y.odd = x.odd ∧ y.idx = x.idx) }
/-- The tile that an operation names, and that it writes. -/
def MBody.dest : MBody → Nat
  | .zero d | .mma d _ _ | .mmab d _ _ | .ld d _ _ _ | .st d _ _ _ | .cvt d _ _ _ _ _ => d
/-- Tiles that an operation names. -/
def MBody.names : MBody → List Nat
  | .cvt d a _ _ _ _ => [d, a]
  | m => [m.dest]
def MBody.isProduct : MBody → Bool
  | .mma _ _ _ | .mmab _ _ _ => true
  | _ => false

/-- Operations accepted on a core for a team that name tiles of that core. -/
def teamMops (s : State) (g : Group) : List MOp :=
  (s.core g.core).mops.filter fun m => m.by_.tref = g.ref.tref
/-- The tag of a tile once operations have been performed (R271). -/
def tagOnce (s : State) (g : Group) (ms : List MOp) (i : Nat) : Nat :=
  ms.foldl (fun n m => match m.body with
    | .zero d => if d = i then 14 else n
    | .ld d _ _ _ => if d = i then 14 else n
    | .cvt d _ t _ _ _ => if d = i then t.code else n
    | _ => n) (((s.team? g.ref.tref).map fun t => (t.tile (onOdd s g) i).tag.toNat).getD 14)
/-- The tag of a tile once the operations accepted so far have been performed. -/
def tagAfter (s : State) (g : Group) (i : Nat) : Nat := tagOnce s g (teamMops s g) i

/-! ### Batches (R286, R287) -/

/-- An operation joins the open batch. -/
def joinBatch : List Batch → List Batch
  | [] => [⟨none, 1, 0⟩]
  | b :: bs => if b.num.isNone then { b with left := b.left + 1 } :: bs else b :: joinBatch bs
/-- The open batch is closed with a number. -/
def closeBatch (n : BitVec 4) : List Batch → List Batch
  | [] => [⟨some n, 0, 0⟩]
  | b :: bs => if b.num.isNone then { b with num := some n } :: bs else b :: closeBatch n bs
/-- The oldest batch with an operation left loses one, and gains its flags: a group's operations complete in
its issue order (R289). -/
def finishOp (f : FFlags) : List Batch → List Batch
  | [] => []
  | b :: bs => if b.left = 0 then b :: finishOp f bs else { b with left := b.left - 1, flags := b.flags ||| f } :: bs
/-- Closed batches retire in order, with their flags. -/
def Group.retireFrom (g : Group) : List Batch → Group
  | [] => { g with batches := [] }
  | b :: bs => if b.num.isSome && b.left == 0 then (g.flag b.flags).retireFrom bs else { g with batches := b :: bs }
def Group.retireBatches (g : Group) : Group := g.retireFrom g.batches

/-! ### Windows (R273, R274) -/

def execMwin (d : BitVec 4) (a b : SReg) (src : WSrc) (rot : BitVec 3) (fmt : LTy) (blk mask : Bool)
    (tpitch : BitVec 19) (s : State) : Out :=
  onFrag s fun g _ =>
    let base := g.ctx.getS a
    let rp := (g.ctx.getS b).toNat % 65536
    let so := (g.ctx.getS b).toNat / 65536
    let q4 := fmt = .q4
    if 5 ≤ rot ∨ (blk ∧ ¬q4) ∨ base.toNat % 16 ≠ 0 ∨ rp % 16 ≠ 0 ∨ rp = 0 ∨ (q4 ∧ so = 0) ∨ (¬q4 ∧ so ≠ 0) ∨
        (src = .lreg ∧ (q4 ∨ mask ∨ rot ≠ 0)) then s.trap g .illegalOperand
    else
      let srcCode := match src with | .spd => 0 | .pmem => 1 | .lreg => 2
      let m : BitVec 128 := place 128 0 base.toNat ||| place 128 32 rp ||| place 128 48 so ||| place 128 64 srcCode |||
        place 128 66 rot.toNat ||| place 128 69 fmt.code ||| place 128 74 (if blk then 1 else 0) |||
        place 128 75 (if mask then 1 else 0) ||| place 128 76 1 ||| place 128 77 tpitch.toNat
      s.setGroup (g.onCtx fun c => (c.setMw d m).retire s.cur.st.slot1 2)

/-- The window after a use (R279). -/
def advanceWindow (m : BitVec 128) : BitVec 128 :=
  let b := (((mwBase m : Nat) : Int) + 16 * mwTpitch m) % 2 ^ 32
  (m &&& ~~~(place 128 0 (2 ^ 32 - 1))) ||| place 128 0 b.toNat

/-- The greatest end a window source allows (R279). -/
def sourceLimit (s : State) (g : Group) : WSrc → Nat
  | .spd => spdShare s g
  | .pmem => lrSpad (s.lrec g.ref)
  | .lreg => lrLregs (s.lrec g.ref)

/-- The pairing of R282. -/
def pairs (a b : Nat) : Bool :=
  if a = 16 ∨ a = 17 then b = 16 ∨ b = 17 else a = b

/-- The checks of R279 on the two windows. -/
def productTrap (s : State) (g : Group) (a b : BitVec 128) (blocked : Bool) : Option Trap :=
  let ra := roleA blocked a
  let rb := roleB blocked b
  let w := lrWidth (s.lrec g.ref)
  if !mwValid a || !mwValid b || decide (mwRpitch a < ra.bytes) || decide (mwRpitch b < rb.bytes) ||
      !pairs (mwFmt a) (mwFmt b) then some .illegalOperand
  else if sourceLimit s g (mwSrc a) < windowEnd a w ra ∨ sourceLimit s g (mwSrc b) < windowEnd b w rb then some .protection
  else none

/-! ### Issue -/

/-- `mma`, `mmab` or `mhint` starts a ramp-up (R292). -/
def Core.rampUp (c : Core) : Core :=
  match c.ramp with
  | .down | .rampingDown => { c with ramp := .rampingUp }
  | _ => c

/-- Accepts an operation of the group for its open batch, or parks the fragment (R291); the instruction has n
words and changes the context by f. -/
def accept (s : State) (g : Group) (n : Nat) (b : MBody) (f : Ctx → Ctx) : State :=
  let c := s.core g.core
  if 64 ≤ c.mops.length then s.park g none
  else
    let c := { c with mops := c.mops ++ [⟨g.ref, b, []⟩] }
    let g := { g with batches := joinBatch g.batches }
    (s.setCore (if b.isProduct then { c.rampUp with fed := s.clock } else c)).setGroup (g.onCtx fun x => (f x).retire s.cur.st.slot1 n)

def execMzero (d : BitVec 4) (s : State) : Out := onFrag s fun g _ => accept s g 1 (.zero d.toNat) id

/-- The shape of `mma` and `mmab`. -/
def product (blocked : Bool) (d wa wb : BitVec 4) (s : State) : Out :=
  onFrag s fun g _ =>
    let a := g.ctx.getMw wa
    let b := g.ctx.getMw wb
    if tagAfter s g d.toNat ≠ 14 then s.trap g .illegalOperand
    else match productTrap s g a b blocked with
      | some t => s.trap g t
      | none =>
        accept s g 1 (if blocked then .mmab d.toNat a b else .mma d.toNat a b) fun c =>
          (c.setMw wa (advanceWindow a)).setMw wb (advanceWindow b)
def execMma (d a b : BitVec 4) (s : State) : Out := product false d a b s
def execMmab (d a b : BitVec 4) (s : State) : Out := product true d a b s

/-- Batches closed and not retired. -/
def Group.closedBatches (g : Group) : List Batch := g.batches.filter fun b => b.num.isSome

def execMfence (d : SReg) (s : State) : Out :=
  onFrag s fun g _ =>
    if 15 ≤ g.closedBatches.length then s.park g none
    else
      let h := { g with batches := closeBatch g.nb g.batches, nb := g.nb + 1 }.retireBatches
      s.setGroup (h.onCtx fun c => (c.setS d (g.nb.setWidth 32)).retire s.cur.st.slot1 1)

def execMwait (a : SReg) (i : BitVec 12) (s : State) : Out :=
  onFrag s fun g _ =>
    let n := (g.ctx.sum a (imm12 i)).setWidth 4
    if g.closedBatches.any fun b => b.num = some n then s.park g none else s.done g 1

def execMhint (a : SReg) (i : BitVec 12) (s : State) : Out :=
  onFrag s fun g _ =>
    let n := (g.ctx.sum a (imm12 i)).toNat
    let c := s.core g.core
    (s.setCore { c with hold := Nat.max c.hold (Nat.min n 4095) }.rampUp).done g 1

/-- The space of a tile move as a memory space. -/
def WSrc.space : WSrc → Space
  | .pmem => .pmem
  | _ => .spd
/-- Scratchpad lines that a tile move touches (R52). -/
def tileLines (s : State) (g : Group) (sp : WSrc) (off rb : Nat) : List Nat :=
  if sp = .lreg then [] else accLines s g (WSrc.space sp) off (64 * rb)

/-- The checks of R284 on a tile move; a rotation code of 5 to 7 is found at decode (R49). -/
def tileTrap (s : State) (g : Group) (sp : WSrc) (rot : BitVec 3) (off rb : Nat) : Option Trap :=
  if off % 16 ≠ 0 then some .misalign
  else if sourceLimit s g sp < tileEnd sp (lrWidth (s.lrec g.ref)) off rb then some .protection
  else if sp = .lreg ∧ rot ≠ 0 then some .illegalOperand
  else none

def execMaccLd (d : BitVec 4) (a : SReg) (sp : WSrc) (rot : BitVec 3) (off : BitVec 32) (s : State) : Out :=
  onFrag s fun g _ =>
    let o := (g.ctx.getS a + off).toNat
    match tileTrap s g sp rot o 256 with
    | some t => s.trap g t
    | none => accept s g 2 (.ld d.toNat sp rot.toNat o) id

/-- Presence counts of lines rise (R52). -/
def State.raiseLines (s : State) (r : TRef) (ls : List Nat) : State :=
  match s.team? r with
  | some t => s.setTeam (ls.foldl (fun t l => t.setCount l (t.count l + 1)) t)
  | none => s
/-- A store of the group to scratchpad lines is not performed: they become absent after it (R52, R70). -/
def Group.storesIn (g : Group) (ls : List Nat) : Bool :=
  g.stores.any fun w => w.ws.any fun e => match e.1 with | .spd _ o => ls.contains (o / 128) | _ => false
/-- Some line's count is already 3. -/
def State.linesFull (s : State) (r : TRef) (ls : List Nat) : Bool :=
  match s.team? r with
  | some t => ls.any fun l => decide (3 ≤ t.count l)
  | none => false

def execMaccSt (d : BitVec 4) (a : SReg) (sp : WSrc) (rot : BitVec 3) (off : BitVec 32) (s : State) : Out :=
  onFrag s fun g _ =>
    let o := (g.ctx.getS a + off).toNat
    let rb := tagRow (tagAfter s g d.toNat)
    let ls := tileLines s g sp o rb
    match tileTrap s g sp rot o rb with
    | some t => s.trap g t
    | none =>
      if s.linesFull g.ref.tref ls ∨ 64 ≤ (s.core g.core).mops.length ∨ g.storesIn ls then s.park g none
      else accept (s.raiseLines g.ref.tref ls) g 2 (.st d.toNat sp rot.toNat o) id

def execMcvt (d a : BitVec 4) (ty : LTy) (rnd : BitVec 2) (sat : Bool) (e : BitVec 8) (s : State) : Out :=
  onFrag s fun g _ =>
    if tagAfter s g a.toNat ≠ 14 then s.trap g .illegalOperand
    else accept s g 2 (.cvt d.toNat a.toNat ty rnd.toNat sat e.toInt) id

/-! ### Execution -/

/-- A byte an operation reads: a store that raced with it may be missing, word by word (R85, R289); of a bad word of the
core's arrays the spec gives no outcome that a matrix operation could have, and the byte is free (R459; log 113). -/
def mopByte (s : State) (m : MOp) (l : Loc) : Byte :=
  if s.bad l then Config.freeByte s.tick (l.number % 2 ^ 32) else s.readBy (m.got ++ s.heldBack m.by_.part [m.by_]) l

/-- The place of byte k of row r of a window or tile (R275, R277, R284). -/
def rowLoc (s : State) (g : Group) (sp : WSrc) (rot base pitch r k : Nat) : Loc :=
  match sp with
  | .lreg =>
    let w := lrWidth (s.lrec g.ref)
    .lreg g.ref (1024 * (r % w) + base + r / w * pitch + k)
  | _ => .spd g.ref.tref (srcBase s g sp + rotByte rot (base + r * pitch + k))
/-- A number of n bytes at byte k of row r. -/
def rowNat (s : State) (g : Group) (m : MOp) (sp : WSrc) (rot base pitch r k n : Nat) : Nat :=
  ofBytes ((List.range n).map fun i => mopByte s m (rowLoc s g sp rot base pitch r (k + i)))

/-- Element (r, k) of a window; the scale byte of a q4 element lies at the given offset of the scale area. -/
def element (s : State) (g : Group) (m : MOp) (w : BitVec 128) (r k scale : Nat) : FVal :=
  let at_ := rowNat s g m (mwSrc w) (mwRot w) (mwBase w) (mwRpitch w)
  match mwTy w with
  | .q4 =>
    let b := at_ r (k / 2) 1
    let sc := rowNat s g m (mwSrc w) (mwRot w) (mwBase w + 16 * mwSoff w) 0 0 scale 1
    q4Decode (if k % 2 = 0 then b % 16 else b / 16) sc
  | t => decodeF t (at_ r (t.bytes * k) t.bytes)
def elemA (s : State) (g : Group) (m : MOp) (w : BitVec 128) (i k : Nat) : FVal :=
  element s g m w i k (16 * i + k / mwBlock w)
def elemB (s : State) (g : Group) (m : MOp) (w : BitVec 128) (nc k n : Nat) : FVal :=
  element s g m w k n (k / mwBlock w * nc + n)
/-- RowValid (R278). -/
def rowValid (s : State) (g : Group) (m : MOp) (w : BitVec 128) (r : Role) (row : Nat) : Bool :=
  !mwMask w || (rowNat s g m (mwSrc w) (mwRot w) (maskAt w r) 0 0 (row / 32 * 4) 4).testBit (row % 32)

/-- The chunks of products of one output element: row i of A, column j of B (R134, R280). -/
def elementChunks (s : State) (g : Group) (m : MOp) (a b : BitVec 128) (blocked : Bool) (i j : Nat) :
    List (List (FVal × FVal)) :=
  let t := mwTy a
  let nc := if blocked then 256 else 64
  let kc := chunkOfTy t
  if !rowValid s g m a (roleA blocked a) i then []
  else (List.range (depthOf t / kc)).map fun c =>
    (List.range kc).filterMap fun x =>
      let k := c * kc + x
      if rowValid s g m b (roleB blocked b) k then some (elemA s g m a i k, elemB s g m b nc k j) else none

/-- An element of a tile: n bytes at row r. -/
def Tile.get (t : Tile) (r c n : Nat) : Nat := ofBytes (Memory.rds t.data (256 * r + c * n) n)
def Tile.put (t : Tile) (r c n v : Nat) : Tile := { t with data := Memory.wrs t.data (256 * r + c * n) (leBytes n v) }
/-- Rows and columns of a tile. -/
def cells : List (Nat × Nat) := (List.range 64).flatMap fun r => (List.range 64).map fun c => (r, c)

/-- The rows of A and columns of B of output element (r, c): of `mma`, or of its sub-tile of `mmab` (R281). -/
def operandOf (blocked : Bool) (r c : Nat) : Nat × Nat :=
  if blocked then
    let b := 4 * (r / 16) + c / 16
    (16 * b + r % 16, 16 * b + c % 16)
  else (r, c)

/-- A product on a tile. -/
def runProduct (s : State) (g : Group) (m : MOp) (blocked : Bool) (a b : BitVec 128) (t : Tile) : Tile × FFlags :=
  cells.foldl (fun x e =>
    let p := operandOf blocked e.1 e.2
    let y := chunkDot (t.get e.1 e.2 4) (elementChunks s g m a b blocked p.1 p.2)
    (x.1.put e.1 e.2 4 y.1, x.2 ||| y.2)) (t, 0)

/-- The conversion of a tile (R285). -/
def runCvt (src dst : Tile) (ty : LTy) (md : Rnd) (sat : Bool) (e : Int) : Tile × FFlags :=
  cells.foldl (fun x p =>
    let y := floatRound ty ((decodeF .f32 (src.get p.1 p.2 4)).scale e) md sat 0
    (x.1.put p.1 p.2 ty.bytes y.1, x.2 ||| y.2)) ({ dst with tag := BitVec.ofNat 5 ty.code, data := [] }, 0)

/-- Writes through a byte map. -/
def tileBytes (t : Tile) (rb : Nat) (f : Nat → Nat → Loc) : List (Loc × Byte) :=
  (List.range 64).flatMap fun r => (List.range rb).map fun k => (f r k, Memory.rd t.data (256 * r + k))

/-- Performs an operation: the state after, and its flags. -/
def runMop (s : State) (g : Group) (m : MOp) : State × FFlags :=
  match s.team? g.ref.tref with
  | none => (s, 0)
  | some t =>
    let odd := onOdd s g
    match m.body with
    | .zero d => (s.setTeam (t.setTile (Tile.new odd d)), 0)
    | .mma d a b => let x := runProduct s g m false a b (t.tile odd d); (s.setTeam (t.setTile x.1), x.2)
    | .mmab d a b => let x := runProduct s g m true a b (t.tile odd d); (s.setTeam (t.setTile x.1), x.2)
    | .ld d sp rot off =>
      let bs := (List.range 64).flatMap fun r => (List.range 256).map fun k => mopByte s m (rowLoc s g sp rot off 256 r k)
      (s.setTeam (t.setTile { Tile.new odd d with data := Memory.wrs [] 0 bs }), 0)
    | .st d sp rot off =>
      let x := t.tile odd d
      let rb := tagRow x.tag.toNat
      ((s.pokes (tileBytes x rb fun r k => rowLoc s g sp rot off rb r k)).lowerLines g.ref.tref
        (tileLines s g sp off rb), 0)
    | .cvt d a ty rnd sat e =>
      let x := runCvt (t.tile odd a) (Tile.new odd d) ty (Rnd.ofCode2 rnd) sat e
      (s.setTeam (t.setTile x.1), x.2)
where
  /-- A rounding code of `mcvt` (R195). -/
  Rnd.ofCode2 (c : Nat) : Rnd := match c with | 1 => .rz | 2 => .rd | 3 => .ru | _ => .rn

/-- The group's context is in a save image. -/
def GState.isSaved : GState → Bool
  | .saved _ => true
  | _ => false

/-- Of a line's presence count, what the `macc.st`s of some operations hold. -/
def mopHolds (s : State) (g : Group) (ms : List MOp) (line : Nat) : Nat :=
  (ms.filter fun m => match m.body with
    | .st d sp _ off => (tileLines s g sp off (tagRow (tagOnce s g ((teamMops s g).takeWhile (· ≠ m)) d))).contains line
    | _ => false).length

/-- An operation can be performed: the lines it reads are present, but for what later operations of its group, which
follow it, are to write there, and for a product the array is up (R289, R292). -/
def mopReady (s : State) (m : MOp) (later : List MOp) : Bool :=
  match s.group? m.by_ with
  | none => false
  | some g =>
    let pres := match s.team? g.ref.tref with
      | some t => (m.body.reads s g).all fun x => x.lreg ||
          (List.range ((x.hi - 1) / 128 + 1 - x.lo / 128)).all fun i => t.count (x.lo / 128 + i) == 0 ||
            t.count (x.lo / 128 + i) == mopHolds s g (later.filter fun y => y.by_ = m.by_) (x.lo / 128 + i)
      | none => false
    !g.state.isSaved && pres && (!m.body.isProduct || (s.core g.core).ramp == .up)

/-- The operation performed next: ready, the first of its group, and with no earlier one of its team on its
tiles (R289, R290). -/
def nextMop (s : State) (before : List MOp) : List MOp → Option MOp
  | [] => none
  | m :: ms =>
    let blocked := before.any fun b => b.by_ == m.by_ ||
      (b.by_.tref == m.by_.tref && b.body.names.any fun n => m.body.names.contains n)
    if !blocked && mopReady s m ms then some m else nextMop s (before ++ [m]) ms

/-- `MATRIX_OP_COMPLETE`. -/
def execMatrixOpComplete (core : Nat) (s : State) : Out :=
  let c := s.core core
  match nextMop s [] c.mops with
  | none => .next s
  | some m =>
    match s.group? m.by_ with
    | none => .next s
    | some g =>
      let (s, f) := runMop s g m
      let c := s.core core
      let s := s.setCore { c with mops := c.mops.erase m, hold := if m.body.isProduct then c.hold - 1 else c.hold,
                                      ran := if m.body.isProduct then s.clock else c.ran }
      match s.group? m.by_ with
      | some g => .next (s.setGroup { g with batches := finishOp f g.batches }.retireBatches)
      | none => .next s

/-- `RAMP_UP_END`. -/
def execRampUpEnd (core : Nat) (s : State) : Out :=
  let c := s.core core
  .next (if c.ramp = .rampingUp then s.setCore { c with ramp := .up } else s)
/-- The array may ramp down (R292): for 16 cycles no product has been accepted or has run, with no HOLD; or none has been
accepted for 2048 cycles. -/
def Core.mayRampDown (c : Core) (now : Nat) : Bool :=
  c.ramp == .up &&
  ((!(c.mops.any fun m => m.body.isProduct) && c.hold == 0 && c.fed + 16 ≤ now && c.ran + 16 ≤ now) || c.fed + 2048 ≤ now)
/-- `RAMP_DOWN_START`. -/
def execRampDownStart (core : Nat) (s : State) : Out :=
  let c := s.core core
  .next (if c.mayRampDown s.clock then s.setCore { c with ramp := .rampingDown } else s)
/-- `RAMP_DOWN_END`; a product that is still accepted starts a ramp-up again. -/
def execRampDownEnd (core : Nat) (s : State) : Out :=
  let c := s.core core
  .next (if c.ramp = .rampingDown then
    s.setCore { c with ramp := if c.mops.any fun m => m.body.isProduct then .rampingUp else .down } else s)

/-- Steps of the array that may come next. -/
def matrixMoves (s : State) : List Instr :=
  s.cores.flatMap fun c =>
    (if (nextMop s [] c.mops).isSome then [.matrixOpComplete c.id] else []) ++
    (match c.ramp with
      | .rampingUp => [.rampUpEnd c.id]
      | .rampingDown => [.rampDownEnd c.id]
      | .up => if c.mayRampDown s.clock then [.rampDownStart c.id] else []
      | .down => [])

end Sys2Proof.Machine
end

