-- ==== Sys2Proof/Machine/Copy.lean ====
section
/-!
DEFINITION. Shape records and the copy engine (R146 to R151, R318 to R326).
-/
namespace Sys2Proof.Machine

/-! ### Shape records (R147, R319) -/

/-- A stored stride field (R146). -/
def shStride (r : BitVec 512) (j : Nat) : Nat := fld r (327 + 40 * (j - 1)) (288 + 40 * (j - 1))
/-- A record passes the checks of R147. -/
def shapeOk (r : BitVec 512) : Bool :=
  let n := shRank r
  1 ≤ n && n ≤ 5 && shEsize r ≤ 4 && shFill r != 3 &&
  ((List.range 5).all fun j => if j < n then shExt r j != 0
    else shExt r j == 1 && shBox r j == 1 && (j == 0 || shStride r j == 0)) &&
  ([1, 2, 3, 4].all fun j => shStride r j % 16 == 0) &&
  shBase r % 16 == 0 && (if shSpace r = .glb then decide (shBase r < 2 ^ 52) else decide (shBase r < 2 ^ 32)) &&
  shRow r % 16 == 0 && shRow r ≤ 4096 && shTile r ≤ 262144 && (!shMask r || shRows r ≤ 4096) &&
  fld r 95 78 == 0 && fld r 511 488 == 0
/-- The trap of a record, which names the check that comes first; an unassigned rotation code traps by itself
(R49, R147). -/
def shapeTrap (r : BitVec 512) : Option Trap :=
  if !shapeOk r then some .shapeInvalid else if 5 ≤ shRot r then some .illegalOperand else none

/-- Writes a shape register once its record has passed. -/
def setShape (s : State) (g : Group) (h : HReg) (r : BitVec 512) : State :=
  match shapeTrap r with
  | some t => s.trap g t
  | none => s.done { g with shapes := g.shapes.set h.toNat r h.isLt } 2

def execShp (h : HReg) (a : AReg) (off : BitVec 32) (s : State) : Out :=
  onFrag s fun g _ =>
    s.readAt g false (g.ctx.getA a + off.signExtend 64).toNat 64 64 fun s bs =>
      s.regroup g.ref fun g => setShape s g h (BitVec.ofNat 512 (ofBytes bs))
def execShpCopy (h hs : HReg) (a : AReg) (off : BitVec 32) (s : State) : Out :=
  onFrag s fun g _ =>
    let src := g.shapes[hs.toNat]'hs.isLt
    setShape s g h ((src >>> 64 <<< 64) ||| (g.ctx.getA a + off.signExtend 64).setWidth 512)

/-! ### Rows of a copy (R148, R149, R323, R324) -/

/-- A row of a copy: its place in the dense end and the address of its first element at the shaped end, the
bytes of it that are in bounds, whether the mask calls it valid, and whether its address is misaligned. -/
structure CRow where
  dense  : Nat
  shaped : Int
  lo     : Nat
  hi     : Nat
  valid  : Bool
  bad    : Bool
  deriving DecidableEq, Repr

/-- Coordinate j of row ρ less its start (R148). -/
def rowCoord (r : BitVec 512) (row j : Nat) : Nat :=
  match j with
  | 1 => row % shBox r 1
  | 2 => row / shBox r 1 % shBox r 2
  | 3 => row / (shBox r 1 * shBox r 2) % shBox r 3
  | _ => row / (shBox r 1 * shBox r 2 * shBox r 3)

/-- A bound of dimension 0 within the tile box. -/
def clampBox (n : Int) (box : Nat) : Nat := Nat.min n.toNat box

/-- Rows of the tile with the start coordinates, placed from a dense offset. -/
def tileRows (r : BitVec 512) (c : List Int) (dense : Nat) : List CRow :=
  (List.range (shRows r)).map fun row =>
    let co := fun j => c.getD j 0 + rowCoord r row j
    let valid := (List.range (shRank r)).all fun j => j == 0 || (0 ≤ co j && co j < shExt r j)
    let c0 := c.getD 0 0
    let es : Nat := 2 ^ shEsize r
    let lo := clampBox (-c0) (shBox r 0)
    let hi := clampBox (shExt r 0 - c0) (shBox r 0)
    { dense := dense + row * shRow r
      shaped := shBase r + c0 * es + ([1, 2, 3, 4].foldl (fun n j => if j < shRank r then n + co j * shStr r j else n) (0 : Int))
      lo := if valid then lo * es else 0
      hi := if valid then Nat.max lo hi * es else 0
      valid := valid
      bad := false }

/-- Rows that index entries name. -/
def listRows (r : BitVec 512) (xs : List Nat) : List CRow :=
  ((List.range xs.length).zip xs).map fun e =>
    let ok := decide (e.2 + shBox r 0 ≤ shExt r 0)
    let at_ := shBase r + e.2 * 2 ^ shEsize r
    { dense := e.1 * shRow r, shaped := at_, lo := 0, hi := if ok then shRow r else 0, valid := ok,
      bad := ok && at_ % 16 != 0 }

/-- The copy writes the shaped end. -/
def CopyJob.store (j : CopyJob) : Bool :=
  match j.kind with
  | .tile st => st
  | .scatter _ _ _ => true
  | _ => false
/-- The rows of a slice; none while its index list has not been read. -/
def CopyJob.rows (j : CopyJob) : Option (List CRow) :=
  match j.kind with
  | .tile _ => some (tileRows j.shape j.at_ 0)
  | .window run => some ((List.range run).flatMap fun (q : Nat) =>
      tileRows j.shape (j.at_.getD 0 0 * shBox j.shape 0 :: (j.at_.getD 1 0 + (q : Int)) :: j.at_.drop 2) (q * shTile j.shape))
  | .gather _ _ rs => rs.map (listRows j.shape)
  | .scatter _ _ rs => rs.map (listRows j.shape)
/-- Rows and bytes of the dense end. -/
def CopyJob.count (j : CopyJob) : Nat :=
  match j.kind with
  | .tile _ => shRows j.shape
  | .window run => run * shRows j.shape
  | .gather _ n _ | .scatter _ n _ => n
def CopyJob.total (j : CopyJob) : Nat := j.count * shRow j.shape

/-! ### Destination lines -/

/-- Where a space's offset 0 lies in the numbering of lines: both scratchpad spaces by pair memory. -/
def lineBase (s : State) (g : Group) (sp : Space) : Nat := if sp = .spd then spdBase s g else 0
def lineSpace (sp : Space) : Space := if sp = .pmem then .spd else sp
/-- An address in a space, as the space numbers it. -/
def inSpace (sp : Space) (a : Int) : Nat := (a % (if sp = .glb then 2 ^ 64 else 2 ^ 32)).toNat

/-- The destination space of a slice, and where a row of it starts. -/
def CopyJob.dest (j : CopyJob) : Space := if j.store then shSpace j.shape else j.dsp
def CopyJob.destAt (j : CopyJob) (r : CRow) : Nat :=
  if j.store then inSpace j.dest r.shaped else inSpace j.dsp (j.doff + r.dense : Int)
def CopyJob.srcSpace (j : CopyJob) : Space := if j.store then j.dsp else shSpace j.shape
def CopyJob.srcAt (j : CopyJob) (r : CRow) : Nat :=
  if j.store then inSpace j.dsp (j.doff + r.dense : Int) else inSpace (shSpace j.shape) r.shaped
/-- The destination gets a row-validity mask: its bytes (R149). -/
def CopyJob.maskBytes (j : CopyJob) : Nat :=
  if shMask j.shape && (j.dest == .spd || j.dest == .pmem) then 4 * ((j.count + 31) / 32) else 0
/-- Where the mask lies: at the first 16-byte boundary at or after the tile's end. DESIGN CHOICE (log 107): the end of a
tile that is written at its shaped end is that of its row with the highest address. -/
def CopyJob.maskAt (j : CopyJob) : Nat :=
  if j.store then
    inSpace j.dest (((j.rows.getD []).foldl (fun (m : Int) r => max m (r.shaped + shRow j.shape)) 0 + 15) / 16 * 16)
  else inSpace j.dsp (j.doff + j.total : Int)

/-- Lines that n bytes from an address touch. -/
def linesOf (a n : Nat) : List Nat := if n = 0 then [] else (List.range ((a + n - 1) / 128 + 1 - a / 128)).map fun i => a / 128 + i

/-- Destination lines of a slice whose rows are known, or that lie in its dense end. -/
def CopyJob.lines (s : State) (j : CopyJob) : List Nat :=
  match s.group? j.by_ with
  | none => []
  | some g =>
    let b := lineBase s g j.dest
    let rows := match j.rows with
      | some rs => rs.flatMap fun r => linesOf (b + j.destAt r) (shRow j.shape)
      | none => if j.store then [] else linesOf (b + inSpace j.dsp j.doff) j.total
    (rows ++ linesOf (b + j.maskAt) j.maskBytes).eraseDups

/-- The lines of slice n as the operation holds them; scratchpad lines are counted up. -/
def CopyJob.copyLines (s : State) (j : CopyJob) (n : Nat) : List CopyLine :=
  (j.lines s).map fun l => { slice := n, sp := lineSpace j.dest, line := l, done := false,
                             up := lineSpace j.dest == .spd, paid := false }
/-- Scratchpad lines among them. -/
def upLines (ls : List CopyLine) : List Nat := (ls.filter (·.up)).map (·.line)

/-! ### Starting (R322, R324) -/

/-- A line's presence count less what an operation itself holds on it (log 29). -/
def foreignCount (s : State) (o : Op) (line : Nat) : Nat :=
  let own := match o.body with | .copy _ ls _ => (ls.filter fun l => l.up && l.line == line).length | _ => 0
  ((s.team? o.by_.tref).map fun t => t.count line).getD 0 - own

/-- Every slice of a team copy has been supplied: each group that is not DONE has counted it (R322). -/
def cpytReady (s : State) (o : Op) : Bool :=
  match (s.team? o.by_.tref).bind fun t => t.cpyts.find? fun c => c.op = o.id with
  | some c => (s.teamGroups o.by_.tref).all fun g => g.state == .done || c.i < g.cpytN
  | none => true

/-- The index list of a slice (R324): read, still to wait for, or a fault. -/
def readList (s : State) (o : Op) (j : CopyJob) (list n : Nat) : Except EngStop (Option (List Nat)) :=
  match s.group? j.by_ with
  | none => .ok none
  | some g =>
    if spdShare s g < list + 4 * n then .error (.fault Trap.protection.code 0)
    else if (linesOf (spdBase s g + list) (4 * n)).any fun l => foreignCount s o l != 0 then .ok none
    else .ok (some ((List.range n).map fun i =>
      ofBytes ((List.range 4).map fun k => s.readBy (s.opReads o) (.spd g.ref.tref (spdBase s g + list + 4 * i + k)))))

/-- The index list of a scatter as its issue reads it: word by word before its group's stores since its last release
fence, or after them all (R85). -/
def issueList (s : State) (g : Group) (list n : Nat) : List Nat :=
  (List.range n).map fun i =>
    let at_ := spdBase s g + list + 4 * i
    ofBytes ((List.range 4).map fun k =>
      let l := Loc.spd g.ref.tref (at_ + k)
      if s.bit at_ then (g.pending l).getD (s.peek l) else s.readBy (s.heldBack g.ref.part [g.ref]) l)
/-- A scatter into core scratchpad or pair memory starts at its issue: its rows' lines rise there (R52, R151). -/
def CopyJob.startsNow (j : CopyJob) : Bool :=
  match j.kind with
  | .scatter _ _ none => j.dest == .spd || j.dest == .pmem
  | _ => false

/-- The first slice with its index list. -/
def CopyJob.withList (j : CopyJob) (rs : List Nat) : CopyJob :=
  match j.kind with
  | .gather l n _ => { j with kind := .gather l n (some rs) }
  | .scatter l n _ => { j with kind := .scatter l n (some rs) }
  | _ => j

/-- The operation starts, where it can: its slices are supplied and its index list is read (R322, R324). The lines of a
scatter whose list is read here are not in scratchpad, or its list faults. -/
def startCopy (s : State) (o : Op) : Except EngStop State :=
  match o.body with
  | .copy (j :: js) ls false =>
    if !cpytReady s o then .ok s
    else match j.kind with
      | .gather l n none | .scatter l n none =>
        (match readList s o j l n with
        | .error e => .error e
        | .ok none => .ok s
        | .ok (some xs) =>
          let j' := j.withList xs
          .ok (s.setOp { o with body := .copy (j' :: js) (if j.store then j'.copyLines s 0 else ls) true }))
      | _ => .ok (s.setOp { o with body := .copy (j :: js) ls true })
  | _ => .ok s

/-! ### Issue (R320 to R325) -/

/-- The start coordinates (R320). -/
def coords (c : Ctx) (sc : SReg) (rank : Nat) : List Int :=
  (List.range rank).map fun j => if sc = 0 then 0 else c.getI (BitVec.ofNat 6 (sc.toNat + j))
/-- The dense end's address or offset (R320). -/
def denseAt (c : Ctx) (x : CpyArgs) : Nat :=
  match x.sp with
  | .glb => (c.getA (x.base.setWidth 4) + x.off.signExtend 64 * 16).toNat
  | _ => (c.getS x.base + x.off.signExtend 32 * 16).toNat
/-- The address of the tile's first element. -/
def firstElement (r : BitVec 512) (c : List Int) : Int :=
  shBase r + c.getD 0 0 * (2 ^ shEsize r : Nat) +
    ([1, 2, 3, 4].foldl (fun n j => if j < shRank r then n + c.getD j 0 * shStr r j else n) (0 : Int))

/-- The form of a copy instruction. -/
inductive CopyForm where
  | cpy (st : Bool)
  | cpyt (st : Bool)
  | cpyw (run : Nat)
  | cpyg
  | cpys
  deriving DecidableEq, Repr

/-- The form takes an index list. -/
def CopyForm.listed : CopyForm → Bool
  | .cpyg | .cpys => true
  | _ => false

/-- The gong of a team copy whose next slice the group supplies (R322). -/
def teamGong (t : Team) (g : Group) : Option Nat := (t.cpyts.find? fun c => c.i = g.cpytN).map (·.gong)

/-- The checks of R321, in order. -/
def copyTrap (g : Group) (t : Team) (f : CopyForm) (x : CpyArgs) : Option Trap :=
  let r := g.shapes[x.h.toNat]'x.h.isLt
  let n := (g.ctx.getS (x.sc + 1)).toNat
  let form := match f with
    | .cpy _ | .cpyt _ => false
    | .cpyw run => decide (shRank r < 2) || shMask r || decide (262144 < run * shTile r)
    | .cpyg | .cpys => x.sc == 0 || x.sc == 63 || n == 0 || decide (4096 < n) || shRank r != 1 || decide (262144 < n * shRow r)
  let c := coords g.ctx x.sc (shRank r)
  let c := match f with | .cpyw _ => c.getD 0 0 * shBox r 0 :: c.drop 1 | _ => c
  let first := if f.listed then (shBase r : Int) else firstElement r c
  if shRank r = 0 || (!f.listed && decide (63 < x.sc.toNat + shRank r - 1)) then some .illegalOperand
  else if form then some .illegalOperand
  else match (t.gong x.g.toNat).engineTrap with
    | some e => some e
    | none =>
      if (match f with | .cpyt _ => (teamGong t g).any (· ≠ x.g.toNat) | _ => false) then some .gongMisuse
      else if first % 16 ≠ 0 || (x.sp != .glb && denseAt g.ctx x % 16 != 0) ||
          (f.listed && (g.ctx.getS x.sc).toNat % 4 != 0) then some .copyMisalign
      else none

/-- The slice that the instruction describes. -/
def copyJob (g : Group) (f : CopyForm) (x : CpyArgs) : CopyJob :=
  let r := g.shapes[x.h.toNat]'x.h.isLt
  let list := (g.ctx.getS x.sc).toNat
  let n := (g.ctx.getS (x.sc + 1)).toNat
  { kind := match f with
      | .cpy st | .cpyt st => .tile st
      | .cpyw run => .window run
      | .cpyg => .gather list n none
      | .cpys => .scatter list n none
    shape := r, at_ := if f.listed then [] else coords g.ctx x.sc (shRank r), dsp := x.sp, doff := denseAt g.ctx x,
    by_ := g.ref }

/-- Adds a slice to a team copy that other groups have begun. -/
def addSlice (s : State) (i : Nat) (j : CopyJob) : State × List CopyLine :=
  match s.op? i with
  | some o =>
    match o.body with
    | .copy js ls st =>
      let new := j.copyLines s js.length
      (s.setOp { o with body := .copy (js ++ [j]) (ls ++ new) st }, new)
    | _ => (s, [])
  | none => (s, [])

/-- The slice as it is issued: a scatter into scratchpad with its list read; none while that waits. -/
def issueJob (s : State) (g : Group) (j : CopyJob) : Option CopyJob :=
  match j.kind with
  | .scatter l n none =>
    if !j.startsNow || decide (spdShare s g < l + 4 * n) then some j
    else if absent s g .spd l (4 * n) then none
    else some (j.withList (issueList s g l n))
  | _ => some j
/-- Issue of a copy: its presence counts rise at its position, after its group's stores there, and it is accepted (R52,
R320). -/
def copyIssue (f : CopyForm) (x : CpyArgs) (s : State) : Out :=
  onFrag s fun g _ =>
    match s.team? g.ref.tref with
    | none => s
    | some t =>
      match copyTrap g t f x with
      | some tr => s.trap g tr 0 0 0 x.g.toNat
      | none =>
        match issueJob s g (copyJob g f x) with
        | none => s.park g (some 2)
        | some j =>
        let ls := j.copyLines s 0
        if s.linesFull t.ref (upLines ls) || g.storesIn (upLines ls) then s.park g (some 2)
        else match f with
          | .cpyt _ =>
            let g' := { g with cpytN := g.cpytN + 1 }
            (match t.cpyts.find? fun c => c.i = g.cpytN with
            | some c =>
              let (s, new) := addSlice s c.op j
              (s.raiseLines t.ref (upLines new)).done g' 2
            | none =>
              let s' := s.setTeam { t with cpyts := ⟨g.cpytN, x.g.toNat, s.nextId⟩ :: t.cpyts }
              ((s'.accept g x.g.toNat (.copy [j] ls false)).raiseLines t.ref (upLines ls)).done g' 2)
          | _ =>
            let s' := (s.accept g x.g.toNat (.copy [j] ls ((copyJob g f x).startsNow && j.rows.isSome))).raiseLines t.ref (upLines ls)
            let s' := match s'.op? s.nextId with
              | some o => (match startCopy s' o with | .ok s'' => s'' | .error _ => s')
              | none => s'
            s'.done g 2

def execCpy (st : Bool) (x : CpyArgs) (s : State) : Out := copyIssue (.cpy st) x s
def execCpyt (st : Bool) (x : CpyArgs) (s : State) : Out := copyIssue (.cpyt st) x s
def execCpyw (run1 : BitVec 4) (x : CpyArgs) (s : State) : Out := copyIssue (.cpyw (run1.toNat + 1)) x s
def execCpyg (x : CpyArgs) (s : State) : Out := copyIssue .cpyg x s
def execCpys (x : CpyArgs) (s : State) : Out := copyIssue .cpys x s

/-- The addresses of a run of bytes, one in each 64-byte sector. -/
def sectorsOf (a n : Nat) : List Nat :=
  if n = 0 then [] else (List.range ((a + n - 1) / 64 + 1 - a / 64)).map fun i => Nat.max a (64 * (a / 64 + i))

/-- `cprf` (R325): prefetches the in-bounds elements of the tile. -/
def execCprf (msc : Bool) (h : HReg) (sc : SReg) (s : State) : Out :=
  onFrag s fun g _ =>
    let r := g.shapes[h.toNat]'h.isLt
    if shRank r = 0 ∨ 63 < sc.toNat + shRank r - 1 ∨ shSpaceCode r ≠ 0 then s.trap g .illegalOperand
    else
      let rows := (tileRows r (coords g.ctx sc (shRank r)) 0).filter fun x => x.lo < x.hi
      ((rows.flatMap fun x => sectorsOf (inSpace .glb (x.shaped + x.lo)) (x.hi - x.lo)).foldl
        (fun s va => prefetch s g msc va 0) s).setGroup (g.onCtx fun c => c.retire s.cur.st.slot1 2)

/-! ### Performing a line (R144, R149, R320) -/

/-- The places of n bytes at an end of a copy, with the regions they lie in. -/
def copyAccess (s : State) (g : Group) (p : Part) (sp : Space) (rot a n : Nat) (write : Bool) :
    Except EngStop (List Loc × List Nat) :=
  match sp with
  | .glb =>
    match engine s p a n (a / 65536) write false with
    | .ok ls r => .ok (ls, r.toList)
    | .fail t va => .error (.fault t.code va)
    | .fetch x y z => .error (.fetch x y z)
  | _ =>
    if spaceLimit s g p sp < a + n then .error (.fault Trap.protection.code a)
    else
      let ls := (List.range n).map fun i => chipLoc s g p sp 0 rot (a + i)
      if !write && ls.any s.bad then .error (.fault Trap.poison.code a) else .ok (ls, [])

/-- A byte of the fill pattern (R149). -/
def fillByte (r : BitVec 512) (b : Nat) : Byte :=
  if shFill r = 2 then BitVec.ofNat 8 (shFillv r / 2 ^ (8 * (b % 2 ^ shEsize r % 4))) else 0

/-- What performing a line needs and does: scratchpad lines its sources wait for, regions that must be quiet,
the places read, the bytes written, and the nominal and real bytes. -/
structure LineWork where
  wait   : List Nat
  quiet  : List Nat
  reads  : List Loc
  writes : List (Loc × Byte)
  nom    : Nat
  real   : Nat

def LineWork.none_ : LineWork := ⟨[], [], [], [], 0, 0⟩
def LineWork.append (a b : LineWork) : LineWork :=
  ⟨a.wait ++ b.wait, a.quiet ++ b.quiet, a.reads ++ b.reads, a.writes ++ b.writes, a.nom + b.nom, a.real + b.real⟩

/-- The part of a row in a destination line. -/
def rowWork (s : State) (g : Group) (p : Part) (j : CopyJob) (line : Nat) (r : CRow) : Except EngStop LineWork :=
  let base := lineBase s g j.dest + j.destAt r
  let lo := 128 * line - base
  let hi := Nat.min (shRow j.shape) (128 * line + 128 - base)
  if hi ≤ lo then .ok .none_
  else do
    let a := Nat.max lo r.lo
    let b := Nat.min hi r.hi
    let n := b - a
    let rot := shRot j.shape
    if 0 < n ∧ r.bad then .error (.fault Trap.copyMisalign.code (inSpace (shSpace j.shape) r.shaped))
    else do
      let (src, q1) ← if n = 0 then .ok ([], []) else copyAccess s g p j.srcSpace rot (j.srcAt r + a) n false
      let (dst, q2) ← if n = 0 then .ok ([], []) else copyAccess s g p j.dest rot (j.destAt r + a) n true
      let fills := if j.store || shFill j.shape = 0 then []
        else (if n = 0 then [(lo, hi)] else [(lo, a), (b, hi)]).filter fun e => e.1 < e.2
      let fl ← fills.mapM fun e => (copyAccess s g p j.dest rot (j.destAt r + e.1) (e.2 - e.1) true).map fun x =>
        (x.2, x.1.zip ((List.range (e.2 - e.1)).map fun i => fillByte j.shape (e.1 + i)))
      let wait := if (j.srcSpace = .spd ∨ j.srcSpace = .pmem) ∧ 0 < n
        then linesOf (lineBase s g j.srcSpace + j.srcAt r + a) n else []
      return { wait := wait
               quiet := q1 ++ q2 ++ fl.flatMap (·.1)
               reads := src
               writes := dst.zip (s.peeks src) ++ fl.flatMap (·.2)
               nom := hi - lo
               real := n }

/-- The part of the row-validity mask in a destination line (R149). -/
def maskWork (s : State) (g : Group) (p : Part) (j : CopyJob) (rows : List CRow) (line : Nat) : Except EngStop LineWork :=
  let base := lineBase s g j.dest + j.maskAt
  let lo := 128 * line - base
  let hi := Nat.min j.maskBytes (128 * line + 128 - base)
  if hi ≤ lo then .ok .none_
  else do
    let (ls, _) ← copyAccess s g p j.dest (shRot j.shape) (j.maskAt + lo) (hi - lo) true
    return { LineWork.none_ with writes := ls.zip ((List.range (hi - lo)).map fun i =>
      BitVec.ofNat 8 ((List.range 8).foldl (fun n k =>
        if (rows[8 * (lo + i) + k]?).any (·.valid) then n + 2 ^ k else n) 0)) }

/-- All of a destination line of a slice. -/
def lineWork (s : State) (p : Part) (j : CopyJob) (line : Nat) : Except EngStop LineWork :=
  match s.group? j.by_, j.rows with
  | some g, some rows => do
    let w ← rows.foldlM (fun w r => (rowWork s g p j line r).map w.append) LineWork.none_
    let m ← maskWork s g p j rows line
    return w.append m
  | _, _ => .ok .none_

/-- A line's nominal bytes. -/
def lineNominal (s : State) (j : CopyJob) (line : Nat) : Nat :=
  match s.group? j.by_, j.rows with
  | some g, some rows => rows.foldl (fun n r =>
      let base := lineBase s g j.dest + j.destAt r
      n + (Nat.min (shRow j.shape) (128 * line + 128 - base) - (128 * line - base))) 0
  | _, _ => 0

/-- A line carries the last credit of its slice while another of the slice, of mask bytes only, is not
written (R149). -/
def holdsCredit (s : State) (o : Op) (x : CopyLine) : Bool :=
  match o.body with
  | .copy js ls _ =>
    match js[x.slice]? with
    | some j =>
      let rest := ls.filter fun l => l.slice = x.slice && !l.done && l.line != x.line
      j.maskBytes != 0 && lineNominal s j x.line != 0 && !rest.isEmpty && rest.all fun l => lineNominal s j l.line == 0
    | none => false
  | _ => false

/-- The operation with a line replaced. -/
def OpBody.setLine (b : OpBody) (n : Nat) (x : CopyLine) : OpBody :=
  match b with
  | .copy js ls st => .copy js (ls.set n x) st
  | b => b
/-- Every line is finished. -/
def OpBody.copied : OpBody → Bool
  | .copy _ ls st => st && ls.all (·.done)
  | _ => false

/-- A line has been written: its count falls and the gong is credited once (R144); with the last line the
operation ends. -/
def lineDone (s : State) (o : Op) (n : Nat) (x : CopyLine) (w : LineWork) : State :=
  let o := { o with body := o.body.setLine n { x with done := true, up := false, paid := true } }
  let s := ((s.setOp o).recalls w.reads).engineWrites o w.writes
  let s := if x.up then s.lowerLines o.by_.tref [x.line] else s
  let s := if x.paid || w.nom = 0 then s else s.credit o.by_ o.gong w.nom w.real 1 o.id
  if o.body.copied then
    match s.team? o.by_.tref with
    | some t => (s.setTeam { t with cpyts := t.cpyts.filter fun c => c.op ≠ o.id }).dropOp o.id
    | none => s.dropOp o.id
  else s

/-- What the engine may do next with a line: nothing yet, a stop, or its work. -/
def lineReady (s : State) (o : Op) (p : Part) (x : CopyLine) (j : CopyJob) : Except EngStop (State × Option LineWork) := do
  if holdsCredit s o x then return (s, none)
  let w ← lineWork (s.asRead (s.opReads o)) p j x.line
  if w.wait.any fun l => foreignCount s o l != 0 then return (s, none)
  let rs := w.quiet.eraseDups.map fun r => (r, 0)
  if rs.isEmpty then return (s, some w)
  let (s, ok) := s.quiets p.id rs (.op o.id) none
  return if ok then (rs.foldl (fun s r => s.useQuiet p.id r.1 (.op o.id)) s, some w) else (s, none)

/-- The operation stops at its access point: the lines it has not written count down (R52, R150). -/
def stopCopy (s : State) (o : Op) (code va : Nat) : State :=
  match o.body with
  | .copy js ls st =>
    (s.lowerLines o.by_.tref (upLines ls)).stopOp
      { o with body := .copy js (ls.map fun l => { l with up := false }) st } 1 code va
  | _ => s

/-- `COPY_LINE_DONE`: an operation starts, or finishes its n-th destination line. -/
def execCopyLineDone (op line : Nat) (s : State) : Out :=
  onOp s op fun o p =>
    match o.body with
    | .copy _ _ false => (match startCopy s o with | .ok s => s | .error _ => s)
    | .copy js ls true =>
      (match ls[line]? with
      | none => if ls.isEmpty then s.dropOp op else s
      | some x =>
        match js[x.slice]? with
        | none => s
        | some j =>
          if x.done then s
          else match lineReady s o p x j with
            | .ok (s, some w) => lineDone s o line x w
            | .ok (s, none) => s
            | .error (.fetch a b c) => s.askPeer p a b c
            | .error _ => s)
    | _ => s

/-- What the next access of an operation would stop it with. -/
def copyFault (s : State) (o : Op) (p : Part) : Option (Nat × Nat) :=
  match o.body with
  | .copy _ _ false =>
    (match startCopy s o with
    | .error (.fault c a) => some (c, a)
    | _ => none)
  | .copy js ls true =>
    ls.findSome? fun x =>
      match js[x.slice]? with
      | none => none
      | some j =>
        if x.done then none
        else match lineWork s p j x.line with
          | .error (.fault c a) => some (c, a)
          | _ => none
  | _ => none

/-- `COPY_ACCESS_FAULT` (R150). -/
def execCopyAccessFault (op : Nat) (s : State) : Out :=
  onOp s op fun o p =>
    match copyFault s o p with
    | some (c, a) => stopCopy s o c a
    | none => s

/-- Replay of a copy: the whole operation is repeated; lines credited before are not credited again (R150;
log 30). DESIGN CHOICE (log 100): the presence counts of its lines, which fell at the fault, do not rise again. -/
def replayCopy (b : OpBody) : OpBody :=
  match b with
  | .copy js ls st => .copy js (ls.map fun l => { l with done := false }) st
  | b => b

/-- Steps of copies that may come next. -/
def copyMoves (s : State) : List Instr :=
  s.ops.flatMap fun o =>
    if !o.active s then []
    else match o.body with
      | .copy _ _ false => [.copyLineDone o.id 0, .copyAccessFault o.id]
      | .copy _ ls true =>
        .copyAccessFault o.id :: (if ls.isEmpty then [.copyLineDone o.id 0]
          else (List.range ls.length).filterMap fun i => if (ls[i]?).any (fun l => !l.done) then some (.copyLineDone o.id i) else none)
      | _ => []

end Sys2Proof.Machine
end

