-- ==== Sys2Proof/Machine/Overlay.lean ====
section
/-!
DEFINITION. Overlay calls, loads and queries, and the ends of overlay loads (R161 to R168, R229).
-/
namespace Sys2Proof.Machine

/-- The key of an overlay of a group's code object (R160). -/
def overlayKey (s : State) (g : Group) (id : Nat) : OKey := ⟨g.ref.part, lrCode (s.lrec g.ref), id⟩
/-- SLOTBASE of a group's partition. -/
def slotBase (s : State) (g : Group) : Nat := s.absSlot g.ref.part 0

def execCallo (id : BitVec 8) (entry : BitVec 10) (s : State) : Out :=
  onFrag s fun g f =>
    match s.launch? g.ref.part g.ref.lid with
    | none => s
    | some l =>
      let b := s.cur.st.slot1
      let cur := s.curOvl g f
      if l.novl ≤ id.toNat then s.trap g .illegalOperand
      else if id.toNat = lrRoot l.lrec then
        s.setGroup (g.onCtx fun c => (c.setS 63 (link false (f.pcw + 1) cur)).goto b (s.rootSlot g) entry.toNat)
      else match s.readySlot g.core (overlayKey s g id.toNat) with
        | some a =>
          let rel := a - slotBase s g
          if ((s.imageOf g.core a).map fun i => i.scalar.length).getD 0 ≤ entry.toNat then s.trap g .illegalOperand
          else
            let t := !f.tokens.getLsbD rel
            let x := { f with tokens := f.tokens ||| (1#32 <<< rel) }
            s.setGroup (g.onCtx fun c =>
              ((c.setS 63 (link t (f.pcw + 1) cur)).setFrag b (some x)).goto b rel entry.toNat)
        | none =>
          s.setGroup (g.onCtx fun c =>
            let c := ((c.setS 1 (id.setWidth 32)).setS 2 (entry.setWidth 32)).setS 63 (link false f.pcw cur)
            let c := { c with ovCount := if c.ovCount = 0xFFFF then c.ovCount else c.ovCount + 1, ovLast := id }
            c.goto b (s.rootSlot g) 16)

def execReto (s : State) : Out :=
  onFrag s fun g f =>
    let b := s.cur.st.slot1
    let l := g.ctx.getS 63
    if linkT l && !f.tokens.getLsbD f.slot then s.trap g .illegalOperand
    else
      let tok := if linkT l then f.tokens &&& ~~~(1#32 <<< f.slot) else f.tokens
      let onto := if linkOvl l = lrRoot (s.lrec g.ref) then some (s.rootSlot g)
        else (List.range 32).find? fun r => tok.getLsbD r && ((s.image g r).any fun i => i.key.ovl = linkOvl l)
      match onto with
      | none => s.trap g .illegalOperand
      | some r =>
        if ((s.image g r).map fun i => i.scalar.length).getD 0 ≤ linkPcw l then s.trap g .illegalOperand
        else
          (s.setGroup (g.onCtx fun c => (c.setFrag b (some { f with tokens := tok })).goto b r (linkPcw l))).drainCore g.core

def execOvld (n : GReg) (a b : SReg) (id : BitVec 8) (slot : BitVec 5) (s : State) : Out :=
  onGong s n fun g f _ x =>
    match s.launch? g.ref.part g.ref.lid, s.part? g.ref.part with
    | some l, some p =>
      let i := (g.ctx.sum a (id.setWidth 32)).toNat
      let r := (g.ctx.sum b (slot.setWidth 32)).toNat
      if l.novl ≤ i ∨ prNslot p.prec ≤ r ∨ r = s.rootSlot g ∨ f.tokens.getLsbD r then s.trap g .illegalOperand
      else match x.engineTrap with
        | some t => s.trap g t 0 0 0 n.toNat
        | none =>
          let s := s.done g 2
          let k := overlayKey s g i
          match s.readySlot g.core k, s.loadingSlot g.core k with
          | some _, _ => s.credit g.ref n.toNat 16384 0 3 0
          | none, some c => s.attach g.core c k (.gong g.ref n.toNat false)
          | none, none =>
            (s.fresh).acceptLoad g.core (slotBase s g + r)
              ⟨s.nextId, k, lrCode l.lrec + l.tab + 16 * i, [.gong g.ref n.toNat true], []⟩
    | _, _ => s

/-- The residency word (R164). -/
def residency (s : State) (g : Group) (p : Part) (id : Nat) : Word :=
  let k := overlayKey s g id
  let (st, sl) := match s.readySlot g.core k with
    | some a => (2, a - slotBase s g)
    | none => match s.loadingSlot g.core k with
      | some a => (1, a - slotBase s g)
      | none => (0, 0)
  word (sl + 64 * st + 65536 * (prNslot p.prec - 1) + 2 ^ 24 * s.rootSlot g)

def execOvq (d a : SReg) (i : BitVec 12) (s : State) : Out :=
  onFrag s fun g _ =>
    match s.launch? g.ref.part g.ref.lid, s.part? g.ref.part with
    | some l, some p =>
      let id := (g.ctx.sum a (imm12 i)).toNat
      if l.novl ≤ id then s.trap g .illegalOperand
      else s.setGroup (g.onCtx fun c => (c.setS d (residency s g p id)).retire s.cur.st.slot1 1)
    | _, _ => s

/-- What an overlay load reads: its table entry and its words. Words of them that L1s own are recalled (R77). -/
def recallOverlay (s : State) (p : Part) (l : OLoad) (i : Image) : State :=
  let e := match engineBytes s p l.tab 16 0 true l.got with | .ok bs => BitVec.ofNat 128 (ofBytes bs) | .error _ => 0
  [(l.tab, 16), (l.key.code + fld e 31 0, 4 * i.scalar.length), (l.key.code + fld e 63 32, 12 * i.lane.length)].foldl
    (fun s a => if a.2 = 0 then s else s.recallVa p a.1 a.2) s

/-- An overlay load writes its last byte (R161, R163). -/
def execOverlayLoadDone (core slot : Nat) (s : State) : Out :=
  match s.slotOf core slot with
  | .loading l pend =>
    match s.part? l.key.part with
    | some p =>
      match readOverlay s p l with
      | .ok i => .next ((recallOverlay s p l i).loadDone core slot l pend i)
      | .error (.fetch a b c) => .next (s.askPeer p a b c)
      | .error _ => .next s
    | none => .next s
  | _ => .next s

/-- An overlay load faults at its access point (R161, R163). -/
def execOverlayLoadFault (core slot : Nat) (s : State) : Out :=
  match s.slotOf core slot with
  | .loading l pend =>
    match s.part? l.key.part with
    | some p =>
      match readOverlay s p l with
      | .error (.fault code va) => .next (s.loadFault core slot l pend code va)
      | _ => .next s
    | none => .next s
  | _ => .next s

/-- Ends of overlay loads that may come next. -/
def overlayMoves (s : State) : List Instr :=
  s.cores.flatMap fun c => c.slots.flatMap fun e => match e.2 with
    | .loading l _ =>
      match s.part? l.key.part with
      | some p => (match readOverlay s p l with
        | .error (.fault _ _) => [.overlayLoadFault c.id e.1]
        | _ => [.overlayLoadDone c.id e.1])
      | none => []
    | _ => []

end Sys2Proof.Machine
end

