-- ==== Sys2Proof/Machine/Distributor.lean ====
section
/-!
DEFINITION. The distributor: launch queues (R422 to R424), placement of teams (R36 to R41, R172, R428), the end
of LOADING, migration (R40, R173) and postings that waited for room (R429).
-/
namespace Sys2Proof.Machine

/-! ### Launch queues -/

/-- The address of a launch queue's descriptor, and the descriptor (R422). -/
def queueAt (p : Part) (q : Nat) : Nat := prLqtab p.prec + 32 * q
def queueDesc (s : State) (p : Part) (q : Nat) : BitVec 256 := BitVec.ofNat 256 (s.rdMem (queueAt p q) 32 0)

/-- The line of a queue's descriptor that the host owns: TAIL is read, and HEAD written, once it is recalled (R77). -/
def queueHeld (s : State) (p : Part) (q : Nat) : Option Nat := s.hostHeldIn [(queueAt p q, 32)]

/-- A queue's next entry to read, and its entries read and not passed, each with its index. -/
def queueHead (s : State) (p : Part) (q : Nat) : Nat × List (Nat × BitVec 512) :=
  ((p.heads.find? fun h => h.1 = q).map (·.2)).getD (fld (queueDesc s p q) 159 128, [])
def Part.setHead (p : Part) (q : Nat) (h : Nat × List (Nat × BitVec 512)) : Part :=
  { p with heads := (q, h) :: p.heads.filter fun e => e.1 ≠ q }

/-- Fields of an entry (R423). -/
def entryLid (e : BitVec 512) : Nat := fld e 94 64
def entryDeps (e : BitVec 512) : List Nat :=
  [fld e 127 96, fld e 159 128, fld e 191 160, fld e 223 192].filter fun d => d ≠ 0

/-- A launch of this id is incomplete. -/
def State.incomplete (s : State) (part lid : Nat) : Bool := (s.launch? part lid).any fun l => !l.state.isComplete

/-- `LAUNCH_ENTRY_READ`. An entry whose id is that of an incomplete launch is read once that launch has
completed; one that cannot be read stays unread (log 32). -/
def execLaunchEntryRead (part q : Nat) (s : State) : Out :=
  match s.part? part with
  | some p =>
    let d := queueDesc s p q
    let h := queueHead s p q
    if p.state ≠ .active ∨ prNlq p.prec ≤ q then .next s
    else if let some l := queueHeld s p q then .next (s.askHost l)
    else if h.1 = fld d 127 96 then .next s
    else match engineBytes s p (fld d 63 0 + 64 * (h.1 % 2 ^ fld d 68 64)) 64 0 false with
      | .error (.fetch a b c) => .next (s.askPeer p a b c)
      | .error _ => .next s
      | .ok bs =>
        let e := BitVec.ofNat 512 (ofBytes bs)
        let done := fld e 319 256
        if s.incomplete part (entryLid e) then .next s
        else .next (((s.recallVa p (fld d 63 0 + 64 * (h.1 % 2 ^ fld d 68 64)) 64).setPart
          (p.setHead q ((h.1 + 1) % 2 ^ 32, h.2 ++ [(h.1, e)]))).addLaunch
          (Launch.new part (entryLid e) (fld e 63 0) done none (.read q (entryDeps e) (done % 8 != 0))))
  | none => .next s

/-- How a dependence resolves (R424). -/
inductive Dep where
  | met | waits | failed
  deriving DecidableEq, Repr

def depOf (s : State) (p : Part) (d : Nat) : Dep :=
  if s.incomplete p.id d then .waits
  else match p.results.find? fun r => r.1 = d with
    | some (_, st) => if st = 1 then .met else .failed
    | none => .met

/-- What a queue's head is: passed over since its launch has completed, failed by a dependence, waiting, or
eligible. -/
inductive HeadIs where
  | passed | failed | waits | eligible
  deriving DecidableEq, Repr

def headIs (s : State) (p : Part) (l : Launch) : HeadIs :=
  match l.state with
  | .read _ deps _ =>
    let ds := deps.map (depOf s p)
    if ds.contains .failed then .failed else if ds.contains .waits then .waits else .eligible
  | _ => .passed

/-- The launch an entry of a queue was read for still stands in that queue, with no later entry of its id there:
an id is used again only once its launch is complete. -/
def Launch.readFrom (l : Launch) (q : Nat) (behind : List (Nat × BitVec 512)) : Bool :=
  (match l.state with | .read k _ _ => k == q | _ => false) && behind.all fun e => entryLid e.2 != l.lid

/-- The launches at the heads of a partition's queues; an entry whose launch has gone stands for one that is
complete. -/
def queueHeads (s : State) (p : Part) : List (Nat × Launch) :=
  (List.range (prNlq p.prec)).filterMap fun q =>
    match (queueHead s p q).2 with
    | e :: es => (s.launch? p.id (entryLid e.2)).map fun l => (q, if l.readFrom q es then l else { l with state := .complete 2 })
    | [] => none

/-- HEAD advances past a queue's head entry (R423). -/
def State.passHead (s : State) (part q : Nat) : State :=
  match s.part? part with
  | some p =>
    match queueHead s p q with
    | (n, e :: es) => (s.setPart (p.setHead q (n, es))).wrMem (queueAt p q + 16) 4 ((e.1 + 1) % 2 ^ 32) 0
    | _ => s
  | none => s

/-- The launch record of a launch at a head, as it can be read now. DESIGN CHOICE (log 101): an entry whose LREC is not a
multiple of 128 names the 128 bytes at that address; R35 lists no status for it. -/
def readRecord (s : State) (p : Part) (l : Launch) : Except EngStop (BitVec 1024) :=
  (engineBytes s p l.recAt 128 0 false).map fun bs => BitVec.ofNat 1024 (ofBytes bs)

/-- PRIO of a launch at a head; 0 where its record could not be read (log 32). -/
def headPrio (l : Launch) : Nat := if l.headRead = some none then lrPrio l.lrec else 0
/-- The record of a launch as it was read at the head. -/
def headRecord (s : State) (p : Part) (l : Launch) : Except EngStop (BitVec 1024) :=
  match l.headRead with
  | some none => .ok l.lrec
  | some (some (code, va)) => .error (.fault code va)
  | none => readRecord s p l

/-- The eligible head to take (R423): the highest PRIO, and among equals the first from the queue after the one
taken from last. -/
def headToTake (s : State) (p : Part) : Option (Nat × Launch) :=
  let hs := (queueHeads s p).filter fun h => headIs s p h.2 = .eligible
  let best := hs.foldl (fun m h => Nat.max m (headPrio h.2)) 0
  let n := prNlq p.prec
  (List.range n).findSome? fun i => hs.find? fun h => h.1 = (p.rot + i) % n ∧ headPrio h.2 = best

/-- The line of a queue's descriptor to recall before the distributor looks at the heads. -/
def headsHeld (s : State) (p : Part) : Option Nat := (queueHeads s p).findSome? fun h => queueHeld s p h.1
/-- A launch that has reached the head of its queue and whose record is not read. -/
def headToRead (s : State) (p : Part) : Option Launch :=
  ((queueHeads s p).find? fun h => headIs s p h.2 ≠ .passed && h.2.headRead.isNone).map (·.2)
/-- The launch record is read at the head of the queue. -/
def readHead (s : State) (p : Part) (l : Launch) : State :=
  match readRecord s p l with
  | .error (.fetch a b c) => s.askPeer p a b c
  | .error (.fault code va) => s.setLaunch { l with headRead := some (some (code, va)) }
  | .ok r => (s.recallVa p l.recAt 128).setLaunch { l with lrec := r, headRead := some none }

/-- `LAUNCH_TAKEN`: the record of a launch that has reached the head is read; a head that has completed is passed over, one
that a dependence fails completes DEP_FAILED, or the eligible head is taken. -/
def execLaunchTaken (part : Nat) (s : State) : Out :=
  match s.part? part with
  | some p =>
    if p.state ≠ .active then .next s
    else if let some x := headsHeld s p then .next (s.askHost x)
    else if let some l := headToRead s p then .next (readHead s p l)
    else match (queueHeads s p).find? fun h => headIs s p h.2 = .passed with
      | some h => .next (s.passHead part h.1)
      | none => match (queueHeads s p).find? fun h => headIs s p h.2 = .failed with
        | some h => .next ((s.passHead part h.1).completeLaunch part h.2.lid 3)
        | none => match headToTake s p with
          | none => .next s
          | some (q, l) =>
            let t := (s.setPart { p with rot := (q + 1) % prNlq p.prec }).passHead part q
            match l.state with
            | .read _ _ true => .next (t.completeLaunch part l.lid 0x10)
            | _ => match t.takeLaunch part l.lid (headRecord s p l) with
              | .ok t => .next t
              | .error (a, b, c) => .next (s.askPeer p a b c)
  | none => .next s

/-! ### Room on a core (R36, R37) -/

/-- Groups and teams that hold a core's resources. -/
def coreGroups (s : State) (core : Nat) : List Group := s.groups.filter fun g => g.core = core ∧ g.state.present
def coreTeams (s : State) (core : Nat) : List Team :=
  s.teams.filter fun t => t.state.present && (s.teamCores t).contains core
/-- Free group capacity (R37). -/
def freeGroups (s : State) (core : Nat) : Nat := 64 - (coreGroups s core).length
/-- The launch of a team. -/
def launchOf (s : State) (t : TRef) : Launch := (s.launch? t.part t.lid).getD (Launch.new t.part t.lid 0 0 none (.complete 0))
def sumOf {α : Type} (l : List α) (f : α → Nat) : Nat := l.foldl (fun n x => n + f x) 0

/-- A core has room for its share of a team: `first` on the core whose gongs the team uses. -/
def hasRoom (s : State) (core : Nat) (n : Need) (gongs nacc : Nat) (first : Bool) : Bool :=
  let gs := coreGroups s core
  let ts := coreTeams s core
  let spadOf := fun (t : Team) =>
    let r := (launchOf s t.ref).lrec
    if !lrPair r then lrSpad r else if t.core = core then lrEvenSpad r else lrSpad r - lrEvenSpad r
  gs.length + n.groups ≤ 64 &&
  sumOf gs (fun g => lrLregs (s.lrec g.ref) * lrWidth (s.lrec g.ref)) + n.lregs ≤ 524288 &&
  sumOf gs (fun g => sliceBytes (s.lrec g.ref)) + sumOf ts spadOf + n.spad ≤ 786432 &&
  (!first || sumOf (ts.filter fun t => t.core = core) (fun t => (launchOf s t.ref).gongs) + gongs ≤ 32) &&
  sumOf ts (fun t => (launchOf s t.ref).nacc) + nacc ≤ 16

/-- The cores of a team of a launch placed at a core. -/
def placeCores (r : BitVec 1024) (core : Nat) : List Nat := if lrPair r then [core, core + 1] else [core]

/-- Every core of a place has room for its share. -/
def placeRoom (s : State) (l : Launch) (core : Nat) : Bool :=
  ((placeCores l.lrec core).zip (needs l.lrec)).all fun e => hasRoom s e.1 e.2 l.gongs l.nacc (e.1 == core)

/-- The key and table entry address of an overlay of a launch's code object. -/
def ovlKey (l : Launch) (id : Nat) : OKey := ⟨l.part, lrCode l.lrec, id⟩
def ovlTab (l : Launch) (id : Nat) : Nat := lrCode l.lrec + l.tab + 16 * id

/-- Makes overlays resident on a core for a team: the state and their relative slots, in order. -/
def resident (p : Part) (core : Nat) (t : TRef) (l : Launch) : List Nat → List Nat → State → Option (State × List Nat)
  | [], _, s => some (s, [])
  | id :: ids, keep, s =>
    match s.makeResident p core (ovlKey l id) (ovlTab l id) t keep with
    | none => none
    | some (s, a) => (resident p core t l ids (a :: keep) s).map fun x => (x.1, (a - prSlotBase p.prec) :: x.2)

/-- Makes the root resident on every core of a place: the state and the root's relative slot on each. -/
def residentRoots (p : Part) (t : TRef) (l : Launch) : List Nat → State → Option (State × List (Nat × Nat))
  | [], s => some (s, [])
  | c :: cs, s =>
    match resident p c t l [lrRoot l.lrec] [] s with
    | some (s, [r]) => (residentRoots p t l cs s).map fun x => (x.1, (c, r) :: x.2)
    | _ => none

/-! ### Choosing a core (R37 to R39) -/

/-- The places of a partition for a launch's teams, from the placement pointer upward, wrapping. -/
def placesFrom (p : Part) (l : Launch) : List Nat :=
  let cs := (prCores p.prec).filter fun c => !lrPair l.lrec || c % 2 == 0
  cs.filter (fun c => p.place ≤ c) ++ cs.filter fun c => c < p.place

/-- A place can hold the launch's next team (R37). -/
def canHold (s : State) (p : Part) (l : Launch) (t : TRef) (core : Nat) : Bool :=
  placeRoom s l core && (residentRoots p t l (placeCores l.lrec core) s).isSome

/-- Of places in order, the first with the most free group capacity that can hold the team. -/
def spread (s : State) (p : Part) (l : Launch) (t : TRef) (cs : List Nat) : Option Nat :=
  let free := fun (c : Nat) => sumOf (placeCores l.lrec c) (freeGroups s)
  ((cs.filter fun c => canHold s p l t c).foldl (fun (best : Option Nat) c => match best with
    | some b => if free b < free c then some c else best
    | none => some c) none)

/-- The quadrant of the placement address (R38): die and quadrant; none where it does not translate to HBM4E. -/
def addrQuadrant (s : State) (p : Part) (l : Launch) (t : Nat) : Option (Nat × Nat) :=
  let va := (lrPaddr l.lrec + t * lrPstride l.lrec) % 2 ^ 52
  match xlateNow s p va 0 with
  | .hit e =>
    let pa := e.pa va
    if pteRemote e.pte ∨ !isHbm pa then none
    else some (hbmStack pa / 2, 2 * (hbmStack pa % 2) + hbmPch pa / 80)
  | _ => none

/-- A core lies in a quadrant of a die (R472). -/
def inQuadrant (d q c : Nat) : Bool := 72 * d + 18 * q ≤ c && c < 72 * d + 18 * q + 18

/-- Where the launch's next team goes, and whether its placement address named no quadrant. -/
def chooseCore (s : State) (p : Part) (l : Launch) (t : TRef) : Option (Nat × Bool) :=
  let cs := placesFrom p l
  if lrDet l.lrec = 2 then
    match l.trace.find? fun e => e.1 = t.team with
    | some (_, c) =>
      let before := l.trace.takeWhile fun e => e.1 ≠ t.team
      if before.any (fun e => e.2 = c ∧ t.team < e.1) || !canHold s p l t c then none else some (c, false)
    | none => none
  else if lrPlace l.lrec = 0 then (spread s p l t cs).map fun c => (c, false)
  else match addrQuadrant s p l t.team with
    | none => (spread s p l t cs).map fun c => (c, true)
    | some (d, q) =>
      ([q, q ^^^ 1, q ^^^ 2, q ^^^ 3].findSome? fun k => spread s p l t (cs.filter (inQuadrant d k))).map fun c => (c, false)

/-! ### Placing a team (R21, R31, R47, R138, R172, R270) -/

/-- The fragment of a new group (R21). -/
def newFrag (r : BitVec 1024) (slot : Nat) : Frag :=
  { slot := slot, pcw := lrEntry r, mask := BitVec.ofNat 64 (2 ^ lrWidth r - 1), solo := 0, depth := 0, joins := [],
    loops := [], tokens := 0, wait := .ready, mark := 0 }

/-- The issue slot a group is placed in (R13): the one with the fewest resident groups, the lowest of these. -/
def seatOf (s : State) (core : Nat) : Nat :=
  let n := fun (k : Nat) => ((coreGroups s core).filter fun g => g.seat = k).length
  (List.range 4).foldl (fun b k => if n k < n b then k else b) 0
/-- A group joins its core. -/
def State.addGroup (s : State) (g : Group) : State := { s with groups := s.groups ++ [{ g with seat := seatOf s g.core }] }

/-- A group of a team that is placed. -/
def newGroup (r : BitVec 1024) (ref : GRef) (core slot : Nat) : Group :=
  { Group.new ref core with
    ctx := { Ctx.reset with a := Ctx.reset.a.set 0 (BitVec.ofNat 64 (lrParam r)), f0 := some (newFrag r slot) } }

/-- The launch's next team on a core whose room it has: it is LOADING, with its root made resident. -/
def putTeam (s : State) (p : Part) (l : Launch) (core : Nat) (odd : Bool) : Option State :=
  let t : TRef := ⟨l.part, l.lid, l.next⟩
  match residentRoots p t l (placeCores l.lrec core) s with
  | none => none
  | some (s, roots) =>
    let gs := (List.range (lrGroups l.lrec)).map fun x =>
      let c := if lrPair l.lrec ∧ lrEven l.lrec ≤ x then core + 1 else core
      newGroup l.lrec ⟨l.part, l.lid, l.next, x⟩ c (((roots.find? fun e => e.1 = c).map (·.2)).getD 0)
    let team : Team :=
      { ref := t, core := core, state := .loading, admission := s.nextId, roots := roots, spd := [], pres := [],
        gongs := List.replicate l.gongs .reset, tiles := [], cpyts := [], moved := none, held := [] }
    let l' := { l with next := l.next + 1, waited := false, passed := none,
                       trace := if lrDet l.lrec = 1 then l.trace ++ [(l.next, core)] else l.trace }
    let s := gs.foldl (fun (s : State) g => s.addGroup g) { s.fresh with teams := s.teams ++ [team] }
    let s := (s.setLaunch l').setPart { p with place := core, unplace := p.unplace + (if odd then 1 else 0) }
    let s := if lrPlace l.lrec = 0 then s else s.recalls (walkPlaces s p ((lrPaddr l.lrec + l.next * lrPstride l.lrec) % 2 ^ 52))
    some (if lrDet l.lrec = 1 then s.writeTrace l' l'.trace.length else s)

/-- Places the next team of a launch, or with COOP every team at once (R41). -/
def placeTeams (part lid : Nat) : Nat → State → Option State
  | 0, s => some s
  | n + 1, s =>
    match s.part? part, s.launch? part lid with
    | some p, some l =>
      match chooseCore s p l ⟨part, lid, l.next⟩ with
      | some (c, odd) => (putTeam s p l c odd).bind (placeTeams part lid n)
      | none => none
    | _, _ => none

/-- How many teams a placement of the launch places. -/
def Launch.batch (l : Launch) : Nat := if lrCoop l.lrec then lrTeams l.lrec else 1

/-- R329 holds the launch's first team back until sequence s − 2 has finished DONE on this rank (R341). -/
def seqHolds (s : State) (l : Launch) : Bool :=
  match l.seqNo with
  | some n => l.next = 0 && 2 ≤ n && (s.seq? l.part (lrColl l.lrec) (n - 2)).any fun q => q.status ≠ 1
  | none => false

/-- The place of a launch among those taken: PRIO first, then the order they were taken in. -/
def Launch.before (a b : Launch) : Bool :=
  match a.state, b.state with
  | .taken i, .taken j => lrPrio b.lrec < lrPrio a.lrec || (lrPrio a.lrec == lrPrio b.lrec && i ≤ j)
  | _, _ => true
def insertLaunch (a : Launch) : List Launch → List Launch
  | [] => [a]
  | b :: bs => if a.before b then a :: b :: bs else b :: insertLaunch a bs

def LState.isTaken : LState → Bool
  | .taken _ => true
  | _ => false
/-- A launch's next team, or a cooperative launch, has waited for room for 65536 cycles while teams of other launches were
placed (R36). -/
def Launch.overdue (s : State) (l : Launch) : Bool := l.waited || l.passed.any fun t => 65536 ≤ s.clock - t
/-- Launches are passed over: another one's team is placed while they wait for room. -/
def State.passOver (s : State) (part : Nat) (lids : List Nat) : State :=
  { s with launches := s.launches.map fun l =>
      if l.part = part ∧ lids.contains l.lid ∧ l.passed = none then { l with passed := some s.clock } else l }
/-- Taken launches with teams to place that nothing but room holds back, in the order of R36; only the one that
has waited too long, if there is one. -/
def toPlace (s : State) (p : Part) : List Launch :=
  let ls := s.launches.filter fun l => l.part == p.id && l.state.isTaken && !l.killed && l.next < lrTeams l.lrec &&
    l.traceBad.isEmpty && !seqHolds s l
  let ls := if ls.any (·.overdue s) then ls.filter (·.overdue s) else ls
  ls.foldl (fun r l => insertLaunch l r) []

/-- A line of the page tables that the host owns and the walk of a placement address reads (R38, R77). -/
def placeHeld (s : State) (p : Part) : Option Nat :=
  (toPlace s p).findSome? fun l =>
    if lrPlace l.lrec = 0 ∨ lrDet l.lrec = 2 then none
    else (List.range l.batch).findSome? fun i =>
      match xlateNow s p ((lrPaddr l.lrec + (l.next + i) * lrPstride l.lrec) % 2 ^ 52) 0 with
      | .recall x => some x
      | _ => none
/-- `TEAM_PLACEMENT`: the next team, or cooperative launch, in that order that can be held. -/
def execTeamPlacement (part : Nat) (s : State) : Out :=
  match s.part? part with
  | some p =>
    if p.state ≠ .active then .next s
    else if let some x := placeHeld s p then .next (s.askHost x)
    else
      let ls := toPlace s p
      match ls.findIdx? fun l => (placeTeams part l.lid l.batch s).isSome with
      | none => .next s
      | some n =>
        let s := s.passOver part ((ls.take n).map (·.lid))
        match (ls[n]?).bind fun l => placeTeams part l.lid l.batch s with
        | some t => .next t
        | none => .next s
  | none => .next s

/-- `PLACEMENT_WAIT_LIMIT`: a launch's next team has waited for room for 65536 cycles while teams of other
launches were placed (R36). -/
def execPlacementWaitLimit (part lid : Nat) (s : State) : Out :=
  match s.part? part with
  | some p =>
    match (toPlace s p).find? fun l => l.lid = lid with
    | some l =>
      .next (if p.state = .active ∧ l.overdue s ∧ (placeTeams part lid l.batch s).isNone
        then s.setLaunch { l with waited := true } else s)
    | none => .next s
  | none => .next s

/-! ### The end of LOADING (R30, R31, R172, R173) -/

/-- Relative slots that a group's program counters, tokens and queued blocks name. -/
def Group.slotsUsed (g : Group) : List Nat :=
  (List.range 32).filter fun r => g.holds r || g.allFrags.any fun f => f.slot = r || f.loops.any fun l => l.slot = r

/-- Every overlay that a group uses is usable on its core: its root, and what it held where it came from (R173). -/
def overlaysReady (s : State) (g : Group) : Bool :=
  (s.image g (s.rootSlot g)).any (fun i => i.key.ovl == lrRoot (s.lrec g.ref) && i.key.code == lrCode (s.lrec g.ref)) &&
  (g.slotsUsed.all fun r => (s.image g r).isSome) &&
  (((s.team? g.ref.tref).map (·.held)).getD []).all fun e => e.1 ≠ g.core ||
    (s.image g e.2.1).any fun i => i.key.ovl == e.2.2 && i.key.code == lrCode (s.lrec g.ref)

/-- The group's team leaves LOADING with its last group. -/
def State.settleLoading (s : State) (r : TRef) : State :=
  match s.team? r with
  | some t =>
    if t.state = .loading ∧ (s.teamGroups r).all (fun g => match g.state with | .loading _ => false | _ => true) then
      (s.setTeam { t with state := .running, held := [] }).settleTeam r
    else s
  | none => s

/-- `GROUP_SETUP_COMPLETE`. A new team's first event is an acquire: its core's `.si` copies go (R72, R79). Placement and
restore stop while the partition is being saved (R433). -/
def execGroupSetupComplete (r : GRef) (s : State) : Out :=
  match s.group? r, s.part? r.part with
  | some g, some p =>
    match g.state with
    | .loading h =>
      if p.state = .suspending ∨ !overlaysReady s g then .next s
      else .next (((s.discardSi g).setGroup
        { g.noSeen.awake s with
            state := (match h with | some x => .halted x | none => .live)
            turns := Vector.replicate 3 s.clock }).settleLoading r.tref)
    | _ => .next s
  | _, _ => .next s

/-! ### Moving a team (R40, R173) -/

/-- The overlays in the used slots of a team's groups: core, relative slot, overlay index. A team that is LOADING holds
what it is to have. -/
def heldSlots (s : State) (t : TRef) : List (Nat × Nat × Nat) :=
  match s.team? t with
  | some u =>
    if u.state = .loading then u.held
    else ((s.teamGroups t).flatMap fun g => g.slotsUsed.filterMap fun r =>
      (s.slotOf g.core (s.absSlot g.ref.part r)).key.map fun k => (g.core, r, k.ovl)).eraseDups
  | none => []
/-- A team that leaves its core asks no more for the loads it waited for there. -/
def State.unask (s : State) (t : TRef) : State :=
  let keep := fun (l : OLoad) => { l with reqs := l.reqs.filter (· ≠ .root t) }
  let onAbout := fun (a : About) => match a with | .overlay c sl l => .overlay c sl (keep l) | x => x
  let onSlot := fun (x : Slot) => match x with
    | .loading l p => Slot.loading (keep l) (p.map keep)
    | .draining i p => .draining i (keep p)
    | y => y
  { s with
    cores := s.cores.map fun c => { c with slots := c.slots.map (fun e => (e.1, onSlot e.2)), waits := c.waits.map fun e => (e.1, keep e.2) }
    parts := s.parts.map fun p => if p.id = t.part then
      { p with recs := p.recs.map (fun r => { r with about := onAbout r.about }),
               posts := p.posts.map fun q => { q with about := q.about.map onAbout } } else p }

/-- Slot numbers of a group's context replaced (R173). -/
def Frag.reslot (m : Nat → Nat) (f : Frag) : Frag :=
  { f with slot := m f.slot, loops := f.loops.map fun l => { l with slot := m l.slot },
           tokens := (List.range 32).foldl (fun (b : BitVec 32) r =>
             if f.tokens.getLsbD r then b ||| (1#32 <<< m r) else b) 0 }
def Ctx.reslot (m : Nat → Nat) (c : Ctx) : Ctx :=
  { c with f0 := c.f0.map (Frag.reslot m), f1 := c.f1.map (Frag.reslot m), stack := c.stack.map (Frag.reslot m) }
def Group.reslot (m : Nat → Nat) (g : Group) : Group :=
  { g with ctx := g.ctx.reslot m,
           queue := g.queue.map fun e => { e with slot := m e.slot, after := e.after.reslot m } }

/-- Overlays made resident on each core of a team's new place: the state, and per old core and slot the new
slot. -/
def residentHeld (p : Part) (t : Team) (l : Launch) (onto : Nat) (held : List (Nat × Nat × Nat)) :
    List Nat → State → Option (State × List (Nat × Nat) × List (Nat × Nat × Nat))
  | [], s => some (s, [], [])
  | c :: cs, s =>
    let mine := held.filter fun e => e.1 = c
    let ids := (lrRoot l.lrec :: mine.map (·.2.2)).eraseDups
    let new := onto + (c - t.core)
    match resident p new t.ref l ids [] s with
    | some (s, rs) =>
      let at_ := fun (id : Nat) => (((ids.zip rs).find? fun e => e.1 = id).map (·.2)).getD 0
      (residentHeld p t l onto held cs s).map fun x =>
        (x.1, (new, at_ (lrRoot l.lrec)) :: x.2.1, mine.map (fun e => (c, e.2.1, at_ e.2.2)) ++
          (t.roots.filter (fun e => e.1 = c)).map (fun e => (c, e.2, at_ (lrRoot l.lrec))) ++ x.2.2)
    | none => none

/-- The state in which a saved or migrating group is LOADING again. -/
def GState.back : GState → GState
  | .saved h => .loading h
  | .halted .move => .loading none
  | .halted h => .loading (some h)
  | g => g

/-- A team comes to a place: its overlays are made resident, its slots rewritten, its operations follow it
(R173, R293, R326), and it is LOADING; none where a core cannot hold its overlays. -/
def bringTeam (s : State) (p : Part) (l : Launch) (t : Team) (onto : Nat) (held : List (Nat × Nat × Nat)) : Option State :=
  let old := placeCores l.lrec t.core
  match residentHeld p t l onto held old (s.unask t.ref) with
  | none => none
  | some (s, roots, slots) =>
    let slotOf := fun (c r : Nat) => (((slots.find? fun e => e.1 = c ∧ e.2.1 = r).map (·.2.2)).getD r)
    let move := fun (g : Group) =>
      if g.ref.tref = t.ref then { g.reslot (slotOf g.core) with core := onto + (g.core - t.core), state := g.state.back }
      else g
    let mine := fun (c : Nat) => (s.core c).mops.filter fun m => m.by_.tref = t.ref
    let ops := old.map fun c => (c, mine c)
    let s := { s with groups := s.groups.map move,
                      ops := s.ops.map fun (o : Op) => if o.by_.tref = t.ref then { o with core := onto + (o.core - t.core) } else o }
    let s := ops.foldl (fun s e =>
      let c := s.core e.1
      s.setCore { c with mops := c.mops.filter fun m => m.by_.tref ≠ t.ref }) s
    -- products accepted again ramp a down array up (R292, R293)
    let s := ops.foldl (fun s e =>
      let k := onto + (e.1 - t.core)
      let c := s.core k
      let c := { c with mops := e.2 ++ c.mops }
      (s.setCore (if e.2.any fun m => m.body.isProduct then { c.rampUp with fed := s.clock } else c)).clearSi k) s
    let here := fun (g : Group) => g.ref.tref == t.ref && g.state.present
    let s := (s.groups.filter here).foldl (fun (s : State) g => s.addGroup g) { s with groups := s.groups.filter fun g => !here g }
    let held := held.map fun e => (onto + (e.1 - t.core), slotOf e.1 e.2.1, e.2.2)
    some (s.setTeam { t with core := onto, state := .loading, roots := roots, moved := none, held := held })

/-! ### Replayed overlay loads (R163) -/

/-- Teams whose overlay was to be in one slot of a core have it in another. -/
def reslotTeams (s : State) (core old new : Nat) (rs : List OReq) : State :=
  if old = new then s
  else
    let rel := fun (t : TRef) (a : Nat) => a - s.absSlot t.part 0
    rs.foldl (fun s r => match r with
      | .gong _ _ _ => s
      | .root t =>
        let m := fun (x : Nat) => if x = rel t old then rel t new else x
        { s with groups := s.groups.map fun (g : Group) => if g.ref.tref = t ∧ g.core = core then g.reslot m else g,
                 teams := s.teams.map fun (u : Team) =>
                   if u.ref = t then { u with roots := u.roots.map fun e => if e.1 = core then (e.1, m e.2) else e
                                              held := u.held.map fun e => if e.1 = core then (e.1, m e.2.1, e.2.2) else e } else u }) s

/-- A request that has attached to a load (R163). -/
def OReq.joined : OReq → OReq
  | .gong g n _ => .gong g n false
  | r => r

/-- A load is repeated into its slot where that is still EMPTY, or else in the slot R172 chooses, and waits where
there is none; an overlay that has come by another load, or a slot that was draining for itself, serves its requests.
DESIGN CHOICE (log 119): where the key is READY, LOADING or pending elsewhere the repeated load joins that copy, and what
joins has attached: the request that performed the load is the one that the load goes on with. -/
def reload (s : State) (core old : Nat) (l : OLoad) : State :=
  match s.part? l.key.part with
  | none => s
  | some p =>
    match s.readySlot core l.key, (s.core core).slots.find? (fun e => match e.2 with | .loading k _ => k.key = l.key | _ => false) with
    | some a, _ => (reslotTeams s core old a l.reqs).creditLoad l.reqs 0 l.id
    | none, some e => l.reqs.foldl (fun s r => s.attach core e.1 l.key r.joined) (reslotTeams s core old e.1 l.reqs)
    | none, none =>
      let (s, rs) := s.unpend core l.key
      let l := { l with reqs := l.reqs ++ rs.map OReq.joined }
      match s.readySlot core l.key with
      | some a => (reslotTeams s core old a l.reqs).creditLoad l.reqs 0 l.id
      | none =>
      let onto := if s.slotOf core old = .empty then some old else s.freeSlot p core []
      match onto with
      | some a => reslotTeams (s.setSlot core a (.loading l none)) core old a l.reqs
      | none => s.setCore { s.core core with waits := (s.core core).waits ++ [(old, l)] }

/-- Replayed loads of a core that wait look again for a slot. -/
def retryLoads (s : State) (core : Nat) : State :=
  let ws := (s.core core).waits
  ws.foldl (fun s e => reload s core e.1 e.2) (s.setCore { s.core core with waits := [] })

/-- Launches whose next pair team has no room (R40). -/
def pairWaits (s : State) (p : Part) : List Launch :=
  (toPlace s p).filter fun l => lrPair l.lrec && (placeTeams p.id l.lid l.batch s).isNone

/-- A running team that may be migrated (R40): never a pair team, a team of a cooperative launch or of one with DET = 2,
or a team with a group halted for a trap. -/
def mobile (s : State) (t : Team) : Bool :=
  let r := (launchOf s t.ref).lrec
  t.state == .running && !lrPair r && !lrCoop r && lrDet r != 2 &&
  (s.teamGroups t.ref).all fun g => match g.state with | .halted (.trap _ _ _) => false | _ => true
/-- A team's room counted on another core. -/
def State.roomAt (s : State) (t : Team) (core : Nat) : State :=
  { s with teams := s.teams.map (fun x => if x.ref = t.ref then { x with core := core } else x),
           groups := s.groups.map fun g => if g.ref.tref = t.ref then { g with core := core } else g }
/-- A core has room for a team that is not counted anywhere. -/
def roomFor (s : State) (t : Team) (core : Nat) : Bool :=
  let l := launchOf s t.ref
  (needs l.lrec).all fun n => hasRoom s core n l.gongs l.nacc true
/-- Teams that stand nowhere yet can be given cores of a die so that a launch's next team has room (R40). -/
def arranges (p : Part) (w : Launch) (cores : List Nat) : List Team → State → Bool
  | [], s => (placeTeams p.id w.lid w.batch s).isSome
  | t :: ts, s => cores.any fun c => roomFor s t c && arranges p w cores ts (s.roomAt t c)

/-- A team may be migrated to a core (R40): with it there, the other teams of that die could be rearranged so that a pair
team that waits has room (log 67). -/
def mayMove (s : State) (p : Part) (l : Launch) (t : Team) (core : Nat) : Bool :=
  let onDie := fun (c : Nat) => c / 72 == t.core / 72
  p.state == .active && mobile s t && (prCores p.prec).contains core && core != t.core && onDie core &&
  roomFor s t core && (bringTeam s p l t core (heldSlots s t.ref)).isSome &&
  (let others := s.teams.filter fun u => u.ref.part == p.id && u.ref != t.ref && onDie u.core && mobile s u
   -- cores that do not exist stand for nowhere
   let away := others.foldl (fun s u => s.roomAt u 288) (s.roomAt t core)
   (pairWaits s p).any fun w => arranges p w ((prCores p.prec).filter onDie) others away)

/-- `MIGRATION_START`: the team halts (R30, R205). -/
def execMigrationStart (part lid team core : Nat) (s : State) : Out :=
  match s.part? part, s.launch? part lid, s.team? ⟨part, lid, team⟩ with
  | some p, some l, some t =>
    if mayMove s p l t core then
      let s := ((s.teamGroups t.ref).filter fun g => g.state = .live).foldl (fun s g => s.haltGroup g) s
      .next (s.setTeam { t with state := .migrating, moved := some core })
    else .next s
  | _, _, _ => .next s

/-- `MIGRATION_COMPLETE`: with the team's accepted operations and its accesses complete, its context is on the new core,
and the source core's holds are released. Where the new core's room has gone, the team resumes where it is. DEDUCED
(log 108): a `cpyt` whose slices are not all gathered is not in flight, and moves with the team. -/
def execMigrationComplete (part lid team : Nat) (s : State) : Out :=
  match s.part? part, s.launch? part lid, s.team? ⟨part, lid, team⟩ with
  | some p, some l, some t =>
    match t.state, t.moved with
    | .migrating, some onto =>
      let busy := (s.ops.any fun o => o.by_.tref == t.ref && cpytReady s o) ||
        ((s.core t.core).mops.any fun m => m.by_.tref == t.ref) || (s.teamGroups t.ref).any fun g => g.state.present && !s.quietGroup g
      if busy ∨ p.state ≠ .active then .next s
      else
        let room := (needs l.lrec).all fun n => hasRoom s onto n l.gongs l.nacc true
        let held := heldSlots s t.ref
        match (if room then bringTeam s p l t onto held else none) with
        | some x => .next (x.drainCore t.core)
        | none => match bringTeam s p l t t.core held with
          | some x => .next (x.drainCore t.core)
          | none => .next s
    | _, _ => .next s
  | _, _, _ => .next s

/-! ### Postings that waited (R429) -/

/-- A posting that waits may be made: those held in a save image are made by RESTORE (R435). -/
def Part.mayPost (p : Part) (x : Posting) : Bool :=
  p.state == .active || (p.state == .suspending && !x.held) || (p.state == .suspended && p.cmd.isSome)
/-- `FAULT_QUEUE_ROOM`: the first posting that waits, and may be made, is made. -/
def execFaultQueueRoom (part : Nat) (s : State) : Out :=
  match s.part? part with
  | some p =>
    match p.posts.findIdx? (p.mayPost ·), s.fqHeld p with
    | some _, some l => .next (s.askHost l)
    | some n, none =>
      .next (if !s.faultRoom p then s.wrMem (prFqBase p.prec + 8) 1 1 0
        else match p.posts[n]? with
          | some x => s.writeRecord { p with posts := p.posts.eraseIdx n } x.about x.bits
          | none => s)
    | none, _ => .next s
  | none => .next s

/-- Steps of the distributor that may come next; while its own posting waits it stays halted (R429). -/
def distributorMoves (s : State) : List Instr :=
  s.parts.flatMap fun p =>
    if p.state ≠ .active || p.posts.any (·.isLaunch) then []
    else
      List.flatten [
        ((List.range (prNlq p.prec)).filter fun q =>
          (queueHead s p q).1 ≠ fld (queueDesc s p q) 127 96 || (queueHeld s p q).isSome).map
          (Instr.launchEntryRead p.id),
        if (queueHeads s p).any (fun h => headIs s p h.2 ≠ .waits || h.2.headRead.isNone) then [Instr.launchTaken p.id] else [],
        if (toPlace s p).any (fun l => (placeTeams p.id l.lid l.batch s).isSome) then [Instr.teamPlacement p.id] else [],
        ((toPlace s p).filter fun l => !l.waited && l.overdue s && (placeTeams p.id l.lid l.batch s).isNone).map
          fun l => Instr.placementWaitLimit p.id l.lid,
        if !(pairWaits s p).isEmpty then
          ((s.teams.filter fun t => t.ref.part = p.id).flatMap fun t =>
            ((prCores p.prec).filter fun c => mayMove s p (launchOf s t.ref) t c).map
              fun c => Instr.migrationStart p.id t.ref.lid t.ref.team c)
        else []]

/-- Ends of LOADING and of migrations that may come next. -/
def loadingMoves (s : State) : List Instr :=
  List.flatten [
    (s.groups.filter fun g => (match g.state with | .loading _ => true | _ => false) && overlaysReady s g).map
      fun g => Instr.groupSetupComplete g.ref,
    (s.teams.filter fun t => t.state = .migrating).map
      fun t => Instr.migrationComplete t.ref.part t.ref.lid t.ref.team,
    (s.parts.filter fun p => p.posts.any (p.mayPost ·) && (s.faultRoom p || (s.fqHeld p).isSome || s.rdMem (prFqBase p.prec + 8) 1 0 % 2 == 0)).map
      fun p => Instr.faultQueueRoom p.id]

end Sys2Proof.Machine
end

