-- ==== Sys2Proof/Machine/Lanes.lean ====
section
/-!
DEFINITION. How a lane instruction acts: its active lanes, its operand forms, its writes (R15, R192 to
R197, R232 to R237).
-/
namespace Sys2Proof.Machine

/-! ### Active lanes and operands -/

/-- act(f) (R232). -/
def actMask (g : Group) (e : Entry) (w : LaneWord) : LaneMask :=
  e.mask &&& (if w.gneg then ~~~(g.getP w.guard) else g.getP w.guard)
/-- Lanes of a mask, ascending. -/
def lanesOf (m : LaneMask) : List Nat := (List.range 64).filter fun l => m.getLsbD l
/-- The lanes that an instruction acts on. -/
def acting (g : Group) (e : Entry) (w : LaneWord) : List Nat := lanesOf (actMask g e w)

/-- A captured scalar register (R15). -/
def Entry.getS (e : Entry) (f : BitVec 8) : Word := if f.setWidth 6 = 0#6 then 0 else e.capS.get (f.setWidth 6).toFin
def Entry.getA (e : Entry) (f : BitVec 8) : Addr := e.capA.get (f.setWidth 4).toFin

/-- An FP32 encoding as FP64, exactly: infinities and NaNs keep their sign and fraction (R197). -/
def f32As64 (b : Nat) : Nat :=
  if b / 2 ^ 23 % 256 = 255 then b / 2 ^ 31 % 2 * 2 ^ 63 + 2047 * 2 ^ 52 + b % 2 ^ 23 * 2 ^ 29
  else (floatRound .f64 (decodeF .f32 b) .rn false 0).1

/-- A 32-bit scalar value or immediate as an operand of a type (R197, R234). -/
def widen (t : LTy) (v : Word) : Nat :=
  match t with
  | .i64 => (v.signExtend 64).toNat
  | .f64 => f32As64 v.toNat
  | _ => v.toNat % 2 ^ (8 * t.bytes)

/-- Source a of a lane as bits of a type (R233, R234). -/
def rawA (g : Group) (e : Entry) (w : LaneWord) (t : LTy) (l : Nat) : Nat :=
  if w.aScalar then widen t (e.getS w.a) else g.lane l w.a.toNat t.bytes
/-- Source b of a lane as bits of a type. -/
def rawB (g : Group) (e : Entry) (w : LaneWord) (t : LTy) (l : Nat) : Nat :=
  match w.bSrc with
  | 0 => g.lane l w.b.toNat t.bytes
  | 1 => widen t (e.getS w.b)
  | _ => widen t w.imm
/-- Source c of a lane as bits of a type. -/
def rawC (g : Group) (w : LaneWord) (t : LTy) (l : Nat) : Nat := g.lane l w.c.toNat t.bytes
/-- Source b as an unsigned 32-bit number: shift amounts, positions, lane indexes; a scalar or immediate is
zero-extended (R239). -/
def numB (g : Group) (e : Entry) (w : LaneWord) (l : Nat) : Nat :=
  match w.bSrc with
  | 0 => g.lane l w.b.toNat 4
  | 1 => (e.getS w.b).toNat
  | _ => w.imm.toNat

/-- Sign changes of a float operand (R235): absolute value first, then negation. -/
def signMod (t : LTy) (abs neg : Bool) (b : Nat) : Nat :=
  let b := if abs then b % signBit t else b
  if neg then (b + signBit t) % (2 * signBit t) else b
/-- Sources of a lane with their modifiers. -/
def srcFA (g : Group) (e : Entry) (w : LaneWord) (l : Nat) : Nat :=
  signMod w.ty (w.sub.getLsbD 3) (w.sub.getLsbD 0) (rawA g e w w.ty l)
def srcFB (g : Group) (e : Entry) (w : LaneWord) (l : Nat) : Nat :=
  signMod w.ty (w.sub.getLsbD 4) (w.sub.getLsbD 1) (rawB g e w w.ty l)
def srcFC (g : Group) (w : LaneWord) (l : Nat) : Nat := signMod w.ty false (w.sub.getLsbD 2) (rawC g w w.ty l)

/-- The rounding mode of a code (R195). -/
def Rnd.ofCode (c : BitVec 3) : Rnd :=
  match c.toNat with
  | 1 => .rz | 2 => .rd | 3 => .ru | 4 => .rs | _ => .rn
/-- The rounding mode of a word. -/
def mode (w : LaneWord) : Rnd := Rnd.ofCode w.rnd

/-! ### Writes -/

/-- The bits written to a register for a value of a type: narrow values fill it (R233). -/
def regBits (t : LTy) (v : Nat) : Nat :=
  if (t = .i8 ∨ t = .i16) ∧ 2 ^ (8 * t.bytes - 1) ≤ v then v + 2 ^ 32 - 2 ^ (8 * t.bytes) else v
/-- Writes a destination in a lane. -/
def Group.setD (g : Group) (t : LTy) (l : Nat) (d : BitVec 8) (v : Nat) : Group :=
  g.setLane l d.toNat (Nat.max 4 t.bytes) (regBits t v)

/-- Writes results and flags of lanes; the values were computed from the state before. -/
def Group.writeLanes (g : Group) (t : LTy) (d : BitVec 8) (rs : List (Nat × Nat × FFlags)) : Group :=
  rs.foldl (fun x r => (x.setD t r.1 d r.2.1).flag r.2.2) g

/-- The shape of most lane instructions: D(l) := f(l) with its flags in each lane of act(f) (R232). -/
def laneOp (w : LaneWord) (t : LTy) (f : Group → Entry → Nat → Nat × FFlags) (s : State) : Out :=
  onLane s fun g e =>
    s.laneDone (g.writeLanes t w.d ((acting g e w).map fun l => (l, f g e l))) w.last
/-- The shape without flags. -/
def laneBits (w : LaneWord) (t : LTy) (f : Group → Entry → Nat → Nat) (s : State) : Out :=
  laneOp w t (fun g e l => (f g e l, 0)) s

/-- A predicate with the bits of some lanes replaced. -/
def setBits (p act v : LaneMask) : LaneMask := (p &&& ~~~act) ||| (v &&& act)
/-- The mask of the lanes of which a test holds. -/
def maskOf (f : Nat → Bool) : LaneMask :=
  (List.range 64).foldl (fun m l => if f l then m ||| (1#64 <<< l) else m) 0

/-- The shape of instructions that write a predicate in act(f), with flags. -/
def lanePred (w : LaneWord) (f : Group → Entry → LaneMask × FFlags) (s : State) : Out :=
  onLane s fun g e =>
    let r := f g e
    let d : PReg := w.d.setWidth 3
    s.laneDone ((g.setP d (setBits (g.getP d) (actMask g e w) r.1)).flag r.2) w.last

/-- Writes a scalar register from a lane instruction, in the live context and in those a later lane trap
returns to (R16, R236). -/
def Group.setScalar (g : Group) (d : BitVec 8) (v : Word) : Group := g.onAll fun c => c.setS (d.setWidth 6) v

end Sys2Proof.Machine
end

