-- ==== Sys2Proof/Machine/Traverse.lean ====
section
/-!
DEFINITION. Ray engine structures, the exact tests of boxes, triangles and instances, and one visit of the
traversal procedure (R294 to R300, R306 to R311).
-/
namespace Sys2Proof.Machine

/-! ### Exact values -/

/-- A real number, −∞ or +∞. -/
inductive Ext where
  | bot
  | real (q : Rat)
  | top
  deriving DecidableEq, Repr

def Ext.le : Ext → Ext → Bool
  | .bot, _ => true
  | _, .top => true
  | .real a, .real b => decide (a ≤ b)
  | _, _ => false
/-- The value of an FP32 encoding; none for a NaN. -/
def extOf (b : Nat) : Option Ext :=
  match decodeF .f32 b with
  | .nan _ => none
  | .inf s => some (if s then .bot else .top)
  | .fin s n d => some (.real (mkRat (signed s n) d))
/-- The value of a finite FP32 encoding. -/
def ratOf (b : Nat) : Option Rat :=
  match extOf b with
  | some (.real q) => some q
  | _ => none
/-- A real number rounded to FP32; the number 0 has no sign and is +0 (log 20). -/
def roundF32 (q : Rat) (mode : Rnd) : Nat := (floatRound .f32 (.fin (decide (q < 0)) q.num.natAbs q.den) mode false 0).1

/-- Finite FP32 values of three components at word w of a record. -/
def vec3 {n : Nat} (r : BitVec n) (w : Nat) : Option (List Rat) :=
  (List.range 3).mapM fun i => ratOf (fld r (32 * (w + i) + 31) (32 * (w + i)))
def ext3 {n : Nat} (r : BitVec n) (w : Nat) : Option (List Ext) :=
  (List.range 3).mapM fun i => extOf (fld r (32 * (w + i) + 31) (32 * (w + i)))

def vsub (a b : List Rat) : List Rat := a.zipWith (· - ·) b
def vdot (a b : List Rat) : Rat := (a.zipWith (· * ·) b).foldl (· + ·) 0
def vcross : List Rat → List Rat → List Rat
  | [a, b, c], [x, y, z] => [b * z - c * y, c * x - a * z, a * y - b * x]
  | _, _ => []

/-- 2^e. -/
def ratPow (e : Int) : Rat := if 0 ≤ e then (2 : Rat) ^ e.toNat else 1 / (2 : Rat) ^ (-e).toNat

/-! ### Wide nodes (R295 to R297) -/

def ndValid (d : BitVec 1024) (j : Nat) : Bool := d.getLsbD (120 + j)
def ndRef (d : BitVec 1024) (j : Nat) : Nat := fld d (64 * j + 575) (64 * j + 512)
def refType (r : Nat) : Nat := r % 4
/-- Blocks or records of a leaf. -/
def refCount (r : Nat) : Nat := bitsOf r 5 2 + 1
def refAddr (r : Nat) : Nat := 64 * bitsOf r 51 6
/-- QLO (hi = 0) or QHI (hi = 1) of child j on axis a. -/
def ndQ (d : BitVec 1024) (j hi a : Nat) : Nat := fld d (48 * j + 24 * hi + 8 * a + 135) (48 * j + 24 * hi + 8 * a + 128)
def ndExp (d : BitVec 1024) (a : Nat) : Int := sfld d (8 * a + 103) (8 * a + 96)
/-- Valid children, ascending. -/
def ndChildren (d : BitVec 1024) : List Nat := (List.range 8).filter fun j => ndValid d j
/-- Child j's box is empty (R297). -/
def ndEmpty (d : BitVec 1024) (j : Nat) : Bool := (List.range 3).any fun a => decide (ndQ d j 1 a < ndQ d j 0 a)
/-- The planes of child j's box over the origin o, hi = 0 or 1. -/
def ndPlanes (d : BitVec 1024) (o : List Rat) (j hi : Nat) : List Rat :=
  (List.range 3).map fun a => o.getD a 0 + (ndQ d j hi a : Rat) * ratPow (ndExp d a)

/-! ### Probes (R306, R308) -/

/-- What is traversed with: a ray, a query, or one that hits nothing. -/
inductive Probe where
  | ray (o d : List Rat)
  | query (lo hi : List Ext)
  | nothing
  deriving DecidableEq, Repr

/-- The constants of a lane's traversal: `trq`, `.any`, the root, the mask, the lane and its operands. -/
structure Quest where
  query : Bool
  any   : Bool
  root  : Nat
  mask  : Nat
  lane  : Nat
  v     : Vector Word 8
  deriving DecidableEq, Repr

/-- The world ray or query of the operands. -/
def Quest.world (q : Quest) : Probe :=
  let w := fun (i : Fin 8) => (q.v[i]).toNat
  if q.query then
    match [w 0, w 1, w 2].mapM extOf, [w 4, w 5, w 6].mapM extOf with
    | some lo, some hi => if (lo.zipWith Ext.le hi).all id then .query lo hi else .nothing
    | _, _ => .nothing
  else
    match [w 0, w 1, w 2].mapM ratOf, ratOf (w 3), [w 4, w 5, w 6].mapM ratOf, ratOf (w 7) with
    | some o, some t0, some d, some t1 => if t0 ≤ t1 ∧ d.any (· ≠ 0) then .ray o d else .nothing
    | _, _, _, _ => .nothing
def Quest.tmin (q : Quest) : Rat := (ratOf (q.v[3]).toNat).getD 0
def Quest.tmax (q : Quest) : Rat := (ratOf (q.v[7]).toNat).getD 0
/-- tcur (R307, R309). -/
def Quest.tcur (q : Quest) (t : Trav) : Rat := match t.best with | some b => b.t | none => q.tmax

/-- A transform's elements where all are finite (R298, R306). -/
def matrixOf (r : BitVec 512) : Option (List Rat) :=
  (List.range 12).mapM fun i => ratOf (fld r (32 * i + 31) (32 * i))
def instRoot (r : BitVec 512) : Nat := fld r 447 384
def instMask (r : BitVec 512) : Nat := fld r 455 448
def instId (r : BitVec 512) : Nat := fld r 479 456

/-- A product with a matrix element; 0 times anything is 0 (R308). -/
def extMul (m : Rat) : Ext → Ext
  | .real q => .real (m * q)
  | .bot => if m = 0 then .real 0 else if 0 < m then .bot else .top
  | .top => if m = 0 then .real 0 else if 0 < m then .top else .bot
def extMin (a b : Ext) : Ext := if a.le b then a else b
def extMax (a b : Ext) : Ext := if a.le b then b else a
/-- A sum; none where it holds both infinities. -/
def extAdd : Ext → Ext → Option Ext
  | .real a, .real b => some (.real (a + b))
  | .bot, .top | .top, .bot => none
  | .bot, _ | _, .bot => some .bot
  | .top, _ | _, .top => some .top
/-- One bound of a query on object axis i. -/
def boundAxis (m : List Rat) (lo hi : List Ext) (pick : Ext → Ext → Ext) (i : Nat) : Option Ext :=
  (List.range 3).foldlM (fun x j =>
    let c := m.getD (4 * i + j) 0
    extAdd x (pick (extMul c (lo.getD j .bot)) (extMul c (hi.getD j .top)))) (.real (m.getD (4 * i + 3) 0))

/-- The ray or query inside an instance (R308). -/
def Probe.enter (m : List Rat) : Probe → Probe
  | .nothing => .nothing
  | .ray o d =>
    let row := fun (x : List Rat) (w : Rat) (i : Nat) =>
      ratOf (roundF32 (vdot ((m.drop (4 * i)).take 3) x + m.getD (4 * i + 3) 0 * w) .rn)
    match (List.range 3).mapM (row o 1), (List.range 3).mapM (row d 0) with
    | some o', some d' => if d'.any (· ≠ 0) then .ray o' d' else .nothing
    | _, _ => .nothing
  | .query lo hi =>
    match (List.range 3).mapM (boundAxis m lo hi extMin), (List.range 3).mapM (boundAxis m lo hi extMax) with
    | some a, some b => .query a b
    | _, _ => .nothing

/-! ### Tests (R306, R307) -/

/-- The part of [t0, t1] in which o + t·d lies between two planes of an axis. -/
def slab (o d lo hi : Rat) (x : Option (Rat × Rat)) : Option (Rat × Rat) :=
  match x with
  | none => none
  | some (t0, t1) =>
    if d = 0 then (if lo ≤ o ∧ o ≤ hi then x else none)
    else
      let a := (lo - o) / d
      let b := (hi - o) / d
      let t0 := max t0 (min a b)
      let t1 := min t1 (max a b)
      if t0 ≤ t1 then some (t0, t1) else none

/-- A box is hit, or overlaps. -/
def Probe.box (x : Probe) (tmin tcur : Rat) (lo hi : List Rat) : Bool :=
  match x with
  | .nothing => false
  | .ray o d =>
    ((List.range 3).foldl (fun t a => slab (o.getD a 0) (d.getD a 0) (lo.getD a 0) (hi.getD a 0) t)
      (if tmin ≤ tcur then some (tmin, tcur) else none)).isSome
  | .query a b => (List.range 3).all fun i =>
      (a.getD i .bot).le (.real (hi.getD i 0)) && Ext.le (.real (lo.getD i 0)) (b.getD i .top)

/-- A box record overlaps. -/
def Probe.record (x : Probe) (r : BitVec 256) : Bool :=
  match x, ext3 r 0, ext3 r 3 with
  | .query a b, some lo, some hi => (List.range 3).all fun i =>
      (a.getD i .bot).le (hi.getD i .top) && (lo.getD i .bot).le (b.getD i .top)
  | _, _, _ => false

/-- Where a ray meets a triangle block: t, u, v and BACK. -/
def Probe.triangle (x : Probe) (tmin tcur : Rat) (r : BitVec 512) : Option (Rat × Rat × Rat × Bool) :=
  match x, vec3 r 0, vec3 r 3, vec3 r 6 with
  | .ray o d, some a, some b, some c =>
    let e1 := vsub b a
    let e2 := vsub c a
    let w := vsub o a
    let n := vcross e1 e2
    let det := vdot d n
    if r.getLsbD 320 || det = 0 then none
    else
      let t := -(vdot w n) / det
      let u := vdot d (vcross w e2) / det
      let v := vdot d (vcross e1 w) / det
      if 0 ≤ u ∧ 0 ≤ v ∧ u + v ≤ 1 ∧ tmin ≤ t ∧ t ≤ tcur then some (t, u, v, decide (0 < det)) else none
  | _, _, _, _ => none

/-- A new hit replaces the best one (R307). -/
def Best.better (new : Best) : Option Best → Bool
  | none => true
  | some b => decide (new.t < b.t) ||
      (new.t == b.t && (decide (new.inst < b.inst) || (new.inst == b.inst && decide (new.prim < b.prim))))

/-! ### One visit (R309) -/

/-- A traversal that has not begun. -/
def Trav.start : Trav :=
  { stack := [], trail := List.replicate 32 0, dropped := false, here := none, best := none, nbox := 0, rst := 0,
    first := none, count := 0, dropN := 0 }

/-- trail[k] := v; trail[k+1..31] := 0. -/
def trailSet (t : List Nat) (k v : Nat) : List Nat := t.take k ++ v :: List.replicate (31 - k) 0
/-- NBOX after more box tests, saturating. -/
def Trav.boxes (t : Trav) (n : Nat) : Trav := { t with nbox := Nat.min (t.nbox + n) (2 ^ 32 - 1) }

/-- An instance record. -/
def readInst (s : State) (p : Part) (at_ : Nat) : Except EngStop (BitVec 512) :=
  (engineRead s p at_ 64).map (BitVec.ofNat 512)
/-- The probe and the instance id at a position. -/
def probeAt (s : State) (p : Part) (q : Quest) : Option Nat → Except EngStop (Probe × Nat)
  | none => .ok (q.world, 0xFFFFFF)
  | some a => do
    let r ← readInst s p a
    return (match matrixOf r with | some m => q.world.enter m | none => .nothing, instId r)

/-- Child j of a node is hit or overlaps (R306). -/
def childHit (s : State) (p : Part) (q : Quest) (x : Probe) (tcur : Rat) (d : BitVec 1024) (j : Nat) :
    Except EngStop Bool :=
  let ref := ndRef d j
  match vec3 d 0 with
  | none => .ok false
  | some o =>
    if !ndValid d j || ndEmpty d j || refType ref = (if q.query then 1 else 2) ||
        !x.box q.tmin tcur (ndPlanes d o j 0) (ndPlanes d o j 1) then .ok false
    else if refType ref = 3 then do
      let r ← readInst s p (refAddr ref)
      return (instMask r &&& q.mask) != 0 && (matrixOf r).isSome
    else .ok true

/-- The first of some children that is hit; those after it are not judged. -/
def firstHit (s : State) (p : Part) (q : Quest) (x : Probe) (tcur : Rat) (d : BitVec 1024) : List Nat →
    Except EngStop (Option Nat)
  | [] => .ok none
  | j :: js => do if ← childHit s p q x tcur d j then return some j else firstHit s p q x tcur d js
/-- The least child of index j or more that is hit. -/
def hitFrom (s : State) (p : Part) (q : Quest) (x : Probe) (tcur : Rat) (d : BitVec 1024) (j : Nat) :
    Except EngStop (Option Nat) :=
  firstHit s p q x tcur d ((List.range 8).filter fun i => j ≤ i)

/-- Triangle blocks of a leaf from an address: the traversal after, and whether `.any` has its hit (R307). -/
def testBlocks (s : State) (p : Part) (q : Quest) (x : Probe) (inst : Nat) :
    Nat → Nat → Trav → Except EngStop (Trav × Bool)
  | 0, _, t => .ok (t, false)
  | n + 1, at_, t => do
    let r ← (engineRead s p at_ 64).map (BitVec.ofNat 512)
    match x.triangle q.tmin (q.tcur t) r with
    | none => testBlocks s p q x inst n (at_ + 64) t
    | some (tt, u, v, back) =>
      let b : Best := { t := tt, u := u, v := v, inst := inst, prim := fld r 319 288, back := back }
      let t := if b.better t.best then { t with best := some b } else t
      if q.any then return (t, true) else testBlocks s p q x inst n (at_ + 64) t

/-- A box record of a leaf: the pair it gives, if it overlaps (R311). -/
def testRecord (s : State) (p : Part) (q : Quest) (x : Probe) (inst at_ : Nat) : Except EngStop (List Nat) := do
  let r ← (engineRead s p at_ 32).map (BitVec.ofNat 256)
  return if x.record r then [(q.v[3]).toNat + 2 ^ 32 * fld r 223 192 + 2 ^ 64 * inst + 2 ^ 88 * q.lane] else []

/-- What a visit leads to: a new position with the pairs a leaf gave, or the end of the traversal. -/
inductive Visited where
  | go (t : Trav) (pairs : List Nat)
  | done (t : Trav)
  deriving DecidableEq, Repr

/-- No child is left to descend into: pop, finish or restart (R309). -/
def Trav.leave (t : Trav) (k root : Nat) : Visited :=
  match t.stack with
  | n :: st => .go { t with stack := st, trail := trailSet t.trail n.k n.s, here := some { n with s := 0 } } []
  | [] =>
    if k = 0 ∨ !t.dropped then .done t
    else .go { t with trail := trailSet t.trail (k - 1) (t.trail.getD (k - 1) 0 + 1), dropped := false,
                      rst := Nat.min (t.rst + 1) 255, here := some ⟨root, 0, 0, none⟩ } []

/-- The position after descending from node n into child j (R309, R310). -/
def descend (s : State) (p : Part) (n : Node) (ref : Nat) : Except EngStop Node :=
  if refType ref = 3 then do
    let r ← readInst s p (refAddr ref)
    if n.inst.isSome || instRoot r % 128 != 0 || 2 ^ 52 ≤ instRoot r then .error (.fault 0x20 (refAddr ref))
    else .ok ⟨instRoot r, n.k + 1, 0, some (refAddr ref)⟩
  else if refAddr ref % 128 ≠ 0 then .error (.fault 0x20 (refAddr ref))
  else .ok ⟨refAddr ref, n.k + 1, 0, n.inst⟩

/-- The next box record of a leaf is tested, and its pair is found (R309: tests and outputs come in one exact order); after
the last the leaf's child is completed. -/
def visitLeaf (s : State) (p : Part) (q : Quest) (t : Trav) (at_ left j : Nat) : Except EngStop Visited := do
  let n := t.here.getD ⟨q.root, 0, 0, none⟩
  if left = 0 then return .go { t with trail := trailSet t.trail n.k (j + 1), leaf := none } []
  let (x, inst) ← probeAt s p q n.inst
  let ps ← testRecord s p q x inst at_
  let t := { t.boxes 1 with leaf := some (at_ + 32, left - 1, j) }
  return .go (if left = 1 then { t with trail := trailSet t.trail n.k (j + 1), leaf := none } else t) ps

/-- One pass from `visit`; of a leaf of box records one record. -/
def visitNode (s : State) (p : Part) (q : Quest) (t : Trav) : Except EngStop Visited := do
  let n := t.here.getD ⟨q.root, 0, 0, none⟩
  let d ← (engineRead s p n.at_ 128).map (BitVec.ofNat 1024)
  let t := if n.s = 0 then t.boxes (ndChildren d).length else t
  let n := { n with s := 1 }
  let t := { t with here := some n }
  let (x, inst) ← probeAt s p q n.inst
  match ← hitFrom s p q x (q.tcur t) d (t.trail.getD n.k 0) with
  | none => return t.leave n.k q.root
  | some j =>
    let t := if t.trail.getD n.k 0 = j then t else { t with trail := trailSet t.trail n.k j }
    let ref := ndRef d j
    let past := fun (t : Trav) => { t with trail := trailSet t.trail n.k (j + 1) }
    if refType ref = 1 then
      let (t, hit) ← testBlocks s p q x inst (refCount ref) (refAddr ref) t
      return if hit then .done t else .go (past t) []
    else if refType ref = 2 then
      visitLeaf s p q t (refAddr ref) (refCount ref) j
    else if n.k = 31 then .error (.fault 0x20 n.at_)
    else
      let later := (← hitFrom s p q x (q.tcur t) d (j + 1)).isSome
      let m ← descend s p n ref
      let st := if later then ({ n with s := j + 1 } :: t.stack).take 8 else t.stack
      return .go { t with stack := st, dropped := t.dropped || (later && t.stack.length == 8), here := some m } []

/-- The next step of a traversal: a visit of a node, or of the next box record of the leaf it is in. -/
def visit (s : State) (p : Part) (q : Quest) (t : Trav) : Except EngStop Visited :=
  match t.leaf with
  | some (a, left, j) => visitLeaf s p q t a left j
  | none => visitNode s p q t

/-! ### Result records (R311) -/

/-- The hit record of a finished lane. -/
def hitRecord (t : Trav) : Nat :=
  (match t.best with
    | none => 0x7F800000 + 2 ^ 32 * 0xFFFFFFFF + 2 ^ 64 * 0xFFFFFF
    | some b => roundF32 b.t .rn + 2 ^ 32 * b.prim + 2 ^ 64 * b.inst + 2 ^ 96 * roundF32 b.u .rn +
        2 ^ 128 * roundF32 b.v .rn + 2 ^ 160 * (if b.back then 3 else 1)) +
  2 ^ 168 * Nat.min t.rst 255 + 2 ^ 192 * t.nbox
/-- The result record of a finished `trq` lane. -/
def queryRecord (t : Trav) (next : Nat) : Nat :=
  (t.first.getD next) % 2 ^ 32 + 2 ^ 32 * (t.count % 2 ^ 32) + 2 ^ 64 * (t.dropN % 2 ^ 32) + 2 ^ 96 * t.nbox

end Sys2Proof.Machine
end

