-- ==== Sys2Proof/Machine/Ray.lean ====
section
/-!
DEFINITION. Ray engine operations: `trc`, `trq`, the structure commands and their steps (R301 to R305, R311
to R316).
-/
namespace Sys2Proof.Machine

/-! ### Structure commands (R302, R303) -/

/-- The checks of a structure command, and its acceptance. -/
def structCmd (s : State) (n : GReg) (bad : Ctx → Bool) (aligned : Addr → Bool) (addrs : Ctx → List Addr)
    (body : Ctx → OpBody) (k : State → Group → State) : Out :=
  onGong s n fun g _ _ x =>
    match x.engineTrap with
    | some t => s.trap g t 0 0 0 n.toNat
    | none =>
      let as := addrs g.ctx
      if bad g.ctx then s.trap g .illegalOperand
      else match as.find? fun a => !aligned a with
        | some a => s.trap g .misalign a.toNat
        | none => match as.find? fun a => 2 ^ 52 ≤ a.toNat with
          | some a => s.trap g .protection a.toNat
          | none => k (s.accept g n.toNat (body g.ctx)) g

/-- The offset of a structure command (R302). -/
def structOff (off : BitVec 26) : Addr := off.signExtend 64 * 64
def aligned64 (a : Addr) : Bool := a.toNat % 64 == 0
def aligned128 (a : Addr) : Bool := a.toNat % 128 == 0

def execBvset (n : GReg) (a : AReg) (b : SReg) (m : BitVec 6) (off : BitVec 26) (s : State) : Out :=
  let bind := fun (c : Ctx) => (c.sum b (m.setWidth 32)).toNat
  structCmd s n (fun c => 4 ≤ bind c) aligned64 (fun c => [c.getA a + structOff off])
    (fun c => .bvset (bind c) (c.getA a + structOff off).toNat) fun s' g =>
    let i := bind g.ctx
    s'.done { g with binds := if h : i < 4 then g.binds.set i (.pending s.nextId) else g.binds } 2

/-- A structure descriptor (R301): ROOT and NNODES, or its defect. -/
def readDescriptor (s : State) (p : Part) (va : Nat) : Except EngStop (Nat × Nat) := do
  let r ← engineRead s p va 64
  let root := r % 2 ^ 64
  let n := r / 2 ^ 64 % 2 ^ 32
  if root % 128 ≠ 0 ∨ 2 ^ 52 ≤ root ∨ n = 0 then .error (.fault 0x20 va) else .ok (root, n)

/-- `bvfit` owns the node array from issue (R314): the descriptor is read then where it can be (log 26). -/
def execBvfit (n : GReg) (a : AReg) (off : BitVec 26) (s : State) : Out :=
  let va := fun (c : Ctx) => c.getA a + structOff off
  structCmd s n (fun _ => false) aligned64 (fun c => [va c])
    (fun c => match (s.part? s.cur.g.part).map fun p => readDescriptor s p (va c).toNat with
      | some (.ok (root, k)) => .refit false (va c).toNat root k (some k)
      | _ => .refit false (va c).toNat 0 0 none)
    fun s g => s.done g 2

def execBvleaf (n : GReg) (a : AReg) (b : SReg) (m : BitVec 6) (off : BitVec 26) (s : State) : Out :=
  let count := fun (c : Ctx) => (c.sum b (m.setWidth 32)).toNat
  structCmd s n (fun c => count c = 0 ∨ 2 ^ 20 < count c) aligned64 (fun c => [c.getA a, c.getA a + structOff off])
    (fun c => .bvleaf (c.getA a).toNat (c.getA a + structOff off).toNat (count c) 0) fun s g => s.done g 2

def execBvnode (n : GReg) (a : AReg) (off : BitVec 26) (s : State) : Out :=
  structCmd s n (fun _ => false) aligned128 (fun c => [c.getA a + structOff off])
    (fun c => .refit true (c.getA a + structOff off).toNat (c.getA a + structOff off).toNat 1 (some 1))
    fun s g => s.done g 2

/-- Sets a binding that a `bvset` left pending, of its group and of the operations that use it (R303, R305). -/
def State.setBinding (s : State) (o : Op) (b : Binding) (ops : Bool) : State :=
  let fix := fun (x : Binding) => if x = .pending o.id then b else x
  { s with groups := s.groups.map (fun g => if g.ref = o.by_ then { g with binds := g.binds.map fix } else g),
           ops := if ops then s.ops.map (fun q => match q.body with
               | .ray qy an x m qi ls => { q with body := .ray qy an (fix x) m qi ls }
               | _ => q) else s.ops }

/-- A `bvset`'s read completes. -/
def execBvsetReadDone (op : Nat) (s : State) : Out :=
  onOp s op fun o p =>
    match o.body with
    | .bvset _ va =>
      match readDescriptor (s.asRead (s.opReads o)) p va with
      | .ok (root, n) => (((s.recallVa p va 64).setBinding o (.bound root n) true).credit o.by_ o.gong 64 64 2 o.id).dropOp op
      | .error (.fault c a) => (s.setBinding o .unbound false).stopOp o 2 c a
      | .error e => s.engStop o 2 e
    | _ => s

/-! ### `trc` and `trq` (R304, R305) -/

/-- Bytes of a lane's slot. -/
def slotBytes (query : Bool) : Nat := if query then 16 else 32
/-- Lines of the slots of a ray operation. -/
def slotLines (ls : List RayLane) : List Nat := (ls.map fun x => x.slot / 128).eraseDups

/-- The trap of R305 that comes first, with its lane and gong. -/
def rayTrap (s : State) (g : Group) (query : Bool) (w : LaneWord) (x : Gong) (ls : List (Nat × Nat)) :
    Option (Trap × Nat) :=
  let low := (ls.head?.map (·.1)).getD 0
  let q : Fin 4 := (w.imm.extractLsb' 10 2).toFin
  let turn := match s.launch? g.ref.part g.ref.lid with
    | some l => lrTq l.lrec q.val != 0 && !(l.tq[q]).isClosed (s.turnOf g.ref)
    | none => false
  match x.engineTrap with
  | some t => some (t, low)
  | none =>
    if g.binds.get (w.imm.extractLsb' 8 2).toFin = .unbound then some (.illegalOperand, low)
    else if query && lrTq (s.lrec g.ref) q.val == 0 then some (.illegalOperand, low)
    else if query && !turn then some (.ticketOrder, low)
    else match ls.find? fun e => e.2 % slotBytes query ≠ 0 with
      | some e => some (.misalign, e.1)
      | none => match ls.find? fun e => spdShare s g < e.2 + slotBytes query with
        | some e => some (.protection, e.1)
        | none => none

/-- Issue of `trc` or `trq`. -/
def rayIssue (query : Bool) (w : LaneWord) (s : State) : Out :=
  onLane s fun g e =>
    match s.team? g.ref.tref with
    | none => s
    | some t =>
      let ls := (acting g e w).map fun l => (l, g.lane l w.b.toNat 4)
      match rayTrap s g query w (t.gong w.sub.toNat) ls with
      | some (tr, l) => s.trap g tr 0 l 0 w.sub.toNat
      | none =>
        let rs := ls.map fun x => ({ lane := x.1, v := Vector.ofFn fun i => word (g.lane x.1 (w.a.toNat + i.val) 4),
                                     slot := spdBase s g + x.2, t := Trav.start, fin := false } : RayLane)
        if rs.isEmpty then s.laneDone g w.last
        else if s.linesFull g.ref.tref (slotLines rs) ||
            g.storesIn (slotLines rs) || State.outstanding g (rs.flatMap fun x =>
              (List.range (slotBytes query)).map fun i => .spd g.ref.tref (x.slot + i)) then
          s.park g none
        else
          ((s.accept g w.sub.toNat (.ray query (w.mods.getLsbD 0) (g.binds.get (w.imm.extractLsb' 8 2).toFin)
            (w.imm.extractLsb' 0 8).toNat (w.imm.extractLsb' 10 2).toNat rs)).raiseLines g.ref.tref
            (slotLines rs)).laneDone g w.last

def execTrc (w : LaneWord) (s : State) : Out := rayIssue false w s
def execTrq (w : LaneWord) (s : State) : Out := rayIssue true w s

/-! ### A lane's traversal -/

/-- The root of the binding that an operation uses; none while its `bvset` has not read it. -/
def rayRoot (s : State) (p : Part) : Binding → Except EngStop (Option Nat)
  | .bound root _ => .ok (some root)
  | .unbound => .ok none
  | .pending i =>
    match s.op? i with
    | some b =>
      if !b.fault then .ok none
      else
        let rec_ := ((p.recs.find? fun r => r.about = .engine i).map (·.bits)) <|>
          ((p.posts.find? fun r => r.about = some (.engine i)).map (·.bits))
        .error (.fault ((rec_.map fun r => fld r 7 0).getD 0x20) ((rec_.map fun r => fld r 223 160).getD 0))
    | none => .ok none

/-- Places of the pairs at slot indices from i of a queue; those at or beyond CAP are discarded. -/
def pairPlaces (s : State) (p : Part) (base cap : Nat) : Nat → List Nat → Except EngStop (List (Loc × Byte))
  | _, [] => .ok []
  | i, x :: xs => do
    if cap ≤ i then return []
    let ls ← engineWrite s p (base + 64 + 16 * i) 16
    let rest ← pairPlaces s p base cap (i + 1) xs
    return ls.zip (leBytes 16 x) ++ rest

/-- Reserves the slots of a leaf's pairs and writes them (R311, R152 to R154). -/
def emitPairs (s : State) (p : Part) (o : Op) (q : Fin 4) (t : Trav) (ps : List Nat) : Except EngStop (State × Trav) :=
  if ps.isEmpty then .ok (s, t)
  else match s.launch? o.by_.part o.by_.lid with
    | none => .ok (s, t)
    | some l =>
      let base := lrTq l.lrec q.val
      match readHeader s p l q true with
      | .ok s h =>
        if h.2 ≠ 16 then .error (.fault 0x21 base)
        else match s.launch? o.by_.part o.by_.lid with
          | none => .ok (s, t)
          | some l =>
            let r := (l.tq[q]).reserve h.1 ps.length
            match pairPlaces s p base h.1 r.1 ps with
            | .error e => .error e
            | .ok ws =>
              .ok ((s.setLaunch { l with tq := l.tq.set q r.2 }).engineWrites o ws,
                { t with first := some (t.first.getD r.1), count := t.count + ps.length,
                         dropN := t.dropN + (Nat.max (r.1 + ps.length) h.1 - Nat.max r.1 h.1) })
      | .recall x => .error (.fetch hostPeer 0 x)
      | _ => .error (.fault 0x21 base)

/-- A lane of a `trq` may reserve: lower lanes have finished, earlier operations of its group on the queue have
made their reservations, and the group holds the open turn (R311; log 27). -/
def mayReserve (s : State) (o : Op) (q : Fin 4) (lanes : List RayLane) (lane : Nat) : Bool :=
  (lanes.all fun x => lane ≤ x.lane || x.fin) && turnReady s o q

/-- What a visit reads: a node that another agent writes meanwhile is read wholly old or wholly new, in each visit freely
(R313). -/
def State.visitReads (s : State) (o : Op) : List (Loc × Byte) :=
  s.heldBack o.by_.part [o.by_] ++ o.got.filter fun e => s.bit (2 ^ 240 + e.1.number / 128)

/-- Where a lane's visits lead: it goes on, waits until it may reserve, has ended, or is stopped. -/
inductive LaneStep where
  | go (s : State) (t : Trav)
  | waits (s : State) (t : Trav)
  | ended (s : State) (t : Trav)
  | stop (s : State) (t : Trav) (e : EngStop)

/-- What an operation looks for in a lane: its queue, its quest, and whether it may reserve (lanes of a `trc` always). -/
structure LaneQuest where
  qi  : Fin 4
  q   : Quest
  may : Bool

/-- One visit of a lane. Pairs that a `trq` lane may not reserve for yet wait with their visit, and so does its end: its
record names the slot after the lower lanes' pairs (R311). -/
def visitLane (s : State) (p : Part) (o : Op) (l : LaneQuest) (t : Trav) : LaneStep :=
  match visit (s.asRead (s.visitReads o)) p l.q t with
  | .error e => .stop s t e
  | .ok (.done t') => if l.may then .ended s t' else .waits s t
  | .ok (.go t' ps) =>
    if !l.may && !ps.isEmpty then .waits s t
    else match emitPairs s p o l.qi t' ps with
      | .ok (s, t') => .go s t'
      | .error e => .stop s t e

/-- Runs a traversal until it ends, waits or stops; the fuel exceeds every traversal's number of visits (at most
32 × 8³² between restarts, each of which completes a child). -/
def runLane (p : Part) (o : Op) (l : LaneQuest) : Nat → State → Trav → LaneStep
  | 0, s, t => .go s t
  | n + 1, s, t =>
    match visitLane s p o l t with
    | .go s t => runLane p o l n s t
    | x => x

/-- A lane that may visit nodes: its lane state, and what it looks for, or why its binding faults; none where it
waits for its binding. -/
def laneQuest (s : State) (p : Part) (o : Op) (lane : Nat) : Option (RayLane × Except EngStop LaneQuest) :=
  match o.body with
  | .ray query any bind mask q lanes =>
    match lanes.find? fun x => x.lane = lane && !x.fin with
    | none => none
    | some x =>
      let qi : Fin 4 := Fin.ofNat 4 q
      match rayRoot s p bind with
      | .error e => some (x, .error e)
      | .ok none => none
      | .ok (some root) => some (x, .ok ⟨qi, ⟨query, any, root, mask, lane, x.v⟩, !query || mayReserve s o qi lanes lane⟩)
  | _ => none
/-- What becomes of a lane when it runs; none where it waits for its binding. -/
def laneRun (s : State) (p : Part) (o : Op) (lane : Nat) : Option LaneStep :=
  (laneQuest s p o lane).map fun e => match e.2 with
    | .error x => .stop s e.1.t x
    | .ok q => runLane p o q (2 ^ 200) s e.1.t

/-- The body with a lane's traversal replaced. -/
def OpBody.setTrav (b : OpBody) (lane : Nat) (t : Trav) (fin : Bool) : OpBody :=
  match b with
  | .ray qy an bi m q ls =>
    .ray qy an bi m q (ls.map fun x => if x.lane = lane then { x with t := t, fin := x.fin || fin } else x)
  | b => b

/-- A lane has finished: its record is written; with the last slot of a line, the line counts down and the gong
is credited (R312); with the last lane the operation ends, and turns asked to close may close (R311). -/
def finishLane (s : State) (o : Op) (lane : Nat) (t : Trav) : State :=
  let o := { o with body := o.body.setTrav lane t true }
  match o.body with
  | .ray query _ _ _ q ls =>
    match ls.find? fun x => x.lane = lane with
    | none => s
    | some x =>
      let n := slotBytes query
      let next := ((s.launch? o.by_.part o.by_.lid).map fun l => (l.tq[(Fin.ofNat 4 q)]).next).getD 0
      let r := if query then queryRecord t next else hitRecord t
      let s := s.engineWrites o ((List.range n).zip (leBytes n r) |>.map fun e => (.spd o.by_.tref (x.slot + e.1), e.2))
      let onLine := ls.filter fun y => y.slot / 128 = x.slot / 128
      let s := s.setOp o
      let s := if onLine.all (·.fin) then
          (s.lowerLines o.by_.tref [x.slot / 128]).credit o.by_ o.gong (n * onLine.length) (n * onLine.length) 2 o.id
        else s
      if ls.all (·.fin) then (s.dropOp o.id).settleTurns o.by_ else s
  | _ => s

/-- `RAY_LANE_FINISH`: a lane runs to its end; where it must wait, or fetch a REMOTE line, it keeps what it has done. -/
def execRayLaneFinish (op lane : Nat) (s : State) : Out :=
  onOp s op fun o p =>
    match laneRun s p o lane with
    | some (.ended s t) => finishLane s o lane t
    | some (.go s t) | some (.waits s t) => s.setOp { o with body := o.body.setTrav lane t false }
    | some (.stop s t (.fetch a b c)) => (s.setOp { o with body := o.body.setTrav lane t false }).engStop o 2 (.fetch a b c)
    | _ => s

/-- A lane makes one visit: other steps, and what a save captures, may fall between two visits (R312, R313). -/
def rayVisit (op lane : Nat) (s : State) : Out :=
  onOp s op fun o p =>
    match laneQuest s p o lane with
    | some (x, .ok q) =>
      match visitLane (s.recallVa p ((x.t.here.map (·.at_)).getD q.q.root) 128) p o q x.t with
      | .go s t => s.setOp { o with body := o.body.setTrav lane t false }
      | _ => s
    | _ => s

/-- The lowest lane of an operation that runs into a fault. -/
def faultLane (s : State) (p : Part) (o : Op) : List RayLane → Option (Nat × State × Trav × Nat × Nat)
  | [] => none
  | x :: xs =>
    match laneRun s p o x.lane with
    | some (.stop s' t (.fault c a)) => some (x.lane, s', t, c, a)
    | _ => faultLane s p o xs

/-- `RAY_ACCESS_FAULT`: a lane fails at the access point and the operation stops with its traversal state
(R312). -/
def execRayAccessFault (op : Nat) (s : State) : Out :=
  onOp s op fun o p =>
    match o.body with
    | .ray query _ _ _ q ls =>
      match faultLane s p o ls with
      | some (lane, s, t, c, a) =>
        let s := if c = 0x21 then
            (match s.launch? o.by_.part o.by_.lid with
              | some l => if query then noteHeader s p l (Fin.ofNat 4 q) else s
              | none => s) else s
        s.stopOp { o with body := o.body.setTrav lane t false } 2 c a
      | none => s
    | _ => s

/-! ### Refit and build (R314 to R316) -/

/-- A bound: its value, and whether it is −0, which is below +0 (R128). -/
abbrev Bound := Rat × Bool
/-- Bounds of a child: lower and upper, by axis. -/
abbrev Bounds := List Bound × List Rat

/-- The lesser of two bounds. -/
def Bound.min (a b : Bound) : Bound := if a.1 < b.1 then a else if b.1 < a.1 then b else (a.1, a.2 || b.2)
/-- The least of bounds. -/
def leastBound : List Bound → Option Bound
  | [] => none
  | x :: xs => some (xs.foldl Bound.min x)

/-- The bounds of points on an axis, NaNs ignored. -/
def extremes (pick : Ext → Ext → Ext) (ws : List Nat) : Option Ext :=
  match ws.filterMap extOf with
  | [] => none
  | x :: xs => some (xs.foldl pick x)

/-- Bounds from the words of lower and upper points: none where they are empty. -/
def pointBounds (at_ : Nat) (los his : List (List Nat)) : Except EngStop (Option Bounds) :=
  let axis := fun (pick : Ext → Ext → Ext) (ps : List (List Nat)) =>
    (List.range 3).mapM fun a => extremes pick (ps.map fun w => w.getD a 0)
  let real := fun (x : Ext) => match x with | .real q => some q | _ => none
  match axis extMin los, axis extMax his with
  | some lo, some hi =>
    match lo.mapM real, hi.mapM real with
    | some a, some b =>
      .ok (some (a.zip ((List.range 3).map fun i => los.any fun w => w.getD i 0 == 0x80000000), b))
    | _, _ => .error (.fault 0x20 at_)
  | _, _ => .ok none

/-- The words of the three components at word w of a record. -/
def words3 {n : Nat} (r : BitVec n) (w : Nat) : List Nat := (List.range 3).map fun i => fld r (32 * (w + i) + 31) (32 * (w + i))

/-- Lower and upper points of a leaf's blocks or records. -/
def leafPoints (s : State) (p : Part) (tri : Bool) : Nat → Nat → Except EngStop (List (List Nat) × List (List Nat))
  | 0, _ => .ok ([], [])
  | n + 1, at_ => do
    let w := if tri then 64 else 32
    let r ← (engineRead s p at_ w).map (BitVec.ofNat 512)
    let rest ← leafPoints s p tri n (at_ + w)
    if !tri then return (words3 r 0 :: rest.1, words3 r 3 :: rest.2)
    if r.getLsbD 320 then return rest
    let vs := [words3 r 0, words3 r 3, words3 r 6]
    return (vs ++ rest.1, vs ++ rest.2)

/-- The bounds of a valid child (R314); `within` tells which inner nodes may be children. -/
def childBounds (s : State) (p : Part) (within : Nat → Bool) (ref : Nat) : Except EngStop (Option Bounds) :=
  let a := refAddr ref
  match refType ref with
  | 0 =>
    if !within a then .error (.fault 0x20 a)
    else do
      let d ← (engineRead s p a 128).map (BitVec.ofNat 1024)
      let js := (ndChildren d).filter fun j => !ndEmpty d j
      if js.isEmpty then return none
      match vec3 d 0, ext3 d 0 with
      | some o, _ =>
        return some ((List.range 3).map fun x => (((js.map fun j => (ndPlanes d o j 0).getD x 0).min?).getD 0, false),
          (List.range 3).map fun x => ((js.map fun j => (ndPlanes d o j 1).getD x 0).max?).getD 0)
      | none, some _ => .error (.fault 0x20 a)
      | none, none => return none
  | 3 => .error (.fault 0x20 a)
  | t => do
    let (los, his) ← leafPoints s p (t == 1) (refCount ref) a
    pointBounds a los his

/-- O_a and E_a of Quantise (R314). -/
def quantAxis (los : List Bound) (his : List Rat) : Option (Nat × Rat × Int) :=
  match leastBound los, his.max? with
  | some lo, some hi =>
    let ob := if lo.1 = 0 ∧ lo.2 then 0x80000000 else roundF32 lo.1 .rd
    let o := (ratOf ob).getD 0
    ((List.range 256).find? fun (i : Nat) => decide (hi ≤ o + 255 * ratPow (i - 128 : Int))).map fun i => (ob, o, (i - 128 : Int))
  | _, _ => some (0, 0, 0)

/-- A quantised plane as a byte; one that no byte holds (inverted bounds) is a free value (log 28). -/
def quantByte (s : State) (k : Nat) (n : Int) : Byte :=
  if 0 ≤ n ∧ n ≤ 255 then BitVec.ofInt 8 n else Config.freeByte s.tick k

/-- The 64 bytes that Quantise gives a node, byte 15 as it was. -/
def quantise (s : State) (valid : Byte) (bs : List (Nat × Option Bounds)) : Option (List Byte) :=
  let live := bs.filterMap (·.2)
  match (List.range 3).mapM fun a => quantAxis (live.map fun b => b.1.getD a (0, false)) (live.map fun b => b.2.getD a 0) with
  | none => none
  | some ax =>
    let box : Nat → List Byte := fun (j : Nat) =>
      match (bs.find? fun e => e.1 = j).bind (·.2) with
      | none => [255, 255, 255, 0, 0, 0]
      | some b =>
        let q := fun (hi : Bool) (a : Nat) =>
          let (_, o, e) := ax.getD a (0, 0, 0)
          quantByte s (8 * j + 4 * (if hi then 1 else 0) + a)
            (if hi then -((o - b.2.getD a 0) / ratPow e).floor else (((b.1.getD a (0, false)).1 - o) / ratPow e).floor)
        (List.range 3).map (q false) ++ (List.range 3).map (q true)
    some ((ax.flatMap fun x => leBytes 4 x.1) ++ (ax.map fun x => BitVec.ofInt 8 x.2.2) ++ [valid] ++
      (List.range 8).flatMap box)

/-- What the refit of a node writes; nothing where it has no valid child. -/
def refitNode (s : State) (p : Part) (within : Nat → Bool) (at_ : Nat) : Except EngStop (List (Loc × Byte)) := do
  let d ← (engineRead s p at_ 128).map (BitVec.ofNat 1024)
  if (ndChildren d).isEmpty then return []
  let bs ← (ndChildren d).mapM fun j => (childBounds s p within (ndRef d j)).map fun b => (j, b)
  match quantise s (BitVec.ofNat 8 (fld d 127 120)) bs with
  | none => .error (.fault 0x20 at_)
  | some bytes =>
    let ls ← engineWrite s p at_ 64
    return (ls.zip bytes).eraseIdx 15

/-- `REFIT_NODE_DONE`: the next node of a `bvfit`, or the node of a `bvnode`. -/
def execRefitNodeDone (op : Nat) (s : State) : Out :=
  onOp s op fun o p =>
    match o.body with
    | .refit node va root nodes left =>
      let desc : Except EngStop (Nat × Nat × Nat) := match left with
        | some k => .ok (root, nodes, k)
        | none => (readDescriptor (s.asRead (s.opReads o)) p va).map fun d => (d.1, d.2, d.2)
      match desc with
      | .error e => s.engStop o 2 e
      | .ok (root, nodes, k) =>
        let i := k - 1
        let within := fun (a : Nat) => node ||
          (decide (root ≤ a) && (a - root) % 128 == 0 && decide (i < (a - root) / 128) && decide ((a - root) / 128 < nodes))
        let body := fun (k : Nat) => OpBody.refit node va root nodes (some k)
        match refitNode (s.asRead (s.opReads o)) p within (root + 128 * i) with
        | .error e => (s.setOp { o with body := body k }).engStop { o with body := body k } 2 e
        | .ok ws =>
          let s := (((s.recallVa p (root + 128 * i) 128).engineWrites o ws).setOp { o with body := body i }).credit o.by_ o.gong 64 64 2 op
          if i = 0 then s.dropOp op else s
    | _ => s

/-- The box record of a triangle block (R316). -/
def boxRecord (r : BitVec 512) : List Byte :=
  let f := fun (mx : Bool) (a : Nat) =>
    (fMinMax .f32 mx (fMinMax .f32 mx (fld r (32 * a + 31) (32 * a)) (fld r (32 * (a + 3) + 31) (32 * (a + 3)))).1
      (fld r (32 * (a + 6) + 31) (32 * (a + 6)))).1
  ((List.range 3).flatMap fun a => leBytes 4 (f false a)) ++ ((List.range 3).flatMap fun a => leBytes 4 (f true a)) ++
    leBytes 4 (fld r 319 288) ++ leBytes 4 0

/-- The writes of the records from the i-th until the end of its line, at most four; a line is written as a whole, once
all its records are read (R84). -/
def buildLine (s : State) (o : Op) (p : Part) (src dst count : Nat) : Nat → Nat → Except EngStop (List (Loc × Byte) × Nat)
  | 0, i => .ok ([], i)
  | n + 1, i => do
    let r ← engineRead (s.asRead (s.opReads o)) p (src + 64 * i) 64
    let ls ← engineWrite s p (dst + 32 * i) 32
    let ws := ls.zip (boxRecord (BitVec.ofNat 512 r))
    if i + 1 = count ∨ (dst + 32 * (i + 1)) % 128 = 0 then return (ws, i + 1)
    let rest ← buildLine s o p src dst count n (i + 1)
    return (ws ++ rest.1, rest.2)

/-- `BVLEAF_LINE_DONE`: the records of the next line. -/
def execBvleafLineDone (op : Nat) (s : State) : Out :=
  onOp s op fun o p =>
    match o.body with
    | .bvleaf src dst count done =>
      match buildLine s o p src dst count 4 done with
      | .error e => s.engStop o 2 e
      | .ok (ws, i) =>
        let o := { o with body := .bvleaf src dst count i }
        let n := i - done
        let s := (((s.recallVa p (src + 64 * done) (64 * n)).engineWrites o ws).setOp o).credit o.by_ o.gong (32 * n) (32 * n) 2 op
        if i = count then s.dropOp op else s
    | _ => s

/-- Lanes of ray operations that may make a visit: the operation and the lane. -/
def visits (s : State) : List (Nat × Nat) :=
  s.ops.flatMap fun o => match o.body with
    | .ray _ _ _ _ _ ls => if o.active s then (ls.filter fun x => !x.fin).map fun x => (o.id, x.lane) else []
    | _ => []
/-- Steps of ray engine operations that may come next. -/
def rayMoves (s : State) : List Instr :=
  s.ops.flatMap fun o =>
    if !o.active s then []
    else match o.body with
      | .bvset _ _ => [.bvsetReadDone o.id]
      | .refit _ _ _ _ _ => [.refitNodeDone o.id]
      | .bvleaf _ _ _ _ => [.bvleafLineDone o.id]
      | .ray _ _ _ _ _ ls => .rayAccessFault o.id :: (ls.filter fun x => !x.fin).map fun x => .rayLaneFinish o.id x.lane
      | _ => []

end Sys2Proof.Machine
end

