-- ==== Sys2Proof/Machine/Tambour.lean ====
section
/-!
DEFINITION. The Tambour's messages as they arrive, its instructions and its engine operations (R327, R339 to
R348, R449 to R452).
-/
namespace Sys2Proof.Machine

/-! ### Messages that arrive -/

/-- A message of a run arrives: an earlier run than one already seen is discarded (R341). -/
def State.seeRun (s : State) (r : SeqRef) : State :=
  (s.knowSeq r.part r.coll r.seq).onSeq r.part r.coll r.seq fun q => { q with seen := Nat.max q.seen (Nat.max q.run r.run) }

/-- A message of n bytes is written to its receive slot in HBM4E (R339, R451); what its bytes are the manual does not lay
out: free values (log 17). The line of the slot that the host owns is recalled first. -/
def placeMessage (s : State) (r : SeqRef) (c : Coll) (x : SlotRef) (n : Nat) : Except Nat State :=
  match s.part? r.part with
  | none => .ok s
  | some p =>
    let at_ := slotPa c.crec r.seq x
    let k := Nat.min n (crSlotSz c.crec)
    if slotsOf c.crec ≤ x.k ∨ crNchMax c.crec ≤ x.chunk ∨ k = 0 then .ok s
    else match s.hostHeld at_ k with
      | some l => .error l
      | none => .ok (s.agentWrites p.id (fun _ => false)
          ((List.range k).map fun i => (.mem (at_ + i) p.key, Config.freeByte s.tick (at_ + i))))

/-- A data message lands in its receive slot and is combined; the acknowledgements it carries release retained copies
(R339 to R341, R452). -/
def execTambourMessage (r : SeqRef) (at_ : SlotRef) (m : MsgBody) (s : State) : Out :=
  match s.coll? r.part r.coll with
  | none => .next s
  | some cl =>
    let s := m.acks.foldl (fun s x => s.acked r.part r.coll r.seq r.run x m.sender) (s.seeRun r)
    match s.seq? r.part r.coll r.seq with
    | none => .next s
    | some q =>
      if r.run < q.seen ∨ (q.rx.any fun e => e.2.1 = at_ ∧ r.run ≤ e.1) then .next s
      else match placeMessage s r cl at_ (64 + m.bytes.length) with
        | .error l => .next { s.askHost l with pending := (s.askHost l).pending ++ [.tambourMessage r at_ m] }
        | .ok s => .next (digestCheck (s.onSeq r.part r.coll r.seq fun q =>
            { q with rx := q.rx.filter (fun e => e.2.1 ≠ at_) ++ [(r.run, at_, m)] }) r.part r.coll r.seq)

/-- The slots a sequence waits for on this rank, with their senders (R340). -/
def awaited (cl : Coll) (q : Seq) : List (SlotRef × Nat) :=
  match q.desc with
  | none => []
  | some d =>
    let n := crN cl.crec
    let rank := crRank cl.crec
    let prev := (rank + n - 1) % n
    if q.over ∨ n = 1 then []
    else
      let data := q.chunks.flatMap fun k =>
        let o := k.c % n
        let j := (rank + n - o) % n
        let m := ranksLog n
        if cdSched d = 0 then
          if 1 ≤ k.step ∧ k.step ≤ m then [(SlotRef.mk k.c (k.step - 1), rank ^^^ 2 ^ (k.step - 1))]
          else if k.step = m + 2 ∧ !k.final then
            ((List.range n).filter (· ≠ rank)).map fun x => (SlotRef.mk k.c (kGather d cl.crec x), x)
          else []
        else match k.step with
          | 0 => if cdMode d = 4 ∧ j ≠ 0 ∧ k.fired then [(SlotRef.mk k.c 0, prev)] else []
          | 1 => if j = 0 then (if cdMode d = 4 then [(SlotRef.mk k.c 0, prev)] else [])
                 else if k.fired then [(SlotRef.mk k.c 1, prev)] else []
          | 2 => if cdGather d then (if cdRoot d = rank then [(SlotRef.mk k.c 2, (o + n - 1) % n)] else [])
                 else [(SlotRef.mk k.c 2, prev)]
          | _ => []
      let sentCommit := q.nacks.any fun e => e.1 = ⟨1, kCommit d cl.crec⟩
      let tail := if !q.complete d then []
        else if rank = 0 then (if sentCommit then [(SlotRef.mk 0 (kCommit d cl.crec), n - 1)] else [])
        else if q.commitNow.isNone then [(SlotRef.mk 0 (kCommit d cl.crec), rank - 1)]
        else [(SlotRef.mk 0 (kConfirm d cl.crec), 0)]
      (data ++ tail).filter fun e => !(q.rx.any fun x => x.1 = q.run ∧ x.2.1 = e.1)

/-! ### Remote work records (R345 to R348) -/

/-- The collective of an operation's launch. -/
def collOf (s : State) (o : Op) : Nat := lrColl (s.lrec o.by_)
/-- Sends a message to a rank; this rank's own messages come back to it (R346). -/
def State.toRank (s : State) (part coll rank : Nat) (m : Instr) : State :=
  if ((s.coll? part coll).map fun c => crRank c.crec) = some rank then { s with pending := s.pending ++ [m] }
  else s.netSend (.send part coll rank m)

/-- A record's bytes with SRC and the reserved field as the Tambour writes them. -/
def stampRecord (bs : List Byte) (rank : Nat) : List Byte := leBytes 4 (rank % 65536) ++ bs.drop 4

/-- An `rfwd` is the first of its collective and receiver with records left to send. -/
def firstForward (s : State) (o : Op) (rank : Nat) : Bool :=
  !((s.ops.takeWhile fun x => x.id != o.id).any fun x => x.by_.part == o.by_.part && collOf s x == collOf s o &&
    match x.body with | .rfwd _ r n sent _ => r == rank && sent < n | _ => false)

/-- Sends records of an `rfwd` while the receiver's window has free slots (R345, R346). -/
def forward (op : Nat) : Nat → State → State
  | 0, s => s
  | n + 1, s =>
    match s.op? op with
    | none => s
    | some o =>
      match o.body, s.part? o.by_.part, s.coll? o.by_.part (collOf s o) with
      | .rfwd va rank count sent acked, some p, some c =>
        if !o.active s then s
        else if c.lost.contains rank then s.stopOp o 4 0x23 0
        else if count ≤ sent || !firstForward s o rank then s
        else
          let k := getKey c.txCount rank 0
          if getKey c.txFree rank 0 + crWin c.crec ≤ k then s
          else match engineGet s o p (va + 64 * sent) 64 false with
            | (s, .wait) => s
            | (s, .stop e) => s.engStop o 4 e
            | (s, .ok ls) =>
              let bs := stampRecord (ls.map (s.readBy (s.opReads o))) (crRank c.crec)
              let id := crId c.crec
              let s := (s.setOp { o with body := .rfwd va rank count (sent + 1) acked }).onColl p.id id fun c =>
                { c with txCount := setKey c.txCount rank (k + 1), txKept := c.txKept ++ [(rank, k, o.id, bs)] }
              forward op n (s.toRank p.id id rank (.remoteWorkRecord p.id id (crRank c.crec) k bs))
      | _, _, _ => s

/-- All `rfwd`s to a rank send what they can. -/
def forwardAll (s : State) (part coll rank : Nat) : State :=
  (s.ops.filter fun o => o.by_.part == part && collOf s o == coll &&
    match o.body with | .rfwd _ r _ _ _ => r == rank | _ => false).foldl (fun s o => forward o.id 65 s) s

/-- Where record k of a sender lies in the mailbox (R345). -/
def mailboxPa (cr : BitVec 512) (sender k : Nat) : Nat := crMbox cr + 64 * (sender * crWin cr + k % crWin cr)

/-- An `rrecv` is the first of its collective and sender with records left to take. -/
def firstReceive (s : State) (o : Op) (rank : Nat) : Bool :=
  !((s.ops.takeWhile fun x => x.id != o.id).any fun x => x.by_.part == o.by_.part && collOf s x == collOf s o &&
    match x.body with | .rrecv _ r n done => r == rank && done < n | _ => false)

/-- Moves records of an `rrecv` into its queue while it can (R347). -/
def receive (op : Nat) : Nat → State → State
  | 0, s => s
  | fuel + 1, s =>
    match s.op? op with
    | none => s
    | some o =>
      match o.body, s.part? o.by_.part, s.coll? o.by_.part (collOf s o), s.launch? o.by_.part o.by_.lid with
      | .rrecv q rank n done, some p, some c, some l =>
        let qi : Fin 4 := Fin.ofNat 4 q
        let base := lrTq l.lrec q
        let k := getKey c.rxTaken rank 0
        if !o.active s || !firstReceive s o rank || !c.rxHeld.contains (rank, k) || !turnReady s o qi then s
        else match readHeader s p l qi true with
          | .recall x => s.askHost x
          | .ok s h =>
            if h.2 ≠ 64 then s.stopOp o 4 0x21 base
            else if let some x := s.hostHeld (mailboxPa c.crec rank k) 64 then s.askHost x
            else
              let src := (List.range 64).map fun i => Loc.mem (mailboxPa c.crec rank k + i) p.key
              match s.launch? o.by_.part o.by_.lid with
              | none => s
              | some l =>
                let i := (l.tq[qi]).next
                let room := decide (i < h.1)
                (match (if room then engineGet s o p (base + 64 + 64 * i) 64 true else (s, .ok [])) with
                | (s, .wait) => s
                | (s, .stop e) => s.engStop o 4 e
                | (s, .ok ls) =>
                  if src.any s.bad then s.stopOp o 4 Trap.poison.code 0
                  else
                    let o := { o with body := .rrecv q rank n (done + 1) }
                    let id := crId c.crec
                    let s := ((s.setLaunch { l with tq := l.tq.set qi ((l.tq[qi]).reserve h.1 1).2 }).engineWrites o
                      (ls.zip (s.peeks src))).setOp o
                    let s := s.onColl p.id id fun c =>
                      { c with rxTaken := setKey c.rxTaken rank (k + 1), rxHeld := c.rxHeld.erase (rank, k) }
                    let s := s.toRank p.id id rank (.mailboxSlotRelease p.id id (crRank c.crec) k)
                    let s := s.credit o.by_ o.gong 64 (if room then 64 else 0) 4 o.id
                    if done + 1 = n then (s.dropOp o.id).settleTurns o.by_ else receive op fuel s)
          | _ => (noteHeader s p l qi).stopOp o 4 0x21 base
      | _, _, _, _ => s

/-- All `rrecv`s from a rank take what they can. -/
def receiveAll (s : State) (part coll rank : Nat) : State :=
  (s.ops.filter fun o => o.by_.part == part && collOf s o == coll &&
    match o.body with | .rrecv _ r _ _ => r == rank | _ => false).foldl (fun s o => receive o.id 65537 s) s

/-- An `rfwd` or `rrecv` goes on. -/
def workOn (s : State) (op : Nat) : State :=
  match s.op? op with
  | some o =>
    match o.body with
    | .rfwd _ _ _ _ _ => forward op 65 s
    | .rrecv _ _ _ _ => receive op 65537 s
    | _ => s
  | none => s

/-- A remote work record lands in the mailbox (R345); a duplicate is discarded, but acknowledged again. -/
def execRemoteWorkRecord (part coll sender k : Nat) (bytes : List Byte) (s : State) : Out :=
  match s.coll? part coll, s.part? part with
  | some c, some p =>
    let taken := getKey c.rxTaken sender 0
    if taken + crWin c.crec ≤ k then .next s
    else if let some x := s.hostHeld (mailboxPa c.crec sender k) 64 then
      .next { s.askHost x with pending := (s.askHost x).pending ++ [.remoteWorkRecord part coll sender k bytes] }
    else
      let s := if k < taken || c.rxHeld.contains (sender, k) then s
        else (s.wrMem (mailboxPa c.crec sender k) 64 (ofBytes bytes) p.key).onColl part coll fun c =>
          { c with rxHeld := c.rxHeld ++ [(sender, k)], rxNacks := c.rxNacks.filter fun e => ¬(e.1 = sender ∧ e.2.1 = k) }
      let s := s.toRank part coll sender (.acknowledgement ⟨part, coll, 0, 0⟩ (.record sender k) (crRank c.crec))
      .next (receiveAll s part coll sender)
  | _, _ => .next s

/-- A receiver has released the slot of record k (R345). -/
def execMailboxSlotRelease (part coll receiver k : Nat) (s : State) : Out :=
  match s.coll? part coll with
  | some c =>
    let s := s.onColl part coll fun c => { c with txFree := setKey c.txFree receiver (Nat.max (k + 1) (getKey c.txFree receiver 0)) }
    .next (forwardAll s part (crId c.crec) receiver)
  | none => .next s

/-- A rank is lost: `rfwd`s to it stop (R341, R346). -/
def loseMember (s : State) (part coll rank : Nat) : State := forwardAll (s.loseRank part coll rank) part coll rank

/-! ### Timers, NACKs and acknowledgements (R340) -/

/-- Records that `rrecv`s of a collective wait for: the sender and the number. -/
def awaitedRecords (s : State) (part coll : Nat) (c : Coll) : List (Nat × Nat) :=
  (s.ops.filterMap fun o => match o.body with
    | .rrecv _ rank n done =>
      if o.by_.part = part ∧ collOf s o = coll ∧ done < n ∧ o.active s then some (rank, getKey c.rxTaken rank 0) else none
    | _ => none).eraseDups.filter fun e => !c.rxHeld.contains e

/-- A slot's timer expires (R340): a NACK is sent, and after 8 without an answer the sender is lost. -/
def execSlotTimerExpiry (r : SeqRef) (at_ : MsgRef) (s : State) : Out :=
  match s.coll? r.part r.coll with
  | none => .next s
  | some cl =>
    match at_ with
    | .slot x =>
      (match s.seq? r.part r.coll r.seq with
      | none => .next s
      | some q =>
        match (awaited cl q).find? fun e => e.1 = x with
        | some (_, from_) =>
          let n := ((q.nacks.find? fun e => e.1 = x).map (·.2)).getD 0
          if 8 ≤ n then .next (loseMember s r.part r.coll from_)
          else .next (((s.bumpNet 1 0).onSeq r.part r.coll r.seq fun q =>
              { q with nacks := (x, n + 1) :: q.nacks.filter fun e => e.1 ≠ x }).netSend
            (.send r.part r.coll from_ (.nack ⟨r.part, r.coll, r.seq, q.run⟩ (.slot x) (crRank cl.crec))))
        | none => .next s)
    | .record from_ k =>
      if !(awaitedRecords s r.part r.coll cl).contains (from_, k) then .next s
      else
        let n := ((cl.rxNacks.find? fun e => e.1 = from_ ∧ e.2.1 = k).map (·.2.2)).getD 0
        if 8 ≤ n then .next (loseMember s r.part r.coll from_)
        else .next (((s.bumpNet 1 0).onColl r.part r.coll fun c =>
            { c with rxNacks := (from_, k, n + 1) :: c.rxNacks.filter fun e => ¬(e.1 = from_ ∧ e.2.1 = k) }).toRank
          r.part r.coll from_ (.nack ⟨r.part, r.coll, 0, 0⟩ (.record from_ k) (crRank cl.crec)))
    | .notice _ => .next s

/-- A NACK arrives at a sender (R340): it resends what it retains of that run or a later one, or answers WAIT where it has
not produced it yet, also because it has still to rerun the sequence. -/
def execNack (r : SeqRef) (at_ : MsgRef) (sender : Nat) (s : State) : Out :=
  match s.coll? r.part r.coll with
  | none => .next s
  | some cl =>
    match at_ with
    | .slot x =>
      let wait := Output.send r.part r.coll sender (.wait r at_)
      (match s.seq? r.part r.coll r.seq with
      | none => .next (s.netSend wait)
      | some q =>
        match if r.run ≤ q.run then q.sent.find? fun m => m.at_ = x ∧ m.dest = sender else none with
        | some m =>
          let r := { r with run := q.run }
          .next (match q.desc with
            | some d =>
              if x = ⟨0, kCommit d cl.crec⟩ then s.netSend (.send r.part r.coll sender (.commitMessage r m.body.flags))
              else if x = ⟨0, kConfirm d cl.crec⟩ then s.netSend (.send r.part r.coll sender (.confirmation r m.body.flags))
              else s.netSend (.send r.part r.coll sender (.tambourMessage r x m.body))
            | none => s)
        | none => .next (if q.status = 0 ∨ q.run < r.run then s.netSend wait else s))
    | .record from_ k =>
      match cl.txKept.find? fun e => e.1 = sender ∧ e.2.1 = k with
      | some (_, _, _, bs) => .next (s.toRank r.part r.coll sender (.remoteWorkRecord r.part r.coll from_ k bs))
      | none => .next (if getKey cl.txCount sender 0 ≤ k then s.toRank r.part r.coll sender (.wait r at_) else s)
    | .notice lost => .next (if cl.lost.contains lost then s.sendNotice r.part r.coll lost sender else s)

/-- WAIT arrives (R340): the sender has answered. -/
def execWait (r : SeqRef) (at_ : MsgRef) (s : State) : Out :=
  match at_ with
  | .slot x => .next (s.onSeq r.part r.coll r.seq fun q =>
      { q with nacks := q.nacks.map fun e => if e.1 = x then (x, 0) else e })
  | .record from_ k => .next (s.onColl r.part r.coll fun c =>
      { c with rxNacks := c.rxNacks.filter fun e => ¬(e.1 = from_ ∧ e.2.1 = k) })
  | .notice _ => .next s

/-- An acknowledgement arrives (R340): the retained copy is released; a record placed is credited (R346); a loss notice is
not sent again (R341). -/
def execAcknowledgement (r : SeqRef) (at_ : MsgRef) (sender : Nat) (s : State) : Out :=
  match at_ with
  | .slot x => .next (s.acked r.part r.coll r.seq r.run x sender)
  | .notice lost => .next (s.onColl r.part r.coll fun c => { c with notices := c.notices.erase (lost, sender) })
  | .record _ k =>
    match (s.coll? r.part r.coll).bind fun c => c.txKept.find? fun e => e.1 = sender ∧ e.2.1 = k with
    | none => .next s
    | some (_, _, op, _) =>
      let s := s.onColl r.part r.coll fun c => { c with txKept := c.txKept.filter fun e => ¬(e.1 = sender ∧ e.2.1 = k) }
      .next (match s.op? op with
        | some o =>
          match o.body with
          | .rfwd va rank n sent acked =>
            let o := { o with body := .rfwd va rank n sent (acked + 1) }
            let s := (s.setOp o).credit o.by_ o.gong 64 64 4 op
            if acked + 1 = n then s.dropOp op else s
          | _ => s
        | none => s)

/-- The commit message arrives in its receive slot, where it is kept until the sequence has started here and this rank
holds its result (R341, R473). With two ranks it carries the acknowledgement of the other's commit message (R340). -/
def execCommitMessage (r : SeqRef) (flags : BitVec 3) (s : State) : Out :=
  match s.coll? r.part r.coll with
  | none => .next s
  | some cl =>
    let s := s.seeRun r
    match s.seq? r.part r.coll r.seq with
    | some q =>
      if !q.over ∧ q.seen = r.run ∧ (q.commit.map (·.1)) ≠ some r.run then
        let s := s.onSeq r.part r.coll r.seq fun q => { q with commit := some (r.run, flags) }
        .next (advance (if crN cl.crec = 2 ∧ crRank cl.crec = 0
          then s.acked r.part r.coll r.seq r.run ⟨0, kCommit (q.desc.getD 0) cl.crec⟩ 1 else s) r.part r.coll r.seq)
      else .next s
    | none => .next s

/-- The confirmation arrives (R341): the sequence finishes DONE. To the last rank it carries the acknowledgement of its
commit message (R340). -/
def execConfirmation (r : SeqRef) (flags : BitVec 3) (s : State) : Out :=
  match s.seq? r.part r.coll r.seq, s.coll? r.part r.coll with
  | some q, some cl =>
    if q.live ∧ q.run = r.run then
      let s := (s.orFlags r.part r.coll r.seq flags).ack r.part r.coll r.seq 0 (kConfirm (q.desc.getD 0) cl.crec) 0
      let s := if crRank cl.crec + 1 = crN cl.crec
        then s.acked r.part r.coll r.seq r.run ⟨0, kCommit (q.desc.getD 0) cl.crec⟩ 0 else s
      .next (s.finishSeq r.part r.coll r.seq 1 0)
    else .next s
  | _, _ => .next s

/-- A loss notice arrives: it is acknowledged, and a loss not known yet is flooded in turn (R341). -/
def execLossNotice (r : SeqRef) (l : LossRef) (s : State) : Out :=
  match s.coll? r.part r.coll with
  | none => .next s
  | some c =>
    .next (loseMember (s.netSend (.send r.part r.coll l.sender (.acknowledgement r (.notice l.lost) (crRank c.crec)))) r.part r.coll l.lost)
/-- Sends the n-th notice that is not acknowledged once more (R341). -/
def renotice (s : State) (part coll n : Nat) : State :=
  match (s.coll? part coll).bind fun c => c.notices[n]? with
  | some e => s.sendNotice part coll e.1 e.2
  | none => s

/-- A rank learns that a sequence was aborted, or is bad, on another rank (R328, R333, R341); of a run that it has still to
begin it keeps the notice. -/
def execSequenceAbortNotice (r : SeqRef) (status : Nat) (s : State) : Out :=
  match s.coll? r.part r.coll with
  | none => .next s
  | some _ =>
    let s := s.seeRun r
    match s.seq? r.part r.coll r.seq with
    | some q =>
      if q.seen ≤ r.run then
        let s := if q.run < r.run then s.onSeq r.part r.coll r.seq fun q => { q with told := some (r.run, status) } else s
        .next (if q.over then s else s.finishSeq r.part r.coll r.seq status 0)
      else .next s
    | none => .next s

/-- Timers that may expire next. -/
def timerMoves (s : State) : List Instr :=
  s.parts.flatMap fun p => p.colls.flatMap fun c =>
    (c.seqs.flatMap fun q => (awaited c q).map fun e => .slotTimerExpiry ⟨p.id, crId c.crec, q.num, q.run⟩ (.slot e.1)) ++
    (awaitedRecords s p.id (crId c.crec) c).map fun e => .slotTimerExpiry ⟨p.id, crId c.crec, 0, 0⟩ (.record e.1 e.2)

/-- Loss notices that may be sent again: partition, collective and place. -/
def noticeRetries (s : State) : List (Nat × Nat × Nat) :=
  s.parts.flatMap fun p => p.colls.flatMap fun c => (List.range c.notices.length).map fun n => (p.id, crId c.crec, n)
/-- Operations looked at again: their sources, destinations, turns or windows may be ready. -/
def workRetries (s : State) : List Nat :=
  (s.ops.filter fun o => o.active s && match o.body with
    | .rfwd _ _ n sent _ => decide (sent < n)
    | .rrecv _ _ n done => decide (done < n)
    | _ => false).map (·.id)

/-! ### Instructions (R327, R343 to R347) -/

/-- Runs an instruction on the bound collective. -/
def onBound (s : State) (k : Group → Frag → Launch → State) : Out :=
  onFrag s fun g f =>
    match s.launch? g.ref.part g.ref.lid with
    | some l => if lrColl l.lrec = 0 then s.trap g .illegalOperand else k g f l
    | none => s

def execXinit (a : AReg) (off : BitVec 32) (s : State) : Out :=
  onBound s fun g _ _ =>
    s.readAt g true (g.ctx.getA a + off.signExtend 64).toNat 64 64 fun s bs =>
      s.regroup g.ref fun g => s.setWait g s.cur.st (.xinit (BitVec.ofNat 512 (ofBytes bs)))

/-- Reruns the most recent failed sequence (R341). -/
def rerun (s : State) (part coll : Nat) : State :=
  match s.coll? part coll with
  | none => s
  | some c =>
    let failed := (c.seqs.filter fun q => decide (2 ≤ q.status)).map (·.num)
    match failed with
    | [] => s
    | n :: ns =>
      let num := ns.foldl Nat.max n
      let s := s.onSeq part coll num fun q =>
        { Seq.new num with run := q.run + 1, chunkB := q.chunkB, rtile := q.rtile, lid := q.lid, rx := q.rx, commit := q.commit,
                           seen := Nat.max q.seen (q.run + 1), begun := true, told := q.told }
      let s := s.onColl part coll fun c => { c with last := if num = 0 then none else some (num - 1) }
      match s.seq? part coll num with
      | some q => match q.told with
        | some (run, st) => if run = q.run then s.finishSeq part coll num st 0 else startSeq s part coll num true
        | none => startSeq s part coll num true
      | none => s

/-- `DESCRIPTOR_COPY_TAKEN`: the rank holds the descriptor and the fragment goes on. -/
def execDescriptorCopyTaken (r : GRef) (slot1 : Bool) (s : State) : Out :=
  match s.group? r with
  | none => .next s
  | some g =>
    match g.waitOf (.frag slot1) with
    | some (.xinit d) =>
      if g.state ≠ .live then .next s
      else
        let coll := lrColl (s.lrec r)
        let s := (s.setGroup (g.finish slot1 2 id)).onColl r.part coll fun c => { c with desc := some d }
        .next (if cdRestart d then rerun s r.part coll else s)
    | _ => .next s

/-- The status word that `xstat` reads (R343). -/
def statusOf (c : Coll) (q : Word) : Word :=
  let latest := (c.seqs.filter (·.begun)).foldl (fun m x => Nat.max m (x.num + 1)) 0
  if latest ≠ 0 ∧ 2 ≤ (word (latest - 1) - q).toNat ∧ (word (latest - 1) - q).toNat < 2 ^ 31 then 6
  else match c.seqs.find? fun x => word x.num = q with
    | some x => word x.word
    | none => 0

def execXstat (d a : SReg) (i : BitVec 32) (s : State) : Out :=
  onBound s fun g _ l =>
    let v := ((s.coll? g.ref.part (lrColl l.lrec)).map fun c => statusOf c (g.ctx.sum a i)).getD 0
    s.setGroup (g.onCtx fun c => (c.setS d v).retire s.cur.st.slot1 2)

def execXpoll (d a : SReg) (i : BitVec 32) (s : State) : Out :=
  onBound s fun g _ l =>
    let q := g.ctx.sum a i
    if ownWait l q then s.trap g .illegalOperand
    else
      let fin := ((s.coll? g.ref.part (lrColl l.lrec)).map fun c => c.finished q).getD false
      let s' := s.setGroup (g.onCtx fun c => (c.setS d (wordB fin)).retire s.cur.st.slot1 2)
      if fin then s'.discardSi g else s'

def execXabort (a : SReg) (i : BitVec 32) (s : State) : Out :=
  onBound s fun g _ l =>
    let q := g.ctx.sum a i
    let id := lrColl l.lrec
    let s := s.done g 2
    match (s.coll? g.ref.part id).bind fun c => c.seqs.find? fun x => word x.num = q && x.live with
    | some x => s.abortSeq g.ref.part id x.num 3
    | none => s

/-- The checks of an instruction that names a gong and an aligned address. -/
def onTambour (s : State) (n : GReg) (bad : Group → Coll → Bool) (va : Ctx → Addr) (align : Nat)
    (k : Group → Coll → Nat → State) : Out :=
  onBound s fun g _ l =>
    match s.team? g.ref.tref, s.coll? g.ref.part (lrColl l.lrec) with
    | some t, some c =>
      let a := (va g.ctx).toNat
      if bad g c then s.trap g .illegalOperand
      else if a % align ≠ 0 then s.trap g .misalign a
      else match (t.gong n.toNat).engineTrap with
        | some e => s.trap g e 0 0 0 n.toNat
        | none => k g c a
    | _, _ => s

def execXdict (n : GReg) (bank : Bool) (a : AReg) (off : BitVec 32) (s : State) : Out :=
  onTambour s n (fun _ _ => false) (fun c => c.getA a + off.signExtend 64) 128 fun g _ va =>
    (s.accept g n.toNat (.xdict bank va)).done g 2

/-- A message that has come to its receive slot and is not combined yet: the chunk's step has still to take it. -/
def Seq.inFlight (q : Seq) (d : BitVec 512) (x : SlotRef) : Bool :=
  q.live && q.chunks.any fun k => k.c == x.chunk && decide (k.step ≤ if cdSched d = 0 then x.k + 1 else x.k)
/-- A tile in flight on this rank refers to a dictionary bank (R344). -/
def bankInUse (c : Coll) (bank : Bool) : Bool :=
  c.seqs.any fun q => q.desc.any fun d => q.rx.any fun e =>
    e.1 == q.run && e.2.2.stored && q.inFlight d e.2.1 &&
      (List.range (e.2.2.bytes.length / cdTslot d)).any fun i =>
        tileRefers bank ((e.2.2.bytes.drop (i * cdTslot d)).take (cdTslot d))

/-- `DICTIONARY_BANK_REPLACED`: once no tile in flight refers to the bank, its 2048 bytes are read and replace it (R344). -/
def execDictionaryBankReplaced (op : Nat) (s : State) : Out :=
  onOp s op fun o p =>
    match o.body with
    | .xdict bank va =>
      if (s.coll? o.by_.part (collOf s o)).any fun c => bankInUse c bank then s else
      match engineGet s o p va 2048 false with
      | (s, .wait) => s
      | (s, .stop e) => s.engStop o 4 e
      | (s, .ok ls) =>
        let bs := ls.map (s.readBy (s.opReads o))
        let s := s.onColl o.by_.part (collOf s o) fun c =>
          { c with dict := Memory.wrs c.dict (if bank then 2048 else 0) bs }
        (s.credit o.by_ o.gong 2048 2048 4 op).dropOp op
    | _ => s

def execRfwd (n : GReg) (a : AReg) (b : SReg) (n1 : BitVec 6) (off : BitVec 32) (s : State) : Out :=
  onTambour s n (fun g c => crN c.crec ≤ (g.ctx.getS b).toNat) (fun c => c.getA a + off.signExtend 64) 64 fun g _ va =>
    forward s.nextId 65 ((s.accept g n.toNat (.rfwd va (g.ctx.getS b).toNat (n1.toNat + 1) 0 0)).done g 2)

def execRrecv (n : GReg) (q : BitVec 2) (a b : SReg) (s : State) : Out :=
  onTambour s n (fun g c => crN c.crec ≤ (g.ctx.getS a).toNat || (g.ctx.getS b).toNat == 0 ||
      decide (65536 < (g.ctx.getS b).toNat) || lrTq (s.lrec g.ref) q.toNat == 0) (fun _ => 0) 1 fun g _ _ =>
    match s.launch? g.ref.part g.ref.lid with
    | none => s
    | some l =>
      if (l.tq[q.toNat]'q.isLt).isClosed (s.turnOf g.ref) then s.trap g .ticketOrder
      else receive s.nextId 65537 ((s.accept g n.toNat (.rrecv q.toNat (g.ctx.getS a).toNat (g.ctx.getS b).toNat 0)).done g 2)

end Sys2Proof.Machine
end

