-- ==== Sys2Proof/Machine/Driver.lean ====
section
/-!
DEFINITION. Management commands (R411 to R421, R425, R431, R433 to R435): partitions, pre-emption, kills, replays,
region locks.
-/
namespace Sys2Proof.Machine

/-! ### Commands (R411 to R413) -/

/-- Writes a command's STATUS, which signals vector 0 (R411, R440), and ends it for its partition. -/
def State.answer (s : State) (c : Cmd) (status : Nat) : State :=
  let s := match s.part? c.part with
    | some p => s.setPart { p with cmd := p.cmd.filter fun x => x.2 ≠ c }
    | none => s
  (s.wrMem (c.at_ + 24) 1 status 0).send (.msix 0)

/-- Runs a command on a partition in a state that accepts it. A command in progress goes on in the state it has
made (R412). -/
def onPart (s : State) (c : Cmd) (op : Nat) (ok : List PState) (k : Part → State) : Out :=
  if !c.clean ∨ 7 < c.part then .next (s.answer c 2)
  else match s.part? c.part with
    | none => .next (s.answer c 4)
    | some p => .next (if p.cmd = some (op, c) ∨ ok.contains p.state then k p else s.answer c 3)

/-- A command that goes on after this step. -/
def State.begin (s : State) (p : Part) (op : Nat) (c : Cmd) (st : PState) : State :=
  s.setPart { p with cmd := some (op, c), state := st }

/-! ### Partitions (R414 to R418) -/

/-- The fields of a partition record that must be 0 are 0. -/
def recordClean (r : BitVec 1024) : Bool :=
  fld r 159 154 = 0 && fld r 255 237 = 0 && fld r 319 304 = 0 && fld r 383 368 = 0 && fld r 447 436 = 0 &&
  fld r 511 507 = 0 && fld r 1023 567 = 0

/-- Every field of a partition record is in its stated range. -/
def recordRanges (r : BitVec 1024) : Bool :=
  prKey r ≠ 0 && (prRampUp r = 0 || 32 ≤ prRampUp r) && (prRampDn r = 0 || 16 ≤ prRampDn r) && prNrdt r ≤ 4096 &&
  prPtRoot r % 65536 = 0 && prRdt r % 128 = 0 && prFqBase r % 4096 = 0 && fld r 435 432 ≤ 14 && prGtab r % 16 = 0 &&
  prNgran r ≤ 1024 && prLqtab r % 32 = 0 && 1 ≤ prNlq r && prNlq r ≤ 64

/-- The granule table of a record: GRAN of each entry; its reserved bits are ignored (R7, R419). -/
def granuleTable (s : State) (r : BitVec 1024) : List Nat :=
  (List.range (prNgran r)).map fun i => s.rdMem (prGtab r + 4 * i) 4 0 % 1024

/-- The checks of R415 and R462 on a record. -/
def recordOk (s : State) (r : BitVec 1024) : Bool :=
  let gs := granuleTable s r
  recordClean r && recordRanges r && prSlotBase r + prNslot r ≤ 32 && prPairs r != 0 &&
  s.parts.all (fun p => prPairs p.prec &&& prPairs r == 0 && prMscWays p.prec &&& prMscWays r == 0 &&
    prKey p.prec != prKey r && gs.all fun g => !p.grans.contains g) &&
  prMscWays r != 0 && prRmWays r &&& ~~~prMscWays r == 0 &&
  gs.eraseDups.length == gs.length &&
  (prCores r).all fun c => !s.dev.fenceC.contains c

namespace State
/-- Cores return to their power-on state; the errors found in their arrays stay counted. -/
def resetCores (s : State) (cs : List Nat) : State :=
  cs.foldl (fun s c => s.setCore { Core.reset c with ueAt := (s.core c).ueAt, ceAt := (s.core c).ceAt }) s
/-- Granules of the chip scratchpad are written 0. -/
def clearGranules (s : State) (gs : List Nat) : State :=
  { s with chip := s.chip.filter (fun e => !gs.contains (e.1 / 65536)),
           chipBad := s.chipBad.filter fun w => !gs.contains (w / 8192) }
/-- The lines in a partition's ways of the memory-side caches are invalid (R415, R417). -/
def clearWays (s : State) (r : BitVec 1024) : State := { s with msc := s.msc.filter fun m => !(prMscWays r).getLsbD m.way }
end State

/-- A partition as PART_CREATE leaves it. -/
def Part.new (id : Nat) (r : BitVec 1024) (key : Nat) (grans : List Nat) (heads : List (Nat × Nat × List (Nat × BitVec 512))) :
    Part :=
  { id := id, state := .active, prec := r, key := key, grans := grans, cmd := none, nextSeq := 0, recs := [], posts := [],
    heads := heads, rot := 0, orders := 0, kicks := 0, place := (prCores r).headD 0, results := [], unplace := 0,
    homes := [], tlb := [], stale := [], remote := [], fetch := [], nethdr := 0, colls := [], saveAt := none, mixed := [] }

def execPartCreate (c : Cmd) (s : State) : Out :=
  if !c.clean ∨ 7 < c.part then .next (s.answer c 2)
  else match s.part? c.part with
    | some _ => .next (s.answer c 3)
    | none =>
      let r := BitVec.ofNat 1024 (s.rdMem c.arg0 128 0)
      if c.arg0 % 128 ≠ 0 ∨ !isHbm c.arg0 ∨ !recordOk s r then .next (s.answer c 2)
      else
        let gs := granuleTable s r
        let tail := fun q => s.rdMem (prLqtab r + 32 * q + 12) 4 0
        let qs := List.range (prNlq r)
        let s := ((s.resetCores (prCores r)).clearWays r).clearGranules gs
        let s := (s.wrMem (prFqBase r) 4 0 0).wrMem (prFqBase r + 8) 1 0 0
        let s := qs.foldl (fun s q => s.wrMem (prLqtab r + 32 * q + 16) 4 (tail q) 0) s
        let p := Part.new c.part r (s.keys + 1) gs (qs.map fun q => (q, tail q, []))
        .next ({ s with keys := s.keys + 1, parts := s.parts ++ [p] }.answer c 1)

/-- Every launch of a partition that is incomplete is killed (R417). -/
def killAll (s : State) (part : Nat) : State :=
  (s.launches.filter fun l => l.part = part ∧ !l.state.isComplete).foldl (fun s l => s.killLaunch part l.lid) s

/-- Accumulation buffers of a partition's cores are drained and their budgets returned (R108, R109). -/
def drainPart (s : State) (p : Part) : State := (prCores p.prec).foldl (fun s c => s.drainAll p.id c) s

/-- The sums drained are performed and every budget has been returned: nothing is granted, asked for or on its way
(R108, R109). -/
def drained (s : State) (p : Part) : Bool :=
  !(s.partials.any fun e => e.1 == p.id) && ((prCores p.prec).all fun c => (s.core c).trk.isEmpty && (s.core c).abuf.isEmpty) &&
    p.homes.all fun h => h.msgs.isEmpty && h.jobs.isEmpty && h.b.all fun e => e.2 == 0

/-- Sequences in progress finish ABORTED on every rank (R341, R417). -/
def abortAll (s : State) (p : Part) : State :=
  p.colls.foldl (fun s c => (c.seqs.filter Seq.live).foldl (fun s q => s.abortSeq p.id (crId c.crec) q.num 3) s) s

/-- A partition's dirty sectors: written back, or discarded, in which case those that no cache had written back
yet are poisoned; its lines in the L2 are invalid (R417). -/
def dropDirty (s : State) (key : Nat) (wb : Bool) : State :=
  let mine := (s.dirty.filter fun e => e.2 = key).map (·.1)
  let other := fun (line : Nat) => getKey s.skey (2 * line) (key + 1) != key && getKey s.skey (2 * line + 1) (key + 1) != key
  { s with dirty := s.dirty.filter (fun e => e.2 ≠ key),
           l2 := s.l2.filter fun l => other l.line,
           poison := if wb then s.poison else s.poison ++ mine.filter fun x => !s.poison.contains x && s.bit x }

/-- Cores pending in a partition that goes are fenced (R462). -/
def fencePending (s : State) (cs : List Nat) : State :=
  let now := s.dev.pendC.filter fun c => cs.contains c
  if now.isEmpty then s
  else { s with dev := { s.dev with pendC := s.dev.pendC.filter (fun c => !cs.contains c), fenceC := s.dev.fenceC ++ now,
                                    replace := true, repCause := s.dev.repCause ||| 1 } }.send (.msix 0)

/-- The partition is gone: its cores and granules are cleared, its key is destroyed. -/
def removePart (s : State) (p : Part) (wb : Bool) : State :=
  let s := (((dropDirty s p.key wb).clearWays p.prec).resetCores (prCores p.prec)).clearGranules p.grans
  fencePending { s with parts := s.parts.filter (fun q => q.id ≠ p.id),
                        launches := s.launches.filter (fun l => l.part ≠ p.id),
                        teams := s.teams.filter (fun t => t.ref.part ≠ p.id),
                        groups := s.groups.filter (fun g => g.ref.part ≠ p.id),
                        ops := s.ops.filter (fun o => o.by_.part ≠ p.id),
                        partials := s.partials.filter fun e => e.1 ≠ p.id } (prCores p.prec)

def execPartDestroy (c : Cmd) (s : State) : Out :=
  onPart s c 2 [.active, .suspended] fun p =>
    if p.cmd = some (2, c) then
      let ending := p.colls.any fun k => k.seqs.any fun q => q.ending.isSome && !q.held
      if s.launches.any fun l => l.part == p.id && !l.state.isComplete then s
      else if drained s p then (if ending then s else (removePart s p (c.arg0 % 2 == 1)).answer c 1)
      else drainPart s p
    else
      let s := killAll (s.begin p 2 c .destroying) p.id
      match s.part? p.id with | some p => abortAll (drainPart s p) p | none => s

/-! ### Pre-emption (R44, R433 to R435) -/

/-- Bytes of a partition's save area (R434). -/
def saveBytes (p : Part) : Nat := 65536 + 2097152 * (prCores p.prec).length

def execPreempt (c : Cmd) (s : State) : Out :=
  onPart s c 3 [.active] fun p =>
    if p.cmd = some (3, c) then s
    else if c.arg0 % 65536 ≠ 0 ∨ !isHbm (c.arg0 + saveBytes p - 1) then s.answer c 2
    else
      let stay := fun (t : Team) =>
        if t.ref.part = p.id ∧ t.state = .migrating then { t with state := .running, moved := none } else t
      let s := (s.groups.filter fun g => g.ref.part = p.id ∧ g.state = .live).foldl (fun s g => s.haltGroup g) s
      let s := { s.fresh with teams := s.teams.map stay }
      match s.part? p.id with
      | some p => drainPart (s.begin { p with saveAt := some (c.arg0, s.clock, s.nextId) } 3 c .suspending) p
      | none => s

/-- The state of a group in a save image. -/
def GState.save : GState → GState
  | .halted .move => .saved none
  | .halted h => .saved (some h)
  | .loading h => .saved h
  | g => g

/-- Every group of a partition that is on a core has nothing under way. -/
def partQuiet (s : State) (part : Nat) : Bool :=
  s.groups.all fun g => g.ref.part != part || !g.state.present || g.state.isLoading || s.quietGroup g

/-- `SAVE_COMPLETE`: the contexts and the header of the image are written, and STATUS OK (R433, R434). What captured
operations read before writes that raced with them is forgotten: they read afresh (R326). -/
def execSaveComplete (part : Nat) (s : State) : Out :=
  match s.part? part with
  | none => .next s
  | some p =>
    match p.state, p.cmd, p.saveAt with
    | .suspending, some (_, c), some (area, t0, id) =>
      if let some l := s.hostHeldIn [(area, 64), (c.at_, 32)] then .next (s.askHost l)
      else if !partQuiet s part then .next s
      else if !drained s p then .next (drainPart s p)
      else
        let mine := s.teams.filter fun t => t.ref.part = part ∧ t.state.present
        let save := fun (t : Team) => if mine.any (fun m => m.ref = t.ref)
          then { t with state := .saved, held := heldSlots s t.ref } else t
        let group := fun (g : Group) => if mine.any (fun m => m.ref = g.ref.tref) then { g with state := g.state.save } else g
        let op := fun (o : Op) => if mine.any (fun m => m.ref = o.by_.tref) then { o with got := [] } else o
        let open_ := (s.launches.filter fun l => l.part = part ∧ !l.state.isComplete).length
        let time := (s.clock + 2 ^ 64 - t0) % 2 ^ 32
        let hdr := 0x45564153 + 2 ^ 32 * part + 2 ^ 64 * mine.length + 2 ^ 96 * open_ + 2 ^ 128 * time
        let s := { s with teams := s.teams.map save, groups := s.groups.map group, ops := s.ops.map op }
        let s := (prCores p.prec).foldl (fun s k => s.l1Flush p k) (mine.foldl (fun s t => s.unask t.ref) s)
        let s := s.releaseCores (prCores p.prec)
        let s := { s with images := (area + 64, saveBytes p - 64, id) :: s.images.filter fun e =>
          e.1 + e.2.1 ≤ area ∨ area + saveBytes p ≤ e.1 }
        let s := s.wrMem area 64 hdr p.key
        .next ((match s.part? part with | some p => s.setPart { p with state := .suspended } | none => s).answer c 1)
    | _, _, _ => .next s

/-- Places for a team that is restored: its saved core, and for a team that may move every other with room. -/
def restorePlaces (s : State) (p : Part) (l : Launch) (t : Team) : List Nat :=
  t.core :: (if lrPair l.lrec || lrCoop l.lrec || lrDet l.lrec == 2 then []
    else (prCores p.prec).filter fun c => c ≠ t.core && (needs l.lrec).all fun n => hasRoom s c n l.gongs l.nacc true)

/-- Loads the saved teams back, each at a place chosen for it, or all where they were saved (R435). -/
def bringAll (p : Part) (free : Bool) : List Team → State → Option State
  | [], s => some s
  | t :: ts, s =>
    let l := launchOf s t.ref
    let cs := restorePlaces s p l t
    let k := if free && cs.length ≠ 1 then Config.freeOrder s.tick ts.length % cs.length else 0
    let onto := cs.getD k t.core
    if ((placeCores l.lrec onto).zip (needs l.lrec)).all (fun e => hasRoom s e.1 e.2 l.gongs l.nacc (e.1 == onto)) then
      (bringTeam s p l t onto t.held).bind (bringAll p free ts)
    else none

/-- The image in the save area is whole and the partition's latest. -/
def imageWhole (s : State) (p : Part) (at_ : Nat) : Bool :=
  match p.saveAt with
  | some (area, _, id) => at_ == area && s.images.contains (area + 64, saveBytes p - 64, id) &&
      s.rdMem (area + 4) 1 p.key == p.id
  | none => false

def execRestore (c : Cmd) (s : State) : Out :=
  onPart s c 4 [.suspended] fun p =>
    let ts := s.teams.filter fun t => t.ref.part = p.id ∧ t.state = .saved
    if p.cmd = some (4, c) && ts.isEmpty then
      if p.posts.isEmpty && !(s.teams.any fun t => t.ref.part == p.id && t.state == .loading) then
        (s.setPart { p with state := .active, saveAt := none }).answer c 1
      else s
    else if p.cmd ≠ some (4, c) && !imageWhole s p c.arg0 then s.answer c 5
    else match bringAll p true ts s <|> bringAll p false ts s with
      | none => s.setPart { p with cmd := some (4, c) }
      | some s =>
        let again := p.recs.map fun r => (⟨some r.about, r.bits &&& ~~~(place 512 224 (2 ^ 32 - 1)), true⟩ : Posting)
        let posts := again ++ p.posts
        let s := if s.faultRoomFor p posts.length then s else s.wrMem (prFqBase p.prec + 8) 1 1 0
        s.setPart { p with cmd := some (4, c), recs := [], posts := posts }

/-! ### Kills, replays and resumes (R425, R431) -/

/-- KILL (R425): STATUS is written once no team of the launch holds a core. -/
def execKill (c : Cmd) (s : State) : Out :=
  onPart s c 5 [.active] fun p =>
    let lid := c.arg0 % 2 ^ 32
    if p.cmd = some (5, c) then (if s.incomplete p.id lid then s else s.answer c 1)
    else if !s.incomplete p.id lid then s.answer c 2
    else
      let s := s.killLaunch p.id lid
      if !s.incomplete p.id lid then s.answer c 1
      else match s.part? p.id with
        | some p => s.begin p 5 c p.state
        | none => s

/-- An engine operation repeats or resumes (R150, R312, R348), and its gong returns to BYTE. -/
def replayOp (s : State) (i : Nat) : State :=
  match s.op? i with
  | some o =>
    let s := if o.fault then s.setOp { o with fault := false, body := replayCopy o.body } else s
    let s := match o.body with
      | .bvset b _ => { s with groups := s.groups.map fun (g : Group) =>
          if h : b < 4 then
            (if g.ref = o.by_ ∧ g.binds[b] = Binding.unbound then { g with binds := g.binds.set b (.pending i) } else g)
          else g }
      | _ => s
    s.healGong o.by_ o.gong
  | none => s

/-- Repeats what a record is about; none where the record accepts no REPLAY. -/
def replay (s : State) (p : Part) (r : FaultRec) : Option State :=
  match r.about with
  | .group g =>
    if [0x05, 0x06, 0x0F, 0x12].contains (fld r.bits 7 0) then (s.group? g).map fun x => s.resumeGroup x false else none
  | .engine i => some (match s.op? i with
      | some _ => replayOp s i
      | none => s.healGong ⟨p.id, fld r.bits 63 32, fld r.bits 95 64, fld r.bits 101 96⟩ (fld r.bits 20 16))
  | .overlay core slot l =>
    let s := l.reqs.foldl (fun s q => match q with | .gong g n _ => s.healGong g n | .root _ => s) s
    some (reload s core slot l)
  | .seq coll num => some (advance (s.onSeq p.id coll num fun q => { q with held := false }) p.id coll num)
  | .trace lid i => (s.launch? p.id lid).map fun l =>
      let l := { l with traceBad := l.traceBad.filter (· ≠ i) }
      (s.setLaunch l).writeTrace l i
  | .ticket lid q => (s.launch? p.id lid).map fun l =>
      if h : q < 4 then s.setLaunch { l with tq := l.tq.set q { l.tq[q] with closing := some false } } else s

/-- The open record a command names. -/
def openRec (p : Part) (c : Cmd) : Option FaultRec := p.recs.find? fun r => r.seq % 2 ^ 32 = c.arg0 % 2 ^ 32
/-- A record closes. -/
def closeRec (s : State) (p : Part) (r : FaultRec) : State := s.setPart { p with recs := p.recs.filter fun x => x.seq ≠ r.seq }

/-- An overlay load that a record is about waits for a slot (R163). -/
def awaitsSlot (s : State) (r : FaultRec) : Bool :=
  match r.about with
  | .overlay core _ l => (s.core core).waits.any fun e => e.2.id == l.id
  | _ => false
/-- REPLAY (R431): of an overlay load it completes once the load has been issued again, and until then the record stays
open. -/
def execReplay (c : Cmd) (s : State) : Out :=
  onPart s c 6 [.active] fun p =>
    match openRec p c with
    | some r =>
      if p.cmd = some (6, c) then (if awaitsSlot s r then s else (closeRec s p r).answer c 1)
      else match replay (closeRec s p r) p r with
        | some t =>
          if awaitsSlot t r then (match t.part? p.id with
            | some q => t.begin { q with recs := r :: q.recs } 6 c q.state
            | none => t)
          else t.answer c 1
        | none => s.answer c 2
    | none => s.answer c 2

def execResume (c : Cmd) (s : State) : Out :=
  onPart s c 7 [.active] fun p =>
    match openRec p c with
    | some r =>
      match r.about with
      | .group g =>
        match s.group? g with
        | some x => if [0x10, 0x11].contains (fld r.bits 7 0) then ((closeRec s p r).resumeGroup x true).answer c 1 else s.answer c 2
        | none => s.answer c 2
      | _ => s.answer c 2
    | none => s.answer c 2

/-! ### Regions and slots (R420, R421) -/

def execRegionLock (c : Cmd) (s : State) : Out :=
  onPart s c 8 [.active] fun p =>
    let r := c.arg0
    if prNrdt p.prec ≤ r then s.answer c 2
    else
      let s := if p.cmd = some (8, c) ∨ (s.home p.id r).locked then s else (s.begin p 8 c p.state).askQuiet p.id r .lock 0 none
      let s := if s.isQuiet p.id r .lock then (s.useQuiet p.id r .lock).onHome p.id r fun h =>
        { h with locked := true, desc := some (h.desc.getD (tableDesc s p r)) } else s
      if (s.home p.id r).locked then s.answer c 1 else s

def execRegionUnlock (c : Cmd) (s : State) : Out :=
  onPart s c 9 [.active] fun p =>
    let r := c.arg0
    if prNrdt p.prec ≤ r then s.answer c 2
    else
      let s := s.onHome p.id r fun h => { h with locked := false, desc := none }
      ((prCores p.prec).foldl (fun s k => s.setCore ((s.core k).dropTracker r)) s).answer c 1

/-- An overlay load is in flight in a slot. -/
def Slot.inFlight : Slot → Bool
  | .loading _ _ | .draining _ _ => true
  | _ => false

def execSlotFlush (c : Cmd) (s : State) : Out :=
  onPart s c 10 [.active] fun p =>
    let mine := fun (e : Nat × Slot) => prSlotBase p.prec ≤ e.1 && e.1 < prSlotBase p.prec + prNslot p.prec
    let cs := prCores p.prec
    let busy := (s.teams.any fun t => t.ref.part == p.id && t.state.present) ||
      cs.any fun k => ((s.core k).slots.any fun e => mine e && e.2.inFlight) || !(s.core k).waits.isEmpty
    if busy then s.answer c 3
    else (cs.foldl (fun s k =>
      s.setCore { s.core k with slots := (s.core k).slots.filter fun e => !mine e }) s).answer c 1

/-! ### The management ring (R411) -/

/-- The record at the ring's head: its OP and the command. -/
def ringHead (s : State) : Option (Nat × Cmd) :=
  if s.dev.up ≠ 1 ∨ s.dev.mrhead = s.dev.mrtail then none
  else
    let at_ := s.dev.mrbase.toNat + 32 * (s.dev.mrhead.toNat % 2 ^ (s.dev.mrlog2.toNat % 16))
    let r := BitVec.ofNat 256 (s.rdMem at_ 32 0)
    some (fld r 7 0, { part := fld r 15 8, arg0 := fld r 127 64, arg1 := fld r 191 128,
                       clean := fld r 31 16 == 0 && fld r 255 200 == 0, at_ := at_ })

/-- Performs a command by its code (R413). -/
def runCommand (op : Nat) (c : Cmd) (s : State) : Out :=
  match op with
  | 1 => execPartCreate c s
  | 2 => execPartDestroy c s
  | 3 => execPreempt c s
  | 4 => execRestore c s
  | 5 => execKill c s
  | 6 => execReplay c s
  | 7 => execResume c s
  | 8 => execRegionLock c s
  | 9 => execRegionUnlock c s
  | 10 => execSlotFlush c s
  | _ => .next (s.answer c 2)

/-- Areas of memory that a command reads or writes for the firmware: its record, and the tables it names. -/
def cmdAreas (s : State) (op : Nat) (c : Cmd) : List (Nat × Nat) :=
  (c.at_, 32) :: (match op with
    | 1 =>
      let r := BitVec.ofNat 1024 (s.rdMem c.arg0 128 0)
      [(c.arg0, 128), (prGtab r, 4 * prNgran r), (prLqtab r, 32 * prNlq r), (prFqBase r, 64)]
    | 4 => (c.arg0, 64) :: ((s.part? c.part).map fun p => (prFqBase p.prec, 64)).toList
    | _ => [])

/-- Firmware takes the record at the ring's head; one naming a partition with a command in progress waits. Lines that the
host owns are recalled first (R77). -/
def takeCommand (s : State) : Out :=
  match ringHead s with
  | some (op, c) =>
    match s.hostHeldIn (cmdAreas s op c) with
    | some l => .next (s.askHost l)
    | none =>
      if (s.part? c.part).any fun p => p.cmd.isSome then .next s
      else runCommand op c { s with dev := { s.dev with mrhead := s.dev.mrhead + 1 } }
  | none => .next s

/-- A command in progress goes on. -/
def goOn (part : Nat) (s : State) : Out :=
  match (s.part? part).bind (·.cmd) with
  | some (op, c) =>
    match s.hostHeldIn (cmdAreas s op c) with
    | some l => .next (s.askHost l)
    | none => runCommand op c s
  | none => .next s

end Sys2Proof.Machine
end

