-- ==== Sys2Proof/Machine/Shake.lean ====
section
/-!
DEFINITION. SHAKE256 (R454, R455, R457): the sponge over Keccak-f[1600] with a rate of 136 bytes.
-/
namespace Sys2Proof.Machine

/-- Rotation offsets of the lanes, lane (x, y) at 5 y + x. -/
def keccakOffsets : List Nat :=
  [0, 1, 62, 28, 27, 36, 44, 6, 55, 20, 3, 10, 43, 25, 39, 41, 45, 15, 21, 8, 18, 2, 61, 56, 14]
/-- Round constants. -/
def keccakRounds : List (BitVec 64) :=
  [0x0000000000000001, 0x0000000000008082, 0x800000000000808A, 0x8000000080008000, 0x000000000000808B, 0x0000000080000001,
   0x8000000080008081, 0x8000000000008009, 0x000000000000008A, 0x0000000000000088, 0x0000000080008009, 0x000000008000000A] ++
  [0x000000008000808B, 0x800000000000008B, 0x8000000000008089, 0x8000000000008003, 0x8000000000008002, 0x8000000000000080,
   0x000000000000800A, 0x800000008000000A, 0x8000000080008081, 0x8000000000008080, 0x0000000080000001, 0x8000000080008008]

/-- A lane of a state, or 0. -/
def lane64 (a : List (BitVec 64)) (i : Nat) : BitVec 64 := (a[i]?).getD 0

/-- One round: theta, rho and pi, chi, iota. -/
def keccakRound (a : List (BitVec 64)) (rc : BitVec 64) : List (BitVec 64) :=
  let c := (List.range 5).map fun x => (List.range 5).foldl (fun v y => v ^^^ lane64 a (5 * y + x)) 0
  let t := (List.range 25).map fun i => lane64 a i ^^^ lane64 c ((i + 4) % 5) ^^^ (lane64 c ((i + 1) % 5)).rotateLeft 1
  let b := (List.range 25).map fun i =>
    let j := 5 * (i % 5) + (i % 5 + 3 * (i / 5)) % 5
    (lane64 t j).rotateLeft ((keccakOffsets[j]?).getD 0)
  (List.range 25).map fun i =>
    let at_ := fun (k : Nat) => lane64 b (5 * (i / 5) + (i % 5 + k) % 5)
    at_ 0 ^^^ (~~~at_ 1 &&& at_ 2) ^^^ if i = 0 then rc else 0
/-- The permutation Keccak-f[1600]. -/
def keccak (a : List (BitVec 64)) : List (BitVec 64) := keccakRounds.foldl keccakRound a

/-- A message padded to whole blocks of 136 bytes. -/
def shakePad (msg : List Byte) : List Byte :=
  let n := 135 - msg.length % 136
  if n = 0 then msg ++ [0x9F] else msg ++ 0x1F :: List.replicate (n - 1) 0 ++ [0x80]
/-- Eight bytes as a lane, least significant first, and back. -/
def laneOf (bs : List Byte) : BitVec 64 := bs.foldr (fun b v => v <<< 8 ||| b.setWidth 64) 0
def laneBytes (v : BitVec 64) : List Byte := (List.range 8).map fun i => (v >>> (8 * i)).setWidth 8
/-- Absorbs n blocks. -/
def shakeAbsorb : Nat → List Byte → List (BitVec 64) → List (BitVec 64)
  | 0, _, a => a
  | n + 1, bs, a => shakeAbsorb n (bs.drop 136)
      (keccak ((List.range 25).map fun i => lane64 a i ^^^ if i < 17 then laneOf ((bs.drop (8 * i)).take 8) else 0))
/-- The first bytes, at most 136, of the SHAKE256 digest of a message. -/
def shake256 (msg : List Byte) (n : Nat) : List Byte :=
  let bs := shakePad msg
  (((shakeAbsorb (bs.length / 136) bs (List.replicate 25 0)).take 17).flatMap laneBytes).take n

end Sys2Proof.Machine
end

