-- ==== Sys2Proof/Machine/Fleet.lean ====
section
/-!
DEFINITION. Refresh (R62 to R64), error protection and background work (R459 to R461), fences (R462, R463),
telemetry, power and heat (R465 to R467), and starts (R454, R456, R464).
-/
namespace Sys2Proof.Machine

/-! ### Refresh (R62 to R64) -/

/-- The bank that the n-th scheduled refresh targets, and the bank group of a bank. -/
def dueBank (n : Nat) : Nat := 4 * (n % 4) + n / 4 % 4
def groupOf (bank : Nat) : Nat := bank / 4

/-- The time at which a pseudo-channel's next scheduled refresh falls due (R62). -/
def Pch.dueAt (p : Pch) : Nat := Config.freeEpoch p.stack p.pch + 1464 * p.n
/-- A bank group's refreshes at a time where none runs in it: the scheduled one that waits, then, when the group is
not busy, the oldest owed (R63). DESIGN CHOICE (log 115): one that falls due while an all-bank refresh of the
pseudo-channel runs waits for its end, although its group is not busy. -/
def Pch.start (p : Pch) (bg t : Nat) : Pch × Option Nat :=
  let here := fun (b : Nat) => groupOf b == bg
  if p.all_.isSome ∨ p.banks.any fun b => here b.1 then (p, none)
  else match p.due.find? here with
    | some b => ({ p with due := p.due.erase b, banks := p.banks ++ [(b, t + 1200)] }, some b)
    | none => if p.busy.contains bg then (p, none)
      else match p.owed.find? here with
        | some b => ({ p with owed := p.owed.erase b, banks := p.banks ++ [(b, t + 1200)] }, some b)
        | none => (p, none)

namespace State
/-- A pseudo-channel changes, and a bank group's refreshes go on at a time: reads of the bank wait (R64). -/
def startIn (s : State) (p : Pch) (bg t : Nat) : State :=
  match p.start bg t with
  | (p, some b) => (s.setPch p).delayReads p (some b) t
  | (p, none) => s.setPch p
/-- All-bank refresh at a time: the debt is paid, and every read waits (R63). -/
def startAll (s : State) (p : Pch) (t : Nat) : State :=
  let p := { p with all_ := some (t + 2100), owed := [] }
  (s.setPch p).delayReads p none t
end State

/-- `REFRESH_DUE`: the next scheduled refresh of a pseudo-channel falls due (R62, R63). -/
def execRefreshDue (stack pch : Nat) (s : State) : Out :=
  let p := s.pch stack pch
  let t := p.dueAt
  let b := dueBank p.n
  let q := { p with n := p.n + 1 }
  .next (if s.dev.up ≠ 1 ∨ s.now < t then s
    else if s.bankBusy p (groupOf b) t then
      (if p.owed.length < 8 then s.setPch { q with owed := q.owed ++ [b] } else s.startAll q t)
    else s.startIn { q with due := q.due ++ [b] } (groupOf b) t)

/-- `REFRESH_END`: of a bank, or with bank 16 of an all-bank refresh; what waited in its groups goes on. -/
def execRefreshEnd (stack pch bank : Nat) (s : State) : Out :=
  let p := s.pch stack pch
  if bank = 16 then
    match p.all_ with
    | some e => .next (if s.now < e then s else (List.range 4).foldl (fun s g => s.startIn (s.pch stack pch) g e)
        (s.setPch { p with all_ := none }))
    | none => .next s
  else match p.banks.find? fun b => b.1 = bank with
    | some (_, e) => .next (if s.now < e then s
        else s.startIn { p with banks := p.banks.filter fun b => b.1 ≠ bank } (groupOf bank) e)
    | none => .next s

/-- `BANK_GROUP_IDLE`: the hold window has passed with no read. -/
def execBankGroupIdle (stack pch bg : Nat) (s : State) : Out :=
  let p := s.pch stack pch
  let t := (p.idleAt bg).getD s.now
  .next (if !p.busy.contains bg ∨ s.now < t ∨ s.bankBusy p bg t then s else s.startIn { p with busy := p.busy.erase bg } bg t)

/-- `PHY_CALIBRATION`: a window begins, at most once in 100 ms; reads and writes wait for it (R460, R461). -/
def execPhyCalibration (stack pch : Nat) (s : State) : Out :=
  let p := s.pch stack pch
  .next (if s.dev.up = 1 ∧ !p.calib ∧ (p.calibAt = 0 ∨ p.calibAt + 600000000 ≤ s.now)
    then s.setPch { p with calib := true, calibAt := Nat.max 1 s.now } else s)
/-- `PHY_CALIBRATION_END`: the reads that the window held start, unless a refresh holds them further (R461). -/
def execPhyCalibrationEnd (stack pch : Nat) (s : State) : Out :=
  let p := s.pch stack pch
  .next (if p.calib then let q := { p with calib := false }; (s.setPch q).resumeReads q else s)

/-- What a pseudo-channel's time brings: a refresh falls due, a refresh ends, a hold window ends, a calibration window must
end. -/
inductive BankEvent where
  | due
  | ends (bank : Nat)
  | idle (bg : Nat)
  | calibrated
  deriving DecidableEq, Repr

/-- Events of a pseudo-channel with the times at which they are due; of those at one time a refresh that falls due
comes first, then ends of refreshes, then hold windows (R63). -/
def pchEvents (s : State) (p : Pch) : List (Nat × BankEvent) :=
  List.flatten [
    [(p.dueAt, .due)],
    p.banks.map fun b => (b.2, .ends b.1),
    p.all_.toList.map fun e => (e, .ends 16),
    (p.busy.filter fun bg => !s.bankBusy p bg ((p.idleAt bg).getD s.now)).map fun bg => ((p.idleAt bg).getD s.now, .idle bg),
    if p.calib then [(p.calibAt + 6000, .calibrated)] else []]
/-- The earliest event whose time has come, of one of the pseudo-channels: nothing else happens before it (R62, R461). -/
def overdue (s : State) : Option (Pch × BankEvent) :=
  if s.dev.up ≠ 1 then none
  else ((s.pchs.flatMap fun p => (pchEvents s p).map fun e => (e.1, p, e.2)).foldl (fun (best : Option (Nat × Pch × BankEvent)) e =>
    if s.now < e.1 then best
    else match best with
      | some b => if e.1 < b.1 then some e else best
      | none => some e) none).map (·.2)
/-- An event of a pseudo-channel happens. -/
def runEvent (e : Pch × BankEvent) (s : State) : Out :=
  match e.2 with
  | .due => execRefreshDue e.1.stack e.1.pch s
  | .ends b => execRefreshEnd e.1.stack e.1.pch b s
  | .idle g => execBankGroupIdle e.1.stack e.1.pch g s
  | .calibrated => execPhyCalibrationEnd e.1.stack e.1.pch s

/-! ### Fences (R462, R463) -/

/-- A unit has been fenced: the package asks to be replaced, which changes DEVSTAT (R440, R462). -/
def State.replacing (s : State) (cause : Nat) : State :=
  { s with dev := { s.dev with replace := true, repCause := s.dev.repCause ||| BitVec.ofNat 32 cause } }.send (.msix 0)

/-- A core meets a condition of R462: it is pending while its pair belongs to a partition, else fenced. -/
def State.fenceCore (s : State) (core : Nat) : State :=
  if s.dev.fenceC.contains core ∨ s.dev.pendC.contains core then s
  else if s.parts.any fun p => (prCores p.prec).contains core then { s with dev := { s.dev with pendC := core :: s.dev.pendC } }
  else { s with dev := { s.dev with fenceC := core :: s.dev.fenceC } }.replacing 1

/-- Pages with a chunk in a fenced pseudo-channel, ascending (R462). -/
def badPages (fenceP : List (Nat × Nat)) : List Nat :=
  (List.range (2 ^ 23)).filter fun pg => (List.range 32).any fun c =>
    fenceP.contains (hbmStack (65536 * pg + 2048 * c), hbmPch (65536 * pg + 2048 * c))

/-- Firmware rewrites the bad-page table (R463), once lines of it that the host owns are recalled (R77). -/
def State.listBadPages (s : State) : State :=
  let at_ := Config.badPageTable
  let ps := (badPages s.dev.fenceP).map (65536 * ·)
  match s.hostHeldIn [(at_, 8 + 8 * ps.length)] with
  | some l => let s := s.askHost l; { s with dev := { s.dev with badDue := true } }
  | none =>
    let t := (s.wrMem at_ 8 ps.length 0).wrMem (at_ + 8) (8 * ps.length) (ofBytes (ps.flatMap (leBytes 8))) 0
    { s with mem := t.mem, skey := t.skey, dirty := t.dirty, unwritten := t.unwritten, images := t.images,
             dev := { s.dev with raced := t.dev.raced, badPg := BitVec.ofNat 64 at_, badDue := false } }

/-- A pseudo-channel is fenced, at once. -/
def State.fencePch (s : State) (stack pch : Nat) : State :=
  if s.dev.fenceP.contains (stack, pch) then s
  else ({ s with dev := { s.dev with fenceP := (stack, pch) :: s.dev.fenceP } }.replacing 2).listBadPages

/-- A network port is fenced. -/
def State.fencePort (s : State) (n : Nat) : State :=
  if s.dev.fenceN.contains n then s else { s with dev := { s.dev with fenceN := n :: s.dev.fenceN } }.replacing 4

/-! ### Scrubs and errors (R459 to R461) -/

/-- Marks a sector poisoned (R418). -/
def State.poisonSector (s : State) (x : Nat) : State := if s.poison.contains x then s else { s with poison := x :: s.poison }

/-- Accesses that have issued are still to read some places: of loads that hold nothing up, and of atomic accesses. An
error there is found after them (R257). -/
def State.toRead (s : State) (on : Loc → Bool) : Bool :=
  s.groups.any fun g => (g.loads.any fun l => l.places.any fun x => on x && (byteAt (l.got ++ l.past) x).isNone) ||
    g.stores.any fun w => w.rmw.isSome && w.ws.any fun e => on e.1
/-- Places in a sector, a word of chip scratchpad, or the arrays of a core. -/
def inSector (x : Nat) : Loc → Bool
  | .mem pa _ => pa / 64 == x
  | _ => false
def inArray (s : State) : SramArray → Loc → Bool
  | .dirtyLine n, .mem pa _ => pa / 2048 == n / 16
  | .chipWord off, .chip o => o / 8 == off / 8
  | .coreArray k, .spd t _ => (s.team? t).any fun x => x.roots.any fun e => e.1 == k
  | .coreArray k, .slc g _ | .coreArray k, .lreg g _ => (s.group? g).any fun x => x.core == k
  | _, _ => false

/-- Ranges of sectors with one more. -/
def addSector : List (Nat × Nat) → Nat → List (Nat × Nat)
  | [], x => [(x, 1)]
  | (a, n) :: l, x => if a + n = x then (a, n + 1) :: l else (a, n) :: addSector l x
/-- The first sector from x on that lies in none of the ranges; the number bounds how many of them are passed. -/
def firstOutside (rs : List (Nat × Nat)) : Nat → Nat → Nat
  | 0, x => x
  | n + 1, x => match rs.find? fun r => r.1 ≤ x ∧ x < r.1 + r.2 with
    | some r => firstOutside rs n (r.1 + r.2)
    | none => x
/-- A patrol pass is complete: every sector has been scrubbed in it, or lies in an unwritten chunk (R460). -/
def passComplete (s : State) : Bool :=
  let rs := s.dev.scrubbed ++ s.unwritten.map fun r => (32 * r.1, 32 * r.2)
  2 ^ 33 ≤ firstOutside rs (rs.length + 1) 0

/-- `PATROL_SCRUB`. The scrub waits for a refresh of its bank and for a calibration window of its pseudo-channel,
and skips unwritten chunks; an access that may end the pass does so where no sector is left, and the next pass begins. -/
def execPatrolScrub (sector : Nat) (r : ScrubResult) (endsPass : Bool) (s : State) : Out :=
  let pa := 64 * sector
  let p := s.pch (hbmStack pa) (hbmPch pa)
  if s.dev.up ≠ 1 ∨ !isHbm pa ∨ p.calib ∨ (p.refreshEnd (hbmBank pa) s.now).isSome ∨ s.toRead (inSector sector) then .next s
  else
    let s := if chunkUnwritten s.unwritten (pa / 2048) then s
      else match r with
        | .clean => s
        | .corrected => { s with dev := { s.dev with hbmCe := satAdd s.dev.hbmCe 1 } }
        | .uncorrectable =>
          let s := ({ s with dev := { s.dev with hbmUe := satAdd s.dev.hbmUe 1 } }.poisonSector sector).setPch
            { p with bad := p.bad + 1 }
          if 16 ≤ p.bad + 1 then s.fencePch p.stack p.pch else s
    let s := { s with dev := { s.dev with scrubbed := addSector s.dev.scrubbed sector } }
    .next (if endsPass ∧ passComplete s then
      { s with dev := { s.dev with scrubP := satAdd s.dev.scrubP 1, scrubbed := [] }, pchs := s.pchs.map fun q => { q with bad := 0 } }
      else s)

/-- Hours and seconds in cycles of 1.2 GHz. -/
def cyclesIn (hours : Nat) : Nat := hours * 4320000000000
def secondOf (clock : Nat) : Nat := clock / 1200000000
/-- An uncorrectable error in a core's arrays counts: the second within 24 h fences the core (R462). -/
def State.countError (s : State) (k : Nat) : State :=
  let ts := s.clock :: (s.core k).ueAt.filter fun t => s.clock ≤ t + cyclesIn 24
  let s := s.setCore { s.core k with ueAt := ts }
  if 2 ≤ ts.length then s.fenceCore k else s
/-- A corrected one counts: more than 10000 within 1 h fence the core (R462). -/
def State.countCorrected (s : State) (k : Nat) : State :=
  let ts := s.clock :: (s.core k).ceAt.filter fun t => s.clock ≤ t + cyclesIn 1
  let s := s.setCore { s.core k with ceAt := ts }
  if 10000 < ts.length then s.fenceCore k else s
/-- A CRC retry of a port counts: more than 1000 in each of 60 consecutive seconds fence the port (R462). `portCrc` holds of
a port the second of its last retry, the retries in it, and the seconds before it with more than 1000. DESIGN CHOICE (log
124): seconds are those of the clock. -/
def State.countRetry (s : State) (n : Nat) : State :=
  let now := secondOf s.clock
  let e : PortCrc := match s.dev.portCrc.find? fun e => e.port = n with
    | some e =>
      if e.second = now then { e with count := e.count + 1 }
      else ⟨n, now, 1, if e.second + 1 = now ∧ 1000 < e.count then e.run + 1 else 0⟩
    | none => ⟨n, now, 1, 0⟩
  let s := { s with dev := { s.dev with portCrc := e :: s.dev.portCrc.filter fun e => e.port ≠ n } }
  if 1000 < e.count ∧ 59 ≤ e.run then s.fencePort n else s

/-- The sectors that are written back with a line: the two of a line of an L1 or L2, or, where the memory-side cache has
it dirty and the L2 has not, the dirty ones of its 2 KiB line there. -/
def State.dirtySectors (s : State) (l : Nat) : List Nat :=
  if s.l2.any fun e => e.line == l && e.dirty then [2 * l, 2 * l + 1]
  else match s.msc.find? fun m => m.chunk = l / 16 ∧ m.dirty &&& State.lineSectors l ≠ 0 with
    | some m => ((List.range 32).filter m.dirty.getLsbD).map (32 * m.chunk + ·)
    | none => [2 * l, 2 * l + 1]

/-- An uncorrectable error in an array (R459): the action of its row. -/
def State.sramError (s : State) : SramArray → State
  | .cleanLine => s
  | .dirtyLine l =>
    let xs := s.dirtySectors l
    if s.dirty.any fun e => xs.contains e.1 then
      xs.foldl State.poisonSector { s with
        dirty := s.dirty.filter fun e => !xs.contains e.1
        l2 := s.l2.map fun e => if xs.contains (2 * e.line) then { e with dirty := false } else e
        msc := s.msc.map fun m => if xs.any fun x => x / 32 == m.chunk then
          { m with dirty := (List.range 32).foldl (fun d i =>
              if xs.contains (32 * m.chunk + i) then d &&& ~~~(1#32 <<< i) else d) m.dirty } else m }
    else s
  | .coreArray k => (s.setCore { s.core k with flaws := (s.core k).flaws + 1 }).countError k
  | .istore k slot lane word =>
    let s := match s.slotOf k slot with
      | .ready i => s.setSlot k slot (.ready { i with bad := (lane, word) :: i.bad })
      | .draining i p => s.setSlot k slot (.draining { i with bad := (lane, word) :: i.bad } p)
      | _ => s
    s.countError k
  | .chipWord off => if s.chipBad.contains (off / 8) then s else { s with chipBad := off / 8 :: s.chipBad }

/-- The core an array is in. -/
def SramArray.core? : SramArray → Option Nat
  | .coreArray k | .istore k _ _ _ => some k
  | _ => none

/-- `SRAM_SCRUB` (R459, R460). -/
def execSramScrub (a : SramArray) (r : ScrubResult) (s : State) : Out :=
  if s.dev.up ≠ 1 then .next s
  else match r with
    | .clean => .next s
    | .corrected =>
      let s := { s with dev := { s.dev with sramCe := satAdd s.dev.sramCe 1 } }
      .next (match SramArray.core? a with
        | some k => s.countCorrected k
        | none => s)
    | .uncorrectable =>
      .next (if s.toRead (inArray s a) then s else { s with dev := { s.dev with sramUe := satAdd s.dev.sramUe 1 } }.sramError a)

/-- `CRC_RETRY`: a flit is retried; a lost frame is recovered by R340; a port that retries too often is fenced. -/
def execCrcRetry (site : CrcSite) (s : State) : Out :=
  match site with
  | .hostLink => .next { s with dev := { s.dev with linkRty := satAdd s.dev.linkRty 1 } }
  | .port n => .next (s.countRetry n)

/-! ### Telemetry, power and heat (R465 to R467) -/

/-- `PWRLIM_WRITE`: clamped. -/
def execPwrlimWrite (v : BitVec 32) (s : State) : Out :=
  .next (if s.dev.up = 1 then
    { s with dev := { s.dev with pwrlim := BitVec.ofNat 32 (Nat.min (Nat.max v.toNat 1000000) 3600000) } } else s)

/-- `TELEMETRY_SAMPLE`: the gauges are rewritten together, and a control step is due (R460, R465, R466). -/
def execTelemetrySample (x : Sample) (s : State) : Out :=
  .next (if s.dev.up = 1 then
    { s with dev := { s.dev with power := x.power, dieTemp := x.dieTemp, hbmTemp := x.hbmTemp, snap := satAdd s.dev.snap 1,
                                 sampleAt := s.clock, sampled := true } }
    else s)

/-- A cycle in which issue is gated (R466). DESIGN CHOICE (log 125): of every 16 cycles the first ones. -/
def State.gated (s : State) : Bool := s.clock % 16 < s.dev.gate
/-- Gated cycles before a cycle, at a fraction. -/
def gatedBefore (gate clock : Nat) : Nat := clock / 16 * gate + Nat.min (clock % 16) gate
/-- The device with the cycles gated so far counted in THROT. -/
def State.throttled (s : State) : Dev :=
  let d := s.dev
  { d with throt := satAdd d.throt (gatedBefore d.gate s.clock - gatedBefore d.gate d.gateAt), gateAt := s.clock }

/-- A die has reached a temperature, in units of 0.125 °C. -/
def Dev.reached (d : Dev) (t : Int) : Bool := d.dieTemp.any fun x => t ≤ x.toInt

/-- `THERMAL_CONTROL`: the gated fraction of issue cycles, in sixteenths, steps up or down once for each sample; cycles gated
since the last step are counted (R466). DESIGN CHOICE (log 125): at most 15 sixteenths are gated, so that every stream still
issues. -/
def execThermalControl (s : State) : Out :=
  .next (if s.dev.up = 1 ∧ s.dev.sampled then
    let d := s.throttled
    let hot := d.pwrlim < d.power || d.reached 760
    { s with dev := { d with
        gate := (if hot then Nat.min (d.gate + 1) 15 else d.gate - 1), gateAt := s.clock, sampled := false } }
    else s)

/-- What a restart loses: partitions and all they hold, keys, on-chip storage, and data that caches had not
written back. The clock starts from 0 (R189). -/
def State.powerDown (s : State) : State :=
  { s with parts := [], launches := [], teams := [], groups := [], cores := [], ops := [], partials := [], chip := [],
           chipBad := [], hostLines := [], dirty := [], l2 := [], msc := [], pred := [], clock := 0,
           skey := s.dirty.foldl (fun k e => setKey k e.1 (2 ^ 64 + 256)) s.skey, pchs := [], others := [], touched := [],
           dev := { s.dev with up := 0, declaring := [], raced := [], regs := Dev.reset.regs, mrbase := 0, mrlog2 := 0,
                               mrtail := 0, mrhead := 0, att := .reset, fw := .reset, hkey := [],
                               fenceC := (s.dev.pendC ++ s.dev.fenceC).eraseDups, pendC := [], gate := 0, gateAt := 0,
                               sampleAt := 0, sampled := false, portCrc := [], scrubbed := [],
                               throt := 0, hbmCe := 0, hbmUe := 0, sramCe := 0, sramUe := 0, scrubP := 0, linkRty := 0,
                               netNack := 0, netLost := 0, snap := 0, power := 0, pwrlim := 3600000 } }

/-- Every key is lost: what HBM holds is under keys that no longer exist (R467). -/
def State.loseKeys (s : State) : State :=
  { s with skey := (s.mem.filter fun c => isHbm c.1).foldl (fun k c => setKey k (c.1 / 64) (2 ^ 64 + 256)) s.skey }

/-- `TRIP`: a die has reached 110 °C; the package restarts (R467). -/
def execTrip (s : State) : Out :=
  .next (if s.dev.reached 880 ∧ s.dev.up = 1 then
    let s := s.powerDown.loseKeys
    { s with dev := { s.dev with trips := satAdd s.dev.trips 1, tripped := true, dieTemp := Dev.reset.dieTemp,
                                 hbmTemp := Dev.reset.hbmTemp } }.send (.msix 0) else s)

/-! ### Starts (R454, R456, R464) -/

/-- A start has failed with a cause; with the next the clock starts from 0 again (R189). -/
def State.failStart (s : State) (reason : BitVec 8) : State :=
  { s with clock := 0, dev := { s.dev with up := 0, failcnt := Nat.min (s.dev.failcnt + 1) 3, reason := reason,
                                           tripped := false } }.send (.msix 0)

/-- The cause for which an image fails the checks of R454: its signature, or its version. -/
def imageFault (image : List Byte) : Option (BitVec 8) :=
  if !Config.signatureVerifies (shake256 image 64) image then some 0x01
  else if Config.imageVersion image < Config.rollbackCounter.toNat then some 0x02
  else none

/-- Units that a start has found failing are fenced, with those that were before (R462). A start that finds no HBM stack to
train fences every pseudo-channel, one that finds no core pair a core of each. -/
def State.fenceFailed (s : State) (r : StartResult) (cores pchs ports : List Nat) : State :=
  let d := s.dev
  let left := (List.range 144).filter fun j => !(cores ++ d.fenceC).any fun k => k / 2 = j
  let cs := d.fenceC ++ cores ++ if r = .failed 0x06 then left.map fun j => 2 * j + (if s.bit j then 1 else 0) else []
  let ps := d.fenceP ++ (if r = .failed 0x03 then List.range 1280 else pchs).map fun x => (x / 160, x % 160)
  { s with dev := { d with fenceC := cs.eraseDups, fenceP := ps.eraseDups, fenceN := (d.fenceN ++ ports).eraseDups } }
/-- Every pseudo-channel, or a core of every pair, is fenced. -/
def Dev.noStack (d : Dev) : Bool := (List.range 1280).all fun x => d.fenceP.contains (x / 160, x % 160)
def Dev.noPair (d : Dev) : Bool := (List.range 144).all fun j => d.fenceC.contains (2 * j) || d.fenceC.contains (2 * j + 1)

/-- `DEVICE_START` (R454, R456, R464): a start that begins with FAILCNT = 3 enters MINIMAL. Another reads the boot flash and
checks the image in it, then trains and tests the units, of which those that fail are fenced, and fails or reaches UP. -/
def execDeviceStart (r : StartResult) (fencedCores fencedPch fencedPorts : List Nat) (s : State) : Out :=
  if s.dev.up = 1 then .next s
  else if s.dev.failcnt = 3 then
    .next ({ s.powerDown with dev := { s.powerDown.dev with up := 2, tripped := false } }.send (.msix 0))
  else if r = .failed 0x07 then .next (s.failStart 0x07)
  else match imageFault s.dev.flash with
  | some reason => .next (s.failStart reason)
  | none =>
    let s := s.powerDown.fenceFailed r fencedCores fencedPch fencedPorts
    let d := s.dev
    let any := !d.fenceC.isEmpty || !d.fenceP.isEmpty || !d.fenceN.isEmpty
    let cause := (if d.fenceC.isEmpty then 0 else 1) + (if d.fenceP.isEmpty then 0 else 2) + (if d.fenceN.isEmpty then 0 else 4) +
      (if d.tripped then 8 else 0)
    let failed := fun (reason : BitVec 8) => Host.Outcome.next
      ({ s with dev := { d with replace := d.replace || any } }.failStart reason)
    if d.noStack then failed 0x03
    else if d.noPair then failed 0x06
    else match r with
      | .failed reason => failed (if reason = 0x04 then 0x04 else 0x05)
      | .up =>
        .next ({ s with dev := { d with up := 1, failcnt := 0, reason := 0, stage1 := d.flash, replace := any,
                                        repCause := BitVec.ofNat 32 cause, tripped := false } }.listBadPages.send (.msix 0))

/-- `START_WATCHDOG_EXPIRY`: a start that has not reached UP fails (R456). -/
def execStartWatchdogExpiry (s : State) : Out :=
  .next (if s.dev.up = 0 then s.failStart 0x05 else s)

/-- Calibration windows that may end. -/
def calibrations (s : State) : List (Nat × Nat) := (s.pchs.filter (·.calib)).map fun p => (p.stack, p.pch)

end Sys2Proof.Machine
end

