-- ==== Sys2Proof/Machine/Link.lean ====
section
/-!
DEFINITION. The host link (R87, R418, R447), network set-up (R449), lost ranks (R452) and REMOTE lines (R60, R453).
-/
namespace Sys2Proof.Machine

/-! ### Host requests (R87, R95, R447) -/

/-- The key instance that stands for a key index: the firmware's for 0, and one no sector is written under for an
index no partition has. -/
def keyInstance (s : State) (idx : Nat) : Nat :=
  if idx = 0 then 0 else ((s.parts.find? fun p => prKey p.prec = idx).map (·.key)).getD (2 ^ 64 + idx)
/-- The key of host accesses to a physical address: HKEY of its GiB (R438). -/
def hostKey (s : State) (pa : Nat) : Nat := keyInstance s (((s.dev.hkey.find? fun e => e.1 = pa / 2 ^ 30).map (·.2.toNat)).getD 0)

/-- The partitions' regions that an access touches, by its first and last page. -/
def hostRegions (s : State) (pa n : Nat) : List (Nat × Nat) :=
  s.parts.flatMap fun p => (((regionOf s p pa).toList ++ (regionOf s p (pa + n - 1)).toList).eraseDups).map fun r => (p.id, r)

/-- Asks for the quiets a host access to ACC words needs; whether all are complete and the sums drained are
performed. -/
def hostQuiet (s : State) (pa n : Nat) : State × Bool :=
  let rs := hostRegions s pa n
  let s := rs.foldl (fun s r => s.askQuiet r.1 r.2 (.host pa) 0 none) s
  (s, rs.all fun r => s.isQuiet r.1 r.2 (.host pa) && !s.partials.any fun e => e.1 == r.1 && e.2.region == r.2)
def hostQuietUsed (s : State) (pa n : Nat) : State :=
  (hostRegions s pa n).foldl (fun s r => s.useQuiet r.1 r.2 (.host pa)) s

/-- The places of a host access. -/
def hostLocs (s : State) (addr n : Nat) : List Loc := (List.range n).map fun i => .mem (addr + i) (hostKey s (addr + i))

/-- The host may keep the lines it reads, which it then owns (R87). -/
def hostKeeps (s : State) (addr n : Nat) : State :=
  (List.range ((addr + n - 1) / 128 + 1 - addr / 128)).foldl (fun s i =>
    let l := addr / 128 + i
    if s.hostLines.any (fun e => e.1 = l) || !s.bit (3000 + l) then s else { s with hostLines := (l, 0) :: s.hostLines }) s

/-- The words of L1s that a host read touches are recalled (R77). -/
def hostRecalls (s : State) (addr n : Nat) : State :=
  s.recalls (hostLocs s addr n)

/-- Stores of groups at `.sys`, of another size, that a host read overlaps may be performed during it: of each byte the read
takes the old or the new one (R81). The bytes that it reads old are listed. -/
def hostMix (s : State) (n : Nat) (ls : List Loc) : State × List (Loc × Byte) :=
  s.groups.foldl (fun r g => g.stores.zipIdx.foldl (fun (r : State × List (Loc × Byte)) e =>
    let w := e.1
    let here := (w.ws.map (·.1)).filter ls.contains
    let at_ := ((r.1.group? g.ref).bind fun h => h.stores.findIdx? (· == w)).getD g.stores.length
    if w.scope = some .sys ∧ w.size ≠ n ∧ here ≠ [] ∧ r.1.bit (2 ^ 230 + (here.head?.map (·.number)).getD 0) then
      (r.1.performStore g.ref at_, r.2 ++ (here.filter fun l => r.1.bit (2 ^ 231 + l.number)).map fun l => (l, r.1.peek l))
    else r) r) (s, [])

/-- `HOST_CXL_MEM_READ`: as `ld` at `.sys` at the home slice; a request that must wait for a quiet keeps its place before
later ones (R447). -/
def execHostCxlMemRead (addr n : Nat) (s : State) : Out :=
  if s.dev.up ≠ 1 ∨ n = 0 ∨ 2 ^ 39 < addr + n then .next s
  else match hostQuiet s addr n with
    | (s, false) => .next { s with pending := .hostCxlMemRead addr n :: s.pending }
    | (s, true) =>
      let s := hostRecalls (hostQuietUsed s addr n) addr n
      let ls := hostLocs s addr n
      .next (if ls.any s.bad then s.send (.hostPoison addr)
        else
          let (s, old) := hostMix s n ls
          hostKeeps (s.send (.hostData addr (ls.map (s.readBy old)))) addr n)

/-- The bits of a byte of the device's structures in memory that the host only reads or that are reserved, and those that
are W1C (R6): the header and records of a fault queue, launch queue and region descriptors, the header of a save area
(R92, R422, R429, R430, R434). -/
def fieldMask (s : State) (a : Nat) : Byte × Byte :=
  (s.parts.findSome? fun p =>
    let at_ := fun (base n : Nat) => if base ≤ a && a < base + n then some (a - base) else none
    match at_ (prFqBase p.prec) (64 + 64 * prFqCap p.prec), at_ (prLqtab p.prec) (32 * prNlq p.prec),
        at_ (prRdt p.prec) (32 * prNrdt p.prec), p.saveAt.bind fun x => at_ x.1 64 with
    | some o, _, _, _ => some (if 4 ≤ o && o < 8 then (0, 0) else if o = 8 then (0xFE, 1) else (0xFF, 0))
    | none, some o, _, _ =>
      some (if o % 32 = 8 then (0xE0, 0) else if (9 ≤ o % 32 && o % 32 < 12) || 16 ≤ o % 32 then (0xFF, 0) else (0, 0))
    | none, none, some o, _ =>
      some (if o % 32 = 24 then (0xFC, 3) else if o % 32 = 3 || (12 ≤ o % 32 && o % 32 < 16) || 25 ≤ o % 32 then (0xFF, 0) else (0, 0))
    | none, none, none, some _ => some (0xFF, 0)
    | none, none, none, none => none).getD (0, 0)

/-- What a host write makes of a byte. -/
def hostByte (s : State) (a : Nat) (b : Byte) : Byte :=
  let old := BitVec.ofNat 8 (s.rdMem a 1 0)
  let m := fieldMask s a
  (old &&& m.1) ||| (old &&& ~~~b &&& m.2) ||| (b &&& ~~~(m.1 ||| m.2))

/-- Bytes of the host are written: engines that race with them may have read what stood there (R85), and the L1s' copies
go (R77). -/
def hostWrites (s : State) (addr : Nat) (bytes : List Byte) : State :=
  let ls := hostLocs s addr bytes.length
  let ws := ls.zip ((List.range bytes.length).zip bytes |>.map fun e => hostByte s (addr + e.1) e.2)
  let s := s.mixWith none (some .sys) bytes.length false ls
  let s := s.parts.foldl (fun s p => (s.racing p.id ls).remember p.id (fun _ => false) ls false) s
  ((s.overwrite none ls).cacheWrite none 3 0 0 ws).pokes ws

/-- `HOST_CXL_MEM_WRITE`: as `st` at `.sys`; the completion is sent once the write is visible. -/
def execHostCxlMemWrite (addr : Nat) (bytes : List Byte) (s : State) : Out :=
  if s.dev.up ≠ 1 ∨ bytes = [] ∨ 2 ^ 39 < addr + bytes.length then .next s
  else match hostQuiet s addr bytes.length with
    | (s, false) => .next { s with pending := .hostCxlMemWrite addr bytes :: s.pending }
    | (s, true) => .next ((hostWrites (hostQuietUsed s addr bytes.length) addr bytes).send (.hostDone addr))

/-- The bytes of a host request. -/
def hostRange : Instr → Option (Nat × Nat)
  | .hostCxlMemRead a n => some (a, n)
  | .hostCxlMemWrite a bs => some (a, bs.length)
  | _ => none
/-- The collective of a message of the network, with the rank it comes from where that may be this one. -/
def netColl : Instr → Option (Nat × Nat × Option Nat)
  | .tambourMessage r _ _ | .nack r _ _ | .wait r _ | .acknowledgement r _ _ | .commitMessage r _ | .confirmation r _
  | .lossNotice r _ | .sequenceAbortNotice r _ => some (r.part, r.coll, none)
  | .remoteWorkRecord part coll sender _ _ => some (part, coll, some sender)
  | .mailboxSlotRelease part coll receiver _ => some (part, coll, some receiver)
  | _ => none
/-- No port carries a message: those of its collective's die are fenced (R462). -/
def cutOff (s : State) (i : Instr) : Bool :=
  (netColl i).any fun e => ((s.part? e.1).any fun p => s.dieCut p (e.2.1 % 2)) &&
    (s.coll? e.1 e.2.1).any fun c => some (crRank c.crec) ≠ e.2.2
/-- The n-th step caused from outside may come now: a port carries it, and no host request before it overlaps it (R447). -/
def mayArrive (s : State) (n : Nat) : Bool :=
  !(s.pending[n]?).any (cutOff s) &&
  match s.pending[n]?.bind hostRange with
  | some (a, k) => (s.pending.take n).all fun i => match hostRange i with
    | some (b, m) => decide (b + m ≤ a) || decide (a + k ≤ b)
    | none => true
  | none => true

/-- `BACK_INVALIDATION_RESPONSE`: the host writes back what it has changed of a recalled line and gives it up. -/
def execBackInvalidationResponse (line : Nat) (dirty : Option (List Byte)) (s : State) : Out :=
  if getKey s.hostLines line 0 = 1 then
    let s := { s with hostLines := s.hostLines.filter fun e => e.1 ≠ line }
    .next (match dirty with
      | some bs => hostWrites s (128 * line) (bs.take 128)
      | none => s)
  else .next s

/-! ### REMOTE lines (R60, R453) -/

/-- `REMOTE_FETCH_REQUEST`: a peer's request for a line of this package's export window; lines that the host owns are
recalled first (R77), and poison travels with the line (R54, log 72). -/
def execRemoteFetchRequest (part sender page line : Nat) (s : State) : Out :=
  match s.part? part with
  | none => .next s
  | some p =>
    let pa := nhExpPa p.nethdr + 65536 * page + 2048 * line
    let ls := (List.range 2048).map fun i => Loc.mem (pa + i) p.key
    let answer := fun (a : FetchAnswer) => s.send (.peer part sender (.remoteFetchAnswer part 0 page line a))
    .next (if nhExpN p.nethdr ≤ page then answer .refused
      else match s.hostHeld pa 2048 with
        | some l => let s := s.askHost l; { s with pending := s.pending ++ [.remoteFetchRequest part sender page line] }
        | none => if ls.any s.bad then answer .poison
          else (s.recalls ls).send (.peer part sender (.remoteFetchAnswer part 0 page line (.line (s.peeks ls)))))

/-- `REMOTE_FETCH_ANSWER`: the line comes into the remote-read ways, or what refuses it is remembered until the
access that waits has trapped. -/
def execRemoteFetchAnswer (part peer page line : Nat) (ans : FetchAnswer) (s : State) : Out :=
  match s.part? part with
  | none => .next s
  | some p =>
    if p.fetch.contains (peer, page, line, 0) then
      let rest := p.fetch.filter fun f => ¬(f.1 = peer ∧ f.2.1 = page ∧ f.2.2.1 = line)
      .next (s.setPart (match ans with
        | .line bs => { p with fetch := rest, remote := (peer, page, line, bs) :: p.remote }
        | .refused => { p with fetch := (peer, page, line, 1) :: rest }
        | .unreachable => { p with fetch := (peer, page, line, 2) :: rest }
        | .poison => { p with fetch := (peer, page, line, 3) :: rest }))
    else .next s

/-! ### Lost ranks (R452) -/

/-- `PEERDOWN`: a rank of a collective that the partition holds is lost at once. -/
def execPeerdown (part : Nat) (v : BitVec 32) (s : State) : Out :=
  let coll := fld v 15 0
  let rank := fld v 28 16
  match s.coll? part coll with
  | some c => .next (if s.dev.up = 1 ∧ rank < crN c.crec then loseMember s part coll rank else s)
  | none => .next s

/-! ### Network set-up (R449, R451) -/

/-- A network table: header, collective records and peer entries. -/
structure NetTable where
  hdr   : BitVec 512
  colls : List (BitVec 512)
  peers : List (BitVec 256)

def readNet (s : State) (at_ : Nat) : NetTable :=
  let h := BitVec.ofNat 512 (s.rdMem at_ 64 0)
  { hdr := h, colls := (List.range (nhNcoll h)).map fun c => BitVec.ofNat 512 (s.rdMem (at_ + 64 + 64 * c) 64 0),
    peers := (List.range (nhNpeer h)).map fun i => BitVec.ofNat 256 (s.rdMem (nhPeerPa h + 32 * i) 32 0) }

/-- A die has a port with a weight that is not fenced (R449, R462). -/
def diePort (s : State) (h : BitVec 512) (die : Nat) : Bool :=
  (List.range 8).any fun j => nhPortW h (8 * die + j) ≠ 0 && !s.dev.fenceN.contains (8 * die + j)

/-- An area lies in HBM4E. -/
def inHbm (pa n : Nat) : Bool := pa + n ≤ 2 ^ 39

/-- The checks of R449 that give BADARG. -/
def netOk (s : State) (part at_ : Nat) (t : NetTable) : Bool :=
  let h := t.hdr
  inHbm at_ (64 + 64 * nhNcoll h) && fld h 191 190 == 0 && fld h 263 259 == 0 && fld h 511 272 == 0 &&
  inHbm (nhPeerPa h) (32 * nhNpeer h) && inHbm (nhExpPa h) (65536 * nhExpN h) &&
  (t.colls.map crId).eraseDups.length == t.colls.length &&
  t.colls.all fun c =>
    fld c 31 29 == 0 && fld c 47 46 == 0 && fld c 63 56 == 0 && fld c 255 240 == 0 && fld c 319 304 == 0 &&
    fld c 511 368 == 0 && crRank c < crN c &&
    s.parts.all (fun p => p.id == part || p.colls.all fun k => crId k.crec != crId c) &&
    diePort s h (crId c % 2) &&
    inHbm (crRx c) (crSlotSz c * slotsOf c * crNchMax c * 2) && inHbm (crMbox c) (64 * crN c * crWin c) &&
    inHbm (crRankPa c) (16 * crN c)

/-- A collective that the table removes or changes is in use: a sequence of it in progress, or a bound launch
incomplete. -/
def collBusy (s : State) (p : Part) (t : NetTable) : Bool :=
  p.colls.any fun c => !t.colls.contains c.crec &&
    ((c.seqs.any fun q => q.live || q.ending.isSome) ||
      s.launches.any fun l => l.part == p.id && l.seqNo.isSome && lrColl l.lrec == crId c.crec && !l.state.isComplete)

/-- The failed sequence that a listed collective keeps for a RESTART: the most recent one of this rank, that of the highest
number, if it failed. -/
def keptSeq (c : Coll) : Option Seq :=
  match (c.seqs.filter Seq.started).foldl (fun (m : Option Seq) q => match m with
      | some x => if x.num < q.num then some q else some x
      | none => some q) none with
  | some q => if 2 ≤ q.status then some q else none
  | none => none

/-- A collective as NETGO sets it up (R329, R341, R449, R473). -/
def Coll.setUp (old : Option Coll) (rec : BitVec 512) : Coll :=
  let new : Coll :=
    { crec := rec, desc := none, count := 0, seqs := [], last := none, lost := [], notices := [], dict := [], rxHeld := [], rxTaken := [],
      rxNacks := [], txCount := [], txFree := [], txKept := [] }
  match old with
  | some c =>
    match keptSeq c with
    | some q => { new with desc := c.desc, count := c.count, seqs := [q], last := c.last, dict := c.dict }
    | none => { new with dict := c.dict }
  | none => new

/-- The partition's set-up replaced. -/
def netApply (s : State) (p : Part) (t : NetTable) : State :=
  s.setPart { p with nethdr := t.hdr, colls := t.colls.map fun c => Coll.setUp (p.colls.find? fun k => crId k.crec = crId c) c }

end Sys2Proof.Machine
end

