-- ==== Sys2Proof/Machine/Device.lean ====
section
/-!
DEFINITION. Device registers (R438 to R440): doorbells, shootdown (R444), DEAD declarations (R446), network set-up
(R449), attestation (R457) and firmware updates (R456).
-/
namespace Sys2Proof.Machine

/-! ### GO and DONE (R440) -/

/-- A register set's operation starts with its arguments latched, or GO has no effect but BUSY; the answer tells
whether it starts. -/
def Door.go (d : Door) (v : BitVec 32) (a0 a1 : Nat) : Door × Bool :=
  if fld v 31 24 ≠ 0 then (d, false)
  else match d.busy with
    | some _ => ({ d with done := v ||| 0x03000000 }, false)
    | none => ({ d with busy := some (v.setWidth 24), arg0 := a0, arg1 := a1 }, true)
/-- A GO write is answered BUSY. -/
def Door.turnsAway (d : Door) (v : BitVec 32) : Bool := fld v 31 24 == 0 && d.busy.isSome
/-- DONE is written as the operation ends. -/
def Door.end_ (d : Door) (status : Nat) : Door :=
  match d.busy with
  | some q => { d with busy := none, done := q.setWidth 32 ||| BitVec.ofNat 32 (status * 2 ^ 24) }
  | none => d

namespace State
/-- The registers of a partition index. -/
def regs (s : State) (part : Nat) : PartRegs := (s.dev.regs[part]?).getD Dev.reset.regs[0]
def setRegs (s : State) (part : Nat) (r : PartRegs) : State :=
  { s with dev := { s.dev with regs := s.dev.regs.setIfInBounds part r } }
/-- A doorbell of a partition acts only while the device is UP; a BUSY answer, as every write of DONE, signals the
partition's vector. -/
def partGo (s : State) (part : Nat) (v : BitVec 32) (get : PartRegs → Door) (put : PartRegs → Door → PartRegs) (a0 a1 : Nat) :
    State × Bool :=
  if s.dev.up ≠ 1 ∨ 8 ≤ part then (s, false)
  else
    let r := s.regs part
    let (d, ok) := (get r).go v a0 a1
    let s := s.setRegs part (put r d)
    (if (get r).turnsAway v then s.send (.msix (1 + part)) else s, ok)
/-- The operation of a partition's register set ends. -/
def partDone (s : State) (part status : Nat) (get : PartRegs → Door) (put : PartRegs → Door → PartRegs) : State :=
  let r := s.regs part
  (s.setRegs part (put r ((get r).end_ status))).send (.msix (1 + part))
end State

/-! ### Shootdown (R444, R445) -/

/-- A range is aligned and within the virtual space; length 0 is the whole partition. -/
def rangeOk (va len : Nat) : Bool := va % 65536 == 0 && len % 65536 == 0 && va + len ≤ 2 ^ 52
/-- A cached translation overlaps the range. -/
def TlbEntry.within (e : TlbEntry) (va len : Nat) : Bool := len == 0 || (e.va < va + len && va < e.va + e.size)

/-- `INVGO`: the translations cached so far for the range are to go. -/
def execInvgo (part : Nat) (v : BitVec 32) (s : State) : Out :=
  let r := s.regs part
  let (va, len) := (r.invVa.toNat, r.invLen.toNat)
  match s.partGo part v (·.inv) (fun r d => { r with inv := d }) va len with
  | (s, true) =>
    .next (match s.part? part with
      | some p => if rangeOk va len then
          s.setPart { p with stale := p.stale ++ p.tlb.filter (fun e => e.within va len), tlb := p.tlb.filter fun e => !e.within va len }
          else s
      | none => s)
  | (s, false) => .next s

/-- The partition still has an access under way that has been translated: a load of a group, a store that is not performed
yet, or a partial sum sent on. DESIGN CHOICE (log 123): an addition that an accumulation buffer withholds counts as performed
there; a shootdown neither waits for it nor drains it. -/
def translating (s : State) (part : Nat) : Bool :=
  (s.partials.any fun e => e.1 == part) ||
  s.groups.any fun g => g.ref.part == part && (!g.loads.isEmpty || !g.stores.isEmpty ||
    [.frag false, .frag true, .lane].any fun st => match g.waitOf st with
      | some (.load _) => true
      | _ => false)

/-- `SHOOTDOWN_COMPLETE`: every access translated through a stale entry has been performed, and none remains. -/
def execShootdownComplete (part : Nat) (s : State) : Out :=
  let d := (s.regs part).inv
  if d.busy.isNone then .next s
  else if !rangeOk d.arg0 d.arg1 then .next (s.partDone part 2 (·.inv) fun r d => { r with inv := d })
  else if translating s part then .next s
  else
    let s := match s.part? part with
      | some p => s.setPart { p with stale := [], tlb := p.tlb.filter (fun e => !e.within d.arg0 d.arg1),
                                     descs := p.descs.filter fun e => !e.within d.arg0 d.arg1 }
      | none => s
    .next (s.partDone part 1 (·.inv) fun r d => { r with inv := d })

/-! ### DEAD declarations (R59, R418, R446) -/

def deadOk (pa n : Nat) : Bool := 1 ≤ n && n ≤ 2 ^ 20 && pa % 65536 == 0 && inHbm pa (65536 * n)

/-- `DEADGO`. -/
def execDeadgo (part : Nat) (v : BitVec 32) (s : State) : Out :=
  let r := s.regs part
  let (pa, n) := (r.deadPa.toNat, r.deadN.toNat)
  match s.partGo part v (·.dead) (fun r d => { r with dead := d }) pa n with
  | (s, true) => .next (if deadOk pa n
      then { s with dev := { s.dev with declaring := (part, pa, 65536 * n) :: s.dev.declaring } } else s)
  | (s, false) => .next s

/-- Save images without a range of bytes. -/
def cutRange (l : List (Nat × Nat × Nat)) (a b : Nat) : List (Nat × Nat × Nat) :=
  l.flatMap fun e =>
    (if e.1 < a then [(e.1, Nat.min e.2.1 (a - e.1), e.2.2)] else []) ++
    (if b < e.1 + e.2.1 then [(Nat.max e.1 b, e.1 + e.2.1 - Nat.max e.1 b, e.2.2)] else [])

/-- Every chunk of a range becomes unwritten; a word written meanwhile survives or is lost. -/
def State.declareDead (s : State) (a b : Nat) : State :=
  let within := fun (x : Nat) => a ≤ x && x < b
  let kept := (s.dev.raced.eraseDups.filter fun w => within (4 * w) && s.bit w).flatMap fun w =>
    (List.range 4).map fun i => (4 * w + i, Memory.rd s.mem (4 * w + i), getKey s.skey (w / 16) 0)
  let s := { s with mem := s.mem.filter (fun c => !within c.1), poison := s.poison.filter (fun x => !within (64 * x)),
                    dirty := s.dirty.filter (fun e => !within (64 * e.1)), skey := s.skey.filter (fun e => !within (64 * e.1)),
                    unwritten := (a / 2048, (b - a) / 2048) :: s.unwritten, images := cutRange s.images a b,
                    hostLines := s.hostLines.filter (fun e => !within (128 * e.1)),
                    l2 := s.l2.filter (fun e => !within (128 * e.line)), msc := s.msc.filter (fun e => !within (2048 * e.chunk)),
                    cores := s.cores.map fun (c : Core) => { c with l1 := c.l1.filter fun e => !within (128 * e.line) },
                    dev := { s.dev with raced := s.dev.raced.filter fun w => !within (4 * w) } }
  kept.foldl (fun s e => s.poke (.mem e.1 e.2.2) e.2.1) s

/-- `DEAD_DECLARATION_DONE`. -/
def execDeadDeclarationDone (part : Nat) (s : State) : Out :=
  let d := (s.regs part).dead
  if d.busy.isNone then .next s
  else if !deadOk d.arg0 d.arg1 then .next (s.partDone part 2 (·.dead) fun r d => { r with dead := d })
  else
    let s := { s with dev := { s.dev with declaring := s.dev.declaring.filter fun e => e.1 ≠ part } }
    .next ((s.declareDead d.arg0 (d.arg0 + 65536 * d.arg1)).partDone part 1 (·.dead) fun r d => { r with dead := d })

/-! ### Network set-up and REMOTE lines (R449, R453) -/

/-- `NETGO`. -/
def execNetgo (part : Nat) (v : BitVec 32) (s : State) : Out :=
  .next (s.partGo part v (·.net) (fun r d => { r with net := d }) (s.regs part).netTab.toNat 0).1

/-- `NET_SETUP_DONE`: BADARG or BUSY without effect, or the set-up is replaced. -/
def execNetSetupDone (part : Nat) (s : State) : Out :=
  let d := (s.regs part).net
  let put := fun (r : PartRegs) (d : Door) => { r with net := d }
  if d.busy.isNone then .next s
  else match s.part? part with
    | none => .next (s.partDone part 2 (·.net) put)
    | some p =>
      let t := readNet s d.arg0
      if let some l := s.hostHeldIn [(d.arg0, 64 + 64 * nhNcoll t.hdr), (nhPeerPa t.hdr, 32 * nhNpeer t.hdr)] then
        .next (s.askHost l)
      else if !netOk s part d.arg0 t then .next (s.partDone part 2 (·.net) put)
      else if collBusy s p t then .next (s.partDone part 3 (·.net) put)
      else .next ((netApply s p t).partDone part 1 (·.net) put)

/-- `RINVGO`. -/
def execRinvgo (part : Nat) (v : BitVec 32) (s : State) : Out :=
  .next (s.partGo part v (·.rinv) (fun r d => { r with rinv := d }) ((s.regs part).rinvPeer.toNat % 2 ^ 14) 0).1

/-- `REMOTE_INVALIDATION_DONE`: the lines fetched from the peer, or from every peer, are gone. -/
def execRemoteInvalidationDone (part : Nat) (s : State) : Out :=
  let d := (s.regs part).rinv
  if d.busy.isNone then .next s
  else
    let s := match s.part? part with
      | some p => s.dropRemote p fun e => d.arg0 == 0x3FFF || e.1 == d.arg0
      | none => s
    .next (s.partDone part 1 (·.rinv) fun r d => { r with rinv := d })

/-! ### Attestation and firmware (R456 to R458) -/

/-- Places of host memory by the host's own addresses (R436, R456). -/
def hostMem (addr n : Nat) : List Loc := (List.range n).map fun i => .mem (2 ^ 47 + (addr + i) % 2 ^ 64) 0

/-- DEVSTAT (R439). -/
def devstat (d : Dev) : Nat :=
  d.up + 4 * d.failcnt + 16 * (if d.replace then 1 else 0) + 256 * (if d.up = 2 then d.reason.toNat else 0)

/-- A device doorbell; the attestation and firmware groups act in every STATE. -/
def execAttgo (v : BitVec 32) (s : State) : Out :=
  let (d, _) := s.dev.att.go v s.dev.attAddr.toNat (s.dev.attPart.toNat % 16)
  let t := { s with dev := { s.dev with att := d } }
  .next (if s.dev.att.turnsAway v then t.send (.msix 0) else t)

/-- The first 256 bytes of a report (R457). -/
def reportBytes (s : State) (nonce : List Byte) (part : Nat) : List Byte :=
  let digest := match s.part? part with
    | some p => shake256 (leBytes 128 p.prec.toNat) 32
    | none => List.replicate 32 0
  leBytes 4 0x54535441 ++ leBytes 4 1 ++ nonce ++ shake256 s.dev.stage1 32 ++
    (List.range 32).map Config.romMeasurement ++ leBytes 8 Config.rollbackCounter.toNat ++ leBytes 4 (devstat s.dev) ++
    digest ++ List.replicate 76 0

/-- `ATTESTATION_DONE`. -/
def execAttestationDone (s : State) : Out :=
  let d := s.dev.att
  if d.busy.isNone then .next s
  else
    let end_ := fun (s : State) (st : Nat) => ({ s with dev := { s.dev with att := s.dev.att.end_ st } }).send (.msix 0)
    if 8 < d.arg1 then .next (end_ s 2)
    else
      let r := reportBytes s (s.peeks (hostMem d.arg0 64)) d.arg1
      let bs := r ++ (List.range 1280).map (Config.signature r)
      .next (end_ (s.pokes ((hostMem (d.arg0 + 64) 1536).zip bs)) 1)

/-- `FWGO`: BUSY while the device is UP, unless no partition exists. -/
def execFwgo (v : BitVec 32) (s : State) : Out :=
  let busy := s.dev.up = 1 ∧ s.parts ≠ []
  let d := if busy ∧ fld v 31 24 = 0 then { s.dev.fw with done := v ||| 0x03000000 }
    else (s.dev.fw.go v s.dev.fwAddr.toNat s.dev.fwSize.toNat).1
  let t := { s with dev := { s.dev with fw := d } }
  .next (if s.dev.fw.turnsAway v ∨ (busy ∧ fld v 31 24 = 0) then t.send (.msix 0) else t)

/-- `FIRMWARE_UPDATE_DONE`: an image that fails the checks of R454 gives BADARG; one that passes is in the boot
flash and takes effect at the next start. -/
def execFirmwareUpdateDone (s : State) : Out :=
  let d := s.dev.fw
  if d.busy.isNone then .next s
  else
    let bs := s.peeks (hostMem d.arg0 d.arg1)
    let dev := if (imageFault bs).isNone then { s.dev with fw := d.end_ 1, flash := bs, failcnt := 0 }
      else { s.dev with fw := d.end_ 2 }
    .next ({ s with dev := dev }.send (.msix 0))

/-! ### Register writes (R438) -/

/-- A write to a register of a partition index. -/
def writePartReg (s : State) (part off : Nat) (v : BitVec 64) : Out :=
  let r := s.regs part
  let w := v.setWidth 32
  match off with
  | 0x00 => .next (s.setRegs part { r with invVa := v })
  | 0x08 => .next (s.setRegs part { r with invLen := v })
  | 0x10 => execInvgo part w s
  | 0x20 => .next (s.setRegs part { r with deadPa := v })
  | 0x28 => .next (s.setRegs part { r with deadN := w })
  | 0x2C => execDeadgo part w s
  | 0x40 => .next (s.setRegs part { r with netTab := v })
  | 0x48 => execNetgo part w s
  | 0x50 => .next (s.setRegs part { r with rinvPeer := w })
  | 0x54 => execRinvgo part w s
  | 0x60 => execPeerdown part w s
  | _ => .next s

/-- `REGISTER_WRITE`: while the device is not UP only the attestation and firmware groups take writes; a
read-only or unassigned register takes none. -/
def execRegisterWrite (off : Nat) (v : BitVec 64) (s : State) : Out :=
  let d := s.dev
  let w := v.setWidth 32
  match off with
  | 0x20 => .next { s with dev := { d with attAddr := v } }
  | 0x28 => .next { s with dev := { d with attPart := w } }
  | 0x2C => execAttgo w s
  | 0x40 => .next { s with dev := { d with fwAddr := v } }
  | 0x48 => .next { s with dev := { d with fwSize := w } }
  | 0x4C => execFwgo w s
  | _ =>
    if d.up ≠ 1 then .next s
    else if off = 0x08 then .next { s with dev := { d with mrbase := v } }
    else if off = 0x10 then .next { s with dev := { d with mrlog2 := w } }
    else if off = 0x18 then .next { s with dev := { d with mrtail := w } }
    else if off = 0x400C then execPwrlimWrite w s
    else if 0x200 ≤ off ∧ off < 0x400 then
      .next { s with dev := { d with hkey := (off - 0x200, v.setWidth 8) :: d.hkey.filter fun e => e.1 ≠ off - 0x200 } }
    else if 0x1000 ≤ off ∧ off < 0x1800 then writePartReg s ((off - 0x1000) / 256) (off % 256) v
    else .next s

/-- Doorbell operations in progress that may end next: partition, and which register set (0 shootdown, 1 DEAD
declaration, 2 network set-up, 3 REMOTE invalidation). -/
def doorMoves (s : State) : List (Nat × Nat) :=
  (List.range 8).flatMap fun p =>
    let r := s.regs p
    (if r.inv.busy.isSome then [(p, 0)] else []) ++ (if r.dead.busy.isSome then [(p, 1)] else []) ++
    (if r.net.busy.isSome then [(p, 2)] else []) ++ (if r.rinv.busy.isSome then [(p, 3)] else [])

end Sys2Proof.Machine
end

