-- ==== Sys2Proof/Machine/LaneMem.lean ====
section
/-!
DEFINITION. Lane memory instructions (R254 to R262, R264 to R268): loads, stores, tolerance loads, atomics,
reductions, fences and prefetches.
-/
namespace Sys2Proof.Machine

/-- The signed offset of a lane memory word (R254). -/
def laneOff (w : LaneWord) : Int := (w.imm.setWidth 25).toInt
/-- The address of a lane's access (R255). -/
def laneAddr (g : Group) (e : Entry) (sp : Space) (w : LaneWord) (l : Nat) : Nat :=
  match sp with
  | .glb =>
    ((((if w.m41 then (e.getA w.a).toNat else g.lane l w.a.toNat 8) : Nat) + laneOff w) % 2 ^ 64).toNat
  | _ => ((((if w.m41 then (e.getS w.a).toNat else g.lane l w.a.toNat 4) : Nat) + laneOff w) % 2 ^ 32).toNat

/-- The scope of a code; none is weak (R190). -/
def Scope.ofCode : Nat → Option Scope
  | 1 => some .grp | 2 => some .team | 3 => some .pair | 4 => some .dev | 5 => some .sys | _ => none
/-- The annotation of a code (R190). -/
def Order.ofCode : Nat → Order
  | 1 => .acq | 2 => .rel | 3 => .ar | _ => .none

/-- Checks 2 to 5 of every active lane (R257). -/
def laneChecks (s : State) (g : Group) (e : Entry) (p : Part) (sp : Space) (w : LaneWord) (n : Nat) (k : Kind) :
    List (Nat × Chk) :=
  (acting g e w).map fun l => (l, check s g p sp (laneAddr g e sp w l) n l k w.req false)
/-- Some lane's access waits (R52, R82, R84). -/
def lanesWait (s : State) (g : Group) (e : Entry) (sp : Space) (w : LaneWord) (n : Nat) : Bool :=
  s.ackWait g || (acting g e w).any fun l => stalls s g sp (laneAddr g e sp w l) n

/-- Some lane's store waits for a matrix operation that reads its bytes (R289). -/
def lanesRead (s : State) (g : Group) (e : Entry) (sp : Space) (w : LaneWord) (n : Nat) : Bool :=
  (acting g e w).any fun l => mopReads s g sp (laneAddr g e sp w l) n

/-- The other lanes' accesses that are performed although a lane's traps where it is performed: each is or is not,
freely, unless it would trap there too (R257). -/
def othersDone (s : State) (lane : Nat) (fails : Acc → Bool) (as : List (Nat × Acc)) : List (Nat × Acc) :=
  as.filter fun a => a.1 ≠ lane && !fails a.2 && s.bit (2 ^ 64 + a.1)

/-! ### Loads (R259, R262) -/

/-- The shape of a lane load: the queue's head waits for its return. -/
def laneLoad (sp : Space) (w : LaneWord) (scope : Option Scope) (strict : Bool)
    (quiet : State → Part → List (Nat × Acc) → List (Nat × Nat)) (s : State) : Out :=
  onLane s fun g e => s.partOf g fun p =>
    let n := w.ty.bytes
    if acting g e w = [] then s.laneDone g w.last
    else
      let c := combine (laneChecks s g e p sp w n { strict := strict, align := n })
      s.loading g p c (lanesWait s g e sp w n) none (quiet s p) fun s as =>
        match (if scope.isSome then s.strongMix g p sp n as else .ok s) with
        | .error e => s.trap g .mixedSize e.1 e.2
        | .ok s =>
          let (s, l) := s.startLoad g p as (loadOf s g sp scope (Order.ofCode w.order) n as
            (.lanes w.d.toNat (Nat.max 4 n) (w.ty == .i8 || w.ty == .i16) w.last
              (as.map fun x => (x.1, x.2.va, x.2.locs))) (if w.m41 then sinceOf e.dep [baseKey sp (w.a.setWidth 6)]
              else sinceOf g.ldep (regsFrom (w.a.toNat, if sp = .glb then 8 else 4))))
          s.setWait g .lane (.load l)

def execLaneLd (sp : Space) (w : LaneWord) (s : State) : Out :=
  laneLoad sp w (Scope.ofCode w.scope) (w.scope ≠ 0) (fun _ _ as => State.exactRegions as) s
def execLaneLdt (w : LaneWord) (s : State) : Out :=
  laneLoad .glb w (some .dev) true (fun s p as => ldtRegions s p w.ldtDef w.ldtTol as) s

/-! ### Stores (R259, R80) -/

def execLaneSt (sp : Space) (w : LaneWord) (s : State) : Out :=
  onLane s fun g e => s.partOf g fun p =>
    let n := w.ty.bytes
    let scope := Scope.ofCode w.scope
    let strong := w.scope ≠ 0
    let c := combine (laneChecks s g e p sp w n { write := true, strict := strong, align := n })
    let wait := lanesWait s g e sp w n || lanesRead s g e sp w n ||
      (Order.releases (Order.ofCode w.order) && !(s.released g && g.loads.isEmpty))
    if acting g e w = [] then s.laneDone g w.last
    else s.storing g p c wait none fun s as =>
      let write := fun (s : State) (as : List (Nat × Acc)) =>
        s.store g scope (as.map fun a => (a.1, a.2, leBytes n (g.lane a.1 w.b.toNat n)))
      match (if strong then s.strongMix g p sp n as else .ok s) with
      | .error e =>
        let as := othersDone s e.2 (fun a => mixedHit p g.ref a n) as
        match s.strongMix g p sp n as with
        | .ok t => if as = [] then s.trap g .mixedSize e.1 e.2
          else (write t as).regroup g.ref fun g => (write t as).trap g .mixedSize e.1 e.2
        | .error _ => s.trap g .mixedSize e.1 e.2
      | .ok s =>
        let s := write s as
        s.regroup g.ref fun g => s.laneDone g w.last

/-! ### Atomics and reductions (R264 to R266) -/

/-- An atomic access of scope `.grp` or `.team` to global memory is performed on an owned copy in its core's L1 (R156),
where its page may be cached there (R55). -/
def atL1 (w : LaneWord) (a : Acc) : Bool :=
  ((Scope.ofCode w.scope).any fun c => c == .grp || c == .team) && a.lvl == 0 && a.acc.isNone &&
    a.locs.all fun l => match l with | .mem _ _ => true | _ => false
/-- The lanes' accesses, to be performed one at a time where they overlap, in an order the device chooses (R266). -/
def atomUnits (s : State) (g : Group) (w : LaneWord) (returns : Bool) (as : List (Nat × Acc)) : List PStore :=
  let us := as.map fun a => (a.1, ({
    ws := a.2.locs.map fun l => (l, 0), scope := some ((Scope.ofCode w.scope).getD .dev), size := w.ty.bytes,
    req := if atL1 w a.2 then 0 else 3, prio := a.2.prio, lvl := a.2.lvl, early := false, ev := 64 * s.tick + a.1
    rmw := some { ty := w.ty, op := w.rnd.toNat, b := g.lane a.1 w.b.toNat w.ty.bytes, c := g.lane a.1 w.c.toNat w.ty.bytes,
                  to_ := if returns then some a.1 else none, at_ := s.tick } } : PStore))
  if as.length ≤ 1 then us.map (·.2) else s.freely us

/-- An access that has been performed is acknowledged later (R82). -/
def Group.acked (g : Group) (sp : Space) : Group := { g with acks := g.acks + (if sp == .glb || sp == .chip then 1 else 0) }

/-- The shape of atomics and reductions: checks and waits; then the lanes' accesses are to be performed, and the group
that waits for them goes on to `k` with the load that returns what is returned. -/
def atomic (sp : Space) (w : LaneWord) (returns : Bool) (k : State → Group → Load → State) (s : State) : Out :=
  onLane s fun g e => s.partOf g fun p =>
    let n := w.ty.bytes
    let order := Order.ofCode w.order
    match acting g e w with
    | [] => s.laneDone g w.last
    | first :: _ =>
      if w.rnd = 0 ∧ w.ty.isFloat ∧ prDet p.prec then s.trap g .nondetAtomic 0 first
      else
        let c := combine (laneChecks s g e p sp w n { write := true, strict := true, atomic := true, align := n })
        let wait := lanesWait s g e sp w n || lanesRead s g e sp w n || (Order.releases order && !(s.released g && g.loads.isEmpty))
        s.storing g p c wait none fun s as =>
          let l := loadOf s g sp (some ((Scope.ofCode w.scope).getD .dev)) order n [] (.olds w.d.toNat (Nat.max 4 n) w.last []) 0
          let put := fun (s : State) (as : List (Nat × Acc)) => { g with stores := g.stores ++ atomUnits s g w returns as }
          let stop := fun (t : Trap) (va lane : Nat) =>
            let as := othersDone s lane (fun a => a.locs.any s.bad || mixedHit p g.ref a n) as
            match s.strongMix g p sp n as with
            | .ok u => u.trap (put u as) t va lane
            | .error _ => s.trap g t va lane
          match as.find? fun a => a.2.locs.any s.bad with
          | some a => stop .poison (trapAddr sp a.2.va) a.1
          | none =>
            match s.strongMix g p sp n as with
            | .error e => stop .mixedSize e.1 e.2
            | .ok s => k s (put s as) l

/-- `atom`: the lane queue waits for the old values. -/
def execAtom (sp : Space) (w : LaneWord) (s : State) : Out :=
  atomic sp w true (fun s g l => s.setWait g .lane (.load l)) s
/-- `red` returns nothing; where it acquires, later accesses wait for it. -/
def execRed (sp : Space) (w : LaneWord) (s : State) : Out :=
  atomic sp w false (fun s g l =>
    if Order.acquires (Order.ofCode w.order) then s.setWait g .lane (.load l) else s.laneDone g w.last) s

/-! ### Fences and prefetches (R267, R268) -/

def execLaneFence (w : LaneWord) (s : State) : Out :=
  onLane s fun g _ =>
    let o := Order.ofCode w.order
    fenceRun s g (Order.acquires o) (Order.releases o) ((Scope.ofCode w.scope).getD .dev) fun s g => s.laneDone g w.last

def execLanePrf (w : LaneWord) (s : State) : Out :=
  onLane s fun g e =>
    ((acting g e w).foldl (fun s l => prefetch s g (decide (w.c = 1)) (laneAddr g e .glb w l) l) s).laneDone g w.last

end Sys2Proof.Machine
end

