-- ==== Sys2Proof/Machine/Exact.lean ====
section
/-!
DEFINITION. Exact additions and drains (R90, R91, R106, R107, R230, R263).
-/
namespace Sys2Proof.Machine

/-! ### `xdrain` (R230) -/

/-- Drains lines of the issuing core and waits until what was sent has been performed. -/
def drainWait (s : State) (g : Group) (part : Nat) (r : Option Nat) : State :=
  let s := match r with
    | some r => (s.drainLines part g.core fun l => l.region == r).resetM g.core r
    | none => (s.core g.core).trk.foldl (fun (s : State) (t : Tracker) => s.resetM g.core t.region) (s.drainLines part g.core fun _ => true)
  s.setWait g s.cur.st (.drain s.tick)

def execXdrain (a : AReg) (s : State) : Out :=
  onFrag s fun g f => s.partOf g fun p =>
    let va := (g.ctx.getA a).toNat
    let region := fun (k : Nat → State) (none_ : State) =>
      if 2 ^ 52 ≤ va then s.trap g .protection va
      else match xlate s p va 0 with
        | .miss => s.setWait g s.cur.st (.walk va 0)
        | .recall l => (s.askHost l).park g none
        | .fail t => s.trap g t va
        | .hit e =>
          if !pteAcc e.pte || pteRemote e.pte then none_
          else match regionOf s p (e.pa va) with
            | some r => k r
            | none => s.trap g .protection va
    match f.wait with
    | .drain t => if s.sentDone p.id g.core t none then s.done g 1 else s.park g none
    | _ => region (fun r => drainWait s g p.id (some r)) (s.done g 1)

def execXdrainAll (s : State) : Out :=
  onFrag s fun g f =>
    match f.wait with
    | .drain t => if s.sentDone g.ref.part g.core t none then s.done g 1 else s.park g none
    | _ => drainWait s g g.ref.part none

/-! ### `xadd`, `xaddi` (R263) -/

/-- The contribution of a lane. -/
def contribution (w : LaneWord) (float : Bool) (g : Group) (l : Nat) (exp : Int) : Grid :=
  let b := g.lane l w.b.toNat w.ty.bytes
  if float then xsfFrom (decodeF w.ty b) exp else ⟨asInt w.ty b, 0, false, false⟩

/-- The sticky bits of a region are set by an atomic OR at its descriptor (R90, R92). -/
def stickyBits (s : State) (p : Part) (r : Nat) (sovf sinv : Bool) : State :=
  let a := prRdt p.prec + 32 * r + 24
  let v := (if sovf then 1 else 0) + (if sinv then 2 else 0)
  if v = 0 then s else s.wrMem a 1 (s.rdMem a 1 0 ||| v) 0

/-- An addition made by each lane (R97), with its flags. -/
def addLanes (g : Group) (p : Part) : State → List (Nat × Nat × Grid) → State
  | s, [] => s
  | s, (r, pa, x) :: xs => addLanes g p (stickyBits (s.accAdd p.id g.core r pa x.n) p r x.big x.nan) xs

/-- The shape of both additions: checks 2 to 5, then check 6 in every lane, then the additions. While a region is locked
each is converted by the old descriptor or the new one (R420). -/
def exactAdd (w : LaneWord) (float : Bool) (s : State) : Out :=
  onLane s fun g e => s.partOf g fun p =>
    if acting g e w = [] then s.laneDone g w.last
    else
      let c := combine (laneChecks s g e p .glb w 16 { xadd := true, strict := true, align := 16 })
      if (lanesWait s g e .glb w 16 || g.reading) && (match c with | .ok _ => true | _ => false) then s.park g none
      else s.proceed g p c (fun _ => []) none fun s as =>
        let xs := as.filterMap fun a => match a.2.acc, a.2.locs with
          | some r, .mem pa _ :: _ =>
            let d := if (s.home p.id r).locked && s.bit (2 ^ 80 + a.1) then tableDesc s p r else s.homeDesc p.id r
            some (a.1, a.2.va, rdPol d, r, pa, contribution w float g a.1 (rdExp d))
          | _, _ => none
        match xs.find? fun x => x.2.2.1 && (x.2.2.2.2.2.nan || x.2.2.2.2.2.big) with
        | some x => s.trap g .accOverflow x.2.1 x.1
        | none =>
          match s.strongMix g p .glb 16 as with
          | .error e => s.trap g .mixedSize e.1 e.2
          | .ok s =>
            let s := addLanes g p s (xs.map fun x => (x.2.2.2.1, x.2.2.2.2.1, x.2.2.2.2.2))
            s.laneDone ((g.acked .glb).flag (xs.foldl (fun f x => f ||| x.2.2.2.2.2.flags) 0)) w.last

def execXadd (w : LaneWord) (s : State) : Out := exactAdd w true s
def execXaddi (w : LaneWord) (s : State) : Out := exactAdd w false s

end Sys2Proof.Machine
end

