-- ==== Sys2Proof/Machine/LaneCross.lean ====
section
/-!
DEFINITION. Cross-lane operations, predicates and lane indexes (R250 to R253).
-/
namespace Sys2Proof.Machine

/-! ### Exchange (R250) -/

/-- Width of a group. -/
def widthOf (s : State) (g : Group) : Nat := lrWidth (s.lrec g.ref)

def execShfl (w : LaneWord) (s : State) : Out :=
  laneBits w w.ty (fun g e l => rawA g e w w.ty (numB g e w l % widthOf s g)) s

/-- `bfly`: the masked exchange with the partner at distance k. -/
def butterfly (bits k l : Nat) (a p b : Nat) : Nat :=
  if l / k % 2 = 0 then a ^^^ ((((a / 2 ^ k) ^^^ p) &&& b) * 2 ^ k % 2 ^ bits)
  else a ^^^ (((p / 2 ^ k) ^^^ a) &&& b)
def execBfly (w : LaneWord) (s : State) : Out :=
  laneBits w w.ty (fun g e l =>
    let k := 2 ^ w.c.toNat
    butterfly (8 * w.ty.bytes) k l (rawA g e w w.ty l) (rawA g e w w.ty (l ^^^ k)) (rawB g e w w.ty l)) s

/-- The highest acting lane that sends to lane t. -/
def senderOf (g : Group) (e : Entry) (w : LaneWord) (width t : Nat) : Option Nat :=
  (acting g e w).reverse.find? fun l => numB g e w l % width = t
def execBperm (w : LaneWord) (s : State) : Out :=
  laneBits w w.ty (fun g e t =>
    match senderOf g e w (widthOf s g) t with
    | some l => rawA g e w w.ty l
    | none => g.lane t w.d.toNat w.ty.bytes) s

/-! ### Votes (R251) -/

/-- Predicate a over act(f). -/
def voters (g : Group) (e : Entry) (w : LaneWord) : LaneMask := actMask g e w &&& g.getP (w.a.setWidth 3)

def execBallot (w : LaneWord) (s : State) : Out :=
  onLane s fun g e =>
    let v := (voters g e w >>> (32 * (w.imm.toNat % 2))).setWidth 32
    s.laneDone (if w.m41 then g.setScalar w.d v
      else g.writeLanes .b32 w.d ((acting g e w).map fun l => (l, v.toNat, 0))) w.last

def execVany (w : LaneWord) (s : State) : Out :=
  lanePred w (fun g e => (if voters g e w = 0 then 0 else BitVec.allOnes 64, 0)) s
def execVall (w : LaneWord) (s : State) : Out :=
  lanePred w (fun g e => (if voters g e w = actMask g e w then BitVec.allOnes 64 else 0, 0)) s
def execElect (w : LaneWord) (s : State) : Out :=
  lanePred w (fun g e => (match acting g e w with | l :: _ => 1#64 <<< l | [] => 0, 0)) s

/-! ### Reductions and scans (R252) -/

/-- One step of the fold. -/
def foldStep (w : LaneWord) (a b : Nat) : Nat × FFlags :=
  let t := w.ty
  let n := 2 ^ (8 * t.bytes)
  if t.isFloat then
    match w.sub.toNat with
    | 0 => fAdd t (mode w) (decodeF t a) (decodeF t b)
    | 1 => fMinMax t false a b
    | _ => fMinMax t true a b
  else (match w.sub.toNat with
    | 0 => (a + b) % n
    | 1 => if asInt t a ≤ asInt t b then a else b
    | 2 => if asInt t a ≤ asInt t b then b else a
    | 3 => a &&& b
    | 4 => a ||| b
    | _ => a ^^^ b, 0)

/-- The identity of the operation. -/
def foldIdentity (w : LaneWord) : Nat :=
  let t := w.ty
  match w.sub.toNat with
  | 1 => if t.isFloat then withSign t false (infBits t) else wrapInt t (intMax t)
  | 2 => if t.isFloat then withSign t true (infBits t) else wrapInt t (intMin t)
  | 3 => 2 ^ (8 * t.bytes) - 1
  | _ => 0

/-- The left fold of values in ascending lane order. -/
def foldLanes (w : LaneWord) : List Nat → Nat × FFlags
  | [] => (foldIdentity w, 0)
  | a :: as =>
    let first := if w.ty.isFloat ∧ w.sub = 0 then floatRound w.ty (decodeF w.ty a) (mode w) false 0 else (a, 0)
    as.foldl (fun x b => let r := foldStep w x.1 b; (r.1, x.2 ||| r.2)) first

def execRdc (w : LaneWord) (s : State) : Out :=
  onLane s fun g e =>
    let ls := acting g e w
    let r := foldLanes w (ls.map fun l => rawA g e w w.ty l)
    let g := g.flag r.2
    s.laneDone (if w.m41 then g.setScalar w.d (word r.1) else g.writeLanes w.ty w.d (ls.map fun l => (l, r.1, 0))) w.last

def execScan (w : LaneWord) (s : State) : Out :=
  laneOp w w.ty (fun g e l =>
    foldLanes w (((acting g e w).filter fun j => if w.imm.getLsbD 0 then j < l else j ≤ l).map fun j => rawA g e w w.ty j)) s

/-! ### Predicates and lane indexes (R253) -/

def execPset (w : LaneWord) (s : State) : Out :=
  lanePred w (fun g e => (maskOf fun l => (rawA g e w .b32 l).testBit (numB g e w l % 32), 0)) s
/-- The shape of predicate arithmetic. -/
def predOp (w : LaneWord) (f : LaneMask → LaneMask → LaneMask) (s : State) : Out :=
  lanePred w (fun g _ => (f (g.getP (w.a.setWidth 3)) (g.getP (w.b.setWidth 3)), 0)) s
def execPand (w : LaneWord) (s : State) : Out := predOp w (· &&& ·) s
def execPor (w : LaneWord) (s : State) : Out := predOp w (· ||| ·) s
def execPxor (w : LaneWord) (s : State) : Out := predOp w (· ^^^ ·) s
def execPget (w : LaneWord) (s : State) : Out :=
  laneBits w .b32 (fun g _ l =>
    (List.range 8).foldl (fun n k => n + (if (g.getP (BitVec.ofNat 3 k)).getLsbD l then 2 ^ k else 0)) 0) s
def execLget (w : LaneWord) (s : State) : Out :=
  laneBits w .b32 (fun g _ l => (l + (if w.imm = 0 then 0 else g.ref.grp * widthOf s g)) % 2 ^ 32) s

end Sys2Proof.Machine
end

