-- ==== Sys2Proof/Machine/Functions.lean ====
section
/-!
DEFINITION. The correctly rounded functions of R129 and R242. Each is bounded from both sides by exact
rationals, at 300 bits and then at twice as many again and again, up to 38400; where both bounds round to one encoding
that is the result (log 10).
-/
namespace Sys2Proof.Machine

/-! ### Fixed-point series: integers over 2^n -/

/-- Bits kept in the series, tried in turn. -/
def precisions : List Nat := (List.range 8).map fun i => 300 * 2 ^ i
/-- A bound on the error of a series kept to n bits, in units of 2^−n: it has fewer than n terms. -/
def slack (n : Nat) : Int := 16 * n

/-- Σ t^(2i+1) / (2i+1) from a term on, with sign changes or without; x2 is t² over 2^n. -/
def oddSeries (alt : Bool) (n : Nat) (x2 : Nat) : Nat → Nat → Nat → Int
  | 0, _, _ => 0
  | f + 1, i, t =>
    (t / (2 * i + 1) : Nat) + (if alt then -1 else 1) * oddSeries alt n x2 f (i + 1) (t * x2 / 2 ^ n)
/-- atanh of t over 2^n, t ≤ 1/3. -/
def atanhFix (n t : Nat) : Int := oddSeries false n (t * t / 2 ^ n) (n / 3 + 4) 0 t

/-- arctan (1/k) over 2^n. -/
def atanInv (n k : Nat) : Nat → Nat → Nat → Int
  | 0, _, _ => 0
  | f + 1, i, t => (t / (2 * i + 1) : Nat) - atanInv n k f (i + 1) (t / (k * k))
/-- π over 2^n, within 2 units (Machin's formula with 32 guard bits). -/
def piFix (n : Nat) : Nat :=
  let m := n + 32
  let a := atanInv m 5 (m / 4 + 4) 0 (2 ^ m / 5)
  let b := atanInv m 239 (m / 15 + 4) 0 (2 ^ m / 239)
  (16 * a - 4 * b).toNat / 2 ^ 32

/-- Σ y^k / k! from a term on. -/
def expSeries (n y : Nat) : Nat → Nat → Nat → Nat
  | 0, _, t => t
  | f + 1, k, t => t + expSeries n y f (k + 1) (t * y / 2 ^ n / (k + 1))
/-- e^y over 2^n, 0 ≤ y < 1. -/
def expFix (n y : Nat) : Nat := expSeries n y (n / 3) 0 (2 ^ n)

/-- Alternating Σ of every second term of the exponential series from the k-th. -/
def trigSeries (n y2 : Nat) : Nat → Nat → Nat → Int
  | 0, _, _ => 0
  | f + 1, k, t => (t : Int) - trigSeries n y2 f (k + 2) (t * y2 / 2 ^ n / ((k + 1) * (k + 2)))
/-- sin y and cos y over 2^n, 0 ≤ y < 2. -/
def sinFix (n y : Nat) : Int := trigSeries n (y * y / 2 ^ n) (n / 4) 1 y
def cosFix (n y : Nat) : Int := trigSeries n (y * y / 2 ^ n) (n / 4) 0 (2 ^ n)

/-! ### Rounding between bounds -/

/-- The value x / 2^n. -/
def fixVal (x : Int) (n : Nat) : FVal := .fin (decide (x < 0)) x.natAbs (2 ^ n)

/-- The functions, for the free choice between bounds. -/
inductive Fn where
  | rsq | ex2 | lg2 | sin | cos
  deriving DecidableEq, Repr
def Fn.number : Fn → Nat
  | .rsq => 0 | .ex2 => 1 | .lg2 => 2 | .sin => 3 | .cos => 4

/-- A result known, for a number of bits, to lie between two values, and not to be exact (R242): the first number of bits
at which both round to one encoding settles it. No operand is known for which none does; there one of the two values is
taken, by a free value (log 10). -/
def between (fn : Fn) (t : LTy) (operand : Nat) (bounds : Nat → FVal × FVal) : List Nat → Nat × FFlags
  | [] => (0, flagNX)
  | n :: ns =>
    let x := floatRound t (bounds n).1 .rn false 0
    let y := floatRound t (bounds n).2 .rn false 0
    if x.1 = y.1 then (x.1, x.2 ||| flagNX)
    else match ns with
      | [] => (if Config.freeRoundUp (2 * fn.number + (if t = .f64 then 1 else 0)) operand then y.1 else x.1, x.2 ||| flagNX)
      | _ => between fn t operand bounds ns
/-- A result between two values at every number of bits tried. -/
def tight (fn : Fn) (t : LTy) (operand : Nat) (bounds : Nat → FVal × FVal) : Nat × FFlags :=
  between fn t operand bounds precisions

/-! ### The functions, for FP32 and FP64 -/

/-- 2^A. -/
def ex2Of (t : LTy) (operand : Nat) (neg : Bool) (n d : Nat) : Nat × FFlags :=
  let a : Int := signed neg n
  let k := a / d
  let f := (a % d).toNat
  let c := if k < -3000 then -3000 else if 3000 < k then 3000 else k
  if f = 0 then floatRound t (FVal.ofInt 1 |>.scale c) .rn false 0
  else
    tight .ex2 t operand fun m =>
      let ln2 := 2 * (atanhFix m (2 ^ m / 3)).toNat
      let e : Int := expFix m (f * 2 ^ m / d * ln2 / 2 ^ m)
      ((fixVal (e - slack m) m).scale c, (fixVal (e + slack m) m).scale c)

/-- log₂ A, A > 0. -/
def lg2Of (t : LTy) (operand : Nat) (n d : Nat) : Nat × FFlags :=
  let e := log2Q n d
  -- A = 2^e × p / q with 1 ≤ p / q < 2
  let p := if 0 ≤ e then n else n * 2 ^ (-e).toNat
  let q := if 0 ≤ e then d * 2 ^ e.toNat else d
  if p = q then floatRound t (FVal.ofInt e) .rn false 0
  else
    tight .lg2 t operand fun m =>
      let u := atanhFix m ((p - q) * 2 ^ m / (p + q))
      let v := atanhFix m (2 ^ m / 3)
      let low := (u - slack m) * 2 ^ m / (v + slack m)
      let high := (u + slack m) * 2 ^ m / (v - slack m) + 1
      (fixVal (e * 2 ^ m + low) m, fixVal (e * 2 ^ m + high) m)

/-- The quadrant of |A| = n / d, and its rest below π/2 over 2^prec, within 8 units. -/
def reduce (prec n d : Nat) : Nat × Nat :=
  let m := prec + Nat.log2 n + 2
  let h := piFix (m + 1) / 4
  let y := n * 2 ^ m / d
  (y / h % 4, y % h / 2 ^ (m - prec))

/-- sin A or cos A for a finite A other than 0. -/
def trigOf (fn : Fn) (t : LTy) (operand : Nat) (neg : Bool) (n d : Nat) : Nat × FFlags :=
  if n * 2 ^ 64 < d then
    -- A(1 − A²/6) < sin A < A, and 1 − A² < cos A < 1, in magnitude
    tight fn t operand fun _ =>
      if fn = .sin then (.fin neg (n * (6 * d * d - n * n)) (6 * d * d * d), .fin neg n d)
      else (.fin false (d * d - n * n) (d * d), .fin false 1 1)
  else
    tight fn t operand fun m =>
      let (q, r) := reduce m n d
      let x := if (fn = .sin) = (q % 2 = 0) then sinFix m r else cosFix m r
      let minus := if fn = .sin then xor neg (decide (2 ≤ q)) else q == 1 || q == 2
      let x := if minus then -x else x
      (fixVal (x - slack m) m, fixVal (x + slack m) m)

/-- The FP32 and FP64 forms, special operands first (R242). -/
def fnFull (fn : Fn) (t : LTy) (b : Nat) : Nat × FFlags :=
  let nan : Nat × FFlags := (defaultNan t, flagNV)
  match decodeF t b with
  | .nan s => (defaultNan t, if s then flagNV else 0)
  | .inf s =>
    (match fn, s with
    | .rsq, false => (withSign t false 0, 0)
    | .ex2, false => (infBits t, 0)
    | .ex2, true => (0, 0)
    | .lg2, false => (infBits t, 0)
    | _, _ => nan)
  | .fin s n d =>
    if n = 0 then
      match fn with
      | .rsq => (withSign t s (infBits t), flagDZ)
      | .ex2 | .cos => floatRound t (FVal.ofInt 1) .rn false 0
      | .lg2 => (withSign t true (infBits t), flagDZ)
      | .sin => (b, 0)
    else match fn with
      | .rsq => if s then nan else floatRound t (sqrtProxy d n) .rn false 0
      | .ex2 => ex2Of t b s n d
      | .lg2 => if s then nan else lg2Of t b n d
      | .sin | .cos => trigOf fn t b s n d

/-- A function on a type: FP16 and BF16 forms round the FP32 result once more (R129, R242). -/
def fnOf (fn : Fn) (t : LTy) (b : Nat) : Nat × FFlags :=
  if t = .f32 ∨ t = .f64 then fnFull fn t b
  else match decodeF t b with
    | .nan s => (defaultNan t, if s then flagNV else 0)
    | v =>
      let x := fnFull fn .f32 (floatRound .f32 v .rn false 0).1
      let y := floatRound t (decodeF .f32 x.1) .rn false 0
      (y.1, x.2 ||| y.2)

end Sys2Proof.Machine
end

