-- ==== Sys2Proof/Machine/LaneFloat.lean ====
section
/-!
DEFINITION. Lane functions of one float, and the conversions (R241, R242, R245 to R249).
-/
namespace Sys2Proof.Machine

/-- The shape of functions of one float source. -/
def float1Op (w : LaneWord) (f : Nat → Nat × FFlags) (s : State) : Out :=
  laneOp w w.ty (fun g e l => f (srcFA g e w l)) s

/-- A − trunc(A), with the sign of A (R241). -/
def fFrc (t : LTy) (b : Nat) : Nat × FFlags :=
  match decodeF t b with
  | .nan s => (defaultNan t, if s then flagNV else 0)
  | .inf _ => (defaultNan t, flagNV)
  | .fin s n d => floatRound t (.fin s (n % d) d) .rn false 0

def execRcp (w : LaneWord) (s : State) : Out := float1Op w (fun a => fRcp w.ty (mode w) (decodeF w.ty a)) s
def execSqrt (w : LaneWord) (s : State) : Out := float1Op w (fun a => fSqrt w.ty (mode w) (decodeF w.ty a)) s
def execRsq (w : LaneWord) (s : State) : Out := float1Op w (fnOf .rsq w.ty) s
def execEx2 (w : LaneWord) (s : State) : Out := float1Op w (fnOf .ex2 w.ty) s
def execLg2 (w : LaneWord) (s : State) : Out := float1Op w (fnOf .lg2 w.ty) s
def execSin (w : LaneWord) (s : State) : Out := float1Op w (fnOf .sin w.ty) s
def execCos (w : LaneWord) (s : State) : Out := float1Op w (fnOf .cos w.ty) s
def execFrc (w : LaneWord) (s : State) : Out := float1Op w (fFrc w.ty) s

/-! ### `cvt` (R245) -/

/-- A float type, FP8 included. -/
def isFloatTy (t : LTy) : Bool := 12 ≤ t.code && t.code ≤ 17
/-- The conversion of bits of one type to another. -/
def convert (src dst : LTy) (m : Rnd) (sat : Bool) (r b : Nat) : Nat × FFlags :=
  if isFloatTy src then
    if isFloatTy dst then floatRound dst (decodeF src b) m sat r else floatToInt dst (decodeF src b) m
  else if isFloatTy dst then floatRound dst (FVal.ofInt (asInt src b)) m sat 0
  else (intOut' dst sat (asInt src b), 0)
where
  /-- Integer to integer: the low bits, or clamped. -/
  intOut' (t : LTy) (sat : Bool) (n : Int) : Nat := wrapInt t (if sat then clampInt t n else n)

/-- The source type of a conversion. -/
def srcTy (w : LaneWord) : LTy := (LTy.ofCode w.sub.toNat).getD .b32

def execCvt (w : LaneWord) (s : State) : Out :=
  laneOp w w.ty (fun g e l =>
    convert (srcTy w) w.ty (mode w) w.m41 (if w.rnd = 4 then g.lane l w.c.toNat 4 else 0) (rawA g e w (srcTy w) l)) s

/-! ### `cvq` (R246) -/

/-- r rotated left by 4j bits. -/
def rotl4 (r j : Nat) : Nat := (r * 2 ^ (4 * j) + r / 2 ^ (32 - 4 * j)) % 2 ^ 32
/-- The eight codes that the registers of a lane encode to. -/
def encode8 (g : Group) (w : LaneWord) (sc l : Nat) : Nat × FFlags :=
  let t := srcTy w
  let r := if w.rnd = 4 then g.lane l w.c.toNat 4 else 0
  (List.range 8).foldl (fun x j =>
    let c := q4Encode (decodeF t (g.lane l (w.a.toNat + j) t.bytes)) sc (decide (w.rnd = 4)) (rotl4 r j)
    (x.1 + 2 ^ (4 * j) * c.1, x.2 ||| c.2)) (0, 0)
/-- The eight values that a register of codes decodes to. -/
def decode8 (w : LaneWord) (sc a : Nat) : List (Nat × FFlags) :=
  (List.range 8).map fun j => floatRound (srcTy w) (q4Decode (a / 2 ^ (4 * j) % 16) sc) (mode w) false 0

def execCvq (w : LaneWord) (s : State) : Out :=
  onLane s fun g e =>
    let ls := acting g e w
    let sc := fun l => numB g e w l % 256
    let g' :=
      if w.m41 then
        (ls.map fun l => (l, decode8 w (sc l) (rawA g e w .b32 l))).foldl (fun x r =>
          ((List.range 8).zip r.2).foldl (fun x v => (x.setD (srcTy w) r.1 (w.d + BitVec.ofNat 8 v.1) v.2.1).flag v.2.2) x) g
      else g.writeLanes .b32 w.d (ls.map fun l => (l, encode8 g w (sc l) l))
    s.laneDone g' w.last

/-! ### `cvx` (R247) -/

/-- The low 16 bits of B, signed. -/
def expB (g : Group) (e : Entry) (w : LaneWord) (l : Nat) : Int := (BitVec.ofNat 16 (numB g e w l)).toInt
def execCvx (w : LaneWord) (s : State) : Out :=
  laneOp w w.ty (fun g e l =>
    let a := rawA g e w (srcTy w) l
    if w.ty = .xsf then
      let x := xsfFrom (decodeF (srcTy w) a) (expB g e w l)
      ((x.n % 2 ^ 128).toNat, x.flags)
    else floatRound w.ty (xsfVal a (expB g e w l)) .rn false 0) s

/-! ### `pack`, `unpack`, `rng` (R248, R249) -/

/-- The type of a register that holds a half of the packed width. -/
def halfTy (t : LTy) : LTy := if t = .b128 then .b64 else .b32
def execPack (w : LaneWord) (s : State) : Out :=
  laneBits w w.ty (fun g e l =>
    let h := 2 ^ (4 * w.ty.bytes)
    rawA g e w (halfTy w.ty) l % h + h * (rawB g e w (halfTy w.ty) l % h)) s
def execUnpack (w : LaneWord) (s : State) : Out :=
  laneBits w (halfTy w.ty) (fun g e l =>
    let h := 2 ^ (4 * w.ty.bytes)
    let a := rawA g e w w.ty l
    if numB g e w l % 2 = 0 then a % h else a / h) s

/-- The counter-based random value of a key and a counter. -/
def randomBits (k c : Nat) : Nat :=
  let m := 2 ^ 64
  let z := (k * 2 ^ 32 + c + 0x9E3779B97F4A7C15) % m
  let z := ((z ^^^ (z / 2 ^ 30)) * 0xBF58476D1CE4E5B9) % m
  let z := ((z ^^^ (z / 2 ^ 27)) * 0x94D049BB133111EB) % m
  (z ^^^ (z / 2 ^ 31)) / 2 ^ 32
def execRng (w : LaneWord) (s : State) : Out :=
  laneBits w .b32 (fun g e l => randomBits (rawA g e w .b32 l) (rawB g e w .b32 l)) s

end Sys2Proof.Machine
end

