-- ==== Sys2Proof/Machine/Scalar.lean ====
section
/-!
DEFINITION. Integer and address arithmetic of the scalar stream (R206 to R211), and `nop`.
-/
namespace Sys2Proof.Machine

/-- The shape of R206: sd := f(A, B). -/
def alu (f : Word → Word → Word) (d a b : SReg) (s : State) : Out :=
  regOp s 1 fun c => c.setS d (f (c.getS a) (c.getS b))
/-- The shape of the immediate forms (R207). -/
def aluImm (f : Word → Word → Word) (d a : SReg) (b : Word) (s : State) : Out :=
  regOp s 1 fun c => c.setS d (f (c.getS a) b)

/-- Shift left; 0 for counts of 32 or more (R206). -/
def shl32 (a b : Word) : Word := if b.toNat < 32 then a <<< b.toNat else 0
/-- Logical shift right; 0 for counts of 32 or more. -/
def shr32 (a b : Word) : Word := if b.toNat < 32 then a >>> b.toNat else 0
/-- Arithmetic shift right; all sign bits for counts of 32 or more. -/
def sra32 (a b : Word) : Word :=
  if b.toNat < 32 then a.sshiftRight b.toNat else if a.getLsbD 31 then 0xFFFFFFFF else 0
/-- High half of the signed product. -/
def mulhS (a b : Word) : Word := wordI (a.toInt * b.toInt / 2 ^ 32)
/-- High half of the unsigned product. -/
def mulhU (a b : Word) : Word := word (a.toNat * b.toNat / 2 ^ 32)
def minS (a b : Word) : Word := if a.toInt ≤ b.toInt then a else b
def maxS (a b : Word) : Word := if a.toInt ≤ b.toInt then b else a
def minU (a b : Word) : Word := if a.toNat ≤ b.toNat then a else b
def maxU (a b : Word) : Word := if a.toNat ≤ b.toNat then b else a
/-- Number of 1 bits among the low n. -/
def popcount {w : Nat} (a : BitVec w) : Nat → Nat
  | 0 => 0
  | n + 1 => (if a.getLsbD n then 1 else 0) + popcount a n
/-- Number of 0 bits above the highest 1 bit among the low n. -/
def leading {w : Nat} (a : BitVec w) : Nat → Nat
  | 0 => 0
  | n + 1 => if a.getLsbD n then 0 else 1 + leading a n

def execNop (s : State) : Out := regOp s 1 fun c => c
def execSadd (d a b : SReg) (s : State) : Out := alu (· + ·) d a b s
def execSsub (d a b : SReg) (s : State) : Out := alu (· - ·) d a b s
def execSmul (d a b : SReg) (s : State) : Out := alu (· * ·) d a b s
def execSmulhI32 (d a b : SReg) (s : State) : Out := alu mulhS d a b s
def execSmulhN32 (d a b : SReg) (s : State) : Out := alu mulhU d a b s
def execSand (d a b : SReg) (s : State) : Out := alu (· &&& ·) d a b s
def execSor (d a b : SReg) (s : State) : Out := alu (· ||| ·) d a b s
def execSxor (d a b : SReg) (s : State) : Out := alu (· ^^^ ·) d a b s
def execSshl (d a b : SReg) (s : State) : Out := alu shl32 d a b s
def execSshr (d a b : SReg) (s : State) : Out := alu shr32 d a b s
def execSsra (d a b : SReg) (s : State) : Out := alu sra32 d a b s
def execSminI32 (d a b : SReg) (s : State) : Out := alu minS d a b s
def execSminN32 (d a b : SReg) (s : State) : Out := alu minU d a b s
def execSmaxI32 (d a b : SReg) (s : State) : Out := alu maxS d a b s
def execSmaxN32 (d a b : SReg) (s : State) : Out := alu maxU d a b s
def execSpopc (d a : SReg) (s : State) : Out := regOp s 1 fun c => c.setS d (word (popcount (c.getS a) 32))
def execSclz (d a : SReg) (s : State) : Out := regOp s 1 fun c => c.setS d (word (leading (c.getS a) 32))
def execSmov (d a : SReg) (s : State) : Out := regOp s 1 fun c => c.setS d (c.getS a)

/-- The condition of R187 between two registers. -/
def SCond.holds : SCond → Word → Word → Bool
  | .eq, a, b => a == b
  | .ne, a, b => a != b
  | .lt, a, b => a.toInt < b.toInt
  | .le, a, b => a.toInt ≤ b.toInt
  | .gt, a, b => a.toInt > b.toInt
  | .ge, a, b => a.toInt ≥ b.toInt
  | .ltu, a, b => a.toNat < b.toNat
  | .leu, a, b => a.toNat ≤ b.toNat
  | .gtu, a, b => a.toNat > b.toNat
  | .geu, a, b => a.toNat ≥ b.toNat

def execScmp (cond : SCond) (d : CReg) (a b : SReg) (s : State) : Out :=
  regOp s 1 fun c => c.setC d (SCond.holds cond (c.getS a) (c.getS b))
def execSsel (neg : Bool) (c : CReg) (d a b : SReg) (s : State) : Out :=
  regOp s 1 fun x => x.setS d (if x.getC c != neg then x.getS a else x.getS b)

/-- `sbfx` (R210): the field of len bits at pos, sign-extended where asked. -/
def bitExtract (signed : Bool) (pos len : Nat) (a : Word) : Word :=
  let f := a.toNat / 2 ^ pos % 2 ^ len
  if signed && 2 ^ (len - 1) ≤ f then wordI ((f : Int) - 2 ^ len) else word f
/-- `sbfi` (R210): the field of len bits at pos of d replaced by the low bits of a. -/
def bitInsert (pos len : Nat) (d a : Word) : Word :=
  let m := word ((2 ^ len - 1) * 2 ^ pos)
  (d &&& ~~~m) ||| (word (a.toNat % 2 ^ len * 2 ^ pos) &&& m)

def execSbfx (signed : Bool) (pos len1 : BitVec 5) (d a : SReg) (s : State) : Out :=
  regOp s 1 fun c => c.setS d (bitExtract signed pos.toNat (len1.toNat + 1) (c.getS a))
def execSbfi (pos len1 : BitVec 5) (d a : SReg) (s : State) : Out :=
  regOp s 1 fun c => c.setS d (bitInsert pos.toNat (len1.toNat + 1) (c.getS d) (c.getS a))
def execSaddImm (d a : SReg) (i : BitVec 12) (s : State) : Out := aluImm (· + ·) d a (imm12 i) s
def execSandImm (d a : SReg) (i : BitVec 12) (s : State) : Out := aluImm (· &&& ·) d a (imm12 i) s
def execSorImm (d a : SReg) (i : BitVec 12) (s : State) : Out := aluImm (· ||| ·) d a (imm12 i) s
def execSxorImm (d a : SReg) (i : BitVec 12) (s : State) : Out := aluImm (· ^^^ ·) d a (imm12 i) s
def execSshlImm (d a : SReg) (i : BitVec 5) (s : State) : Out := aluImm shl32 d a (i.setWidth 32) s
def execSshrImm (d a : SReg) (i : BitVec 5) (s : State) : Out := aluImm shr32 d a (i.setWidth 32) s
def execSsraImm (d a : SReg) (i : BitVec 5) (s : State) : Out := aluImm sra32 d a (i.setWidth 32) s
def execSli (sx : Bool) (d : SReg) (i : BitVec 16) (s : State) : Out :=
  regOp s 1 fun c => c.setS d (if sx then i.signExtend 32 else i.setWidth 32)
def execSlih (d : SReg) (i : BitVec 16) (s : State) : Out :=
  regOp s 1 fun c => c.setS d (i ++ (c.getS d).setWidth 16)

def execAadd (d a : AReg) (b : SReg) (sh : BitVec 2) (s : State) : Out :=
  regOp s 1 fun c => c.setA d (c.getA a + ((c.getS b).signExtend 64 <<< sh.toNat))
def execAaddImm (d a : AReg) (i : BitVec 12) (s : State) : Out :=
  regOp s 1 fun c => c.setA d (c.getA a + i.signExtend 64)
def execAlea (d a : AReg) (i : BitVec 32) (s : State) : Out :=
  regOp s 2 fun c => c.setA d (c.getA a + i.signExtend 64)
def execAmov (d a : AReg) (s : State) : Out := regOp s 1 fun c => c.setA d (c.getA a)
def execAmovN32 (d : AReg) (a : SReg) (s : State) : Out := regOp s 1 fun c => c.setA d ((c.getS a).setWidth 64)
def execAmovI32 (d : AReg) (a : SReg) (s : State) : Out := regOp s 1 fun c => c.setA d ((c.getS a).signExtend 64)
def execAmovLo (d : SReg) (a : AReg) (s : State) : Out := regOp s 1 fun c => c.setS d ((c.getA a).setWidth 32)
def execAmovHi (d : SReg) (a : AReg) (s : State) : Out :=
  regOp s 1 fun c => c.setS d ((c.getA a).extractLsb' 32 32)
def execAmovPair (d : AReg) (a b : SReg) (s : State) : Out := regOp s 1 fun c => c.setA d (c.getS a ++ c.getS b)

end Sys2Proof.Machine
end

