-- ==== Sys2Proof/Machine/LaneInt.lean ====
section
/-!
DEFINITION. Lane arithmetic: integer and floating-point `add` to `neg`, bitwise instructions, bit fields,
`sel`, `mov` and `cmp` (R238 to R241, R243, R244).
-/
namespace Sys2Proof.Machine

/-- An integer result: wrapped, or clamped with `.sat` (R238). -/
def intOut (t : LTy) (sat : Bool) (n : Int) : Nat := wrapInt t (if sat then clampInt t n else n)

/-- The shape of binary arithmetic on both kinds of types. -/
def arith (w : LaneWord) (i : Int → Int → Int) (fl : LTy → Nat → Nat → Nat × FFlags) (s : State) : Out :=
  laneOp w w.ty (fun g e l =>
    if w.ty.isFloat then fl w.ty (srcFA g e w l) (srcFB g e w l)
    else (intOut w.ty w.m41 (i (asInt w.ty (rawA g e w w.ty l)) (asInt w.ty (rawB g e w w.ty l))), 0)) s

def execMov (w : LaneWord) (s : State) : Out := laneBits w w.ty (fun g e l => rawB g e w w.ty l) s
def execAdd (w : LaneWord) (s : State) : Out :=
  arith w (· + ·) (fun t a b => fAdd t (mode w) (decodeF t a) (decodeF t b)) s
def execSub (w : LaneWord) (s : State) : Out :=
  arith w (· - ·) (fun t a b => fAdd t (mode w) (decodeF t a) (decodeF t b).negate) s
def execMul (w : LaneWord) (s : State) : Out :=
  arith w (· * ·) (fun t a b => fMul t (mode w) (decodeF t a) (decodeF t b)) s
def execMulh (w : LaneWord) (s : State) : Out :=
  laneBits w w.ty (fun g e l =>
    wrapInt w.ty (asInt w.ty (rawA g e w w.ty l) * asInt w.ty (rawB g e w w.ty l) / 2 ^ (8 * w.ty.bytes))) s
def execMad (w : LaneWord) (s : State) : Out :=
  laneBits w w.ty (fun g e l =>
    wrapInt w.ty (asInt w.ty (rawA g e w w.ty l) * asInt w.ty (rawB g e w w.ty l) + asInt w.ty (rawC g w w.ty l))) s
def execFma (w : LaneWord) (s : State) : Out :=
  laneOp w w.ty (fun g e l =>
    fFma w.ty (mode w) (decodeF w.ty (srcFA g e w l)) (decodeF w.ty (srcFB g e w l)) (decodeF w.ty (srcFC g w l))) s
def execMin (w : LaneWord) (s : State) : Out :=
  arith w (fun a b => if a ≤ b then a else b) (fun t a b => fMinMax t false a b) s
def execMax (w : LaneWord) (s : State) : Out :=
  arith w (fun a b => if a ≤ b then b else a) (fun t a b => fMinMax t true a b) s
def execAbs (w : LaneWord) (s : State) : Out :=
  laneBits w w.ty (fun g e l =>
    let a := rawA g e w w.ty l
    if w.ty.isFloat then signMod w.ty true false a else intOut w.ty w.m41 (asInt w.ty a).natAbs) s
def execNeg (w : LaneWord) (s : State) : Out :=
  laneBits w w.ty (fun g e l =>
    let a := rawA g e w w.ty l
    if w.ty.isFloat then signMod w.ty false true a else intOut w.ty w.m41 (-asInt w.ty a)) s

/-! ### Bits (R239, R240) -/

/-- The shape of bitwise instructions. -/
def bitwise (w : LaneWord) (f : Nat → Nat → Nat) (s : State) : Out :=
  laneBits w w.ty (fun g e l => f (rawA g e w w.ty l) (rawB g e w w.ty l)) s
def execAnd (w : LaneWord) (s : State) : Out := bitwise w (· &&& ·) s
def execOr (w : LaneWord) (s : State) : Out := bitwise w (· ||| ·) s
def execXor (w : LaneWord) (s : State) : Out := bitwise w (· ^^^ ·) s
def execNot (w : LaneWord) (s : State) : Out :=
  laneBits w w.ty (fun g e l => 2 ^ (8 * w.ty.bytes) - 1 - rawA g e w w.ty l) s

/-- Shifts of a value of width bits by a count (R239). -/
def shiftLeft (width a n : Nat) : Nat := if n < width then a * 2 ^ n % 2 ^ width else 0
def shiftRight (width a n : Nat) : Nat := if n < width then a / 2 ^ n else 0
def shiftArith (width a n : Nat) : Nat :=
  let x : Int := if 2 ^ (width - 1) ≤ a then (a : Int) - 2 ^ width else a
  if n < width then (x / 2 ^ n % 2 ^ width).toNat else if x < 0 then 2 ^ width - 1 else 0
/-- The shape of shifts. -/
def shift (w : LaneWord) (f : Nat → Nat → Nat → Nat) (s : State) : Out :=
  laneBits w w.ty (fun g e l => f (8 * w.ty.bytes) (rawA g e w w.ty l) (numB g e w l)) s
def execShl (w : LaneWord) (s : State) : Out := shift w shiftLeft s
def execShr (w : LaneWord) (s : State) : Out := shift w shiftRight s
def execSra (w : LaneWord) (s : State) : Out := shift w shiftArith s

/-- Position and length of a bit field: from the immediate, or from b and c (R240). -/
def fieldOf (g : Group) (e : Entry) (w : LaneWord) (l : Nat) : Nat × Nat :=
  if w.bSrc = 2 then (w.imm.toNat % 256, w.imm.toNat / 256 % 256)
  else (numB g e w l, g.lane l w.c.toNat 4)
/-- n of R240. -/
def fieldLen (width pos len : Nat) : Nat := if width ≤ pos then 0 else Nat.min len (width - pos)

def execBfx (w : LaneWord) (s : State) : Out :=
  laneBits w w.ty (fun g e l =>
    let f := fieldOf g e w l
    let n := fieldLen (8 * w.ty.bytes) f.1 f.2
    if n = 0 then 0 else rawA g e w w.ty l / 2 ^ f.1 % 2 ^ n) s
def execBfi (w : LaneWord) (s : State) : Out :=
  laneBits w w.ty (fun g e l =>
    let f := fieldOf g e w l
    let n := fieldLen (8 * w.ty.bytes) f.1 f.2
    let d := g.lane l w.d.toNat w.ty.bytes
    if n = 0 then d
    else d - d / 2 ^ f.1 % 2 ^ n * 2 ^ f.1 + rawA g e w w.ty l % 2 ^ n * 2 ^ f.1) s

/-- The shape of counting instructions. -/
def counting (w : LaneWord) (f : Nat → BitVec 64 → Nat) (s : State) : Out :=
  laneBits w w.ty (fun g e l => f (8 * w.ty.bytes) (BitVec.ofNat 64 (rawA g e w w.ty l))) s
/-- Bits in reverse order. -/
def reverseBits (width : Nat) (a : BitVec 64) : Nat :=
  (List.range width).foldl (fun n i => 2 * n + (if a.getLsbD i then 1 else 0)) 0
def execBrev (w : LaneWord) (s : State) : Out := counting w reverseBits s
def execPopc (w : LaneWord) (s : State) : Out := counting w (fun n a => popcount a n) s
def execClz (w : LaneWord) (s : State) : Out := counting w (fun n a => leading a n) s

/-! ### Selection and comparison (R243, R244) -/

def execSel (w : LaneWord) (s : State) : Out :=
  laneBits w w.ty (fun g e l =>
    if (g.getP (w.c.setWidth 3)).getLsbD l then rawA g e w w.ty l else rawB g e w w.ty l) s

/-- A condition between floats, with NV for a signalling NaN (R127, R243). -/
def floatCond (c : Nat) (a b : FVal) : Bool :=
  let un := a.isNan || b.isNan
  match c with
  | 0 => a.eqv b
  | 1 => !a.eqv b
  | 2 => !un && a.lt b
  | 3 => !un && !b.lt a
  | 4 => !un && b.lt a
  | 5 => !un && !a.lt b
  | 6 => un
  | _ => !un
/-- A condition between integers. -/
def intCond (c : Nat) (a b : Int) : Bool :=
  match c with
  | 0 => a == b
  | 1 => a != b
  | 2 => a < b
  | 3 => a ≤ b
  | 4 => b < a
  | _ => b ≤ a

/-- The condition of `cmp` in a lane, and the flags. -/
def cmpLane (g : Group) (e : Entry) (w : LaneWord) (l : Nat) : Bool × FFlags :=
  if w.ty.isFloat then
    let a := decodeF w.ty (rawA g e w w.ty l)
    let b := decodeF w.ty (rawB g e w w.ty l)
    (floatCond w.sub.toNat a b, if a.isSig || b.isSig then flagNV else 0)
  else (intCond w.sub.toNat (asInt w.ty (rawA g e w w.ty l)) (asInt w.ty (rawB g e w w.ty l)), 0)

def execCmp (w : LaneWord) (s : State) : Out :=
  lanePred w (fun g e =>
    (maskOf fun l => (cmpLane g e w l).1,
     (acting g e w).foldl (fun f l => f ||| (cmpLane g e w l).2) 0)) s

end Sys2Proof.Machine
end

