-- ==== Sys2Proof/Machine/Special.lean ====
section
/-!
DEFINITION. Special registers (R189, R228).
-/
namespace Sys2Proof.Machine

/-- What a special register number names: none where it is not listed. -/
inductive SpecialReg where
  | grp | tsize | teamX | teamY | teamZ | nteamX | nteamY | nteamZ | width | core | pair | die | part
  | rank | nrank | seq | clockLo | clockHi | memlat | fflags | det | ovmiss
  deriving DecidableEq, Repr

def SpecialReg.ofNumber (n : BitVec 16) : Option SpecialReg :=
  match n.toNat with
  | 0x00 => some .grp | 0x01 => some .tsize | 0x02 => some .teamX | 0x03 => some .teamY | 0x04 => some .teamZ
  | 0x05 => some .nteamX | 0x06 => some .nteamY | 0x07 => some .nteamZ | 0x08 => some .width
  | 0x10 => some .core | 0x11 => some .pair | 0x12 => some .die | 0x13 => some .part
  | 0x20 => some .rank | 0x21 => some .nrank | 0x22 => some .seq
  | 0x30 => some .clockLo | 0x31 => some .clockHi | 0x32 => some .memlat
  | 0x40 => some .fflags | 0x41 => some .det | 0x42 => some .ovmiss
  | _ => none

/-- The value a special register reads as, for a group. -/
def readSpecial (s : State) (g : Group) (r : SpecialReg) : Word :=
  let l := s.lrec g.ref
  let t := g.ref.team
  let coll := s.coll? g.ref.part (lrColl l)
  let bound := lrColl l ≠ 0
  match r with
  | .grp => word g.ref.grp
  | .tsize => word (lrGroups l)
  | .teamX => word (t % lrGx l)
  | .teamY => word (t / lrGx l % lrGy l)
  | .teamZ => word (t / (lrGx l * lrGy l))
  | .nteamX => word (lrGx l)
  | .nteamY => word (lrGy l)
  | .nteamZ => word (lrGz l)
  | .width => word (lrWidth l)
  | .core => word g.core
  | .pair => word (g.core / 2)
  | .die => word (g.core / 72)
  | .part => word g.ref.part
  | .rank => if bound then word ((coll.map fun c => crRank c.crec).getD 0) else 0
  | .nrank => if bound then word ((coll.map fun c => crN c.crec).getD 1) else 1
  | .seq => if bound then word (((s.launch? g.ref.part g.ref.lid).bind (·.seqNo)).getD 0) else 0
  | .clockLo => word s.clock
  | .clockHi => g.ctx.clockHi
  | .memlat => g.memlat
  | .fflags => g.fflags.setWidth 32
  | .det => wordB (((s.part? g.ref.part).map fun p => prDet p.prec).getD false)
  | .ovmiss => (g.ctx.ovLast.setWidth 32 <<< 16) ||| g.ctx.ovCount.setWidth 32

def execSget (d : SReg) (n : BitVec 16) (s : State) : Out :=
  onFrag s fun g _ =>
    match SpecialReg.ofNumber n with
    | none => s.trap g .illegalOperand
    | some r =>
      let v := readSpecial s g r
      s.setGroup (g.onCtx fun c =>
        (if r = .clockLo then { c.setS d v with clockHi := word (s.clock / 2 ^ 32) } else c.setS d v).retire
          s.cur.st.slot1 1)

def execSset (a : SReg) (n : BitVec 16) (s : State) : Out :=
  onFrag s fun g _ =>
    match SpecialReg.ofNumber n with
    | none => s.trap g .illegalOperand
    | some .fflags =>
      s.setGroup { (g.onCtx fun c => c.retire s.cur.st.slot1 1) with fflags := (g.ctx.getS a).setWidth 5 }
    | some .ovmiss =>
      s.setGroup (g.onCtx fun c => { c with ovCount := (c.getS a).setWidth 16 }.retire s.cur.st.slot1 1)
    | some _ => s.trap g .privilege

end Sys2Proof.Machine
end

