-- ==== Sys2Proof/Machine/Dispatch.lean ====
section
/-!
DEFINITION. The meaning of each instruction and device step, one arm per constructor.
-/
namespace Sys2Proof.Machine
open Sys2Proof

def exec (i : Instr) (s : State) : Host.Outcome State Fault Refusal :=
  match i with
  | .nop => Sys2Proof.Machine.execNop s
  | .sadd d a b => Sys2Proof.Machine.execSadd d a b s
  | .ssub d a b => Sys2Proof.Machine.execSsub d a b s
  | .smul d a b => Sys2Proof.Machine.execSmul d a b s
  | .smulhI32 d a b => Sys2Proof.Machine.execSmulhI32 d a b s
  | .smulhN32 d a b => Sys2Proof.Machine.execSmulhN32 d a b s
  | .sand d a b => Sys2Proof.Machine.execSand d a b s
  | .sor d a b => Sys2Proof.Machine.execSor d a b s
  | .sxor d a b => Sys2Proof.Machine.execSxor d a b s
  | .sshl d a b => Sys2Proof.Machine.execSshl d a b s
  | .sshr d a b => Sys2Proof.Machine.execSshr d a b s
  | .ssra d a b => Sys2Proof.Machine.execSsra d a b s
  | .sminI32 d a b => Sys2Proof.Machine.execSminI32 d a b s
  | .sminN32 d a b => Sys2Proof.Machine.execSminN32 d a b s
  | .smaxI32 d a b => Sys2Proof.Machine.execSmaxI32 d a b s
  | .smaxN32 d a b => Sys2Proof.Machine.execSmaxN32 d a b s
  | .spopc d a => Sys2Proof.Machine.execSpopc d a s
  | .sclz d a => Sys2Proof.Machine.execSclz d a s
  | .smov d a => Sys2Proof.Machine.execSmov d a s
  | .scmp cond d a b => Sys2Proof.Machine.execScmp cond d a b s
  | .ssel neg c d a b => Sys2Proof.Machine.execSsel neg c d a b s
  | .sbfx signed pos len1 d a => Sys2Proof.Machine.execSbfx signed pos len1 d a s
  | .sbfi pos len1 d a => Sys2Proof.Machine.execSbfi pos len1 d a s
  | .saddImm d a imm => Sys2Proof.Machine.execSaddImm d a imm s
  | .sandImm d a imm => Sys2Proof.Machine.execSandImm d a imm s
  | .sorImm d a imm => Sys2Proof.Machine.execSorImm d a imm s
  | .sxorImm d a imm => Sys2Proof.Machine.execSxorImm d a imm s
  | .sshlImm d a imm => Sys2Proof.Machine.execSshlImm d a imm s
  | .sshrImm d a imm => Sys2Proof.Machine.execSshrImm d a imm s
  | .ssraImm d a imm => Sys2Proof.Machine.execSsraImm d a imm s
  | .sli sx d imm => Sys2Proof.Machine.execSli sx d imm s
  | .slih d imm => Sys2Proof.Machine.execSlih d imm s
  | .aadd d a b sh => Sys2Proof.Machine.execAadd d a b sh s
  | .aaddImm d a imm => Sys2Proof.Machine.execAaddImm d a imm s
  | .alea d a imm => Sys2Proof.Machine.execAlea d a imm s
  | .amov d a => Sys2Proof.Machine.execAmov d a s
  | .amovN32 d a => Sys2Proof.Machine.execAmovN32 d a s
  | .amovI32 d a => Sys2Proof.Machine.execAmovI32 d a s
  | .amovLo d a => Sys2Proof.Machine.execAmovLo d a s
  | .amovHi d a => Sys2Proof.Machine.execAmovHi d a s
  | .amovPair d a b => Sys2Proof.Machine.execAmovPair d a b s
  | .br off => Sys2Proof.Machine.execBr off s
  | .brc neg c off => Sys2Proof.Machine.execBrc neg c off s
  | .call off => Sys2Proof.Machine.execCall off s
  | .ret => Sys2Proof.Machine.execRet s
  | .callo id entry => Sys2Proof.Machine.execCallo id entry s
  | .reto => Sys2Proof.Machine.execReto s
  | .loop a fin => Sys2Proof.Machine.execLoop a fin s
  | .loopi count fin => Sys2Proof.Machine.execLoopi count fin s
  | .lbrk => Sys2Proof.Machine.execLbrk s
  | .split p target joinAt => Sys2Proof.Machine.execSplit p target joinAt s
  | .join => Sys2Proof.Machine.execJoin s
  | .yield => Sys2Proof.Machine.execYield s
  | .lrun off => Sys2Proof.Machine.execLrun off s
  | .lwait => Sys2Proof.Machine.execLwait s
  | .exit => Sys2Proof.Machine.execExit s
  | .trap imm => Sys2Proof.Machine.execTrap imm s
  | .kick a => Sys2Proof.Machine.execKick a s
  | .garrive g a imm => Sys2Proof.Machine.execGarrive g a imm s
  | .gwait g a q => Sys2Proof.Machine.execGwait g a q s
  | .gsync g a imm => Sys2Proof.Machine.execGsync g a imm s
  | .garm g a b count bytes => Sys2Proof.Machine.execGarm g a b count bytes s
  | .gget d g sel => Sys2Proof.Machine.execGget d g sel s
  | .lbar n => Sys2Proof.Machine.execLbar n s
  | .tkt d a count q => Sys2Proof.Machine.execTkt d a count q s
  | .tktv q => Sys2Proof.Machine.execTktv q s
  | .xfire a imm => Sys2Proof.Machine.execXfire a imm s
  | .xwait a imm => Sys2Proof.Machine.execXwait a imm s
  | .sget d n => Sys2Proof.Machine.execSget d n s
  | .sset a n => Sys2Proof.Machine.execSset a n s
  | .ovld g a b id slot => Sys2Proof.Machine.execOvld g a b id slot s
  | .ovq d a imm => Sys2Proof.Machine.execOvq d a imm s
  | .xdrain a => Sys2Proof.Machine.execXdrain a s
  | .xdrainAll => Sys2Proof.Machine.execXdrainAll s
  | .pause n => Sys2Proof.Machine.execPause n s
  | .pauseEnd g slot1 => Sys2Proof.Machine.execPauseEnd g slot1 s
  | .brkpt imm => Sys2Proof.Machine.execBrkpt imm s
  | .perf d n => Sys2Proof.Machine.execPerf d n s
  | .ldSpd m => Sys2Proof.Machine.execLdSpd m s
  | .ldPmem m => Sys2Proof.Machine.execLdPmem m s
  | .ldChip m => Sys2Proof.Machine.execLdChip m s
  | .ldGlb m => Sys2Proof.Machine.execLdGlb m s
  | .stSpd m => Sys2Proof.Machine.execStSpd m s
  | .stPmem m => Sys2Proof.Machine.execStPmem m s
  | .stChip m => Sys2Proof.Machine.execStChip m s
  | .stGlb m => Sys2Proof.Machine.execStGlb m s
  | .ldt m => Sys2Proof.Machine.execLdt m s
  | .fenceAcq sc => Sys2Proof.Machine.execFenceAcq sc s
  | .fenceRel sc => Sys2Proof.Machine.execFenceRel sc s
  | .fenceAr sc => Sys2Proof.Machine.execFenceAr sc s
  | .prf msc a off => Sys2Proof.Machine.execPrf msc a off s
  | .pres d a imm => Sys2Proof.Machine.execPres d a imm s
  | .mwin d a b src rot fmt blk mask tpitch => Sys2Proof.Machine.execMwin d a b src rot fmt blk mask tpitch s
  | .mzero d => Sys2Proof.Machine.execMzero d s
  | .mma d a b => Sys2Proof.Machine.execMma d a b s
  | .mmab d a b => Sys2Proof.Machine.execMmab d a b s
  | .mfence d => Sys2Proof.Machine.execMfence d s
  | .mwait a imm => Sys2Proof.Machine.execMwait a imm s
  | .mhint a imm => Sys2Proof.Machine.execMhint a imm s
  | .maccLd d a sp rot off => Sys2Proof.Machine.execMaccLd d a sp rot off s
  | .maccSt d a sp rot off => Sys2Proof.Machine.execMaccSt d a sp rot off s
  | .mcvt d a ty rnd sat e => Sys2Proof.Machine.execMcvt d a ty rnd sat e s
  | .bvset g a b m off => Sys2Proof.Machine.execBvset g a b m off s
  | .bvfit g a off => Sys2Proof.Machine.execBvfit g a off s
  | .bvleaf g a b m off => Sys2Proof.Machine.execBvleaf g a b m off s
  | .bvnode g a off => Sys2Proof.Machine.execBvnode g a off s
  | .shp h a off => Sys2Proof.Machine.execShp h a off s
  | .shpCopy h hs a off => Sys2Proof.Machine.execShpCopy h hs a off s
  | .cpy st x => Sys2Proof.Machine.execCpy st x s
  | .cpyt st x => Sys2Proof.Machine.execCpyt st x s
  | .cpyw run1 x => Sys2Proof.Machine.execCpyw run1 x s
  | .cpyg x => Sys2Proof.Machine.execCpyg x s
  | .cpys x => Sys2Proof.Machine.execCpys x s
  | .cprf msc h sc => Sys2Proof.Machine.execCprf msc h sc s
  | .xdict g bank a off => Sys2Proof.Machine.execXdict g bank a off s
  | .xpoll d a imm => Sys2Proof.Machine.execXpoll d a imm s
  | .rfwd g a b n1 off => Sys2Proof.Machine.execRfwd g a b n1 off s
  | .rrecv g q a b => Sys2Proof.Machine.execRrecv g q a b s
  | .xinit a off => Sys2Proof.Machine.execXinit a off s
  | .xabort a imm => Sys2Proof.Machine.execXabort a imm s
  | .xstat d a imm => Sys2Proof.Machine.execXstat d a imm s
  | .mov w => Sys2Proof.Machine.execMov w s
  | .add w => Sys2Proof.Machine.execAdd w s
  | .sub w => Sys2Proof.Machine.execSub w s
  | .mul w => Sys2Proof.Machine.execMul w s
  | .mulh w => Sys2Proof.Machine.execMulh w s
  | .mad w => Sys2Proof.Machine.execMad w s
  | .fma w => Sys2Proof.Machine.execFma w s
  | .min w => Sys2Proof.Machine.execMin w s
  | .max w => Sys2Proof.Machine.execMax w s
  | .abs w => Sys2Proof.Machine.execAbs w s
  | .neg w => Sys2Proof.Machine.execNeg w s
  | .and w => Sys2Proof.Machine.execAnd w s
  | .or w => Sys2Proof.Machine.execOr w s
  | .xor w => Sys2Proof.Machine.execXor w s
  | .not w => Sys2Proof.Machine.execNot w s
  | .shl w => Sys2Proof.Machine.execShl w s
  | .shr w => Sys2Proof.Machine.execShr w s
  | .sra w => Sys2Proof.Machine.execSra w s
  | .bfx w => Sys2Proof.Machine.execBfx w s
  | .bfi w => Sys2Proof.Machine.execBfi w s
  | .brev w => Sys2Proof.Machine.execBrev w s
  | .popc w => Sys2Proof.Machine.execPopc w s
  | .clz w => Sys2Proof.Machine.execClz w s
  | .sel w => Sys2Proof.Machine.execSel w s
  | .cmp w => Sys2Proof.Machine.execCmp w s
  | .rcp w => Sys2Proof.Machine.execRcp w s
  | .rsq w => Sys2Proof.Machine.execRsq w s
  | .sqrt w => Sys2Proof.Machine.execSqrt w s
  | .ex2 w => Sys2Proof.Machine.execEx2 w s
  | .lg2 w => Sys2Proof.Machine.execLg2 w s
  | .sin w => Sys2Proof.Machine.execSin w s
  | .cos w => Sys2Proof.Machine.execCos w s
  | .frc w => Sys2Proof.Machine.execFrc w s
  | .cvt w => Sys2Proof.Machine.execCvt w s
  | .cvq w => Sys2Proof.Machine.execCvq w s
  | .cvx w => Sys2Proof.Machine.execCvx w s
  | .pack w => Sys2Proof.Machine.execPack w s
  | .unpack w => Sys2Proof.Machine.execUnpack w s
  | .rng w => Sys2Proof.Machine.execRng w s
  | .ballot w => Sys2Proof.Machine.execBallot w s
  | .vany w => Sys2Proof.Machine.execVany w s
  | .vall w => Sys2Proof.Machine.execVall w s
  | .elect w => Sys2Proof.Machine.execElect w s
  | .shfl w => Sys2Proof.Machine.execShfl w s
  | .bfly w => Sys2Proof.Machine.execBfly w s
  | .bperm w => Sys2Proof.Machine.execBperm w s
  | .rdc w => Sys2Proof.Machine.execRdc w s
  | .scan w => Sys2Proof.Machine.execScan w s
  | .pset w => Sys2Proof.Machine.execPset w s
  | .pand w => Sys2Proof.Machine.execPand w s
  | .por w => Sys2Proof.Machine.execPor w s
  | .pxor w => Sys2Proof.Machine.execPxor w s
  | .pget w => Sys2Proof.Machine.execPget w s
  | .lget w => Sys2Proof.Machine.execLget w s
  | .laneLd sp w => Sys2Proof.Machine.execLaneLd sp w s
  | .laneSt sp w => Sys2Proof.Machine.execLaneSt sp w s
  | .laneLdt w => Sys2Proof.Machine.execLaneLdt w s
  | .xadd w => Sys2Proof.Machine.execXadd w s
  | .xaddi w => Sys2Proof.Machine.execXaddi w s
  | .atom sp w => Sys2Proof.Machine.execAtom sp w s
  | .red sp w => Sys2Proof.Machine.execRed sp w s
  | .laneFence w => Sys2Proof.Machine.execLaneFence w s
  | .lanePrf w => Sys2Proof.Machine.execLanePrf w s
  | .trc w => Sys2Proof.Machine.execTrc w s
  | .trq w => Sys2Proof.Machine.execTrq w s
  | .memoryReturn g st => Sys2Proof.Machine.execMemoryReturn g st s
  | .copyLineDone op line => Sys2Proof.Machine.execCopyLineDone op line s
  | .copyAccessFault op => Sys2Proof.Machine.execCopyAccessFault op s
  | .faultQueueRoom part => Sys2Proof.Machine.execFaultQueueRoom part s
  | .overlayLoadDone core slot => Sys2Proof.Machine.execOverlayLoadDone core slot s
  | .overlayLoadFault core slot => Sys2Proof.Machine.execOverlayLoadFault core slot s
  | .matrixOpComplete core => Sys2Proof.Machine.execMatrixOpComplete core s
  | .rampUpEnd core => Sys2Proof.Machine.execRampUpEnd core s
  | .rampDownStart core => Sys2Proof.Machine.execRampDownStart core s
  | .rampDownEnd core => Sys2Proof.Machine.execRampDownEnd core s
  | .bvsetReadDone op => Sys2Proof.Machine.execBvsetReadDone op s
  | .rayLaneFinish op lane => Sys2Proof.Machine.execRayLaneFinish op lane s
  | .rayAccessFault op => Sys2Proof.Machine.execRayAccessFault op s
  | .refitNodeDone op => Sys2Proof.Machine.execRefitNodeDone op s
  | .bvleafLineDone op => Sys2Proof.Machine.execBvleafLineDone op s
  | .ticketHeaderWriteDone part lid q => Sys2Proof.Machine.execTicketHeaderWriteDone part lid q s
  | .breq part core region min want => Sys2Proof.Machine.execBreq part core region min want s
  | .bgrant part core region b => Sys2Proof.Machine.execBgrant part core region b s
  | .bdeny part core region => Sys2Proof.Machine.execBdeny part core region s
  | .drainKnell part core region => Sys2Proof.Machine.execDrainKnell part core region s
  | .splitKnell part core region => Sys2Proof.Machine.execSplitKnell part core region s
  | .kack part core region ret => Sys2Proof.Machine.execKack part core region ret s
  | .bret part core region ret => Sys2Proof.Machine.execBret part core region ret s
  | .toleranceQuiet part region id => Sys2Proof.Machine.execToleranceQuiet part region id s
  | .launchEntryRead part q => Sys2Proof.Machine.execLaunchEntryRead part q s
  | .launchTaken part => Sys2Proof.Machine.execLaunchTaken part s
  | .teamPlacement part => Sys2Proof.Machine.execTeamPlacement part s
  | .placementWaitLimit part lid => Sys2Proof.Machine.execPlacementWaitLimit part lid s
  | .groupSetupComplete g => Sys2Proof.Machine.execGroupSetupComplete g s
  | .migrationStart part lid team core => Sys2Proof.Machine.execMigrationStart part lid team core s
  | .migrationComplete part lid team => Sys2Proof.Machine.execMigrationComplete part lid team s
  | .watchdogExpiry g slot1 => Sys2Proof.Machine.execWatchdogExpiry g slot1 s
  | .refreshDue stack pch => Sys2Proof.Machine.execRefreshDue stack pch s
  | .refreshEnd stack pch bank => Sys2Proof.Machine.execRefreshEnd stack pch bank s
  | .bankGroupIdle stack pch bg => Sys2Proof.Machine.execBankGroupIdle stack pch bg s
  | .tambourMessage r at_ m => Sys2Proof.Machine.execTambourMessage r at_ m s
  | .slotTimerExpiry r at_ => Sys2Proof.Machine.execSlotTimerExpiry r at_ s
  | .nack r at_ sender => Sys2Proof.Machine.execNack r at_ sender s
  | .wait r at_ => Sys2Proof.Machine.execWait r at_ s
  | .acknowledgement r at_ sender => Sys2Proof.Machine.execAcknowledgement r at_ sender s
  | .commitMessage r flags => Sys2Proof.Machine.execCommitMessage r flags s
  | .confirmation r flags => Sys2Proof.Machine.execConfirmation r flags s
  | .lossNotice r l => Sys2Proof.Machine.execLossNotice r l s
  | .remoteFetchRequest part sender page line => Sys2Proof.Machine.execRemoteFetchRequest part sender page line s
  | .remoteFetchAnswer part peer page line ans => Sys2Proof.Machine.execRemoteFetchAnswer part peer page line ans s
  | .remoteWorkRecord part coll sender k bytes => Sys2Proof.Machine.execRemoteWorkRecord part coll sender k bytes s
  | .mailboxSlotRelease part coll receiver k => Sys2Proof.Machine.execMailboxSlotRelease part coll receiver k s
  | .hostCxlMemRead addr n => Sys2Proof.Machine.execHostCxlMemRead addr n s
  | .hostCxlMemWrite addr bytes => Sys2Proof.Machine.execHostCxlMemWrite addr bytes s
  | .partCreate c => Sys2Proof.Machine.execPartCreate c s
  | .partDestroy c => Sys2Proof.Machine.execPartDestroy c s
  | .preempt c => Sys2Proof.Machine.execPreempt c s
  | .saveComplete part => Sys2Proof.Machine.execSaveComplete part s
  | .restore c => Sys2Proof.Machine.execRestore c s
  | .kill c => Sys2Proof.Machine.execKill c s
  | .replay c => Sys2Proof.Machine.execReplay c s
  | .resume c => Sys2Proof.Machine.execResume c s
  | .regionLock c => Sys2Proof.Machine.execRegionLock c s
  | .regionUnlock c => Sys2Proof.Machine.execRegionUnlock c s
  | .slotFlush c => Sys2Proof.Machine.execSlotFlush c s
  | .attgo v => Sys2Proof.Machine.execAttgo v s
  | .fwgo v => Sys2Proof.Machine.execFwgo v s
  | .invgo part v => Sys2Proof.Machine.execInvgo part v s
  | .shootdownComplete part => Sys2Proof.Machine.execShootdownComplete part s
  | .deadgo part v => Sys2Proof.Machine.execDeadgo part v s
  | .netgo part v => Sys2Proof.Machine.execNetgo part v s
  | .rinvgo part v => Sys2Proof.Machine.execRinvgo part v s
  | .peerdown part v => Sys2Proof.Machine.execPeerdown part v s
  | .pwrlimWrite v => Sys2Proof.Machine.execPwrlimWrite v s
  | .registerWrite off v => Sys2Proof.Machine.execRegisterWrite off v s
  | .deviceStart r fencedCores fencedPch fencedPorts => Sys2Proof.Machine.execDeviceStart r fencedCores fencedPch fencedPorts s
  | .startWatchdogExpiry => Sys2Proof.Machine.execStartWatchdogExpiry s
  | .telemetrySample x => Sys2Proof.Machine.execTelemetrySample x s
  | .thermalControl => Sys2Proof.Machine.execThermalControl s
  | .trip => Sys2Proof.Machine.execTrip s
  | .patrolScrub sector r endsPass => Sys2Proof.Machine.execPatrolScrub sector r endsPass s
  | .sramScrub a r => Sys2Proof.Machine.execSramScrub a r s
  | .phyCalibration stack pch => Sys2Proof.Machine.execPhyCalibration stack pch s
  | .phyCalibrationEnd stack pch => Sys2Proof.Machine.execPhyCalibrationEnd stack pch s
  | .illegalOpcodeWord => Sys2Proof.Machine.execIllegalOpcodeWord s
  | .pageWalkComplete g st => Sys2Proof.Machine.execPageWalkComplete g st s
  | .storeAcknowledgement x => Sys2Proof.Machine.execStoreAcknowledgement x s
  | .partialSumPerformed part core word n => Sys2Proof.Machine.execPartialSumPerformed part core word n s
  | .backInvalidationResponse line dirty => Sys2Proof.Machine.execBackInvalidationResponse line dirty s
  | .dictionaryBankReplaced op => Sys2Proof.Machine.execDictionaryBankReplaced op s
  | .descriptorCopyTaken g slot1 => Sys2Proof.Machine.execDescriptorCopyTaken g slot1 s
  | .sequenceAbortNotice r status => Sys2Proof.Machine.execSequenceAbortNotice r status s
  | .crcRetry site => Sys2Proof.Machine.execCrcRetry site s
  | .deadDeclarationDone part => Sys2Proof.Machine.execDeadDeclarationDone part s
  | .netSetupDone part => Sys2Proof.Machine.execNetSetupDone part s
  | .remoteInvalidationDone part => Sys2Proof.Machine.execRemoteInvalidationDone part s
  | .attestationDone => Sys2Proof.Machine.execAttestationDone s
  | .firmwareUpdateDone => Sys2Proof.Machine.execFirmwareUpdateDone s

end Sys2Proof.Machine
end

