-- ==== Sys2Proof/Machine/Issue.lean ====
section
/-!
DEFINITION. What may move next, and what a stream does when it is chosen: fetch, the checks of R199, the
hazards and provisional rules of R16, R17 and R203, then the instruction.
-/
namespace Sys2Proof.Machine

/-! ### Fetch -/

/-- The scalar word at a fragment's PC with its extension word; none where one lies at or beyond SWORDS
(R158, R199 check 1). -/
def fetchScalar (i : Image) (pcw : Nat) : Option (Word × Word) :=
  match i.scalar[pcw]? with
  | some w =>
    if isSX (fMajor w) then (match i.scalar[pcw + 1]? with | some e => some (w, e) | none => none) else some (w, 0)
  | none => none

/-- What check 4 of R199 depends on beside the word. -/
def limits (s : State) (g : Group) (pcw : Nat) : Limits :=
  match s.launch? g.ref.part g.ref.lid with
  | some l => { lregBytes := lrLregs l.lrec, width := lrWidth l.lrec, gongs := l.gongs, tiles := l.nacc, pcw := pcw }
  | none => { lregBytes := 0, width := 0, gongs := 0, tiles := 0, pcw := pcw }

/-! ### Hazards -/

/-- The instructions of a block from a word on (R14), as far as its words are instructions. -/
def blockFrom (i : Image) : Nat → Nat → List Instr
  | 0, _ => []
  | n + 1, w =>
    match (i.lane[w]?).map decodeLane with
    | some (.ok x) => x :: (if (x.laneWord.map (·.last)).getD true then [] else blockFrom i n (w + 1))
    | _ => []

/-- The scalar register that a lane instruction writes (R251, R252). -/
def Instr.scalarDest : Instr → List SReg
  | .ballot w | .rdc w => if w.m41 then [w.d.extractLsb' 0 6] else []
  | _ => []
/-- The lane predicate that a lane instruction writes (R243, R251, R253). -/
def Instr.predDest : Instr → List PReg
  | .cmp w | .vany w | .vall w | .elect w | .pset w | .pand w | .por w | .pxor w => [w.d.extractLsb' 0 3]
  | _ => []
/-- Scalar registers that a lane instruction names: its operands, the base of its address, its destination (R15, R254). -/
def Instr.scalarNames (i : Instr) : List SReg :=
  Instr.scalarDest i ++ (match i with
    | .laneLd _ w | .laneSt _ w | .laneLdt w | .atom _ w | .red _ w | .xadd w | .xaddi w | .lanePrf w | .trc w | .trq w =>
      if w.m41 then [w.a.extractLsb' 0 6] else []
    | i => (i.laneWord.map fun w => (if w.aScalar then [w.a.extractLsb' 0 6] else []) ++
        if w.bSrc = 1 then [w.b.extractLsb' 0 6] else []).getD [])

/-- The queued blocks that come before a fragment's instruction in program order (R16). -/
def blocksBefore (g : Group) (f : Frag) : List Entry := g.queue.filter fun e => f.runs.contains e.at_
/-- What those blocks still have to execute. -/
def wordsBefore (s : State) (g : Group) (f : Frag) : List Instr :=
  (blocksBefore g f).flatMap fun e => ((s.image g e.slot).map fun i => blockFrom i 1024 e.word).getD []
/-- Scalar registers that earlier lane instructions of the fragment still write. -/
def pendingS (s : State) (g : Group) (f : Frag) : List SReg := (wordsBefore s g f).flatMap Instr.scalarDest
/-- Lane predicates that earlier lane instructions of the fragment still write. -/
def pendingP (s : State) (g : Group) (f : Frag) : List PReg := (wordsBefore s g f).flatMap Instr.predDest

/-- The scalar or address register that a load has still to write. -/
def Load.reg (l : Load) : Option (Bool × BitVec 6) :=
  match l.fill with
  | .scalar size _ data _ _ => some (size == .b64, data)
  | _ => none
/-- A register name, of a scalar or an address register, is the destination of a load that has not returned. -/
def loadNames (g : Group) (r : BitVec 6) : Bool :=
  g.loads.any fun l => match Load.reg l with
    | some (true, d) => d.extractLsb' 0 4 == r.extractLsb' 0 4
    | some (false, d) => d == r
    | none => false

/-- A scalar word names a register in a register field, or is one of the calls, which use `s1`, `s2` and `s63`. -/
def fieldsS (w : Word) : List SReg :=
  [fSd w, fSa w, fSb w] ++ if 0x22 ≤ fMajor w && fMajor w ≤ 0x25 then [1, 2, 63] else []
/-- A scalar word may read or write one of the registers. -/
def namesS (w : Word) (rs : List SReg) : Bool := !rs.isEmpty && (fieldsS w).any rs.contains

/-- The instruction issues while it is provisional (R203, R288, R302, R318); others wait. Memory accesses,
fences and prefetches wait too: they follow the queued lane accesses (R16). -/
def Instr.provisionalOk : Instr → Bool
  | .garrive _ _ _ | .gsync _ _ _ | .garm _ _ _ _ _ | .lbar _ | .tkt _ _ _ _ | .tktv _ | .kick _ | .xfire _ _
  | .ovld _ _ _ _ _ | .xdrain _ | .xdrainAll | .exit | .sset _ _ | .trap _ | .brkpt _
  | .ldSpd _ | .ldPmem _ | .ldChip _ | .ldGlb _ | .stSpd _ | .stPmem _ | .stChip _ | .stGlb _ | .ldt _
  | .fenceAcq _ | .fenceRel _ | .fenceAr _ | .prf _ _ _
  | .mzero _ | .mma _ _ _ | .mmab _ _ _ | .mfence _ | .mwait _ _ | .maccLd _ _ _ _ _ | .maccSt _ _ _ _ _
  | .mcvt _ _ _ _ _ _ | .bvset _ _ _ _ _ | .bvfit _ _ _ | .bvleaf _ _ _ _ _ | .bvnode _ _ _
  | .shp _ _ _ | .shpCopy _ _ _ _ | .cpy _ _ | .cpyt _ _ | .cpyw _ _ | .cpyg _ | .cpys _ | .cprf _ _ _
  | .xdict _ _ _ _ | .rfwd _ _ _ _ _ | .rrecv _ _ _ _ | .xinit _ _ | .xabort _ _ => false
  | _ => true

/-- `sget` of `sr.fflags` reads the flags of every earlier lane instruction (R132). -/
def readsFlags : Instr → Bool
  | .sget _ n => n == 0x0040
  | _ => false

/-- The lane register an instruction writes, and how many bytes of it. -/
def Instr.laneDest : Instr → Option (Nat × Nat)
  | .cmp _ | .vany _ | .vall _ | .elect _ | .pset _ | .pand _ | .por _ | .pxor _ | .laneSt _ _ | .xadd _ | .xaddi _
  | .red _ _ | .laneFence _ | .lanePrf _ | .trc _ | .trq _ => none
  | .ballot w | .rdc w => if w.m41 then none else some (w.d.toNat, Nat.max 4 w.ty.bytes)
  | .cvq w => some (w.d.toNat, if w.m41 then 32 else 4)
  | .unpack w => some (w.d.toNat, Nat.max 4 (halfBytes w.ty))
  | .pget w | .lget w => some (w.d.toNat, 4)
  | i => i.laneWord.map fun w => (w.d.toNat, Nat.max 4 w.ty.bytes)

/-- The lane registers that an instruction reads, with the bytes of each. -/
def Instr.laneSrcs (i : Instr) : List (Nat × Nat) :=
  let src := fun (w : LaneWord) (a b : Nat) =>
    (if w.aScalar then [] else [(w.a.toNat, a)]) ++ if w.bSrc = 0 then [(w.b.toNat, b)] else []
  let rand := fun (w : LaneWord) => if w.rnd = 4 then [(w.c.toNat, 4)] else []
  let base := fun (sp : Space) (w : LaneWord) => if w.m41 then [] else [(w.a.toNat, if sp = .glb then 8 else 4)]
  match i with
  | .laneLd sp w => base sp w
  | .laneLdt w => base .glb w
  | .cvt w | .cvx w => rand w ++ src w (Nat.max 4 (srcTy w).bytes) 4
  | .cvq w => rand w ++ src w (if w.m41 then 4 else 8 * Nat.max 4 (srcTy w).bytes) 4
  | .mad w | .fma w => (w.c.toNat, w.ty.bytes) :: src w w.ty.bytes w.ty.bytes
  | .bfi w => (if w.bSrc = 2 then [] else [(w.c.toNat, 4)]) ++ (w.d.toNat, Nat.max 4 w.ty.bytes) :: src w (Nat.max 4 w.ty.bytes) 4
  | .bfx w => (if w.bSrc = 2 then [] else [(w.c.toNat, 4)]) ++ src w (Nat.max 4 w.ty.bytes) 4
  | .ballot _ | .vany _ | .vall _ | .elect _ | .pand _ | .por _ | .pxor _ | .pget _ | .lget _ | .laneFence _ => []
  | .mov w => if w.bSrc = 0 then [(w.b.toNat, Nat.max 4 w.ty.bytes)] else []
  | .abs w | .neg w | .not w | .brev w | .popc w | .clz w | .rcp w | .rsq w | .sqrt w | .ex2 w | .lg2 w | .sin w | .cos w
  | .frc w | .rdc w | .scan w => if w.aScalar then [] else [(w.a.toNat, Nat.max 4 w.ty.bytes)]
  | .bperm w => (w.d.toNat, Nat.max 4 w.ty.bytes) :: src w (Nat.max 4 w.ty.bytes) (Nat.max 4 w.ty.bytes)
  | .pset w | .rng w => src w 4 4
  | .pack w => src w (Nat.max 4 (halfBytes w.ty)) (Nat.max 4 (halfBytes w.ty))
  | .unpack w => src w w.ty.bytes 4
  | .laneSt sp w => (w.b.toNat, Nat.max 4 w.ty.bytes) :: base sp w
  | .red sp w => (w.b.toNat, w.ty.bytes) :: base sp w
  | .atom sp w => (w.b.toNat, w.ty.bytes) :: ((if w.rnd = 7 then [(w.c.toNat, w.ty.bytes)] else []) ++ base sp w)
  | .xadd w => (w.b.toNat, w.ty.bytes) :: base .glb w
  | .xaddi w => (w.b.toNat, Nat.max 4 w.ty.bytes) :: base .glb w
  | .trc w | .trq w => [(w.a.toNat, 32), (w.b.toNat, 4)]
  | .lanePrf w => base .glb w
  | i => (i.laneWord.map fun w => src w (Nat.max 4 w.ty.bytes) (Nat.max 4 w.ty.bytes)).getD []

/-- The lane register that a load, or an atomic, has still to write, with its bytes. -/
def Load.laneReg (l : Load) : Option (Nat × Nat) :=
  match l.fill with
  | .lanes d n _ _ _ => some (d, n)
  | .olds d n _ _ => some (d, n)
  | _ => none
/-- Two runs of lane register bytes overlap. -/
def regsMeet (x y : Nat × Nat) : Bool := 4 * x.1 < 4 * y.1 + y.2 && 4 * y.1 < 4 * x.1 + x.2

/-- The instruction waits until every earlier load of its group has its value (R70): it orders accesses, adds at once, or
makes something known outside its group. A store or an atomic access issues before, and is performed after them. -/
def Instr.followsLoads : Instr → Bool
  | .ldSpd _ | .ldPmem _ | .ldChip _ | .ldGlb _ | .stSpd _ | .stPmem _ | .stChip _ | .stGlb _ | .ldt _ | .prf _ _ _ => false
  | .xadd _ | .xaddi _ | .laneFence _ => true
  | i => !Instr.provisionalOk i

/-- A lane instruction waits: for a matrix operation that still reads its destination (R289), for loads that it must
follow, and for those whose destinations it names (R401). -/
def laneWaits (s : State) (g : Group) (i : Instr) : Bool :=
  let d := (Instr.laneDest i).toList
  d.any (fun x => mopReadsLane s g (4 * x.1) x.2) ||
  (!g.loads.isEmpty && (Instr.followsLoads i ||
    (d ++ Instr.laneSrcs i).any fun x => g.loads.any fun l => (Load.laneReg l).any (regsMeet x)))

/-- Blocks enqueued before a fragment's instruction was first held up have not completed (R17). -/
def behind (s : State) (g : Group) (f : Frag) : Bool :=
  g.queue.any fun e => e.at_ ≤ f.from_ s
/-- 64 scalar instructions of the group are provisional already, for a block or a lane load earlier than the fragment's
instruction (R17). -/
def crowded (s : State) (g : Group) (f : Frag) : Bool :=
  let full := fun (r : Word) => 64 ≤ (g.ctx.perf0 - r).toNat
  (g.queue.any fun e => e.at_ ≤ f.from_ s && full e.after.perf0) ||
  g.loads.any fun l => l.st = .lane && l.blk ≤ f.from_ s && full l.ran
/-- The scalar registers that an `lrun` reads: those that its block names (R14). -/
def lrunNames (s : State) (g : Group) (f : Frag) : Instr → List SReg
  | .lrun off => ((s.image g f.slot).map fun i => (blockFrom i 1024 off.toNat).flatMap Instr.scalarNames).getD []
  | _ => []

/-- A scalar instruction must wait before it issues: for loads that it must follow or whose destinations it names (R70);
for the lane queue where it may not be provisional, reads the flags (R132), names what an earlier lane instruction of
its fragment writes (R16), or 64 instructions are provisional already (R17). -/
def mustWait (s : State) (g : Group) (f : Frag) (w : Word) (i : Instr) : Bool :=
  (!g.loads.isEmpty && ((Instr.followsLoads i && !f.wait.begun) ||
    (fieldsS w ++ lrunNames s g f i).any (loadNames g))) || crowded s g f ||
  (!g.queue.isEmpty &&
    ((behind s g f && ((!Instr.provisionalOk i && !f.wait.begun) || readsFlags i)) ||
    (let rs := pendingS s g f
     namesS w rs || (!rs.isEmpty && (lrunNames s g f i).any rs.contains)) ||
    (match i with | .split p _ _ => (pendingP s g f).contains p | _ => false)))

/-! ### Issue -/

/-- The instruction reads a word of its core's arrays other than by a memory access: lane registers, window or shape
registers, the divergence stack (R459). -/
def Instr.readsArrays : Instr → Bool
  | .mma _ _ _ | .mmab _ _ _ | .shpCopy _ _ _ _ | .cpy _ _ | .cpyt _ _ | .cpyw _ _ | .cpyg _ | .cpys _ | .cprf _ _ _ | .join
  | .exit => true
  | i => !(Instr.laneSrcs i).isEmpty
/-- A bad word of the core's arrays is among those the instruction would read (R459): a free value. -/
def meetsFlaw (s : State) (g : Group) (i : Instr) : Bool := (s.core g.core).flaws ≠ 0 && Instr.readsArrays i && s.bit 6

/-- The scalar registers that an instruction that waits until it is not provisional writes at once. -/
def Instr.writesS : Instr → List SReg
  | .tkt d _ _ _ | .mfence d => [d]
  | _ => []

/-- A scalar context after an instruction that another one of the group has performed from it: the registers that the
instruction changed are as in the other, the rest stay. -/
def Ctx.takeRegs (c old new : Ctx) (i : Instr) (x : Ctx) : Ctx :=
  let pick := fun {α : Type} [DecidableEq α] (keep o n : α) => if o = n then keep else n
  { x with
    s := Vector.ofFn fun k => if (Instr.writesS i).contains (BitVec.ofNat 6 k.val) then new.s[k] else pick c.s[k] old.s[k] new.s[k]
    a := Vector.ofFn fun k => pick c.a[k] old.a[k] new.a[k]
    c := Vector.ofFn fun k => pick c.c[k] old.c[k] new.c[k]
    mw := Vector.ofFn fun k => pick c.mw[k] old.mw[k] new.mw[k] }

/-- The context that a trap of a later block returns to, once an instruction held up since before that block's `lrun`
has been performed: it stands before the block in program order, and is performed there too (R17, R203, R205). -/
def Ctx.performed (s : State) (g : Group) (f : Frag) (i : Instr) (c : Ctx) : Ctx :=
  let held := fun (x : Frag) => x.wait != .ready && x.mark == f.mark
  let run := fun (b : Bool) (x : Ctx) =>
    let now := { x with s := g.ctx.s, a := g.ctx.a, c := g.ctx.c, mw := g.ctx.mw }
    match exec i ({ s with cur := ⟨g.ref, .frag b⟩ }.setGroup { g with ctx := now }) with
    | .next t => (t.group? g.ref).map fun (h : Group) => Ctx.takeRegs x g.ctx h.ctx i h.ctx
    | _ => none
  if c.f0.any held then (run false c).getD c
  else if c.f1.any held then (run true c).getD c
  else match c.stack.findIdx? held with
    | some n =>
      match run false { c with f0 := c.stack[n]?, f1 := none, stack := [] } with
      | some x => { c with s := x.s, a := x.a, c := x.c, mw := x.mw, perf0 := x.perf0, ovCount := x.ovCount, ovLast := x.ovLast,
                           stack := match x.f0 with | some y => c.stack.set n y | none => c.stack.eraseIdx n }
      | none => c
    | none => c

/-- What a held-up instruction that is not provisional does stands also in the contexts of the blocks enqueued after it
was first held up. -/
def carry (s : State) (g : Group) (f : Frag) (i : Instr) : Out → Out
  | .next t =>
    if f.wait = .ready ∨ g.queue = [] ∨ Instr.provisionalOk i then .next t
    else .next (t.regroup g.ref fun h =>
      if h.state = .live then
        t.setGroup { h with queue := h.queue.map fun e => { e with after := e.after.performed s g f i } }
      else t)
  | o => o

/-- The register that a scalar instruction computes from others, by its number in `dep`, and those. -/
def Instr.flow : Instr → Option (Nat × List Nat)
  | .sadd d a b | .ssub d a b | .smul d a b | .smulhI32 d a b | .smulhN32 d a b | .sand d a b | .sor d a b | .sxor d a b
  | .sshl d a b | .sshr d a b | .ssra d a b | .sminI32 d a b | .sminN32 d a b | .smaxI32 d a b | .smaxN32 d a b =>
    some (d.toNat, [a.toNat, b.toNat])
  | .spopc d a | .sclz d a | .smov d a | .sbfx _ _ _ d a | .saddImm d a _ | .sandImm d a _ | .sorImm d a _ | .sxorImm d a _
  | .sshlImm d a _ | .sshrImm d a _ | .ssraImm d a _ => some (d.toNat, [a.toNat])
  | .scmp _ d a b => some (80 + d.toNat, [a.toNat, b.toNat])
  | .ssel _ c d a b => some (d.toNat, [80 + c.toNat, a.toNat, b.toNat])
  | .sbfi _ _ d a => some (d.toNat, [d.toNat, a.toNat])
  | .slih d _ => some (d.toNat, [d.toNat])
  | .sli _ d _ | .gget d _ _ | .sget d _ | .ovq d _ _ | .perf d _ | .pres d _ _ | .xpoll d _ _ | .xstat d _ _ => some (d.toNat, [])
  | .aadd d a b _ => some (64 + d.toNat, [64 + a.toNat, b.toNat])
  | .aaddImm d a _ | .alea d a _ | .amov d a => some (64 + d.toNat, [64 + a.toNat])
  | .amovN32 d a | .amovI32 d a => some (64 + d.toNat, [a.toNat])
  | .amovLo d a | .amovHi d a => some (d.toNat, [64 + a.toNat])
  | .amovPair d a b => some (64 + d.toNat, [a.toNat, b.toNat])
  | _ => none

/-- What an instruction computes depends on the loads that its sources depend on (R70): predicates and branches carry
nothing on. -/
def track (g : Group) (i : Instr) : Out → Out
  | .next t =>
    if g.ctx.dep = [] then .next t
    else match Instr.flow i with
      | some (d, ks) => .next (t.regroup g.ref fun h =>
          if h.ctx.perf0 = g.ctx.perf0 then t
          else t.setGroup (h.onCtx fun c => { c with dep := setDeps c.dep [d] (g.ctx.since ks) }))
      | none => .next t
  | o => o
/-- The same of a lane instruction, whose captured scalars depend on what they did at the `lrun`; what a load returns
comes with the load. -/
def trackLane (g : Group) (e : Entry) (i : Instr) : Out → Out
  | .next t =>
    if g.ctx.dep = [] ∧ g.ldep = [] ∧ e.dep = [] then .next t
    else match i with
      | .laneLd _ _ | .laneLdt _ | .atom _ _ => .next t
      | i =>
        let scalars := (i.laneWord.map fun w => (if w.aScalar then [(w.a.extractLsb' 0 6).toNat] else []) ++
          if w.bSrc = 1 then [(w.b.extractLsb' 0 6).toNat] else []).getD []
        let n := Nat.max (sinceOf g.ldep ((Instr.laneSrcs i).flatMap regsFrom)) (sinceOf e.dep scalars)
        .next (t.regroup g.ref fun h =>
          if h.perf[1] = g.perf[1] then t
          else t.setGroup ({ h with ldep := setDeps h.ldep ((Instr.laneDest i).toList.flatMap regsFrom) n }.onAll fun c =>
            { c with dep := setDeps c.dep ((Instr.scalarDest i).map (BitVec.toNat)) n }))
  | o => o

/-- A fragment's turn: the instruction at its PC, its trap, or a wait. -/
def issueScalar (s : State) (g : Group) (f : Frag) : Out :=
  match s.image g f.slot with
  | none => s.takeTrap .illegalOpcode
  | some img =>
    if img.bad.contains (false, f.pcw) then s.takeTrap .poison else
    match fetchScalar img f.pcw with
    | none => s.takeTrap .illegalOpcode
    | some (w, e) =>
      if isSX (fMajor w) && img.bad.contains (false, f.pcw + 1) then s.takeTrap .poison else
      match decodeScalar w e with
      | .error .illegalOpcode => exec .illegalOpcodeWord s
      | .error .illegalOperand => s.takeTrap .illegalOperand
      | .ok i =>
        if !i.check4 (limits s g f.pcw) then s.takeTrap .illegalOperand
        else if mustWait s g f w i then .next (s.park g none)
        else if meetsFlaw s g i then s.takeTrap .poison
        else track g i (carry s g f i (exec i s))

/-- The lane queue head's turn (R15, R193). -/
def issueLane (s : State) (g : Group) (e : Entry) : Out :=
  match s.image g e.slot with
  | none => s.takeTrap .illegalOpcode
  | some img =>
    if img.bad.contains (true, e.word) then s.takeTrap .poison else
    match img.lane[e.word]? with
    | none => s.takeTrap .illegalOpcode
    | some v =>
      match decodeLane v with
      | .error .illegalOpcode => exec .illegalOpcodeWord s
      | .error .illegalOperand => s.takeTrap .illegalOperand
      | .ok i =>
        if !i.check4 (limits s g 0) then s.takeTrap .illegalOperand
        else if laneWaits s g i then .next (s.park g none)
        else if meetsFlaw s g i then s.takeTrap .poison
        else trackLane g e i (exec i s)

/-! ### Which streams issue (R32, R33) -/

/-- A stream with this wait is looked at when it is scheduled: it is ready or looks again at its event. -/
def Wait.issues : Wait → Bool
  | .ready | .parked | .gong _ _ | .lbar _ _ | .drain _ => true
  | _ => false

/-- A stream's turn. -/
def issueStream (s : State) (c : Cursor) : Out :=
  match s.group? c.g with
  | none => .next s
  | some g =>
    match c.st with
    | .frag b => (match g.ctx.frag b with | some f => issueScalar s g f | none => .next s)
    | .lane => (match g.queue with | e :: _ => issueLane s g e | [] => .next s)

/-- A turn of a stream that leads from one state to another has performed nothing: the stream parks, or goes on with a
wait that it has begun. -/
def heldUp (s t : State) (c : Cursor) : Bool :=
  match s.group? c.g, t.group? c.g with
  | some g, some h =>
    h.state == .live && h.ctx.perf0 == g.ctx.perf0 && h.perf[1] == g.perf[1] &&
      (match h.waitOf c.st with
      | some .parked => true
      | some w => w.begun && g.waitOf c.st == some w
      | none => false)
  | _, _ => false
/-- The instruction of a stream is not ready: its turn would perform nothing. A script (log 11) does not ask. -/
def stuck (s : State) (c : Cursor) : Bool :=
  s.script.isEmpty && match issueStream { s with cur := c } c with
    | .next t => heldUp s t c
    | _ => false

/-- No group of a cooperative launch issues before the last of its teams leaves LOADING (R41). -/
def coopReady (s : State) (g : Group) : Bool :=
  match s.launch? g.ref.part g.ref.lid with
  | some l => !lrCoop l.lrec || (l.next == lrTeams l.lrec &&
      s.teams.all fun t => !(t.ref.part == l.part && t.ref.lid == l.lid && t.state == .loading))
  | none => true

/-- Streams of a group that are ready, or look at the event they wait for. -/
def openStreams (s : State) (g : Group) : List Stream :=
  if g.state = .live ∧ coopReady s g then
    [Stream.frag false, .frag true, .lane].filter fun st => (g.waitOf st).any Wait.issues
  else []
/-- Streams of a group that may issue: of two fragments with a ready instruction the one that did not issue last (R33),
and the lane queue's head. -/
def groupStreams (s : State) (g : Group) : List (Group × Stream) :=
  let on := (openStreams s g).filter fun st => !stuck s ⟨g.ref, st⟩
  (on.filter fun st => st == .lane || on.length == 1 || !on.contains (.frag (!st.slot1)) || st.slot1 != g.last1).map fun st => (g, st)
/-- Streams that may issue as far as their own groups go. -/
def allStreams (s : State) : List (Group × Stream) := s.groups.flatMap (groupStreams s)

/-- The side of an issue slot that a stream issues on: the lane side, or the scalar one. -/
def Stream.onLaneSide : Stream → Bool
  | .lane => true
  | .frag _ => false
/-- When a group was last scheduled on a side. -/
def Group.turnOn (g : Group) (lane : Bool) : Nat := if lane then g.turns[2] else Nat.max g.turns[0] g.turns[1]
/-- Cycles that a group has not issued on a side. -/
def idleFor (s : State) (x : Group × Stream) : Nat := s.clock - x.1.turnOn (Stream.onLaneSide x.2)
/-- The state of an issue slot's side. -/
def arbiter (s : State) (g : Group) (lane : Bool) : Arbiter :=
  ((s.core g.core).arbs.find? fun a => a.seat = g.seat ∧ a.lane = lane).getD ⟨g.seat, lane, 0, 0⟩
/-- Age: the admission number of the team, then the group index (R32). -/
def ageOf (s : State) (g : Group) : Nat × Nat := (((s.team? g.ref.tref).map (·.admission)).getD 0, g.ref.grp)
def older (x y : Nat × Nat) : Bool := x.1 < y.1 || (x.1 == y.1 && x.2 < y.2)
/-- The place of a group, for the rotating pointer. -/
def placeOf (s : State) (g : Group) : Nat := (s.groups.findIdx? fun h => h.ref = g.ref).getD 0

/-- Whether a stream's instruction is ready in this cycle: its operands' timing is not modelled, so this is free. -/
def readyNow (s : State) (x : Group × Stream) : Bool :=
  s.bit (2 ^ 32 + 4 * placeOf s x.1 + (match x.2 with | .frag false => 0 | .frag true => 1 | .lane => 2))

/-- Of some streams the one whose group has waited longest. -/
def longestIdle (s : State) (xs : List (Group × Stream)) : Option (Group × Stream) :=
  xs.foldl (fun (m : Option (Group × Stream)) x =>
    match m with
    | some y => if idleFor s y < idleFor s x then some x else m
    | none => some x) none

/-- The choice of an issue slot among several groups on one side: one that has waited 256 cycles, the longest-waiting
first; else the oldest of those that are ready, by the rotating pointer among those of equal age (R32). -/
def slotChoice (s : State) (xs : List (Group × Stream)) : Option (Group × Stream) :=
  match longestIdle s (xs.filter fun x => 256 ≤ idleFor s x) with
  | some x => some x
  | none =>
    let rs := xs.filter (readyNow s)
    let rs := if rs.isEmpty then xs else rs
    let old := rs.filter fun x => !rs.any fun y => older (ageOf s y.1) (ageOf s x.1)
    match old.find? fun x => (arbiter s x.1 (Stream.onLaneSide x.2)).ptr < placeOf s x.1 with
    | some x => some x
    | none => old.head?

/-- The stream is chosen by its issue slot, which has not issued on its side in this cycle. -/
def offered (s : State) (xs : List (Group × Stream)) (x : Group × Stream) : Bool :=
  let lane := Stream.onLaneSide x.2
  let peers := xs.filter fun y => y.1.core == x.1.core && y.1.seat == x.1.seat && Stream.onLaneSide y.2 == lane
  (arbiter s x.1 lane).last ≠ s.clock + 1 &&
    (peers.length ≤ 1 || (slotChoice s peers).any fun y => y.1.ref == x.1.ref && y.2 == x.2)
/-- Streams that may issue now: none in a gated cycle (R466); the script (log 11) is not held to the issue slots' choices. -/
def streams (s : State) : List (Group × Stream) :=
  if s.gated then [] else
  let xs := allStreams s
  if s.script.isEmpty then xs.filter (offered s xs) else xs
def cursorOf (x : Group × Stream) : Cursor := ⟨x.1.ref, x.2⟩
/-- Streams whose instruction is not ready: they look at the event they wait for, which takes no turn of an issue
slot. -/
def lookers (s : State) : List Cursor :=
  if s.script.isEmpty then s.groups.flatMap fun g =>
    ((openStreams s g).map fun st => Cursor.mk g.ref st).filter (stuck s) else []
/-- A stream whose instruction has been ready, and whose group has not issued, for 256 cycles: of those that their issue
slots choose the longest-waiting (R32, R42). -/
def starved (s : State) : Option Cursor :=
  (longestIdle s ((streams s).filter fun x => 256 ≤ idleFor s x)).map cursorOf

/-- A stream is scheduled: its issue slot has issued in this cycle, and the group's fragments alternate (R33). -/
def State.scheduled (s : State) (c : Cursor) : State :=
  match s.group? c.g with
  | none => s
  | some g =>
    let lane := Stream.onLaneSide c.st
    let g := { g with last1 := if lane then g.last1 else c.st.slot1,
                      turns := match c.st with
                        | .frag false => g.turns.set 0 s.clock
                        | .frag true => g.turns.set 1 s.clock
                        | .lane => g.turns.set 2 s.clock }
    let k := s.core g.core
    let arbs := ⟨g.seat, lane, s.clock + 1, placeOf s g⟩ :: k.arbs.filter fun a => ¬(a.seat = g.seat ∧ a.lane = lane)
    { (s.setGroup g).setCore { k with arbs := arbs } with cur := c }
/-- The state after a turn that performed nothing: no turn was taken. -/
def State.unscheduled (t s : State) (c : Cursor) : State :=
  match s.group? c.g with
  | none => t
  | some g =>
    let t := t.regroup c.g fun h => t.setGroup { h with last1 := g.last1, turns := g.turns }
    t.setCore { t.core g.core with arbs := (s.core g.core).arbs }

/-! ### Moves -/

/-- What may happen next: a stream issues, or looks at the event it waits for; a step of the device that its state calls
for: an event, or one of those named below (what a pseudo-channel's time brings; a page walk ends; a descriptor copy is
taken; a partial sum is performed; the n-th store of a group is performed, or is shown to its core; a load lets its
stream go on, returns on its own, or performs its k-th unit; the bank reads of a pseudo-channel complete; a group of a
killed launch ends; a launch's writes that waited are made; a lane of a ray operation visits a node; a dictionary bank
is replaced; a doorbell's operation ends; a calibration window ends); work that waits is looked at again (a sequence, a
loss notice, remote work, replayed loads, a command, the bad-page table); firmware takes the ring's next command; a
REMOTE line is evicted (by its place); a unit's clock falls due; or a step caused from outside (by its place in
`pending`); a start of the device while it is BOOTING; a trip of a die that is too hot, a step of the thermal control, a
telemetry sample. -/
inductive Move where
  | stream (c : Cursor)
  | look (c : Cursor)
  | event (i : Instr)
  | overdue
  | walk (g : GRef) (st : Stream)
  | descTaken (g : GRef) (slot1 : Bool)
  | sum (part : Nat) (x : Partial)
  | ack (g : GRef) (n : Nat)
  | showStore (g : GRef) (n : Nat)
  | detach (g : GRef) (st : Stream)
  | late (g : GRef) (n : Nat)
  | sample (g : GRef) (st : Option Stream) (n k : Nat)
  | bankReads (stack pch : Nat)
  | kill (g : GRef)
  | owed (part lid : Nat)
  | visit (op lane : Nat)
  | dict (op : Nat)
  | door (part k : Nat)
  | attest
  | flash
  | calibrated (stack pch : Nat)
  | sequence (part coll num : Nat)
  | notice (part coll n : Nat)
  | work (op : Nat)
  | reload (core : Nat)
  | command (part : Nat)
  | badTable
  | ring
  | evict (part n : Nat)
  | clock
  | boot
  | trip
  | control
  | sample_
  | pending (n : Nat)
  deriving DecidableEq, Repr

/-- The event that ends a stream's wait; a load that holds nothing up may let the stream go on (R70). -/
def waitMove (h : Group) (st : Stream) : Wait → List Move
  | .load l =>
    let g := h.ref
    (if l.reads.isEmpty && h.answered l then [.event (.memoryReturn g st)] else []) ++ (if l.holds then [] else [.detach g st]) ++
    (if l.units.length ≤ 1 then [] else (List.range l.units.length).map (.sample g (some st) 0))
  | .walk _ _ => [.walk h.ref st]
  | .pause => [.event (.pauseEnd h.ref st.slot1)]
  | .xinit _ => [.descTaken h.ref st.slot1]
  | _ => []

/-- Events that end the waits of a group's streams, while it is not halted. -/
def waitMoves (g : Group) : List Move :=
  if g.state = .live then
    (match g.ctx.f0 with | some f => waitMove g (.frag false) f.wait | none => []) ++
    (match g.ctx.f1 with | some f => waitMove g (.frag true) f.wait | none => []) ++
    (match g.queue with | e :: _ => waitMove g .lane e.wait | [] => [])
  else []

/-- A group's stores that may be performed, and those its core may see (R70, R74); accesses performed already that
may be acknowledged; loads that return on their own. -/
def memoryMoves (s : State) (g : Group) : List Move :=
  (g.stores.zipIdx.flatMap fun w => if s.storeReady g w.2 w.1 then
    Move.ack g.ref w.2 :: (if w.1.early || w.1.rmw.isSome then [] else [Move.showStore g.ref w.2]) else []) ++
  (if g.acks = 0 then [] else [Move.ack g.ref g.stores.length]) ++
  (g.loads.zipIdx.flatMap fun l => (if l.1.reads.isEmpty && g.answered l.1 then [Move.late g.ref l.2] else []) ++
    if l.1.units.length ≤ 1 then [] else (List.range l.1.units.length).map (.sample g.ref none l.2))

/-- Watchdogs that may expire (R432). -/
def watchdogMoves (s : State) : List Move :=
  s.groups.flatMap fun g =>
    match (s.part? g.ref.part).map fun p => prWdog p.prec with
    | some (n + 1) =>
      [false, true].flatMap fun b => match g.ctx.frag b with
        | some f => if g.state == .live && f.wait.parkedNow && 2 ^ (n + 11) ≤ s.clock - f.since
            then [.event (.watchdogExpiry g.ref b)] else []
        | none => []
    | _ => []

/-- Groups of killed launches that have not ended (R425), and launches with writes that wait. -/
def launchMoves (s : State) : List Move :=
  s.launches.flatMap fun l =>
    (if l.killed then (s.groups.filter fun g => g.ref.part = l.part ∧ g.ref.lid = l.lid ∧ g.state ≠ .done).map
      fun g => Move.kill g.ref else []) ++
    (if l.owed.isEmpty then [] else [Move.owed l.part l.lid])

/-- Steps of engines, homes, stores of instructions and the distributor. -/
def unitMoves (s : State) : List Move :=
  List.flatten [
    (List.flatten [budgetMoves s, ticketMoves s, overlayMoves s, matrixMoves s, rayMoves s, copyMoves s, timerMoves s,
      distributorMoves s, loadingMoves s]).map Move.event,
    s.partials.map fun e => Move.sum e.1 e.2,
    s.groups.flatMap (memoryMoves s),
    (s.pchs.filter fun p => s.bankReads.any (s.readTurn p)).map fun p => Move.bankReads p.stack p.pch,
    launchMoves s,
    (visits s).map fun e => Move.visit e.1 e.2,
    s.ops.filterMap fun o => match o.body with
      | .xdict bank _ => if o.active s && !(s.coll? o.by_.part (collOf s o)).any (bankInUse · bank) then some (Move.dict o.id) else none
      | _ => none,
    (seqRetries s).map fun e => Move.sequence e.1 e.2.1 e.2.2,
    (noticeRetries s).map fun e => Move.notice e.1 e.2.1 e.2.2,
    (workRetries s).map Move.work,
    (s.cores.filter fun c => !c.waits.isEmpty).map fun c => Move.reload c.id]

/-- Steps of firmware, of doorbells and of units with clocks of their own. -/
def deviceMoves (s : State) : List Move :=
  List.flatten [
    (doorMoves s).map fun e => Move.door e.1 e.2,
    if s.dev.att.busy.isSome then [Move.attest] else [],
    if s.dev.fw.busy.isSome then [Move.flash] else [],
    (calibrations s).map fun e => Move.calibrated e.1 e.2,
    (s.parts.filter fun p => p.cmd.isSome).map fun p => Move.command p.id,
    (s.parts.filter fun p => p.state = .suspending).map fun p => Move.event (.saveComplete p.id),
    if s.dev.badDue then [Move.badTable] else [],
    if (ringHead s).isSome then [Move.ring] else [],
    s.parts.flatMap fun p => (List.range p.remote.length).map fun n => Move.evict p.id n,
    if s.dev.up = 1 then [Move.clock] else if s.dev.up = 0 then [Move.boot] else []]

/-- Everything that may move next. -/
def moves (s : State) : List Move :=
  List.flatten [(streams s).map fun x => .stream (cursorOf x), (lookers s).map Move.look, s.groups.flatMap waitMoves, watchdogMoves s, unitMoves s,
    deviceMoves s, ((List.range s.pending.length).filter (mayArrive s)).map Move.pending]

/-- What a scrub access finds, by a free number. -/
def scrubFinds (k : Nat) : ScrubResult := match k % 3 with | 0 => .clean | 1 => .corrected | _ => .uncorrectable

/-- The array that a scrub looks at, by free numbers. -/
def arrayOf (k a b : Nat) : SramArray :=
  match k % 5 with
  | 0 => .cleanLine
  | 1 => .dirtyLine a
  | 2 => .coreArray (a % 288)
  | 3 => .istore (a % 288) (a / 288 % 32) (b % 2 == 1) (b / 2 % 1024)
  | _ => .chipWord (8 * (a % 2 ^ 23))

/-- A translation of a partition comes into the TLBs and walk caches as its tables stand (R444: an access may use any version
of an entry written since the last completed shootdown). -/
def State.fillTlb (s : State) (i va : Nat) : State :=
  match s.parts[i % s.parts.length]? with
  | some p => match walkHeld s p va, walk s p va with
    | none, .ok e => s.setPart (p.cacheWalk s va e)
    | _, _ => s
  | none => s

/-- A unit's clock falls due: a calibration of a pseudo-channel, a scrub access, a frame or flit with a bad CRC; or a version
of a translation comes into the TLBs and walk caches (R444). What is found is free (log 37). -/
def clockStep (s : State) : Out :=
  let f := Config.freeOrder s.tick
  match f 0 % 5 with
  | 0 => execPhyCalibration (f 1 % 8) (f 2 % 160) s
  | 1 => execPatrolScrub (f 1 % 2 ^ 33) (scrubFinds (f 2)) true s
  | 2 => execSramScrub (arrayOf (f 1) (f 2) (f 3)) (scrubFinds (f 4)) s
  | 3 => execCrcRetry (if f 1 % 2 = 0 then .hostLink else .port (f 2 % 16)) s
  | _ => .next (s.fillTlb (f 1) (65536 * (f 2 % 2 ^ 36)))

/-- A telemetry sample; what it finds is free (log 37). -/
def sampleStep (s : State) : Out :=
  let f := Config.freeOrder s.tick
  execTelemetrySample ⟨BitVec.ofNat 32 (f 1), (List.range 6).map fun d => BitVec.ofNat 16 (f (2 + d)),
    (List.range 8).map fun d => BitVec.ofNat 16 (f (8 + d))⟩ s
/-- What firmware does before anything else: a trip of a die that is too hot (R467), the control step that a sample calls
for (R466), a sample each 1 ms (R465). -/
def firmwareDue (s : State) : Option Move :=
  if s.dev.up ≠ 1 then none
  else if s.dev.reached 880 then some .trip
  else if s.dev.sampled then some .control
  else if s.dev.sampleAt + 1200000 ≤ s.clock then some .sample_
  else none

/-- A start of the device: what fails in it is free (log 37). -/
def bootStep (s : State) : Out :=
  let f := Config.freeOrder s.tick
  let r : StartResult := if f 0 % 2 = 0 then .up else .failed (BitVec.ofNat 8 (3 + f 1 % 5))
  execDeviceStart r ((List.range 288).filter fun k => f (2 + k) % 2 == 1) ((List.range 1280).filter fun k => f (300 + k) % 2 == 1)
    ((List.range 16).filter fun k => f (1600 + k) % 2 == 1) s

/-- Performs a move. -/
def perform (s : State) : Move → Out
  | .stream c =>
    (match issueStream (s.scheduled c) c with
    | .next t => .next (if heldUp s t c then t.unscheduled s c else t)
    | o => o)
  | .look c =>
    (match issueStream { s with cur := c } c with
    | .next t => .next (if heldUp s t c then t else s)
    | o => o)
  | .event i => exec i s
  | .walk g st => execPageWalkComplete g st s
  | .descTaken g b => execDescriptorCopyTaken g b s
  | .sum part x => execPartialSumPerformed part x.core x.word x.n.toNat s
  | .overdue => (match overdue s with | some e => runEvent e s | none => .next s)
  | .ack g n => execStoreAcknowledgement ⟨g, n⟩ s
  | .showStore g n => .next (s.showStore g n)
  | .detach g st => .next (detach g st s)
  | .late g n => .next (landLate g n s)
  | .sample g st n k => .next (sample g st n k s)
  | .bankReads a b => .next (s.completeReads a b)
  | .kill g => .next (s.killStep g)
  | .owed part lid => .next (s.payOwed part lid)
  | .visit op lane => rayVisit op lane s
  | .dict op => execDictionaryBankReplaced op s
  | .door part k =>
    match k with
    | 0 => execShootdownComplete part s
    | 1 => execDeadDeclarationDone part s
    | 2 => execNetSetupDone part s
    | _ => execRemoteInvalidationDone part s
  | .attest => execAttestationDone s
  | .flash => execFirmwareUpdateDone s
  | .calibrated a b => execPhyCalibrationEnd a b s
  | .sequence part coll num => .next (advance s part coll num)
  | .notice part coll n => .next (renotice s part coll n)
  | .work op => .next (workOn s op)
  | .reload core => .next (retryLoads s core)
  | .command part => goOn part s
  | .badTable => .next s.listBadPages
  | .ring => takeCommand s
  | .evict part n =>
    match s.part? part with
    | some p => .next (((p.remote[n]?).map fun e => s.dropRemote p fun x => x == e).getD s)
    | none => .next s
  | .clock => clockStep s
  | .boot => bootStep s
  | .trip => execTrip s
  | .control => execThermalControl s
  | .sample_ => sampleStep s
  | .pending n =>
    match s.pending[n]? with
    | some i => exec i { s with pending := s.pending.eraseIdx n }
    | none => .next s

/-- The move that comes next: the script's next choice where it holds one; else what a pseudo-channel's time has brought
(R62), what firmware does at once, a stream that has waited too long, at every other step (R32), or one of those that
may come, freely (log 1). -/
def nextMove (s : State) : Option Move :=
  match s.script with
  | k :: _ => let ms := moves s; ms[k % ms.length]?
  | [] =>
    if (overdue s).isSome then some .overdue
    else match firmwareDue s with
    | some m => some m
    | none =>
    match (if s.tick % 2 = 0 then starved s else none) with
      | some c => some (.stream c)
      | none => let ms := moves s; ms[Config.freePick s.tick % ms.length]?

/-- Time passes with a move (R189): fewer than 256 cycles, freely, and at least one in 4096 steps. What a
pseudo-channel's time has brought takes none. -/
def State.pass (s : State) : State :=
  { s with tick := s.tick + 1, script := s.script.tail, touched := [],
           clock := (s.clock + Config.freeCycles s.tick % 256 + if s.tick % 4096 = 4095 then 1 else 0) % 2 ^ 64 }
/-- What a pseudo-channel's time has brought leaves the steps at which a stream that has waited too long moves as they
are. -/
def State.passNone (s : State) : State := { s with tick := s.tick + 2 }

/-- A slot that drains takes its pending load as soon as nothing holds it (R161, R170). -/
def State.settleSlots (s : State) : State :=
  s.cores.foldl (fun s c => if c.slots.any fun e => match e.2 with | .draining _ _ => true | _ => false
    then s.drainCore c.id else s) s
/-- A move's outcome with the slots settled. -/
def settling : Out → Out
  | .next s => .next s.settleSlots
  | o => o

/-- A line that another agent than a load of a group reads at its bank, or writes there, must wait: for a refresh of the bank,
or for a calibration window, which holds writes too (R64, R460, R461). -/
def State.mustHold (s : State) (e : Nat × Bool) : Bool :=
  let p := s.pch (hbmStack (128 * e.1)) (hbmPch (128 * e.1))
  p.calib || (!e.2 && (p.refreshEnd (hbmBank (128 * e.1)) s.now).isSome)
/-- The reads of lines are queued, once for each bank. -/
def State.queueOthers (s : State) (ls : List (Nat × Bool)) : State :=
  (ls.filter fun e => !e.2).foldl (fun s e =>
    let (t, r) := s.queueRead (128 * e.1)
    if s.others.any fun x => x.stack = r.stack ∧ x.pch = r.pch ∧ x.bank = r.bank then s else { t with others := r :: t.others }) s
/-- A move of a state is made, with the reads of banks by other agents than loads; where one of them must wait, its reads
are queued, and the move waits with them. -/
def banked (s : State) : Out → Out
  | .next t =>
    if t.touched.isEmpty then .next t
    else if t.touched.any s.mustHold then .next (s.queueOthers t.touched)
    else .next ((t.touched.filter fun e => !e.2).foldl (fun u e =>
      u.otherRead (hbmStack (128 * e.1)) (hbmPch (128 * e.1)) (hbmBank (128 * e.1) / 4)) { t with touched := [] })
  | o => o

/-- One move of the machine; with none, time passes. -/
def move (s : State) : Out :=
  match nextMove s with
  | some .overdue => settling (perform s.passNone .overdue)
  | some m => settling (banked s.pass (perform s.pass m))
  | none => .next s.pass

/-! ### One instruction placed where the next step fetches (log 11) -/

/-- The group that runs a placed instruction: partition 0, launch 1, team 0, group 0. -/
def placedRef : GRef := ⟨0, 1, 0, 0⟩

/-- Its partition: core pair 0, all 32 slots, one launch queue (R414). -/
def placedPart : Part :=
  { id := 0, state := .active, prec := place 1024 0 1 ||| place 1024 149 31 ||| place 1024 160 1 ||| place 1024 192 1 |||
      place 1024 560 1, key := 1, grans := [], cmd := none, nextSeq := 0, recs := [], posts := [], heads := [],
    rot := 0, orders := 1, kicks := 0, place := 0, results := [], unplace := 0, homes := [], tlb := [], stale := [],
    remote := [], fetch := [], nethdr := 0, colls := [], saveAt := none, mixed := [] }

/-- Its launch: one team of one group of 64 lanes, 1024 lane register bytes, 512 KiB of scratchpad (R34). -/
def placedLaunch : Launch :=
  { part := 0, lid := 1, state := .taken 0, recAt := 0, doneAt := 0, kicker := none,
    lrec := place 1024 82 2 ||| place 1024 90 15 ||| place 1024 96 4096 ||| place 1024 128 1 ||| place 1024 160 1 |||
      place 1024 192 1, gongs := 32, nacc := 16, novl := 1, tab := 0, seqNo := none, next := 1, ended := 0,
    waited := false, trace := [], traceBad := [], tq := Vector.replicate 4 .reset,
    bars := Vector.replicate 8 ⟨0, []⟩, fired := [], owed := [], killed := false }

/-- Its team, on core 0 with its root in slot 0. -/
def placedTeam : Team :=
  { ref := ⟨0, 1, 0⟩, core := 0, state := .running, admission := 0, roots := [(0, 0)], spd := [], pres := [],
    gongs := List.replicate 32 .reset, tiles := [], cpyts := [], moved := none, held := [] }

/-- The fragment of a new group (R21): all lanes, at word 0 of slot 0. -/
def placedFrag : Frag :=
  { slot := 0, pcw := 0, mask := BitVec.allOnes 64, solo := 0, depth := 0, joins := [], loops := [], tokens := 0,
    wait := .ready }

/-- The root overlay with a scalar word, its extension and `nop` words, or with one lane word. -/
def placedImage (scalar : Bool) (w : Nat) : Image :=
  { key := ⟨0, 0, 0⟩,
    scalar := if scalar then BitVec.ofNat 32 w :: BitVec.ofNat 32 (w / 2 ^ 32) :: List.replicate 1022 0x01000000
      else [0x01000000],
    lane := if scalar then [] else [BitVec.ofNat 96 w], loaded := 0, bad := [] }

/-- The placed group: its one fragment is at the scalar word, or its lane queue holds the lane word. -/
def placedGroup (scalar : Bool) : Group :=
  let g := Group.new placedRef 0
  let c : Ctx := { Ctx.reset with f0 := some placedFrag }
  if scalar then { g with state := .live, ctx := c }
  else
    let e : Entry := { slot := 0, start := 0, word := 0, mask := BitVec.allOnes 64, capS := Ctx.reset.s,
                       capA := Ctx.reset.a, frag := false, lrunAt := 0, wait := .ready, after := .reset }
    { g with state := .live, queue := [e] }

/-- The state with the placed launch in partition 0 and the placed instruction chosen next. -/
def State.placeWord (s : State) (scalar : Bool) (w : Nat) : State :=
  { s with
    parts := placedPart :: s.parts.filter fun p => p.id ≠ 0
    launches := placedLaunch :: s.launches.filter fun l => ¬(l.part = 0 ∧ l.lid = 1)
    teams := placedTeam :: s.teams.filter fun t => t.ref ≠ ⟨0, 1, 0⟩
    groups := placedGroup scalar :: s.groups.filter fun g => g.ref ≠ placedRef
    cores := { s.core 0 with arbs := [], slots := (0, .ready (placedImage scalar w)) :: (s.core 0).slots.filter fun e => e.1 ≠ 0 } ::
      s.cores.filter fun c => c.id ≠ 0
    script := 0 :: s.script }

end Sys2Proof.Machine
end

