-- ==== Sys2Proof/Machine/Step.lean ====
section
/-!
DEFINITION. One step of the machine, and the placing of one instruction where the next step fetches.
-/
namespace Sys2Proof.Machine

/-- One step: one of the moves that may come next is made. -/
def step (s : State) : Host.Outcome State Fault Refusal := move s

/-- The state with an instruction, its bits numbered as the opcode table numbers them, as the next one a
step runs: the lone fragment of a one-group launch fetches it, or its lane queue holds it (log 11). -/
def State.withFetchWord (s : State) (nbits w : Nat) : State := s.placeWord (decide (nbits ≤ 64)) w

end Sys2Proof.Machine
end

