-- ==== Sys2Proof/Machine/Registers.lean ====
section
/-!
DEFINITION. What the driver reads in CXL.io BAR0 (R438, R439, R463, R465).
-/
namespace Sys2Proof.Machine

/-- Word k, of 64 bits, of a bit map given by the numbers of the bits set. -/
def mapWord (bits : List Nat) (k : Nat) : Nat :=
  (List.range 64).foldl (fun n j => if bits.contains (64 * k + j) then n + 2 ^ j else n) 0

/-- Registers of a partition index; GO registers and PEERDOWN are write-only and read 0. -/
def PartRegs.read (r : PartRegs) : Nat → Nat
  | 0x00 => r.invVa.toNat
  | 0x08 => r.invLen.toNat
  | 0x14 => r.inv.done.toNat
  | 0x20 => r.deadPa.toNat
  | 0x28 => r.deadN.toNat
  | 0x30 => r.dead.done.toNat
  | 0x40 => r.netTab.toNat
  | 0x4C => r.net.done.toNat
  | 0x50 => r.rinvPeer.toNat
  | 0x58 => r.rinv.done.toNat
  | _ => 0

/-- Registers that read 0 while the device is not UP: the ring, host key indexes, fences and telemetry. -/
def Dev.readUp (d : Dev) (off : Nat) : Nat :=
  if 0x200 ≤ off ∧ off < 0x400 then ((d.hkey.lookup (off - 0x200)).map BitVec.toNat).getD 0
  else if 0x1000 ≤ off ∧ off < 0x1800 then ((d.regs[(off - 0x1000) / 256]?).map fun r => r.read (off % 256)).getD 0
  else if 0x3000 ≤ off ∧ off < 0x3028 ∧ off % 8 = 0 then mapWord d.fenceC ((off - 0x3000) / 8)
  else if 0x3040 ≤ off ∧ off < 0x30E0 ∧ off % 8 = 0 then mapWord (d.fenceP.map fun e => 160 * e.1 + e.2) ((off - 0x3040) / 8)
  else if 0x30E0 ≤ off ∧ off < 0x3108 ∧ off % 8 = 0 then mapWord d.pendC ((off - 0x30E0) / 8)
  else if 0x4010 ≤ off ∧ off < 0x401C ∧ off % 2 = 0 then ((d.dieTemp[(off - 0x4010) / 2]?).map BitVec.toNat).getD 0
  else if 0x4020 ≤ off ∧ off < 0x4030 ∧ off % 2 = 0 then ((d.hbmTemp[(off - 0x4020) / 2]?).map BitVec.toNat).getD 0
  else match off with
    | 0x0008 => d.mrbase.toNat
    | 0x0010 => d.mrlog2.toNat
    | 0x0018 => d.mrtail.toNat
    | 0x001C => d.mrhead.toNat
    | 0x3108 => mapWord d.fenceN 0
    | 0x3110 => d.badPg.toNat
    | 0x3118 => d.repCause.toNat
    | 0x4000 => d.snap.toNat
    | 0x4008 => d.power.toNat
    | 0x400C => d.pwrlim.toNat
    | 0x4040 => d.throt.toNat
    | 0x4048 => d.hbmCe.toNat
    | 0x4050 => d.hbmUe.toNat
    | 0x4058 => d.sramCe.toNat
    | 0x4060 => d.sramUe.toNat
    | 0x4068 => d.scrubP.toNat
    | 0x4070 => d.linkRty.toNat
    | 0x4078 => d.netNack.toNat
    | 0x4080 => d.netLost.toNat
    | 0x4088 => d.trips.toNat
    | _ => 0

/-- The value of the register at an offset of BAR0: in every STATE DEVSTAT, the attestation and the firmware
group read as they are; write-only, reserved and, while the device is not UP, all other registers read 0. -/
def State.readReg (s : State) (off : Nat) : Nat :=
  let d := s.dev
  match off with
  | 0x0000 => devstat d
  | 0x0020 => d.attAddr.toNat
  | 0x0028 => d.attPart.toNat
  | 0x0030 => d.att.done.toNat
  | 0x0040 => d.fwAddr.toNat
  | 0x0048 => d.fwSize.toNat
  | 0x0050 => d.fw.done.toNat
  | _ => if d.up = 1 then s.throttled.readUp off else 0

end Sys2Proof.Machine
end

