-- ==== Sys2Proof/Safety.lean ====
section
/-!
DEFINITION. What a safe run is: no step stops, and the memories keep their canonical form; and the terms
in which claims speak of one instruction: which stream issues, and what it leaves as it was.
-/
namespace Sys2Proof.Safety
open Sys2Proof.Machine

/-- Every memory of the state is in canonical form. -/
def memoriesWf (s : State) : Bool :=
  Memory.wf s.mem && Memory.wf s.chip &&
  s.teams.all (fun t => Memory.wf t.spd && t.tiles.all fun x => Memory.wf x.data) &&
  s.groups.all (fun g => Memory.wf g.lregs && Memory.wf g.slc) &&
  s.parts.all (fun p => p.colls.all fun c => Memory.wf c.dict)

/-- The step from a state stops with a fault or a refusal. -/
def stops (s : State) : Bool :=
  match step s with
  | .next _ => false
  | _ => true

/-! ### Who issues -/

/-- Fragment f, in slot b of the live group g, issues. -/
structure Issues (s : State) (b : Bool) (g : Group) (f : Frag) : Prop where
  cur  : s.cur = ⟨g.ref, .frag b⟩
  grp  : s.group? g.ref = some g
  live : g.state = .live
  frag : g.ctx.frag b = some f

/-- The lane queue of the live group g issues its head e; es wait behind it. -/
structure LaneIssues (s : State) (g : Group) (e : Entry) (es : List Entry) : Prop where
  cur   : s.cur = ⟨g.ref, .lane⟩
  grp   : s.group? g.ref = some g
  live  : g.state = .live
  queue : g.queue = e :: es

/-! ### What stays -/

/-- Every byte that either state can read is the same in both: lane registers and slices, scratchpads, chip
scratchpad, physical memory, lines of peers. -/
def SameBytes (s t : State) : Prop := ∀ l : Loc, t.peek l = s.peek l

/-- Every byte but those at the places of a set is the same. -/
def SameBytesBut (p : Loc → Prop) (s t : State) : Prop := ∀ l : Loc, ¬p l → t.peek l = s.peek l

/-- The registers of a context after writes of scalar, address and condition registers. `s0` reads 0 whatever
is written to it, and every register that is not listed is as it was. -/
structure Wrote (c c' : Ctx) (ws : List (SReg × Word)) (wa : List (AReg × Addr)) (wc : List (CReg × Bool)) : Prop where
  sreg : ∀ r, c'.getS r = if r = 0 then 0 else (ws.lookup r).getD (c.getS r)
  areg : ∀ r, c'.getA r = (wa.lookup r).getD (c.getA r)
  creg : ∀ r, c'.getC r = (wc.lookup r).getD (c.getC r)
  mw   : c'.mw = c.mw

/-- What an instruction that writes the registers listed leaves as it was in the context; it counts as one
instruction performed (R231). -/
structure Kept (ws : List (SReg × Word)) (wa : List (AReg × Addr)) (wc : List (CReg × Bool)) (c c' : Ctx) : Prop where
  regs  : Wrote c c' ws wa wc
  clock : c'.clockHi = c.clockHi
  ovs   : c'.ovCount = c.ovCount ∧ c'.ovLast = c.ovLast
  count : c'.perf0 = c.perf0 + 1

/-- The context after an instruction of the fragment in slot b that leaves that fragment f', writes the
registers listed and changes nothing else. -/
structure Ran (b : Bool) (f' : Frag) (ws : List (SReg × Word)) (wa : List (AReg × Addr)) (wc : List (CReg × Bool))
    (c c' : Ctx) : Prop where
  kept  : Kept ws wa wc c c'
  frag  : c'.frag b = some f'
  other : c'.frag (!b) = c.frag (!b)
  stack : c'.stack = c.stack ∧ c'.top = c.top

/-- The instruction answers a next state that differs from s in the scalar context of group g alone, where P
holds of it; no byte of any memory, lane register, predicate or other field of the group or of the machine
differs. -/
def OnlyCtx (i : Instr) (s : State) (g : Group) (P : Ctx → Prop) : Prop :=
  ∃ c', exec i s = .next (s.setGroup { g with ctx := c' }) ∧ P c' ∧ SameBytes s (s.setGroup { g with ctx := c' })

/-- A fragment that holds at its instruction: the hold counts from when it began, and the park from when it was last not
parked (R432). -/
def holding (s : State) (f : Frag) (w : Wait) : Frag :=
  { f with wait := w, mark := f.from_ s,
           since := if f.wait.parkedNow = true ∨ f.wait = w then f.since else s.clock }

/-- The instruction only makes the fragment in slot b wait. -/
def OnlyWaits (i : Instr) (s : State) (b : Bool) (g : Group) (f : Frag) (w : Wait) : Prop :=
  OnlyCtx i s g fun c' => c' = g.ctx.setFrag b (some (holding s f w))

/-- What a fragment waits for once it is parked: one that is past its arrival stays so. -/
def parkedFrom (w : Wait) : Wait := match w with | .ready => .parked | x => x

/-- The instruction at which a fragment stands is provisional (R17): a block enqueued before it was first held up has not
completed, or a load of such a block has not returned. -/
def Provisional (s : State) (g : Group) (f : Frag) : Prop :=
  let m := f.from_ s
  (∃ e ∈ g.queue, e.at_ ≤ m) ∨ ∃ l ∈ g.loads, l.st = .lane ∧ l.blk ≤ m

/-- The instruction takes a trap, with what its record says: at once when it is not provisional; else it waits and
nothing else changes (R17, R203). -/
def TrapsWith (i : Instr) (s : State) (b : Bool) (g : Group) (f : Frag) (t : Trap) (va user gong : Nat) : Prop :=
  (¬Provisional s g f → exec i s = .next (s.halt g (.frag b) t va 0 user gong)) ∧
  (Provisional s g f → OnlyWaits i s b g f (parkedFrom f.wait))

/-- The same for a trap whose record says nothing more. -/
def Traps (i : Instr) (s : State) (b : Bool) (g : Group) (f : Frag) (t : Trap) : Prop := TrapsWith i s b g f t 0 0 0

/-- Group g' is group g with the fragment in slot b moved past an instruction of n words that writes nothing. A
lane trap of a block already queued would return to contexts in which the instruction is past too, if it had
begun there (R17); else the queue is as it was. -/
structure MovedOn (b : Bool) (f : Frag) (n : Nat) (g g' : Group) : Prop where
  rest : g' = { g with ctx := g'.ctx, queue := g'.queue }
  ctx  : Ran b (f.next n) [] [] [] g.ctx g'.ctx
  len  : g'.queue.map (fun e => { e with after := g.ctx }) = g.queue.map fun e => { e with after := g.ctx }

end Sys2Proof.Safety
end

