-- ==== Sys2Proof/Certificates/Slice0/Obligations.lean ====
section
/-!
DEFINITION. The statements for the provers, with the tables and terms they use.
-/
namespace Sys2Proof.Claims
open Sys2Proof Sys2Proof.Machine Sys2Proof.Safety

/-! ### Scalar integer and address arithmetic -/

/-- Number of 1 bits of a number below 2ⁿ. -/
def onesOf : Nat → Nat → Nat
  | 0, _ => 0
  | n + 1, x => x % 2 + onesOf n (x / 2)
/-- Number of binary digits of a number below 2ⁿ. -/
def digitsOf : Nat → Nat → Nat
  | 0, _ => 0
  | n + 1, x => if x = 0 then 0 else 1 + digitsOf n (x / 2)

/-- The table of R206: the destination of an operation of major 0x02 and the value it gets, computed on
naturals and integers. -/
def aluResult (c : Ctx) : Instr → Option (SReg × Word)
  | .sadd d a b => some (d, BitVec.ofNat 32 ((c.getS a).toNat + (c.getS b).toNat))
  | .ssub d a b => some (d, BitVec.ofInt 32 (((c.getS a).toNat : Int) - (c.getS b).toNat))
  | .smul d a b => some (d, BitVec.ofNat 32 ((c.getS a).toNat * (c.getS b).toNat))
  | .smulhI32 d a b => some (d, BitVec.ofInt 32 ((c.getS a).toInt * (c.getS b).toInt / 2 ^ 32))
  | .smulhN32 d a b => some (d, BitVec.ofNat 32 ((c.getS a).toNat * (c.getS b).toNat / 2 ^ 32))
  | .sand d a b => some (d, c.getS a &&& c.getS b)
  | .sor d a b => some (d, c.getS a ||| c.getS b)
  | .sxor d a b => some (d, c.getS a ^^^ c.getS b)
  | .sshl d a b => some (d, BitVec.ofNat 32 (if (c.getS b).toNat < 32 then (c.getS a).toNat * 2 ^ (c.getS b).toNat else 0))
  | .sshr d a b => some (d, BitVec.ofNat 32 (if (c.getS b).toNat < 32 then (c.getS a).toNat / 2 ^ (c.getS b).toNat else 0))
  | .ssra d a b => some (d, BitVec.ofInt 32 (if (c.getS b).toNat < 32 then (c.getS a).toInt / 2 ^ (c.getS b).toNat
      else if (c.getS a).toNat < 2 ^ 31 then 0 else -1))
  | .sminI32 d a b => some (d, BitVec.ofInt 32 (min (c.getS a).toInt (c.getS b).toInt))
  | .sminN32 d a b => some (d, BitVec.ofNat 32 (min (c.getS a).toNat (c.getS b).toNat))
  | .smaxI32 d a b => some (d, BitVec.ofInt 32 (max (c.getS a).toInt (c.getS b).toInt))
  | .smaxN32 d a b => some (d, BitVec.ofNat 32 (max (c.getS a).toNat (c.getS b).toNat))
  | .spopc d a => some (d, BitVec.ofNat 32 (onesOf 32 (c.getS a).toNat))
  | .sclz d a => some (d, BitVec.ofNat 32 (32 - digitsOf 32 (c.getS a).toNat))
  | .smov d a => some (d, c.getS a)
  | _ => none

/-- The immediate and bit field forms (R207, R209, R210), computed on naturals and integers; B of `sadd` to
`sxor` is the sign-extended immediate, of the shifts the immediate itself. -/
def immResult (c : Ctx) : Instr → Option (SReg × Word)
  | .saddImm d a i => some (d, BitVec.ofInt 32 ((c.getS a).toInt + i.toInt))
  | .sandImm d a i => some (d, c.getS a &&& i.signExtend 32)
  | .sorImm d a i => some (d, c.getS a ||| i.signExtend 32)
  | .sxorImm d a i => some (d, c.getS a ^^^ i.signExtend 32)
  | .sshlImm d a i => some (d, BitVec.ofNat 32 ((c.getS a).toNat * 2 ^ i.toNat))
  | .sshrImm d a i => some (d, BitVec.ofNat 32 ((c.getS a).toNat / 2 ^ i.toNat))
  | .ssraImm d a i => some (d, BitVec.ofInt 32 ((c.getS a).toInt / 2 ^ i.toNat))
  | .sli sx d i => some (d, if sx then BitVec.ofInt 32 i.toInt else BitVec.ofNat 32 i.toNat)
  | .slih d i => some (d, BitVec.ofNat 32 (i.toNat * 2 ^ 16 + (c.getS d).toNat % 2 ^ 16))
  | .sbfx signed pos len1 d a =>
    let f := (c.getS a).toNat / 2 ^ pos.toNat % 2 ^ (len1.toNat + 1)
    some (d, if signed = true ∧ 2 ^ len1.toNat ≤ f then BitVec.ofInt 32 ((f : Int) - 2 ^ (len1.toNat + 1)) else BitVec.ofNat 32 f)
  | .sbfi pos len1 d a =>
    let m := BitVec.ofNat 32 ((2 ^ (len1.toNat + 1) - 1) * 2 ^ pos.toNat)
    some (d, (c.getS d &&& ~~~m) ||| (BitVec.ofNat 32 ((c.getS a).toNat % 2 ^ (len1.toNat + 1) * 2 ^ pos.toNat) &&& m))
  | _ => none

/-- The address instructions (R211): the register and value they write, the number of their words, and which
class the destination has. -/
def addrResult (c : Ctx) : Instr → Option (Nat × List (SReg × Word) × List (AReg × Addr))
  | .aadd d a b sh => some (1, [], [(d, BitVec.ofInt 64 ((c.getA a).toInt + (c.getS b).toInt * 2 ^ sh.toNat))])
  | .aaddImm d a i => some (1, [], [(d, BitVec.ofInt 64 ((c.getA a).toInt + i.toInt))])
  | .alea d a i => some (2, [], [(d, BitVec.ofInt 64 ((c.getA a).toInt + i.toInt))])
  | .amov d a => some (1, [], [(d, c.getA a)])
  | .amovN32 d a => some (1, [], [(d, BitVec.ofNat 64 (c.getS a).toNat)])
  | .amovI32 d a => some (1, [], [(d, BitVec.ofInt 64 (c.getS a).toInt)])
  | .amovLo d a => some (1, [(d, BitVec.ofNat 32 ((c.getA a).toNat % 2 ^ 32))], [])
  | .amovHi d a => some (1, [(d, BitVec.ofNat 32 ((c.getA a).toNat / 2 ^ 32))], [])
  | .amovPair d a b => some (1, [], [(d, BitVec.ofNat 64 ((c.getS a).toNat * 2 ^ 32 + (c.getS b).toNat))])
  | _ => none

/-- The condition of R187 on two words. -/
def condHolds (k : SCond) (a b : Word) : Prop :=
  match k with
  | .eq => a.toNat = b.toNat
  | .ne => a.toNat ≠ b.toNat
  | .lt => a.toInt < b.toInt
  | .le => a.toInt ≤ b.toInt
  | .gt => b.toInt < a.toInt
  | .ge => b.toInt ≤ a.toInt
  | .ltu => a.toNat < b.toNat
  | .leu => a.toNat ≤ b.toNat
  | .gtu => b.toNat < a.toNat
  | .geu => b.toNat ≤ a.toNat

/-! ### Control of the scalar stream -/

/-- The link word Link(T, w, o) of R166. -/
def linkWord (t : Bool) (w o : Nat) : Word := BitVec.ofNat 32 ((if t then 1 else 0) + 4 * (w % 1024) + 4096 * (o % 256))

/-- The instruction's word is the last of the innermost loop level's body. -/
def atEnd (f : Frag) (l : LoopLevel) : Prop := l.fin = f.pcw ∧ l.slot = f.slot

/-- The context c' has the fragments and the stack given, the registers of c and one more instruction counted; the top
of the stack's ring moves by n entries (R27). -/
structure Split2 (b : Bool) (mine other : Option Frag) (st : List Frag) (n : Int) (c c' : Ctx) : Prop where
  kept  : Kept [] [] [] c c'
  frag  : c'.frag b = mine
  other : c'.frag (!b) = other
  stack : c'.stack = st
  top   : c'.top = c.top + n

/-- The instant a fragment began to wait at a `join`, if it waits. -/
def waitsSince (f : Frag) : Option Nat := match f.wait with | .join t => some t | _ => none

/-- No row of R24 applies to the fragments of a context, and no pop of R25. -/
structure Resolved (c : Ctx) : Prop where
  pops  : c.stack ≠ [] → c.f0 ≠ none ∧ c.f1 ≠ none
  alone : c.stack = [] → ∀ b f, c.frag b = some f → waitsSince f ≠ none → c.frag (!b) ≠ none
  pair  : ∀ f g, c.f0 = some f → c.f1 = some g → waitsSince f = none ∨ waitsSince g = none

/-- The lanes of the live and spilled fragments of a context. -/
def lanesOf (c : Ctx) : LaneMask :=
  (c.f0.toList ++ c.f1.toList ++ c.stack).foldl (fun m f => m ||| f.mask) 0

/-- Lanes of a fragment whose predicate is 1, and the others. -/
def thenLanes (g : Group) (f : Frag) (p : PReg) : LaneMask := f.mask &&& (if p = 7 then BitVec.allOnes 64 else g.p[p.toNat]'p.isLt)
def elseLanes (g : Group) (f : Frag) (p : PReg) : LaneMask := f.mask &&& ~~~(if p = 7 then BitVec.allOnes 64 else g.p[p.toNat]'p.isLt)

/-- A word of a fragment's slot in PC format (R27). -/
def joinPc (f : Frag) (at_ : BitVec 10) : Nat := 4 * at_.toNat + 4096 * f.slot
/-- A fragment that has taken a uniform split. -/
def soloSplit (f : Frag) (joinAt : BitVec 10) : Frag :=
  { f with depth := f.depth + 1, joins := joinPc f joinAt :: f.joins, solo := f.solo ||| (1#64 <<< f.depth) }
/-- One half of a split. -/
def halfSplit (f : Frag) (joinAt : BitVec 10) (m : LaneMask) : Frag :=
  { f with depth := f.depth + 1, joins := joinPc f joinAt :: f.joins, solo := f.solo &&& ~~~(1#64 <<< f.depth), mask := m }

/-- A fragment that begins to wait at a `join`, and one that is released past it alone (R24). -/
def atJoin (s : State) (f : Frag) : Frag := holding s f (.join s.tick)
def pastJoin (f : Frag) : Frag := { f.next 1 with depth := f.depth - 1, joins := f.joins.tail }
/-- A fragment fused with the one that waited first (R23). -/
def fused (first f : Frag) : Frag :=
  { pastJoin first with mask := first.mask ||| f.mask, tokens := first.tokens ||| f.tokens,
                        runs := first.runs ++ f.runs.filter fun t => !first.runs.contains t }

/-! ### Synchronisation -/

/-- The sums that the core of a group has sent are performed (R106). -/
def SumsDone (s : State) (g : Group) : Prop :=
  ∀ e ∈ s.partials, ¬(e.1 = g.ref.part ∧ e.2.core = g.core ∧ e.2.sent ≤ s.tick)
/-- No atomic access of the group is still to be performed. -/
def NoAtomics (g : Group) : Prop := ∀ w ∈ g.stores, w.rmw = none
/-- What a release waits for: the group's stores, those sums, and stores of other groups that its core's groups see
already (R71, R72, R106). -/
def Released (s : State) (g : Group) : Prop :=
  g.stores = [] ∧ SumsDone s g ∧
    ∀ h ∈ s.groups, h.core = g.core → h.ref.part = g.ref.part → ∀ w ∈ h.stores, w.early = false

/-- A group after a fence: with an acquire no later load reads what stood before a write of another agent (R70), after a
release wider than `.grp` engines read what it has stored (R83). -/
def fencedGroup (g : Group) (acq rel wide : Bool) : Group :=
  { g with seen := if acq then [] else g.seen, ctx := if acq then { g.ctx with dep := [] } else g.ctx,
           before := if rel && wide then [] else g.before }

/-- The instruction waits, parked, and a counter of waits goes up by a free value (R231). -/
def WaitsCounted (i : Instr) (s : State) (b : Bool) (g : Group) (f : Frag) (n : Fin 6) : Prop :=
  exec i s = .next (s.setGroup
    { g with ctx := g.ctx.setFrag b (some (holding s f (parkedFrom f.wait))),
             perf := g.perf.set n (g.perf[n] + BitVec.ofNat 32 (Config.freeWait s.tick n.val)) })

/-- The arrivals that R140 forbids: group x of a team of n, naming count k. -/
def arrivalForbidden (q : Gong) (x k n : Nat) : Prop :=
  k = 0 ∨ n < k ∨ (q.need ≠ 0 ∧ k ≠ q.need) ∨ q.bits.getLsbD x = true

/-- A gong whose phase has completed (R141). -/
structure PhaseDone (q q' : Gong) (real : Word) : Prop where
  phase : q'.phase = !q.phase
  mode  : q'.mode = .unset
  clear : q'.arrived = 0 ∧ q'.need = 0 ∧ q'.bits = 0
  real  : q'.real = real

/-- A gong in which group x has arrived and the phase stays open (R139, R140). -/
structure Arrived (q q' : Gong) (x k : Nat) (m : GMode) (bal : Int) : Prop where
  phase : q'.phase = q.phase
  mode  : q'.mode = m
  count : q'.arrived = q.arrived + 1 ∧ q'.need = k
  bits  : q'.bits = q.bits ||| (1#64 <<< x)
  bytes : q'.bal = bal ∧ q'.cur = q.cur ∧ q'.real = q.real

/-! ### Special registers and scalar memory -/

/-- The value of a special register number (R189) as a number; none for a number that is not listed. -/
def specialValue (s : State) (g : Group) (n : Nat) : Option Nat :=
  let l := s.lrec g.ref
  let c := s.coll? g.ref.part (lrColl l)
  match n with
  | 0x00 => some g.ref.grp
  | 0x01 => some (lrGroups l)
  | 0x02 => some (g.ref.team % lrGx l)
  | 0x03 => some (g.ref.team / lrGx l % lrGy l)
  | 0x04 => some (g.ref.team / (lrGx l * lrGy l))
  | 0x05 => some (lrGx l)
  | 0x06 => some (lrGy l)
  | 0x07 => some (lrGz l)
  | 0x08 => some (lrWidth l)
  | 0x10 => some g.core
  | 0x11 => some (g.core / 2)
  | 0x12 => some (g.core / 72)
  | 0x13 => some g.ref.part
  | 0x20 => some (if lrColl l = 0 then 0 else (c.map fun x => crRank x.crec).getD 0)
  | 0x21 => some (if lrColl l = 0 then 1 else (c.map fun x => crN x.crec).getD 1)
  | 0x22 => some (if lrColl l = 0 then 0 else ((s.launch? g.ref.part g.ref.lid).bind fun m => m.seqNo).getD 0)
  | 0x30 => some s.clock
  | 0x31 => some g.ctx.clockHi.toNat
  | 0x32 => some g.memlat.toNat
  | 0x40 => some g.fflags.toNat
  | 0x41 => some (if ((s.part? g.ref.part).map fun p => prDet p.prec).getD false then 1 else 0)
  | 0x42 => some (g.ctx.ovLast.toNat * 65536 + g.ctx.ovCount.toNat)
  | _ => none

/-- Scalar loads and stores by space; `.slc` has none. -/
def scalarLd (sp : Space) (m : SMem) : Instr :=
  match sp with | .spd => .ldSpd m | .pmem => .ldPmem m | .chip => .ldChip m | _ => .ldGlb m
def scalarSt (sp : Space) (m : SMem) : Instr :=
  match sp with | .spd => .stSpd m | .pmem => .stPmem m | .chip => .stChip m | _ => .stGlb m

/-- Bytes of a size code. -/
def sizeBytes (z : Size) : Nat := match z with | .b8 => 1 | .b16 => 2 | .b32 => 4 | .b64 => 8

/-- The address a scalar access uses: a register plus the signed offset, modulo 2⁶⁴ or 2³² (R255). -/
def accessAddr (c : Ctx) (sp : Space) (m : SMem) : Nat :=
  if sp = .glb then (((c.getA (m.base.setWidth 4)).toNat + m.off.toInt) % 2 ^ 64).toNat
  else (((c.getS m.base).toNat + m.off.toInt) % 2 ^ 32).toNat

/-- Where an on-chip offset of a group lies in the pair memory of its team (R45, R48), or in the chip
scratchpad. -/
def onChipLoc (s : State) (g : Group) (p : Part) (sp : Space) (o : Nat) : Loc :=
  match sp with
  | .spd => .spd g.ref.tref (spdBase s g + o)
  | .pmem => .spd g.ref.tref o
  | _ => .chip (chipByte p o)

/-- The bytes of a register that a store of a size writes. -/
def regBytes (c : Ctx) (m : SMem) : List Byte :=
  leBytes (sizeBytes m.size) (if m.size = .b64 then (c.getA (m.data.setWidth 4)).toNat else (c.getS m.data).toNat)

/-- Nothing makes the access wait: no absent line, no load that has not returned, no owned line and, in mixed-size debug
mode, which is off, no acknowledgement. -/
structure MayAccess (s : State) (g : Group) (p : Part) (sp : Space) (a n : Nat) : Prop where
  part  : s.part? g.ref.part = some p
  loads : g.loads = []
  free  : stalls s g sp a n = false
  mix   : prMixDbg p.prec = false

/-- The registers after a load of value v (R258). -/
def loadWrites (m : BitVec 6) (z : Size) (sext : Bool) (v : Nat) : List (SReg × Word) × List (AReg × Addr) :=
  match z with
  | .b64 => ([], [(m.setWidth 4, BitVec.ofNat 64 v)])
  | .b32 => ([(m, BitVec.ofNat 32 v)], [])
  | .b16 => ([(m, if sext = true ∧ 2 ^ 15 ≤ v then BitVec.ofInt 32 ((v : Int) - 2 ^ 16) else BitVec.ofNat 32 v)], [])
  | .b8 => ([(m, if sext = true ∧ 2 ^ 7 ≤ v then BitVec.ofInt 32 ((v : Int) - 2 ^ 8) else BitVec.ofNat 32 v)], [])

/-- The value of bytes, least significant first. -/
def valueOf : List Byte → Nat
  | [] => 0
  | b :: bs => b.toNat + 256 * valueOf bs

/-- Bytes of physical memory that belong to the partition's key and to no image, declaration or fence: what is
stored to them reads back, and no other byte changes (R59, R415, R434, R446, R462). -/
def PlainMemory (s : State) (pa k : Nat) : Prop :=
  (isHbm pa = true → s.fencedPa pa = false ∧ (∀ d, getKey s.skey (pa / 64) d = k) ∧
    chunkUnwritten s.unwritten (pa / 2048) = false) ∧ (isHbm pa = false → k = 0) ∧
  s.images = [] ∧ s.dev.declaring = []

/-- A place that takes a store: memory as above, or on-chip storage that the state lists. -/
def StoreOk (s : State) : Loc → Prop
  | .mem pa k => PlainMemory s pa k
  | .spd t _ => s.team? t ≠ none
  | .slc g _ => s.group? g ≠ none
  | .chip _ => True
  | _ => False

/-- Each byte of host memory has one name: no key. -/
def OneName : Loc → Prop
  | .mem pa k => isHbm pa = true ∨ k = 0
  | _ => True

/-- What a store of bytes at places leaves: those bytes there, every other byte as it was. -/
def Stored (ws : List (Loc × Byte)) (s t : State) : Prop :=
  ∀ l : Loc, OneName l → t.peek l = (ws.lookup l).getD (s.peek l)

/-- A load without the bytes that it has read so far. -/
def unread (l : Load) : Load := { l with got := [] }
/-- The other groups of a state are as they were but for lane slices, what they have still to store, what their loads have
read so far, and what they and engines may still read of what stood in memory before a write (R70, R81, R85). -/
def OthersKept (g : Group) (s t : State) : Prop :=
  ∀ r h, r ≠ g.ref → s.group? r = some h → ∃ h', t.group? r = some h' ∧
    h'.mapLoads unread = { h.mapLoads unread with slc := h'.slc, stores := h'.stores, seen := h'.seen, before := h'.before }

/-- State u is t but for the caches and the reads queued at HBM4E banks; no byte differs. -/
structure CachesOnly (t u : State) : Prop where
  rest  : u = { t with cores := u.cores, l2 := u.l2, msc := u.msc, pred := u.pred, dirty := u.dirty, parts := u.parts,
                       pchs := u.pchs, others := u.others, touched := u.touched }
  bytes : SameBytes t u

/-- No group has a store that is not performed, or keeps bytes that another agent has overwritten, and the host holds no
line: what is read now is what the memories hold. -/
structure Still (s : State) : Prop where
  stores : ∀ g ∈ s.groups, g.stores = [] ∧ g.seen = []
  lines  : s.hostLines = []

/-- The stores that an instruction leaves waiting for bytes at places: together they write them, in units that are each
performed whole (R80): a strong access is one unit of its size; a weak one that is aligned goes word by word, else byte by
byte. -/
structure Waits (scope : Option Scope) (va : Nat) (ws : List (Loc × Byte)) (us : List PStore) : Prop where
  bytes : us.flatMap (·.ws) = ws
  kind  : ∀ u ∈ us, u.scope = scope ∧ u.early = false ∧ u.size = if scope = none then 0 else ws.length
  whole : ∀ u ∈ us, u.cut = false ∧ u.olds = [] ∧ u.past = [] ∧ u.rmw = none
  units : (scope ≠ none → us.map (·.ws) = [ws]) ∧
    (scope = none → va % ws.length = 0 → ∀ u ∈ us, u.ws.length = min 4 ws.length) ∧
    (scope = none → va % ws.length ≠ 0 → ∀ u ∈ us, u.ws.length = 1)
/-! ### Lane instructions -/

/-- act(f) of R232. -/
def activeLanes (g : Group) (e : Entry) (w : LaneWord) : LaneMask :=
  let p := if w.guard = 7 then BitVec.allOnes 64 else g.p[w.guard.toNat]'w.guard.isLt
  e.mask &&& (if w.gneg then ~~~p else p)
/-- Lanes of act(f), ascending. -/
def activeList (g : Group) (e : Entry) (w : LaneWord) : List Nat := (List.range 64).filter fun l => (activeLanes g e w).getLsbD l

/-- The state after a lane word whose group has become g': with the last word of a block, drains that the block
held are started and the group may end. -/
def afterWord (s : State) (last : Bool) (g' : Group) : State :=
  if last then ((s.setGroup g').drainCore g'.core).settleGroup g'.ref else s.setGroup g'

/-- The queue after its head's current word. -/
def queueAfter (last : Bool) (e : Entry) (es : List Entry) : List Entry :=
  if last then es else { e with word := e.word + 1, wait := .ready } :: es

/-- The 32 bits or more that a register holds of a value of a type: copies of the sign above `.i8` and `.i16`, else 0
(R233). -/
def inRegister (t : LTy) (v : Nat) : Nat :=
  match t with
  | .i8 => if 2 ^ 7 ≤ v then v + (2 ^ 32 - 2 ^ 8) else v
  | .i16 => if 2 ^ 15 ≤ v then v + (2 ^ 32 - 2 ^ 16) else v
  | _ => v

/-- An instruction writes, in each lane of a set, n bytes of lane registers from register d with the number given;
every other byte of every lane is as it was. -/
def LaneBytes (g : Group) (act : Nat → Bool) (d n : Nat) (val : Nat → Nat) (lregs' : Memory) : Prop :=
  ∀ l o, o < 1024 → Memory.rd lregs' (1024 * l + o) =
    if act l = true ∧ 4 * d ≤ o ∧ o < 4 * d + n then BitVec.ofNat 8 (val l / 256 ^ (o - 4 * d))
    else Memory.rd g.lregs (1024 * l + o)

/-- The instruction is performed in the lanes of act(f): it writes values of type t to register d, ORs the flags into
`sr.fflags`, counts as one lane instruction (R231) and leaves the block at its next word; of the group nothing else
changes. -/
def LaneWrites (i : Instr) (s : State) (g : Group) (e : Entry) (es : List Entry) (w : LaneWord) (t : LTy) (val : Nat → Nat)
    (flags : BitVec 5) : Prop :=
  ∃ m, exec i s = .next (afterWord s w.last
      { g with lregs := m, fflags := g.fflags ||| flags, perf := g.perf.set 1 (g.perf[1] + 1), queue := queueAfter w.last e es }) ∧
    LaneBytes g (activeLanes g e w).getLsbD w.d.toNat (max 4 t.bytes) (fun l => inRegister t (val l)) m

/-- The instruction writes a lane predicate in the lanes of act(f); a write to `p7` is ignored. -/
def PredWrites (i : Instr) (s : State) (g : Group) (e : Entry) (es : List Entry) (w : LaneWord) (val : Nat → Bool)
    (flags : BitVec 5) : Prop :=
  ∃ g', exec i s = .next (afterWord s w.last g') ∧
    g' = { g with p := g'.p, fflags := g.fflags ||| flags, perf := g.perf.set 1 (g.perf[1] + 1), queue := queueAfter w.last e es } ∧
    ∀ (r : PReg) (l : Nat), l < 64 → (g'.p[r.toNat]'r.isLt).getLsbD l =
      if r = w.d.setWidth 3 ∧ r ≠ 7 ∧ (activeLanes g e w).getLsbD l = true then val l else (g.p[r.toNat]'r.isLt).getLsbD l

/-- The instruction writes a scalar register from a lane instruction (R236), in the live context and in those a later
lane trap would return to (R16, R17). -/
def ScalarFromLanes (i : Instr) (s : State) (g : Group) (e : Entry) (es : List Entry) (w : LaneWord) (v : Word)
    (flags : BitVec 5) : Prop :=
  let put := fun (c : Ctx) => c.setS (w.d.setWidth 6) v
  let e' := fun (x : Entry) => { x with after := put x.after }
  exec i s = .next (afterWord s w.last
    { g with ctx := put g.ctx, fflags := g.fflags ||| flags, perf := g.perf.set 1 (g.perf[1] + 1),
             queue := queueAfter w.last (e' e) (es.map e') })

/-- An integer reduced modulo 2^W of a type, and one clamped to its range. -/
def reduced (t : LTy) (z : Int) : Nat := (z % 2 ^ (8 * t.bytes)).toNat
def clamped (t : LTy) (z : Int) : Int :=
  let lo : Int := if t.isSigned then -2 ^ (8 * t.bytes - 1) else 0
  let hi : Int := if t.isSigned then 2 ^ (8 * t.bytes - 1) - 1 else 2 ^ (8 * t.bytes) - 1
  max lo (min hi z)
/-- A number of W bits read as signed. -/
def signedOf (width n : Nat) : Int := if 2 ^ (width - 1) ≤ n then (n : Int) - 2 ^ width else n
/-- Source bits of a type as R238 reads them. -/
def intOf (t : LTy) (n : Nat) : Int := if t.isSigned then signedOf (8 * t.bytes) n else n

/-- The number of n bits that has the bits of a number in reverse order. -/
def mirrored : Nat → Nat → Nat
  | 0, _ => 0
  | n + 1, x => x % 2 * 2 ^ n + mirrored n (x / 2)

/-- The integer, bit and move instructions (R238 to R241, R244, R248 to R250, R253) by the value each writes in a
lane, with the type of the register it writes. -/
def laneBitsValue (s : State) (g : Group) (e : Entry) (l : Nat) : Instr → Option (LTy × Nat)
  | .mov w => some (w.ty, rawB g e w w.ty l)
  | .add w => if w.ty.isFloat then none else
      let z := intOf w.ty (rawA g e w w.ty l) + intOf w.ty (rawB g e w w.ty l)
      some (w.ty, reduced w.ty (if w.m41 then clamped w.ty z else z))
  | .sub w => if w.ty.isFloat then none else
      let z := intOf w.ty (rawA g e w w.ty l) - intOf w.ty (rawB g e w w.ty l)
      some (w.ty, reduced w.ty (if w.m41 then clamped w.ty z else z))
  | .mul w => if w.ty.isFloat || w.m41 then none else
      some (w.ty, reduced w.ty (intOf w.ty (rawA g e w w.ty l) * intOf w.ty (rawB g e w w.ty l)))
  | .mulh w => some (w.ty, reduced w.ty (intOf w.ty (rawA g e w w.ty l) * intOf w.ty (rawB g e w w.ty l) / 2 ^ (8 * w.ty.bytes)))
  | .mad w =>
      some (w.ty, reduced w.ty (intOf w.ty (rawA g e w w.ty l) * intOf w.ty (rawB g e w w.ty l) + intOf w.ty (rawC g w w.ty l)))
  | .min w => if w.ty.isFloat || w.m41 then none else
      some (w.ty, reduced w.ty (min (intOf w.ty (rawA g e w w.ty l)) (intOf w.ty (rawB g e w w.ty l))))
  | .max w => if w.ty.isFloat || w.m41 then none else
      some (w.ty, reduced w.ty (max (intOf w.ty (rawA g e w w.ty l)) (intOf w.ty (rawB g e w w.ty l))))
  | .abs w => if w.ty.isFloat then some (w.ty, rawA g e w w.ty l % 2 ^ (8 * w.ty.bytes - 1)) else
      let z : Int := (intOf w.ty (rawA g e w w.ty l)).natAbs
      some (w.ty, reduced w.ty (if w.m41 then clamped w.ty z else z))
  | .neg w => if w.ty.isFloat then some (w.ty, (rawA g e w w.ty l + 2 ^ (8 * w.ty.bytes - 1)) % 2 ^ (8 * w.ty.bytes)) else
      let z := -intOf w.ty (rawA g e w w.ty l)
      some (w.ty, reduced w.ty (if w.m41 then clamped w.ty z else z))
  | .and w => some (w.ty, rawA g e w w.ty l &&& rawB g e w w.ty l)
  | .or w => some (w.ty, rawA g e w w.ty l ||| rawB g e w w.ty l)
  | .xor w => some (w.ty, rawA g e w w.ty l ^^^ rawB g e w w.ty l)
  | .not w => some (w.ty, 2 ^ (8 * w.ty.bytes) - 1 - rawA g e w w.ty l)
  | .shl w => some (w.ty, if numB g e w l < 8 * w.ty.bytes
      then rawA g e w w.ty l * 2 ^ numB g e w l % 2 ^ (8 * w.ty.bytes) else 0)
  | .shr w => some (w.ty, if numB g e w l < 8 * w.ty.bytes then rawA g e w w.ty l / 2 ^ numB g e w l else 0)
  | .sra w => some (w.ty, if numB g e w l < 8 * w.ty.bytes
      then reduced w.ty (signedOf (8 * w.ty.bytes) (rawA g e w w.ty l) / 2 ^ numB g e w l)
      else if rawA g e w w.ty l < 2 ^ (8 * w.ty.bytes - 1) then 0 else 2 ^ (8 * w.ty.bytes) - 1)
  | .bfx w =>
      let pos := if w.bSrc = 2 then w.imm.toNat % 256 else numB g e w l
      let len := if w.bSrc = 2 then w.imm.toNat / 256 % 256 else g.lane l w.c.toNat 4
      let n := if 8 * w.ty.bytes ≤ pos then 0 else min len (8 * w.ty.bytes - pos)
      some (w.ty, rawA g e w w.ty l / 2 ^ pos % 2 ^ n)
  | .brev w => some (w.ty, mirrored (8 * w.ty.bytes) (rawA g e w w.ty l))
  | .popc w => some (w.ty, onesOf (8 * w.ty.bytes) (rawA g e w w.ty l))
  | .clz w => some (w.ty, 8 * w.ty.bytes - digitsOf (8 * w.ty.bytes) (rawA g e w w.ty l))
  | .sel w => some (w.ty, if (if (w.c.setWidth 3 : PReg) = 7 then true
      else (g.p[(w.c.setWidth 3 : PReg).toNat]'(w.c.setWidth 3 : PReg).isLt).getLsbD l)
      then rawA g e w w.ty l else rawB g e w w.ty l)
  | .pack w =>
      let h := if w.ty = .b128 then LTy.b64 else .b32
      some (w.ty, rawA g e w h l % 2 ^ (4 * w.ty.bytes) + 2 ^ (4 * w.ty.bytes) * (rawB g e w h l % 2 ^ (4 * w.ty.bytes)))
  | .unpack w =>
      let h := if w.ty = .b128 then LTy.b64 else .b32
      some (h, rawA g e w w.ty l / 2 ^ (4 * w.ty.bytes * (numB g e w l % 2)) % 2 ^ (4 * w.ty.bytes))
  | .pget _ => some (.b32, ((List.range 8).map fun k =>
      if k = 7 ∨ (g.p[k]?.getD 0).getLsbD l = true then 2 ^ k else 0).sum)
  | .lget w => some (.b32, if w.imm = 0 then l else (g.ref.grp * lrWidth (s.lrec g.ref) + l) % 2 ^ 32)
  | .shfl w => some (w.ty, rawA g e w w.ty (numB g e w l % lrWidth (s.lrec g.ref)))
  | .bfly w =>
      let k := 2 ^ w.c.toNat
      let a := rawA g e w w.ty l
      let p := rawA g e w w.ty (l ^^^ k)
      some (w.ty, if l / k % 2 = 0 then a ^^^ ((((a / 2 ^ k) ^^^ p) &&& rawB g e w w.ty l) * 2 ^ k % 2 ^ (8 * w.ty.bytes))
        else a ^^^ (((p / 2 ^ k) ^^^ a) &&& rawB g e w w.ty l))
  | _ => none

/-- The float instructions (R241, R242, R245, R247) by the value and flags of a lane; the sources have been through
the sign modifiers of R235. -/
def laneFloatValue (g : Group) (e : Entry) (l : Nat) : Instr → Option (LTy × Nat × FFlags)
  | .add w => if w.ty.isFloat then some (w.ty, fAdd w.ty (mode w) (decodeF w.ty (srcFA g e w l)) (decodeF w.ty (srcFB g e w l))) else none
  | .sub w => if w.ty.isFloat then
      some (w.ty, fAdd w.ty (mode w) (decodeF w.ty (srcFA g e w l)) (decodeF w.ty (srcFB g e w l)).negate) else none
  | .mul w => if w.ty.isFloat then some (w.ty, fMul w.ty (mode w) (decodeF w.ty (srcFA g e w l)) (decodeF w.ty (srcFB g e w l))) else none
  | .fma w => some (w.ty, fFma w.ty (mode w) (decodeF w.ty (srcFA g e w l)) (decodeF w.ty (srcFB g e w l))
      (decodeF w.ty (srcFC g w l)))
  | .min w => if w.ty.isFloat then some (w.ty, fMinMax w.ty false (srcFA g e w l) (srcFB g e w l)) else none
  | .max w => if w.ty.isFloat then some (w.ty, fMinMax w.ty true (srcFA g e w l) (srcFB g e w l)) else none
  | .rcp w => some (w.ty, fRcp w.ty (mode w) (decodeF w.ty (srcFA g e w l)))
  | .sqrt w => some (w.ty, fSqrt w.ty (mode w) (decodeF w.ty (srcFA g e w l)))
  | .rsq w => some (w.ty, fnOf .rsq w.ty (srcFA g e w l))
  | .ex2 w => some (w.ty, fnOf .ex2 w.ty (srcFA g e w l))
  | .lg2 w => some (w.ty, fnOf .lg2 w.ty (srcFA g e w l))
  | .sin w => some (w.ty, fnOf .sin w.ty (srcFA g e w l))
  | .cos w => some (w.ty, fnOf .cos w.ty (srcFA g e w l))
  | .frc w => some (w.ty, fFrc w.ty (srcFA g e w l))
  | .cvt w => some (w.ty, convert (srcTy w) w.ty (mode w) w.m41 (if w.rnd = 4 then g.lane l w.c.toNat 4 else 0)
      (rawA g e w (srcTy w) l))
  | .cvx w =>
      let a := rawA g e w (srcTy w) l
      let x := signedOf 16 (numB g e w l % 2 ^ 16)
      some (w.ty, if w.ty = .xsf then
          (((xsfFrom (decodeF (srcTy w) a) x).n % 2 ^ 128).toNat, (xsfFrom (decodeF (srcTy w) a) x).flags)
        else floatRound w.ty (xsfVal a x) .rn false 0)
  | _ => none

/-- OR of the flags of lanes. -/
def orFlags (ls : List Nat) (f : Nat → BitVec 5) : BitVec 5 := ls.foldl (fun x l => x ||| f l) 0

/-- The predicate instructions by the truth each writes in a lane (R243, R251, R253). -/
def lanePredValue (g : Group) (e : Entry) (l : Nat) : Instr → Option Bool
  | .cmp w => if w.ty.isFloat then some (floatCond w.sub.toNat (decodeF w.ty (rawA g e w w.ty l)) (decodeF w.ty (rawB g e w w.ty l)))
      else
        let a := intOf w.ty (rawA g e w w.ty l)
        let b := intOf w.ty (rawB g e w w.ty l)
        match w.sub.toNat with
        | 0 => some (decide (a = b))
        | 1 => some (decide (a ≠ b))
        | 2 => some (decide (a < b))
        | 3 => some (decide (a ≤ b))
        | 4 => some (decide (b < a))
        | 5 => some (decide (b ≤ a))
        | _ => none
  | .vany w => some ((activeList g e w).any fun j => (g.getP (w.a.setWidth 3)).getLsbD j)
  | .vall w => some ((activeList g e w).all fun j => (g.getP (w.a.setWidth 3)).getLsbD j)
  | .elect w => some (decide ((activeList g e w).head? = some l))
  | .pset w => some (decide (rawA g e w .b32 l / 2 ^ (numB g e w l % 32) % 2 = 1))
  | .pand w => some ((g.getP (w.a.setWidth 3)).getLsbD l && (g.getP (w.b.setWidth 3)).getLsbD l)
  | .por w => some ((g.getP (w.a.setWidth 3)).getLsbD l || (g.getP (w.b.setWidth 3)).getLsbD l)
  | .pxor w => some ((g.getP (w.a.setWidth 3)).getLsbD l ^^ (g.getP (w.b.setWidth 3)).getLsbD l)
  | _ => none


/-! ### Lane memory, exact additions -/

/-- The byte at an index of the value of n bytes that a lane load of `size` bytes writes: the number read, with copies of
its sign above it where the type extends. -/
def loadedLane (n size : Nat) (sext : Bool) (v : Nat) : Nat :=
  if sext = true ∧ 2 ^ (8 * size - 1) ≤ v then v + 2 ^ (8 * n) - 2 ^ (8 * size) else v

/-- The state after what ends a load: an acquire wider than `.grp` discards the core's `.si` copies (R79; log 43), and after
any the group reads nothing older (R70). -/
def afterLoad (ld : Load) (g : Group) (s : State) : State :=
  if ld.acq then s.discardSi g else if ld.holds then s.forgetSeen g.ref else s

/-- A state but for what mixed-size debug mode, which is off, would record of an access. -/
def Steady (s : State) (p : Part) (t : State) : Prop := t = s ∨ t = s.setPart p

/-- Nothing makes a lane access wait: no absent line, owned line, load that has not returned or, in mixed-size debug
mode, which is off, any acknowledgement. -/
structure LanesMay (s : State) (g : Group) (e : Entry) (p : Part) (sp : Space) (w : LaneWord) : Prop where
  part : s.part? g.ref.part = some p
  mix  : prMixDbg p.prec = false
  loads : g.loads = []
  free : ∀ l ∈ activeList g e w, stalls s g sp (laneAddr g e sp w l) w.ty.bytes = false

/-- What kind of access a lane word makes. -/
def laneKind (w : LaneWord) (write strict atomic : Bool) : Kind :=
  { write := write, strict := strict, atomic := atomic, align := w.ty.bytes }

/-- The accesses of the lanes of act(f) resolve, to places of no ACC page. -/
structure Resolves (s : State) (g : Group) (e : Entry) (p : Part) (sp : Space) (w : LaneWord) (k : Kind)
    (as : List (Nat × Acc)) : Prop where
  lanes : as.map (·.1) = activeList g e w
  each  : ∀ a ∈ as, check s g p sp (laneAddr g e sp w a.1) w.ty.bytes a.1 k w.req false = .ok a.2
  plain : ∀ a ∈ as, a.2.acc = none

/-- The group after a lane word that wrote memory: what it left in lane slices, and its own records of stores. -/
def wroteGroup (g g1 : Group) (w : LaneWord) (e : Entry) (es : List Entry) : Group :=
  { g with slc := g1.slc, stores := g1.stores, acks := g1.acks, perf := g.perf.set 1 (g.perf[1] + 1),
           queue := queueAfter w.last e es }

/-- The value an atomic leaves (R264), or none where a compare finds another value; the operations by code. -/
def atomicLeaves (t : LTy) (op old b c : Nat) : Option Nat :=
  if op = 0 then some (if t.isFloat then (fAdd t .rn (decodeF t old) (decodeF t b)).1 else (old + b) % 2 ^ (8 * t.bytes))
  else if op = 1 then some (if t.isFloat then (fMinMax t false old b).1 else if intOf t old ≤ intOf t b then old else b)
  else if op = 2 then some (if t.isFloat then (fMinMax t true old b).1 else if intOf t old ≤ intOf t b then b else old)
  else if op = 3 then some (old &&& b)
  else if op = 4 then some (old ||| b)
  else if op = 5 then some (old ^^^ b)
  else if op = 6 then some b
  else if old = c then some b else none

/-- The access that an atomic or reduction leaves waiting for a lane: its operation on its operands, at the places of its
address, in one piece (R265); `returns` tells whether its old value comes back. -/
structure WaitsAtomic (s : State) (g : Group) (w : LaneWord) (returns : Bool) (a : Nat × Acc) (u : PStore) : Prop where
  places : u.ws.map (·.1) = a.2.locs
  kind   : u.scope = some ((Scope.ofCode w.scope).getD .dev) ∧ u.size = w.ty.bytes ∧ u.early = false ∧ u.cut = false ∧
    u.olds = [] ∧ u.past = []
  op     : u.rmw = some ⟨w.ty, w.rnd.toNat, g.lane a.1 w.b.toNat w.ty.bytes, g.lane a.1 w.c.toNat w.ty.bytes,
    if returns then some a.1 else none, s.tick⟩
/-- The accesses that wait are those of the lanes, in some order. -/
def AtomicsWait (s : State) (g : Group) (w : LaneWord) (returns : Bool) (as : List (Nat × Acc)) (us : List PStore) : Prop :=
  ∃ vs : List PStore, us.Perm vs ∧ vs.length = as.length ∧
    ∀ (i : Nat) a u, as[i]? = some a → vs[i]? = some u → WaitsAtomic s g w returns a u

/-- The descriptor of a region that an addition of a lane is converted by: its home's copy, or, while the region is locked,
freely the one that its table holds (R93, R420). -/
def descUsed (s : State) (p : Part) (lane r : Nat) : BitVec 256 :=
  if (s.home p.id r).locked = true ∧ s.bit (2 ^ 80 + lane) = true then tableDesc s p r else s.homeDesc p.id r

/-- What a core still owes a word of a region: the sum of its partial sums in flight and withheld, modulo 2¹²⁸. -/
def owedTo (s : State) (part core r word : Nat) : BitVec 128 :=
  ((s.partials.filter fun e => e.1 = part ∧ e.2.core = core ∧ e.2.region = r ∧ e.2.word = word).map (·.2.n)).sum +
  (((s.core core).abuf.filter fun l => l.region = r ∧ l.line = word / 128).map fun l => l.sums.get ⟨word / 16 % 8, by omega⟩).sum

/-! ### Matrix array, copies, structures -/

/-- The instruction's operation is accepted for the group's open batch when fewer than 64 are accepted and not complete
(R286, R289, R291, R292); a product ends a ramp-down or a rest of the array. s1 is the state it is accepted in,
mw the window registers after it. -/
def Accepts (i : Instr) (s s1 : State) (b : Bool) (g : Group) (f : Frag) (n : Nat) (body : MBody)
    (mw : Vector (BitVec 128) 16) : Prop :=
  let c := s.core g.core
  (c.mops.length < 64 → ∃ g' r, exec i s = .next ((s1.setCore { c with mops := c.mops ++ [⟨g.ref, body, []⟩], ramp := r, fed := if body.isProduct then s.clock else c.fed }).setGroup g') ∧
    r = (if body.isProduct = true ∧ (c.ramp = .down ∨ c.ramp = .rampingDown) then .rampingUp else c.ramp) ∧
    g' = { g with ctx := g'.ctx, batches := joinBatch g.batches } ∧
    g'.ctx.mw = mw ∧ Ran b (f.next n) [] [] [] { g.ctx with mw := mw } g'.ctx) ∧
  (64 ≤ c.mops.length → OnlyWaits i s b g f (parkedFrom f.wait))

/-- The checks of R147 on a shape record, with the code of its rotation (R49). -/
structure ShapeValid (r : BitVec 512) : Prop where
  rank   : 1 ≤ shRank r ∧ shRank r ≤ 5
  codes  : shEsize r ≤ 4 ∧ shFill r ≠ 3 ∧ shRot r < 5
  extent : ∀ j < shRank r, shExt r j ≠ 0
  unused : ∀ j < 5, shRank r ≤ j → shExt r j = 1 ∧ shBox r j = 1 ∧ (j ≠ 0 → shStride r j = 0)
  stride : ∀ j, 1 ≤ j → j < 5 → shStride r j % 16 = 0
  base   : shBase r % 16 = 0 ∧ shBase r < (if shSpace r = .glb then 2 ^ 52 else 2 ^ 32)
  tile   : shRow r % 16 = 0 ∧ shRow r ≤ 4096 ∧ shTile r ≤ 262144 ∧ (shMask r = true → shRows r ≤ 4096)
  zero   : fld r 95 78 = 0 ∧ fld r 511 488 = 0

/-- A precise load of n bytes of plain memory finds them at these places, and reads what the memory holds, at once: no store
waits, the core keeps no `.si` copy, and no bank is under refresh or calibration (R64, R220, R319, R461). -/
structure ReadsAt (s : State) (g : Group) (p : Part) (va n al : Nat) (x : Acc) : Prop where
  part  : s.part? g.ref.part = some p
  mix   : prMixDbg p.prec = false
  free  : owned s g va n = false
  loads : g.loads = []
  still : Still s
  own   : ∀ e ∈ (s.core g.core).l1, e.si = none
  ready : g.fetches = [] ∧ ∀ q ∈ s.pchs, q.all_ = none ∧ q.banks = [] ∧ q.calib = false
  found : check s g p .glb va n 0 { strict := true, align := al } 0 false = .ok x
  plain : x.acc = none
  good  : ∀ l ∈ x.locs, s.bad l = false

/-- An engine operation has been added: its handle is the next, it belongs to the group, and its gong has not
been credited. -/
def OpAdded (s t : State) (g : Group) (gong : Nat) (body : OpBody) : Prop :=
  t.ops = s.ops ++ [{ id := s.nextId, by_ := g.ref, core := g.core, gong := gong, fault := false, body := body }] ∧
  t.nextId = s.nextId + 1

/-- Presence counts after lines of a list have been counted up. -/
def Raised (t t' : Team) (ls : List Nat) : Prop :=
  t' = { t with pres := t'.pres, cpyts := t'.cpyts } ∧
  ∀ line, t'.count line = t.count line + if line ∈ ls then 1 else 0

/-- What becomes of a stream's turn in a state: one that performed nothing is given back. -/
def turned (p : State) (c : Cursor) : Out → Out
  | .next u => .next (if heldUp p u c then u.unscheduled p c else u)
  | o => o

/-- A step of an engine operation that is active, and reads what the memories hold: nothing was read before a write that
raced with it, and no store is under way of whose words it may read the old bytes (R85). -/
structure OpActs (s : State) (o : Op) (p : Part) : Prop where
  op     : s.op? o.id = some o
  part   : s.part? o.by_.part = some p
  active : o.active s = true
  whole  : s.heldBack o.by_.part [o.by_] = []
  got    : o.got = []

/-- The trap that an instruction takes after a read: it leaves the caches as the read does. -/
def TrapsAfter (i : Instr) (s : State) (b : Bool) (g : Group) (f : Frag) (t : Trap) : Prop :=
  ∃ s1, CachesOnly s s1 ∧ (¬Provisional s g f → exec i s = .next (s1.halt g (.frag b) t 0 0 0 0)) ∧
    (Provisional s g f → exec i s =
      .next (s1.setGroup { g with ctx := g.ctx.setFrag b (some (holding s f (parkedFrom f.wait))) }))

/-- The checks of R321 that a copy of a tile at given coordinates passes, but for those of its form: the rank and the
registers it takes, the gong, and the alignments. -/
structure CopyMay (g : Group) (t : Team) (x : CpyArgs) (c : List Int) : Prop where
  rank  : 1 ≤ shRank (g.shapes[x.h.toNat]'x.h.isLt) ∧ x.sc.toNat + shRank (g.shapes[x.h.toNat]'x.h.isLt) ≤ 64
  gong  : (t.gong x.g.toNat).mode = .unset ∨ (t.gong x.g.toNat).mode = .byte
  first : firstElement (g.shapes[x.h.toNat]'x.h.isLt) c % 16 = 0
  dense : x.sp = .glb ∨ denseAt g.ctx x % 16 = 0

/-- The same for a copy of rows that an index list names. -/
structure ListMay (g : Group) (t : Team) (x : CpyArgs) : Prop where
  rank  : shRank (g.shapes[x.h.toNat]'x.h.isLt) = 1
  list  : x.sc ≠ 0 ∧ x.sc ≠ 63 ∧ (g.ctx.getS x.sc).toNat % 4 = 0
  rows  : 1 ≤ (g.ctx.getS (x.sc + 1)).toNat ∧ (g.ctx.getS (x.sc + 1)).toNat ≤ 4096 ∧
    (g.ctx.getS (x.sc + 1)).toNat * shRow (g.shapes[x.h.toNat]'x.h.isLt) ≤ 262144
  gong  : (t.gong x.g.toNat).mode = .unset ∨ (t.gong x.g.toNat).mode = .byte
  first : shBase (g.shapes[x.h.toNat]'x.h.isLt) % 16 = 0
  dense : x.sp = .glb ∨ denseAt g.ctx x % 16 = 0

/-- No scratchpad line among some is counted three times, or has a store of the group that is not performed (R52). -/
def LinesFree (s : State) (g : Group) (ls : List Nat) : Prop :=
  s.linesFull g.ref.tref ls = false ∧ g.storesIn ls = false

/-- The bytes of a tile's rows that lie in a destination line of a copy, with what the copy writes there: the byte at the
other end, or a byte of the fill pattern outside the bounds (R148, R149). -/
def tileLineBytes (s : State) (g : Group) (p : Part) (j : CopyJob) (line : Nat) : List (Loc × Byte) :=
  (tileRows j.shape j.at_ 0).flatMap fun r => (List.range (shRow j.shape)).filterMap fun k =>
    if (lineBase s g j.dest + j.destAt r + k) / 128 ≠ line then none
    else
      let dst := chipLoc s g p j.dest 0 (shRot j.shape) (j.destAt r + k)
      if r.lo ≤ k ∧ k < r.hi then some (dst, s.peek (chipLoc s g p j.srcSpace 0 (shRot j.shape) (j.srcAt r + k)))
      else if j.store = true ∨ shFill j.shape = 0 then none
      else some (dst, fillByte j.shape k)

/-- A copy of a tile between two on-chip spaces whose rows lie in them, with no row-validity mask; nothing it reads is
absent or bad, and no store of a group has been performed in part. -/
structure ChipTile (s : State) (g : Group) (p : Part) (o : Op) (j : CopyJob) : Prop where
  kind : ∃ st, j.kind = .tile st
  by_  : s.group? j.by_ = some g
  ends : j.dsp ≠ .glb ∧ shSpace j.shape ≠ .glb ∧ j.dsp ≠ .slc
  mask : shMask j.shape = false
  fits : ∀ r ∈ tileRows j.shape j.at_ 0, j.destAt r + shRow j.shape ≤ spaceLimit s g p j.dest ∧
    j.srcAt r + shRow j.shape ≤ spaceLimit s g p j.srcSpace
  here : ∀ line, foreignCount s o line = 0
  good : ∀ l, s.bad l = false
  cut  : ∀ h ∈ s.groups, ∀ w ∈ h.stores, w.cut = false
  gong : ∀ t, s.team? o.by_.tref = some t → (t.gong o.gong).mode ≠ .count

/-- A read of the ray engine finds n bytes of plain memory with this value. -/
def EngineReads (s : State) (p : Part) (va n v : Nat) : Prop :=
  ∃ ls, engine s p va n (va / 65536) false false = .ok ls none ∧ valueOf (ls.map s.peek) = v

/-- What an engine instruction finds at its gong traps (R143, R144), under a code; no trap where the gong is UNSET or
BYTE. -/
def gongTrap (q : Gong) : Option Trap :=
  match q.mode with | .count => some .gongMisuse | .faulted => some .gongFault | _ => none

/-- The address of a structure command: a register plus 64 times the signed offset. -/
def structAddr (c : Ctx) (a : AReg) (off : BitVec 26) : Nat := (((c.getA a).toNat + 64 * off.toInt) % 2 ^ 64).toNat

/-- The checks of a structure command on its gong, an operand and its addresses, in that order (R302). -/
def StructTraps (i : Instr) (s : State) (b : Bool) (g : Group) (f : Frag) (n : GReg) (q : Gong) (bad : Prop) (al : Nat)
    (as : List Nat) : Prop :=
  (∀ t, gongTrap q = some t → TrapsWith i s b g f t 0 0 n.toNat) ∧
  (gongTrap q = none → bad → Traps i s b g f .illegalOperand) ∧
  (gongTrap q = none → ¬bad → ∀ pre a post, as = pre ++ a :: post → (∀ x ∈ pre, x % al = 0) → a % al ≠ 0 →
    TrapsWith i s b g f .misalign a 0 0) ∧
  (gongTrap q = none → ¬bad → (∀ a ∈ as, a % al = 0) → ∀ pre a post, as = pre ++ a :: post → (∀ x ∈ pre, x < 2 ^ 52) →
    2 ^ 52 ≤ a → TrapsWith i s b g f .protection a 0 0)

/-- A structure command is accepted as an operation, and its group moves on. -/
def StructRuns (i : Instr) (s : State) (b : Bool) (g : Group) (f : Frag) (n : GReg) (body : OpBody) (g0 : Group) : Prop :=
  ∃ g', exec i s = .next ((s.accept g n.toNat body).setGroup g') ∧ MovedOn b f 2 g0 g'

/-- The lanes of a ray operation with what they captured: their eight words and their slots (R305). -/
def raysOf (s : State) (g : Group) (e : Entry) (w : LaneWord) : List RayLane :=
  (activeList g e w).map fun l =>
    { lane := l, v := Vector.ofFn fun i => BitVec.ofNat 32 (g.lane l (w.a.toNat + i.val) 4),
      slot := spdBase s g + g.lane l w.b.toNat 4, t := Trav.start, fin := false }

/-! ### Commands, doorbells, memory upkeep -/

/-- The instruction that a command of a code is (R413). -/
def IsCommand (op : Nat) (c : Cmd) (i : Instr) : Prop :=
  (op = 1 ∧ i = .partCreate c) ∨ (op = 2 ∧ i = .partDestroy c) ∨ (op = 3 ∧ i = .preempt c) ∨ (op = 4 ∧ i = .restore c) ∨
  (op = 5 ∧ i = .kill c) ∨ (op = 6 ∧ i = .replay c) ∨ (op = 7 ∧ i = .resume c) ∨ (op = 8 ∧ i = .regionLock c) ∨
  (op = 9 ∧ i = .regionUnlock c) ∨ (op = 10 ∧ i = .slotFlush c)

/-- A partition that takes a command which is clean. -/
structure Takes (s : State) (c : Cmd) (p : Part) : Prop where
  clean : c.clean = true
  index : c.part < 8
  part  : s.part? c.part = some p
  idle  : p.cmd = none

/-- The register sets of a partition (R440): shootdown, DEAD declaration, network set-up, REMOTE invalidation. -/
def doorOf (r : PartRegs) (n : Nat) : Door := match n with | 0 => r.inv | 1 => r.dead | 2 => r.net | _ => r.rinv
/-- Their GO, and the step that ends their operation. -/
def IsGo (n part : Nat) (v : BitVec 32) (i : Instr) : Prop :=
  (n = 0 ∧ i = .invgo part v) ∨ (n = 1 ∧ i = .deadgo part v) ∨ (n = 2 ∧ i = .netgo part v) ∨ (n = 3 ∧ i = .rinvgo part v)
def IsEnd (n part : Nat) (i : Instr) : Prop :=
  (n = 0 ∧ i = .shootdownComplete part) ∨ (n = 1 ∧ i = .deadDeclarationDone part) ∨ (n = 2 ∧ i = .netSetupDone part) ∨
  (n = 3 ∧ i = .remoteInvalidationDone part)

/-- The arguments that GO latches. -/
def argsOf (r : PartRegs) (n : Nat) : Nat × Nat :=
  match n with
  | 0 => (r.invVa.toNat, r.invLen.toNat) | 1 => (r.deadPa.toNat, r.deadN.toNat) | 2 => (r.netTab.toNat, 0)
  | _ => (r.rinvPeer.toNat % 2 ^ 14, 0)

/-- A register set's operation has ended with a status: DONE holds its number and the status, and BUSY is over. -/
def Ended (d d' : Door) (status : Nat) : Prop :=
  ∃ q, d.busy = some q ∧ d' = { d with busy := none, done := BitVec.ofNat 32 (q.toNat + status * 2 ^ 24) }

/-- A counter of telemetry saturates at its greatest value (R465). -/
def counted (c c' : BitVec 64) (n : Nat) : Prop := c'.toNat = min (c.toNat + n) (2 ^ 64 - 1)
/-- The next fault record of a partition: 64 bytes at place PROD of its queue under the next SEQ, then PROD, then
the interrupt of its vector; no other byte of physical memory changes (R429, R440). -/
structure RecordPosted (s u : State) (p : Part) (a : About) (r : BitVec 512) : Prop where
  part  : ∃ q, u.part? p.id = some q ∧
    q = { p with nextSeq := p.nextSeq + 1, recs := p.recs ++ [⟨p.nextSeq, a, r ||| place 512 224 (p.nextSeq % 2 ^ 32)⟩],
                 fetch := q.fetch, homes := q.homes } ∧
    q.homes.map (fun h => { h with quiet := [], jobs := [] }) = p.homes.map (fun h => { h with quiet := [], jobs := [] }) ∧
    (fld r 7 0 ≠ 5 → fld r 7 0 ≠ 6 → q.fetch = p.fetch)
  out   : u.outbox = s.outbox ++ [.msix (1 + p.id)]
  bytes : let base := prFqBase p.prec
    let prod := s.rdMem base 4 0
    let at_ := base + 64 + 64 * (prod % prFqCap p.prec)
    let v := (r ||| place 512 224 (p.nextSeq % 2 ^ 32)).toNat
    ∀ x, Memory.rd u.mem x =
      if base ≤ x ∧ x < base + 4 then BitVec.ofNat 8 ((prod + 1) / 256 ^ (x - base))
      else if at_ ≤ x ∧ x < at_ + 64 then BitVec.ofNat 8 (v / 256 ^ (x - at_))
      else Memory.rd s.mem x

/-- The posting waits: where the queue has no room for it and those before it OVF is set, and PROD stays (R429). -/
structure RecordHeld (s u : State) (p : Part) (a : About) (r : BitVec 512) : Prop where
  part  : ∃ q, u.part? p.id = some q ∧ q = { p with posts := p.posts ++ [⟨some a, r, p.state == .suspending⟩], fetch := q.fetch, homes := q.homes }
  bytes : ∀ x, Memory.rd u.mem x =
    if x = prFqBase p.prec + 8 ∧ s.faultRoomFor p (p.posts.length + 1) = false then 1 else Memory.rd s.mem x

/-- Fields of a group trap's record (R430): code, USER, launch, team, group, core, lane and address. -/
structure TrapFields (g : Group) (t : Trap) (va lane user : Nat) (r : BitVec 512) : Prop where
  code : fld r 7 0 = t.code ∧ fld r 11 8 = 0
  user : fld r 31 16 = user
  who  : fld r 63 32 = g.ref.lid ∧ fld r 95 64 = g.ref.team ∧ fld r 101 96 = g.ref.grp ∧ fld r 110 102 = g.core
  lane : fld r 143 138 = lane
  addr : fld r 223 160 = va

/-- Scalar words as the specification writes them out, and the instructions they stand for (R185 to R190). -/
def knownScalarWords : List (List Word × Instr) :=
  [([0x01000000], .nop), ([0x07186001], .saddImm 6 6 1), ([0x0B1C7007], .sshlImm 7 7 7), ([0x0E100003], .sli false 4 3),
   ([0x100411C0], .aadd 1 1 7 0), ([0x13081003], .amovLo 2 1), ([0x20000004], .br 4), ([0x24001C0C], .callo 7 12),
   ([0x27000000, 0x01400064], .loopi 100 20), ([0x29040000, 0x0000F028], .split 1 40 60), ([0x2C00000F], .lrun 15),
   ([0x2E000000], .exit), ([0x2F000001], .trap 1), ([0x430C0000, 0x00080001], .garm 3 0 0 1 4096), ([0x4614000D], .tkt 5 0 3 1),
   ([0x501C0002], .sget 7 2), ([0x6314280A, 0x00000000], .ldGlb ⟨5, 2, some .dev, .page, .acq, false, .b32, 0⟩),
   ([0x67082812, 0x00000000], .stGlb ⟨2, 2, some .dev, .page, .rel, false, .b32, 0⟩),
   ([0x68102243, 0x00000010], .ldt ⟨4, 2, false, 9, false, .b64, 16⟩), ([0x6900001C], .fenceAr .dev),
   ([0x6A003001, 0x00001000], .prf true 3 4096), ([0x6B1CA080], .pres 7 10 128),
   ([0x70004140, 0x00480640], .mwin 0 4 5 .spd 0 .q4 true false 576), ([0x72000040], .mma 0 0 1), ([0x74200000], .mfence 8),
   ([0x80044000, 0x00000082], .bvset 1 4 0 2 2), ([0x890CA203, 0x00000001], .cpy false ⟨.spd, 3, 1, 8, 10, 0⟩),
   ([0x91086243, 0x00000080], .rfwd 2 6 9 3 128), ([0x95140000, 0x00000003], .xstat 5 0 3)]

/-- Lane words as the specification writes them out, lowest bits first (R191 to R198). -/
def knownLaneWords : List (List Word × Instr) :=
  [([0x00000000, 0x080DC020, 0x05882004], .fma ⟨2, false, 8, 1, 2, 3, .f32, 0, 0, true, 0, 0⟩),
   ([0x00000000, 0x18004040, 0x075C1800], .xor ⟨7, false, 6, 0, 6, 0, .b32, 0, 1, false, 0, 0⟩),
   ([0x00000000, 0x18004000, 0x281C0404], .pset ⟨7, false, 1, 1, 6, 0, .b32, 0, 0, false, 0, 0⟩),
   ([0x00000000, 0x00004000, 0x201C0C04], .ballot ⟨7, false, 3, 1, 0, 0, .b32, 0, 0, false, 0, 0⟩),
   ([0x0000FFFF, 0x001040A0, 0x211C0404], .bfly ⟨7, false, 1, 1, 0, 4, .b32, 0, 2, true, 0, 0xFFFF⟩),
   ([0x00000000, 0x1800C024, 0x35DC1410], .atom .glb ⟨7, false, 5, 4, 6, 0, .i32, 0, 0, true, 4, 0⟩),
   ([0x24000020, 0x00028020, 0x341C2008], .laneLdt ⟨7, false, 8, 2, 0, 0, .b128, 0, 0, true, 0, 0x24000020⟩),
   ([0x000000FF, 0x20000023, 0x381C0000], .trc ⟨7, false, 0, 0, 8, 0, .b8, 0, 0, true, 3, 0xFF⟩),
   ([0x000004FF, 0x24000023, 0x385C0010], .trq ⟨7, false, 0, 4, 9, 0, .b8, 0, 0, true, 3, 0x4FF⟩)]

end Sys2Proof.Claims

open Sys2Proof Sys2Proof.Machine Sys2Proof.Safety Sys2Proof.Claims

/-- R206, R207, R209, R210: the integer operations write the values of their tables to sd and change nothing else. -/
def Obligations.ScalarIntegerResults : Prop :=
  (∀ (s : State) (b : Bool) (g : Group) (f : Frag) (i : Instr) (d : SReg) (v : Word),
    Issues s b g f → aluResult g.ctx i = some (d, v) → OnlyCtx i s g (Ran b (f.next 1) [(d, v)] [] [] g.ctx)) ∧
  (∀ (s : State) (b : Bool) (g : Group) (f : Frag) (i : Instr) (d : SReg) (v : Word),
    Issues s b g f → i.wf = true → immResult g.ctx i = some (d, v) →
      OnlyCtx i s g (Ran b (f.next 1) [(d, v)] [] [] g.ctx))

/-- R208, with R187: `scmp` writes the truth of its condition, `ssel` one of its two sources. -/
def Obligations.CompareAndSelectResults : Prop :=
  ∀ (s : State) (b : Bool) (g : Group) (f : Frag), Issues s b g f →
    (∀ (k : SCond) (d : CReg) (x y : SReg),
      (condHolds k (g.ctx.getS x) (g.ctx.getS y) →
        OnlyCtx (.scmp k d x y) s g (Ran b (f.next 1) [] [] [(d, true)] g.ctx)) ∧
      (¬condHolds k (g.ctx.getS x) (g.ctx.getS y) →
        OnlyCtx (.scmp k d x y) s g (Ran b (f.next 1) [] [] [(d, false)] g.ctx))) ∧
    (∀ (neg : Bool) (c : CReg) (d x y : SReg),
      OnlyCtx (.ssel neg c d x y) s g
        (Ran b (f.next 1) [(d, if (g.ctx.getC c ^^ neg) = true then g.ctx.getS x else g.ctx.getS y)] [] [] g.ctx))

/-- R211: the address instructions compute modulo 2⁶⁴ and move between the classes. -/
def Obligations.AddressResults : Prop :=
  ∀ (s : State) (b : Bool) (g : Group) (f : Frag) (i : Instr) (n : Nat) (ws : List (SReg × Word))
    (wa : List (AReg × Addr)), Issues s b g f → addrResult g.ctx i = some (n, ws, wa) →
      OnlyCtx i s g (Ran b (f.next n) ws wa [] g.ctx)

/-- R186: what major 0x02 decodes to, function by function. -/
def Obligations.AluFunctionsDecode : Prop :=
  ∀ (w e : Word), fMajor w = 0x02 →
    (fFn w = 0x00 → decodeScalar w e = .ok (.sadd (fSd w) (fSa w) (fSb w))) ∧
    (fFn w = 0x01 → decodeScalar w e = .ok (.ssub (fSd w) (fSa w) (fSb w))) ∧
    (fFn w = 0x02 → decodeScalar w e = .ok (.smul (fSd w) (fSa w) (fSb w))) ∧
    (fFn w = 0x03 → decodeScalar w e = .ok (.smulhI32 (fSd w) (fSa w) (fSb w))) ∧
    (fFn w = 0x04 → decodeScalar w e = .ok (.smulhN32 (fSd w) (fSa w) (fSb w))) ∧
    (fFn w = 0x05 → decodeScalar w e = .ok (.sand (fSd w) (fSa w) (fSb w))) ∧
    (fFn w = 0x06 → decodeScalar w e = .ok (.sor (fSd w) (fSa w) (fSb w))) ∧
    (fFn w = 0x07 → decodeScalar w e = .ok (.sxor (fSd w) (fSa w) (fSb w))) ∧
    (fFn w = 0x08 → decodeScalar w e = .ok (.sshl (fSd w) (fSa w) (fSb w))) ∧
    (fFn w = 0x09 → decodeScalar w e = .ok (.sshr (fSd w) (fSa w) (fSb w))) ∧
    (fFn w = 0x0A → decodeScalar w e = .ok (.ssra (fSd w) (fSa w) (fSb w))) ∧
    (fFn w = 0x0B → decodeScalar w e = .ok (.sminI32 (fSd w) (fSa w) (fSb w))) ∧
    (fFn w = 0x0C → decodeScalar w e = .ok (.sminN32 (fSd w) (fSa w) (fSb w))) ∧
    (fFn w = 0x0D → decodeScalar w e = .ok (.smaxI32 (fSd w) (fSa w) (fSb w))) ∧
    (fFn w = 0x0E → decodeScalar w e = .ok (.smaxN32 (fSd w) (fSa w) (fSb w))) ∧
    (fFn w = 0x0F ∧ fSb w = 0 → decodeScalar w e = .ok (.spopc (fSd w) (fSa w))) ∧
    (fFn w = 0x10 ∧ fSb w = 0 → decodeScalar w e = .ok (.sclz (fSd w) (fSa w))) ∧
    (fFn w = 0x11 ∧ fSb w = 0 → decodeScalar w e = .ok (.smov (fSd w) (fSa w))) ∧
    (fFn w ∈ [0x0F#6, 0x10#6, 0x11#6] → fSb w ≠ 0 → decodeScalar w e = .error .illegalOpcode) ∧
    (0x12 ≤ fFn w → decodeScalar w e = .error .illegalOpcode)

/-- R204, R212, R213: branches and calls transfer to a word of the current overlay; a target outside it traps
`ILLEGAL_OPCODE` with no effect, taken or not. -/
def Obligations.BranchesTransfer : Prop :=
  (∀ (s : State) (b : Bool) (g : Group) (f : Frag) (off : BitVec 20) (t : Nat), Issues s b g f →
    (f.pcw : Int) + off.toInt = t → t < s.swords g f →
    OnlyCtx (.br off) s g (Ran b (f.jump f.slot t) [] [] [] g.ctx) ∧
    (∀ (neg : Bool) (c : CReg),
      ((g.ctx.getC c ^^ neg) = true → OnlyCtx (.brc neg c off) s g (Ran b (f.jump f.slot t) [] [] [] g.ctx)) ∧
      ((g.ctx.getC c ^^ neg) = false → OnlyCtx (.brc neg c off) s g (Ran b (f.next 1) [] [] [] g.ctx))) ∧
    (f.pcw + 1 < 1024 → OnlyCtx (.call off) s g
      (Ran b (f.jump f.slot t) [(63, linkWord false (f.pcw + 1) (s.curOvl g f))] [] [] g.ctx))) ∧
  (∀ (s : State) (b : Bool) (g : Group) (f : Frag), Issues s b g f →
    (∀ (off : BitVec 20), (f.pcw : Int) + off.toInt < 0 ∨ (s.swords g f : Int) ≤ f.pcw + off.toInt →
      Traps (.br off) s b g f .illegalOpcode ∧ Traps (.call off) s b g f .illegalOpcode ∧
      ∀ neg c, Traps (.brc neg c off) s b g f .illegalOpcode) ∧
    (∀ (p : PReg) (t j : BitVec 10), s.swords g f ≤ t.toNat ∨ s.swords g f ≤ j.toNat →
      Traps (.split p t j) s b g f .illegalOpcode) ∧
    (∀ (a : SReg) (n : BitVec 20) (e : BitVec 10), s.swords g f ≤ e.toNat →
      Traps (.loop a e) s b g f .illegalOpcode ∧ Traps (.loopi n e) s b g f .illegalOpcode) ∧
    (∀ (e : BitVec 10), s.lwords g f ≤ e.toNat → Traps (.lrun e) s b g f .illegalOpcode))

/-- R213, R168: the returns, through the link word in `s63`. -/
def Obligations.ReturnsFollowTheLink : Prop :=
  ∀ (s : State) (b : Bool) (g : Group) (f : Frag) (t : Bool) (w o : Nat), Issues s b g f → w < 1024 → o < 256 →
    g.ctx.getS 63 = linkWord t w o →
    (t = false → o = s.curOvl g f → w < s.swords g f →
      OnlyCtx .ret s g (Ran b (f.jump f.slot w) [] [] [] g.ctx)) ∧
    (t = true ∨ o ≠ s.curOvl g f ∨ s.swords g f ≤ w → Traps .ret s b g f .illegalOperand) ∧
    (t = true → f.tokens.getLsbD f.slot = false → Traps .reto s b g f .illegalOperand) ∧
    (∀ tok, (t = false → tok = f.tokens) →
      (t = true → f.tokens.getLsbD f.slot = true ∧ tok = f.tokens &&& ~~~(1#32 <<< f.slot)) →
      (o ≠ lrRoot (s.lrec g.ref) →
        (∀ q < 32, tok.getLsbD q = true → ∀ j, s.image g q = some j → j.key.ovl ≠ o) →
        Traps .reto s b g f .illegalOperand) ∧
      (∀ r img,
        (if o = lrRoot (s.lrec g.ref) then r = s.rootSlot g
          else r < 32 ∧ tok.getLsbD r = true ∧ img.key.ovl = o ∧
            ∀ q < r, tok.getLsbD q = true → ∀ j, s.image g q = some j → j.key.ovl ≠ o) →
        s.image g r = some img →
        (img.scalar.length ≤ w → Traps .reto s b g f .illegalOperand) ∧
        (w < img.scalar.length →
          ∃ c', exec .reto s = .next ((s.setGroup { g with ctx := c' }).drainCore g.core) ∧
            Ran b ({ f with tokens := tok }.jump r w) [] [] [] g.ctx c')))

/-- R166, R167, R213: `callo` to the root, to a resident overlay, and on a miss; and a `call` at word 1023. That the link
of a call there wraps to word 0 is the model's choice: log 106. -/
def Obligations.OverlayCalls : Prop :=
  (∀ (s : State) (b : Bool) (g : Group) (f : Frag) (off : BitVec 20) (t : Nat), Issues s b g f →
    (f.pcw : Int) + off.toInt = t → t < s.swords g f → f.pcw = 1023 →
    OnlyCtx (.call off) s g (Ran b (f.jump f.slot t) [(63, linkWord false 0 (s.curOvl g f))] [] [] g.ctx)) ∧
  (∀ (s : State) (b : Bool) (g : Group) (f : Frag) (id : BitVec 8) (entry : BitVec 10) (l : Launch), Issues s b g f →
    s.launch? g.ref.part g.ref.lid = some l → id.toNat < l.novl →
    (id.toNat = lrRoot l.lrec →
      OnlyCtx (.callo id entry) s g
        (Ran b (f.jump (s.rootSlot g) entry.toNat) [(63, linkWord false (f.pcw + 1) (s.curOvl g f))] [] [] g.ctx)) ∧
    (id.toNat ≠ lrRoot l.lrec → ∀ a img, s.readySlot g.core (overlayKey s g id.toNat) = some a →
      s.imageOf g.core a = some img →
      (img.scalar.length ≤ entry.toNat → Traps (.callo id entry) s b g f .illegalOperand) ∧
      (entry.toNat < img.scalar.length →
        OnlyCtx (.callo id entry) s g
          (Ran b ({ f with tokens := f.tokens ||| (1#32 <<< (a - slotBase s g)) }.jump (a - slotBase s g) entry.toNat)
            [(63, linkWord (!f.tokens.getLsbD (a - slotBase s g)) (f.pcw + 1) (s.curOvl g f))] [] [] g.ctx))) ∧
    (id.toNat ≠ lrRoot l.lrec → s.readySlot g.core (overlayKey s g id.toNat) = none →
      OnlyCtx (.callo id entry) s g fun c' =>
        Wrote g.ctx c' [(1, id.setWidth 32), (2, entry.setWidth 32), (63, linkWord false f.pcw (s.curOvl g f))] [] [] ∧
        c'.frag b = some (f.jump (s.rootSlot g) 16) ∧ c'.frag (!b) = g.ctx.frag (!b) ∧ c'.stack = g.ctx.stack ∧
        c'.top = g.ctx.top ∧ c'.clockHi = g.ctx.clockHi ∧ c'.ovLast = id ∧
        c'.ovCount.toNat = min (g.ctx.ovCount.toNat + 1) 0xFFFF))

/-- R28, R215: loops open a level, or skip the body on a count of 0; a fifth level traps; `lbrk` leaves the innermost
level; and the check of the levels after an instruction of n words that does not transfer control.
Readings of the model's own that it rests on: log 47. -/
def Obligations.Loops : Prop :=
  (∀ (s : State) (b : Bool) (g : Group) (f : Frag), Issues s b g f →
    (∀ (a : SReg) (e : BitVec 10), e.toNat < s.swords g f → f.loops.length < 4 →
      (g.ctx.getS a = 0 → OnlyCtx (.loop a e) s g (Ran b (f.jump f.slot (e.toNat + 1)) [] [] [] g.ctx)) ∧
      (g.ctx.getS a ≠ 0 → f.pcw + 1 ≤ e.toNat →
        OnlyCtx (.loop a e) s g
          (Ran b { f with loops := ⟨g.ctx.getS a, f.pcw + 1, e.toNat, f.slot⟩ :: f.loops, pcw := f.pcw + 1, wait := .ready }
            [] [] [] g.ctx))) ∧
    (∀ (n : BitVec 20) (e : BitVec 10), e.toNat < s.swords g f → f.loops.length < 4 →
      (n = 0 → OnlyCtx (.loopi n e) s g (Ran b (f.jump f.slot (e.toNat + 1)) [] [] [] g.ctx)) ∧
      (n ≠ 0 → f.pcw + 2 ≤ e.toNat →
        OnlyCtx (.loopi n e) s g
          (Ran b { f with loops := ⟨n.setWidth 32, f.pcw + 2, e.toNat, f.slot⟩ :: f.loops, pcw := f.pcw + 2, wait := .ready }
            [] [] [] g.ctx))) ∧
    (∀ (a : SReg) (n : BitVec 20) (e : BitVec 10), e.toNat < s.swords g f → 4 ≤ f.loops.length →
      Traps (.loop a e) s b g f .illegalOperand ∧ Traps (.loopi n e) s b g f .illegalOperand) ∧
    (∀ l ls, f.loops = l :: ls →
      OnlyCtx .lbrk s g (Ran b ({ f with loops := ls }.jump l.slot (l.fin + 1)) [] [] [] g.ctx)) ∧
    (f.loops = [] → Traps .lbrk s b g f .illegalOperand)) ∧
  (∀ (f : Frag) (n : Nat),
    ((∀ l ls, f.loops = l :: ls → ¬atEnd f l) → f.next n = { f with pcw := f.pcw + n, wait := .ready }) ∧
    (∀ l ls, f.loops = l :: ls → atEnd f l →
      (1 < l.count.toNat →
        f.next n = { f with loops := { l with count := BitVec.ofNat 32 (l.count.toNat - 1) } :: ls, pcw := l.start, wait := .ready }) ∧
      (l.count.toNat ≤ 1 → f.next n = { f with loops := ls }.next n)))

/-- R22: the four ways a `split` goes, and its traps.
Readings of the model's own that it rests on: log 12. -/
def Obligations.SplitDividesTheLanes : Prop :=
  ∀ (s : State) (b : Bool) (g : Group) (f : Frag) (p : PReg) (t j : BitVec 10), Issues s b g f →
    t.toNat < s.swords g f → j.toNat < s.swords g f →
    (f.depth = 64 → Traps (.split p t j) s b g f .spillOverflow) ∧
    (f.depth < 64 → elseLanes g f p = 0 →
      OnlyCtx (.split p t j) s g (Ran b ((soloSplit f j).jump f.slot t.toNat) [] [] [] g.ctx)) ∧
    (f.depth < 64 → elseLanes g f p ≠ 0 → thenLanes g f p = 0 →
      OnlyCtx (.split p t j) s g (Ran b ((soloSplit f j).next 2) [] [] [] g.ctx)) ∧
    (f.depth < 64 → elseLanes g f p ≠ 0 → thenLanes g f p ≠ 0 →
      (g.ctx.frag (!b) = none →
        OnlyCtx (.split p t j) s g
          (Split2 b (some ((halfSplit f j (elseLanes g f p)).next 2))
            (some ((halfSplit f j (thenLanes g f p)).jump f.slot t.toNat)) g.ctx.stack 0 g.ctx)) ∧
      (∀ o, g.ctx.frag (!b) = some o →
        (lrDstack (s.lrec g.ref) ≤ g.ctx.stack.length → Traps (.split p t j) s b g f .spillOverflow) ∧
        (g.ctx.stack.length < lrDstack (s.lrec g.ref) → o.canSpill = false ∨ s.askedQuiet g (!b) = true →
          OnlyWaits (.split p t j) s b g f (parkedFrom f.wait)) ∧
        (g.ctx.stack.length < lrDstack (s.lrec g.ref) → o.canSpill = true → s.askedQuiet g (!b) = false →
          OnlyCtx (.split p t j) s g
            (Split2 b (some ((halfSplit f j (elseLanes g f p)).next 2))
              (some ((halfSplit f j (thenLanes g f p)).jump f.slot t.toNat)) (o :: g.ctx.stack) 1 g.ctx))))

/-- R23 to R26: `join` and `yield`.
Readings of the model's own that it rests on: logs 12 and 89. -/
def Obligations.JoinAndYield : Prop :=
  ∀ (s : State) (b : Bool) (g : Group) (f : Frag), Issues s b g f →
    (f.depth = 0 → OnlyCtx .join s g (Ran b (f.next 1) [] [] [] g.ctx)) ∧
    (f.depth ≠ 0 → f.depth ≤ 64 → f.solo.getLsbD (f.depth - 1) = true →
      OnlyCtx .join s g
        (Ran b { pastJoin f with solo := f.solo &&& ~~~(1#64 <<< (f.depth - 1)) } [] [] [] g.ctx)) ∧
    (f.depth ≠ 0 → f.depth ≤ 64 → f.solo.getLsbD (f.depth - 1) = false →
      (g.ctx.frag (!b) = none → g.ctx.stack = [] →
        OnlyCtx .join s g (Ran b (pastJoin (atJoin s f)) [] [] [] g.ctx)) ∧
      (∀ o, g.ctx.frag (!b) = some o → waitsSince o = none →
        OnlyCtx .join s g (Ran b (atJoin s f) [] [] [] g.ctx)) ∧
      (∀ o t, g.ctx.frag (!b) = some o → waitsSince o = some t → t < s.tick →
        (o.slot = f.slot ∧ o.pcw = f.pcw ∧ o.depth = f.depth →
          OnlyCtx .join s g
            (Split2 b g.ctx.stack.head? (some (fused o f)) g.ctx.stack.tail
              ((g.ctx.stack.tail.length : Int) - g.ctx.stack.length) g.ctx)) ∧
        (¬(o.slot = f.slot ∧ o.pcw = f.pcw ∧ o.depth = f.depth) → o.depth < f.depth →
          OnlyCtx .join s g (Split2 b (some (pastJoin (atJoin s f))) (some o) g.ctx.stack 0 g.ctx)) ∧
        (¬(o.slot = f.slot ∧ o.pcw = f.pcw ∧ o.depth = f.depth) → f.depth ≤ o.depth →
          OnlyCtx .join s g (Split2 b (some (atJoin s f)) (some (pastJoin o)) g.ctx.stack 0 g.ctx)))) ∧
    (g.ctx.stack = [] → ∃ c', exec .yield s = .next (s.setGroup { g with ctx := c', last1 := b }) ∧
      Ran b (f.next 1) [] [] [] g.ctx c') ∧
    (∀ e st, g.ctx.stack = e :: st →
      (∀ o, g.ctx.frag (!b) = some o → waitsSince e = none ∨ waitsSince o = none →
        OnlyCtx .yield s g (Split2 b (some e) (some o) (st ++ [f.next 1]) (-1) g.ctx)) ∧
      OnlyCtx .yield s g fun c' => c' =
        ({ g.ctx.setFrag b (some e) with stack := st ++ [f.next 1], top := g.ctx.top - 1,
                                         perf0 := g.ctx.perf0 + 1 } : Ctx).settle)

/-- R24, R25: the resolution of waiting fragments ends with no row left to apply, loses no lane and touches no
register. -/
def Obligations.ResolutionIsComplete : Prop :=
  ∀ c : Ctx, Resolved c.settle ∧ lanesOf c.settle = lanesOf c ∧ (∀ r, c.settle.getS r = c.getS r) ∧
    (∀ r, c.settle.getA r = c.getA r) ∧ (∀ r, c.settle.getC r = c.getC r)

/-- R14, R18, R217, R218: `lrun` appends a block with what it captures; `lwait` waits for the queue to drain, and for the
loads of its blocks. -/
def Obligations.LaneQueueGrows : Prop :=
  ∀ (s : State) (b : Bool) (g : Group) (f : Frag), Issues s b g f →
    (∀ off : BitVec 10, off.toNat < s.lwords g f → g.queue.length < 8 →
      ∃ c' e, exec (.lrun off) s = .next (s.setGroup { g with ctx := c', queue := g.queue ++ [e] }) ∧
        Ran b ({ f with runs := s.tick :: f.runs.filter fun t => g.queue.any fun x => x.at_ = t }.next 1) [] [] [] g.ctx c' ∧
        e.at_ = s.tick ∧ e.slot = f.slot ∧ e.start = off.toNat ∧ e.word = off.toNat ∧
        e.mask = f.mask ∧ e.capS = g.ctx.s ∧ e.capA = g.ctx.a ∧ e.lrunAt = f.pcw ∧ e.frag = b ∧ e.wait = .ready ∧
        e.after = c' ∧ e.dep = g.ctx.dep) ∧
    (∀ off : BitVec 10, off.toNat < s.lwords g f → 8 ≤ g.queue.length → WaitsCounted (.lrun off) s b g f 3) ∧
    (g.queue = [] → (∀ l ∈ g.loads, l.st ≠ .lane) → OnlyCtx .lwait s g (Ran b (f.next 1) [] [] [] g.ctx)) ∧
    (g.queue ≠ [] ∨ (∃ l ∈ g.loads, l.st = .lane) → OnlyWaits .lwait s b g f (parkedFrom f.wait))

/-- R220, R221, R231: user traps, breaks, `nop`, `pause` and the counters. -/
def Obligations.TrapBreakAndPause : Prop :=
  ∀ (s : State) (b : Bool) (g : Group) (f : Frag), Issues s b g f →
    OnlyCtx .nop s g (Ran b (f.next 1) [] [] [] g.ctx) ∧
    (∀ imm : BitVec 16, TrapsWith (.trap imm) s b g f .userTrap 0 imm.toNat 0) ∧
    (∀ (imm : BitVec 16) (p : Part), s.part? g.ref.part = some p →
      (prDebug p.prec = true → TrapsWith (.brkpt imm) s b g f .break_ 0 imm.toNat 0) ∧
      (prDebug p.prec = false → OnlyCtx (.brkpt imm) s g (Ran b (f.next 1) [] [] [] g.ctx))) ∧
    OnlyCtx (.pause 0) s g (Ran b (f.next 1) [] [] [] g.ctx) ∧
    (∀ n : BitVec 12, n ≠ 0 → OnlyWaits (.pause n) s b g f .pause) ∧
    (∀ d : SReg, OnlyCtx (.perf d 0) s g (Ran b (f.next 1) [(d, g.ctx.perf0)] [] [] g.ctx)) ∧
    (∀ (d : SReg) (n : BitVec 3) (h : n.toNat < 6), n ≠ 0 →
      OnlyCtx (.perf d n) s g (Ran b (f.next 1) [(d, g.perf[n.toNat])] [] [] g.ctx))

/-- R139 to R144: `garrive` and `garm` arrive once what their group did is performed, complete the phase with the last
arrival, or trap. An engine's credit lowers BAL by its nominal and raises CUR by its real bytes, and may complete the phase,
which then shows its real bytes; one that reaches a COUNT phase makes the gong FAULTED, with a record. That the arrival
waits for every partial sum its core has sent, and for stores of other groups that its
core sees already, is the model's choice: log 48. -/
def Obligations.GongArrivals : Prop :=
  (∀ (s : State) (b : Bool) (g : Group) (f : Frag) (t : Team) (n : GReg), Issues s b g f →
    s.team? g.ref.tref = some t →
    let q := t.gong n.toNat
    let x := g.ref.grp
    let N := lrGroups (s.lrec g.ref)
    (∀ (a : SReg) (i : BitVec 12), let k := (g.ctx.getS a + i.signExtend 32).toNat
      (q.mode = .faulted → TrapsWith (.garrive n a i) s b g f .gongFault 0 0 n.toNat) ∧
      (q.mode = .byte ∨ (q.mode ≠ .faulted ∧ arrivalForbidden q x k N) →
        TrapsWith (.garrive n a i) s b g f .gongMisuse 0 0 n.toNat) ∧
      (q.mode = .unset ∨ q.mode = .count → ¬arrivalForbidden q x k N → ¬Released s g →
        OnlyWaits (.garrive n a i) s b g f (parkedFrom f.wait)) ∧
      (q.mode = .unset ∨ q.mode = .count → ¬arrivalForbidden q x k N → Released s g →
        ∃ g' q', exec (.garrive n a i) s = .next ((s.setTeam (t.setGong n.toNat q')).setGroup g') ∧ MovedOn b f 1 g g' ∧
          (q.arrived + 1 = k → PhaseDone q q' q.real) ∧
          (q.arrived + 1 ≠ k → Arrived q q' x k .count q.bal))) ∧
    (∀ (a c : SReg) (i : BitVec 7) (j : BitVec 25),
      let k := (g.ctx.getS a + i.setWidth 32).toNat
      let m := (g.ctx.getS c + j.setWidth 32).toNat
      (q.mode = .faulted → TrapsWith (.garm n a c i j) s b g f .gongFault 0 0 n.toNat) ∧
      (q.mode = .count ∨ (q.mode ≠ .faulted ∧ (arrivalForbidden q x k N ∨ 2 ^ 30 < m ∨ 2 ^ 31 ≤ q.bal + m)) →
        TrapsWith (.garm n a c i j) s b g f .gongMisuse 0 0 n.toNat) ∧
      (q.mode = .unset ∨ q.mode = .byte → ¬arrivalForbidden q x k N → m ≤ 2 ^ 30 → q.bal + m < 2 ^ 31 → ¬Released s g →
        OnlyWaits (.garm n a c i j) s b g f (parkedFrom f.wait)) ∧
      (q.mode = .unset ∨ q.mode = .byte → ¬arrivalForbidden q x k N → m ≤ 2 ^ 30 → q.bal + m < 2 ^ 31 → Released s g →
        ∃ g' q', exec (.garm n a c i j) s = .next ((s.setTeam (t.setGong n.toNat q')).setGroup g') ∧ MovedOn b f 2 g g' ∧
          (q.arrived + 1 = k ∧ q.bal + m = 0 → PhaseDone q q' q.cur ∧ q'.bal = 0 ∧ q'.cur = 0) ∧
          (¬(q.arrived + 1 = k ∧ q.bal + m = 0) → Arrived q q' x k .byte (q.bal + m))))) ∧
  (∀ (s : State) (t : Team) (r : GRef) (n c d kind op : Nat), s.team? r.tref = some t →
    let q := t.gong n
    let need := if q.mode = .unset then 0 else q.need
    let bal := q.bal - c
    let cur := q.cur + BitVec.ofNat 32 d
    (q.mode = .unset ∨ q.mode = .byte → ∃ q', s.credit r n c d kind op = s.setTeam (t.setGong n q') ∧
      (1 ≤ need ∧ q.arrived = need ∧ bal = 0 → PhaseDone q q' cur ∧ q'.bal = 0 ∧ q'.cur = 0) ∧
      (¬(1 ≤ need ∧ q.arrived = need ∧ bal = 0) → q' = { q with mode := .byte, need := need, bal := bal, cur := cur })) ∧
    (q.mode = .faulted → s.credit r n c d kind op = s.setTeam (t.setGong n { q with bal := bal, cur := cur })) ∧
    (q.mode = .count → s.credit r n c d kind op =
      (s.setTeam (t.setGong n { q with mode := .faulted, bal := bal, cur := cur })).post r.part (some (.engine op))
        { code := Trap.gongMisuse.code, kind := kind, user := n, lid := r.lid, team := r.team, grp := r.grp,
          core := ((s.group? r).map (·.core)).getD 0, addr := 0, opid := op }))

/-- R141, R143, R223: `gwait` returns when PHASE differs from q, `gsync` arrives and waits for its phase, `gget`
reads the gong.
Readings of the model's own that it rests on: log 43. -/
def Obligations.GongWaits : Prop :=
  ∀ (s : State) (b : Bool) (g : Group) (f : Frag) (t : Team) (n : GReg), Issues s b g f →
    s.team? g.ref.tref = some t →
    let q := t.gong n.toNat
    (∀ (a : SReg) (i : Bool), let odd := (g.ctx.getS a + (if i then 1 else 0)).getLsbD 0
      (q.mode = .faulted → TrapsWith (.gwait n a i) s b g f .gongFault 0 0 n.toNat) ∧
      (q.mode ≠ .faulted → q.phase ≠ odd →
        ∃ g', exec (.gwait n a i) s = .next ((s.setGroup g').discardSi g) ∧ MovedOn b f 1 g g') ∧
      (q.mode ≠ .faulted → q.phase = odd → WaitsCounted (.gwait n a i) s b g f 4)) ∧
    (∀ (a : SReg) (i : BitVec 12), let k := (g.ctx.getS a + i.signExtend 32).toNat
      (∀ q0, f.wait = .gong n.toNat q0 → q.mode ≠ .faulted → q.phase ≠ q0 →
        ∃ g', exec (.gsync n a i) s = .next ((s.setGroup g').discardSi g) ∧ MovedOn b f 1 g g') ∧
      ((∀ m q0, f.wait ≠ .gong m q0) → q.mode = .unset ∨ q.mode = .count →
        ¬arrivalForbidden q g.ref.grp k (lrGroups (s.lrec g.ref)) → Released s g →
        (q.arrived + 1 = k → ∃ g' q',
          exec (.gsync n a i) s = .next (((s.setTeam (t.setGong n.toNat q')).setGroup g').discardSi g) ∧
          MovedOn b f 1 g g' ∧ PhaseDone q q' q.real) ∧
        (q.arrived + 1 ≠ k → ∃ q',
          exec (.gsync n a i) s = .next ((s.setTeam (t.setGong n.toNat q')).setGroup
            { g with ctx := g.ctx.setFrag b (some (holding s f (.gong n.toNat q.phase))) }) ∧
          Arrived q q' g.ref.grp k .count q.bal))) ∧
    (∀ d : SReg,
      OnlyCtx (.gget d n 0) s g (Ran b (f.next 1)
        [(d, BitVec.ofNat 32 ((if q.phase then 1 else 0) +
          2 * (match q.mode with | .unset => 0 | .count => 1 | .byte => 2 | .faulted => 3) + 8 * q.arrived + 1024 * q.need))]
        [] [] g.ctx) ∧
      OnlyCtx (.gget d n 1) s g (Ran b (f.next 1) [(d, BitVec.ofInt 32 q.bal)] [] [] g.ctx) ∧
      OnlyCtx (.gget d n 2) s g (Ran b (f.next 1) [(d, q.real)] [] [] g.ctx))

/-- R145, R224: an arrival at a launch barrier is made once what its group did is performed; the last one completes the
phase, before it a group waits. Readings of the model's own that it rests on: log 43 (the completion discards every `.si`
copy of the core) and log 48 (what the arrival waits for). -/
def Obligations.LaunchBarriers : Prop :=
  ∀ (s : State) (b : Bool) (g : Group) (f : Frag) (l : Launch) (n : BitVec 3), Issues s b g f →
    s.launch? g.ref.part g.ref.lid = some l →
    let bar := l.bars[n.toNat]'n.isLt
    let all := ∀ h ∈ s.launchGroups g.ref.part g.ref.lid, h.ref = g.ref ∨ h.ref ∈ bar.here
    (lrCoop l.lrec = false → Traps (.lbar n) s b g f .gongMisuse) ∧
    (lrCoop l.lrec = true → (∀ m k, f.wait ≠ .lbar m k) → (∀ j : Fin 8, g.ref ∉ (l.bars[j]).here) → Released s g →
      (all → ∃ s1 g', exec (.lbar n) s = .next ((s1.setGroup g').discardSi g) ∧ MovedOn b f 1 g g' ∧
        (∃ ls, s1 = { s with launches := ls }) ∧
        ∃ m, s1.launch? g.ref.part g.ref.lid = some m ∧ m.bars[n.toNat]'n.isLt = ⟨bar.count + 1, []⟩) ∧
      (¬all → ∃ s1, exec (.lbar n) s = .next (s1.setGroup
          { g with ctx := g.ctx.setFrag b (some (holding s f (.lbar n.toNat bar.count))) }) ∧
        (∃ ls, s1 = { s with launches := ls }) ∧
        ∃ m, s1.launch? g.ref.part g.ref.lid = some m ∧ m.bars[n.toNat]'n.isLt = ⟨bar.count, g.ref :: bar.here⟩)) ∧
    (∀ k, lrCoop l.lrec = true → f.wait = .lbar n.toNat k → bar.count ≠ k →
      ∃ g', exec (.lbar n) s = .next ((s.setGroup g').discardSi g) ∧ MovedOn b f 1 g g')

/-- R152 to R154, R225: a `tkt` in the open turn takes the next slots; `tktv` closes the turn once what its group did is
performed; a reservation checks the queue's base, and its launch's first one reads the header.
Readings of the model's own that it rests on: log 43 (a `tkt` discards every `.si` copy of the core), log 48, and log 103
(a turn whose header write is in flight or has faulted counts as closed). -/
def Obligations.Tickets : Prop :=
  ∀ (s : State) (b : Bool) (g : Group) (f : Frag) (l : Launch) (p : Part) (q : BitVec 2), Issues s b g f →
    s.launch? g.ref.part g.ref.lid = some l → s.part? g.ref.part = some p →
    (lrTq l.lrec q.toNat = 0 → Traps (.tktv q) s b g f .illegalOperand) ∧
    (lrTq l.lrec q.toNat ≠ 0 → (l.tq[q.toNat]'q.isLt).isClosed (s.turnOf g.ref) = true →
      Traps (.tktv q) s b g f .ticketOrder) ∧
    (lrTq l.lrec q.toNat ≠ 0 → (l.tq[q.toNat]'q.isLt).isClosed (s.turnOf g.ref) = false →
      s.turnOf g.ref = (l.tq[q.toNat]'q.isLt).turn → ¬Released s g → OnlyWaits (.tktv q) s b g f (parkedFrom f.wait)) ∧
    (lrTq l.lrec q.toNat ≠ 0 → (l.tq[q.toNat]'q.isLt).isClosed (s.turnOf g.ref) = false →
      s.turnOf g.ref = (l.tq[q.toNat]'q.isLt).turn → Released s g →
      ∃ g', exec (.tktv q) s = .next ((s.setGroup g').closeTurn g.ref q.toFin) ∧ MovedOn b f 1 g g') ∧
    (∀ (d a : SReg) (i : BitVec 10), let n := (g.ctx.getS a + i.setWidth 32).toNat
      (lrTq l.lrec q.toNat = 0 ∨ n = 0 ∨ 2 ^ 24 < n → Traps (.tkt d a i q) s b g f .illegalOperand) ∧
      (∀ s1 l1 h, lrTq l.lrec q.toNat ≠ 0 → 0 < n → n ≤ 2 ^ 24 → readHeader s p l q.toFin false = .ok s1 h →
        s1.launch? g.ref.part g.ref.lid = some l1 →
        let t := l1.tq[q.toNat]'q.isLt
        let r := { t with next := t.next + n, granted := true, drop := t.drop + ((max (t.next + n) h.1) - (max t.next h.1)) }
        t.isClosed (s1.turnOf g.ref) = false → s1.turnOf g.ref = t.turn →
        (∀ o ∈ s1.ops, o.by_ = g.ref → o.reserves q.toNat = false) →
        ∃ c', exec (.tkt d a i q) s = .next (((s1.setLaunch { l1 with tq := l1.tq.set q.toNat r q.isLt }).setGroup
            { g with ctx := c' }).discardSi g) ∧
          Ran b (f.next 1) [(d, BitVec.ofNat 32 t.next)] [] [] g.ctx c')) ∧
    (∀ base, base = lrTq l.lrec q.toNat →
      (base % 128 ≠ 0 → readHeader s p l q.toFin false = .trap .illegalOperand) ∧
      (base % 128 = 0 → 2 ^ 52 ≤ base → readHeader s p l q.toFin false = .trap .protection) ∧
      (∀ e, base % 128 = 0 → base < 2 ^ 52 → xlate s p base 0 = .hit e →
        let pa := e.pa base
        (pteRemote e.pte = true ∨ pteAcc e.pte = true ∨ (isHost pa = true ∧ pteDead e.pte = true) →
          readHeader s p l q.toFin false = .trap .protection) ∧
        (pteRemote e.pte = false → pteAcc e.pte = false → isHbm pa = true ∨ (isHost pa = true ∧ pteDead e.pte = false) →
          (∀ cap slotb, (l.tq[q.toNat]'q.isLt).hdr = some (cap, slotb) →
            (cap ≠ 0 ∧ slotb ≠ 0 ∧ slotb % 16 = 0 → readHeader s p l q.toFin false = .ok s (cap, slotb)) ∧
            (cap = 0 ∨ slotb = 0 ∨ slotb % 16 ≠ 0 → readHeader s p l q.toFin false = .trap .illegalOperand)) ∧
          ((l.tq[q.toNat]'q.isLt).hdr = none → s.hostHeld pa 64 = none → (∀ x ∈ headerLocs p pa, s.bad x = false) →
            let h := headerOf ((headerLocs p pa).map s.peek)
            h.1 ≠ 0 → h.2 ≠ 0 → h.2 % 16 = 0 → readHeader s p l q.toFin false =
              .ok (s.setLaunch { l with tq := l.tq.set q.toNat { (l.tq[q.toNat]'q.isLt) with hdr := some h } q.isLt }) h))))

/-- R226, R227, R331: `xfire` fires a chunk of the bound collective, `xwait` returns once the sequence has
finished.
Readings of the model's own that it rests on: logs 38, 43 and 48. -/
def Obligations.CollectiveFireAndWait : Prop :=
  ∀ (s : State) (b : Bool) (g : Group) (f : Frag) (l : Launch) (a : SReg) (i : BitVec 12), Issues s b g f →
    s.launch? g.ref.part g.ref.lid = some l →
    (lrColl l.lrec = 0 → Traps (.xfire a i) s b g f .illegalOperand ∧ Traps (.xwait a i) s b g f .illegalOperand) ∧
    (lrColl l.lrec ≠ 0 → (∃ n, nchOf s l = some n ∧ n ≤ (g.ctx.getS a + i.signExtend 32).toNat) →
      Traps (.xfire a i) s b g f .illegalOperand) ∧
    (lrColl l.lrec ≠ 0 → (∀ n, nchOf s l = some n → (g.ctx.getS a + i.signExtend 32).toNat < n) →
      Released s g → ∃ g', exec (.xfire a i) s = .next
          (fireChunk (s.setGroup g') g.ref.part g.ref.lid (g.ctx.getS a + i.signExtend 32).toNat) ∧ MovedOn b f 1 g g') ∧
    (∀ c, lrColl l.lrec ≠ 0 → s.coll? g.ref.part (lrColl l.lrec) = some c →
      ¬(lrCoop l.lrec = false ∧ ∃ n, l.seqNo = some n ∧ BitVec.ofNat 32 n = g.ctx.getS a + i.signExtend 32) →
      ((c.last.map fun n => BitVec.ofNat 32 n).getD 0xFFFFFFFF - (g.ctx.getS a + i.signExtend 32)).toNat < 2 ^ 31 →
      ∃ g', exec (.xwait a i) s = .next ((s.setGroup g').discardSi g) ∧ MovedOn b f 1 g g')

/-- R189, R228, R131, R167: `sget` reads the listed registers, and `sr.clock.lo` also latches the high half; `sset`
writes `sr.fflags` and the count of `sr.ovmiss` and traps on the other registers; a number that is not listed
traps. -/
def Obligations.SpecialRegisters : Prop :=
  ∀ (s : State) (b : Bool) (g : Group) (f : Frag) (d a : SReg) (n : BitVec 16), Issues s b g f →
    (∀ v, n ≠ 0x30 → specialValue s g n.toNat = some v →
      OnlyCtx (.sget d n) s g (Ran b (f.next 1) [(d, BitVec.ofNat 32 v)] [] [] g.ctx)) ∧
    (OnlyCtx (.sget d 0x30) s g fun c' =>
      Wrote g.ctx c' [(d, BitVec.ofNat 32 s.clock)] [] [] ∧ c'.frag b = some (f.next 1) ∧
      c'.frag (!b) = g.ctx.frag (!b) ∧ c'.stack = g.ctx.stack ∧ c'.top = g.ctx.top ∧ c'.clockHi = BitVec.ofNat 32 (s.clock / 2 ^ 32) ∧
      c'.ovCount = g.ctx.ovCount ∧ c'.ovLast = g.ctx.ovLast) ∧
    (specialValue s g n.toNat = none → Traps (.sget d n) s b g f .illegalOperand) ∧
    (∃ c', exec (.sset a 0x40) s = .next (s.setGroup { g with ctx := c', fflags := (g.ctx.getS a).setWidth 5 }) ∧
      Ran b (f.next 1) [] [] [] g.ctx c') ∧
    (OnlyCtx (.sset a 0x42) s g fun c' =>
      Wrote g.ctx c' [] [] [] ∧ c'.frag b = some (f.next 1) ∧ c'.frag (!b) = g.ctx.frag (!b) ∧
      c'.stack = g.ctx.stack ∧ c'.top = g.ctx.top ∧ c'.clockHi = g.ctx.clockHi ∧ c'.ovLast = g.ctx.ovLast ∧
      c'.ovCount.toNat = (g.ctx.getS a).toNat % 65536) ∧
    (specialValue s g n.toNat = none → Traps (.sset a n) s b g f .illegalOperand) ∧
    (∀ v, specialValue s g n.toNat = some v → n ≠ 0x40 → n ≠ 0x42 → Traps (.sset a n) s b g f .privilege)

/-- R71, R79, R106, R254, R267 to R269: a fence of either stream goes on once a release's stores and additions, and an
acquire's atomics, are performed; an acquire wider than `.grp` discards `.si` copies; a prefetch changes no byte and no
register; `pres` reads a presence count. Readings of the model's own that it rests on: logs 43, 48 and 79. -/
def Obligations.FencesPrefetchAndPresence : Prop :=
  (∀ (s : State) (b : Bool) (g : Group) (f : Frag) (sc : Scope), Issues s b g f →
    (s.ackWait g = false →
    let wide := decide (sc ≠ .grp)
    let s1 := if wide then s.discardSi g else s.forgetSeen g.ref
    let sent := if wide then Released s g else SumsDone s g
    (NoAtomics g → ∃ g', exec (.fenceAcq sc) s = .next (s1.setGroup g') ∧ MovedOn b f 1 (fencedGroup g true false wide) g') ∧
    (sent → ∃ g', exec (.fenceRel sc) s = .next (s.setGroup g') ∧ MovedOn b f 1 (fencedGroup g false true wide) g') ∧
    (sent → NoAtomics g → ∃ g', exec (.fenceAr sc) s = .next (s1.setGroup g') ∧
      MovedOn b f 1 (fencedGroup g true true wide) g') ∧
    (¬NoAtomics g → OnlyWaits (.fenceAcq sc) s b g f (parkedFrom f.wait)) ∧
    (¬sent → OnlyWaits (.fenceRel sc) s b g f (parkedFrom f.wait)) ∧
    (¬(sent ∧ NoAtomics g) → OnlyWaits (.fenceAr sc) s b g f (parkedFrom f.wait))) ∧
    (∀ (msc : Bool) (a : AReg) (off : BitVec 32), ∃ s1 c', exec (.prf msc a off) s = .next (s1.setGroup { g with ctx := c' }) ∧
      Ran b (f.next 2) [] [] [] g.ctx c' ∧ SameBytes s s1 ∧ s1.groups = s.groups ∧ s1.mem = s.mem) ∧
    (∀ (d a : SReg) (i : BitVec 12) (t : Team), s.team? g.ref.tref = some t →
      let o := (g.ctx.getS a + i.signExtend 32).toNat
      (spdShare s g ≤ o → Traps (.pres d a i) s b g f .protection) ∧
      (o < spdShare s g → OnlyCtx (.pres d a i) s g
        (Ran b (f.next 1) [(d, BitVec.ofNat 32 (t.count ((spdBase s g + o) / 128)))] [] [] g.ctx)))) ∧
  (∀ (s : State) (g : Group) (e : Entry) (es : List Entry) (w : LaneWord), LaneIssues s g e es → s.ackWait g = false →
    let wide := decide (w.scope ≠ 1)
    let acq := decide (w.order = 1 ∨ w.order = 3)
    let rel := decide (w.order = 2 ∨ w.order = 3)
    let sent := if wide then Released s g else SumsDone s g
    ((rel = true ∧ ¬sent) ∨ (acq = true ∧ ¬NoAtomics g) →
      exec (.laneFence w) s = .next (s.setGroup { g with queue := { e with wait := .parked } :: es })) ∧
    ((rel = true → sent) → (acq = true → NoAtomics g) → exec (.laneFence w) s = .next (afterWord
        (if acq then if wide then s.discardSi g else s.forgetSeen g.ref else s) w.last
        { fencedGroup g acq rel wide with perf := g.perf.set 1 (g.perf[1] + 1), queue := queueAfter w.last e es })) ∧
    (∃ s1, exec (.lanePrf w) s = .next (afterWord s1 w.last
        { g with perf := g.perf.set 1 (g.perf[1] + 1), queue := queueAfter w.last e es }) ∧
      SameBytes s s1 ∧ s1.groups = s.groups ∧ s1.mem = s.mem))

/-- R161 to R164, R229: `ovld` credits, attaches to or accepts a load; `ovq` writes the residency word.
Readings of the model's own that it rests on: logs 41 and 42. -/
def Obligations.OverlayLoadsAndQueries : Prop :=
  ∀ (s : State) (b : Bool) (g : Group) (f : Frag) (l : Launch) (p : Part), Issues s b g f →
    s.launch? g.ref.part g.ref.lid = some l → s.part? g.ref.part = some p →
    (∀ (d a : SReg) (i : BitVec 12), let id := (g.ctx.getS a + i.signExtend 32).toNat
      let st := match s.readySlot g.core (overlayKey s g id) with
        | some x => (2, x - slotBase s g)
        | none => match s.loadingSlot g.core (overlayKey s g id) with
          | some x => (1, x - slotBase s g)
          | none => (0, 0)
      (l.novl ≤ id → Traps (.ovq d a i) s b g f .illegalOperand) ∧
      (id < l.novl → OnlyCtx (.ovq d a i) s g (Ran b (f.next 1)
        [(d, BitVec.ofNat 32 (st.2 + 2 ^ 6 * st.1 + 2 ^ 16 * (prNslot p.prec - 1) + 2 ^ 24 * s.rootSlot g))] [] [] g.ctx))) ∧
    (∀ (n : GReg) (a c : SReg) (i : BitVec 8) (j : BitVec 5) (t : Team), s.team? g.ref.tref = some t →
      let id := (g.ctx.getS a + i.setWidth 32).toNat
      let r := (g.ctx.getS c + j.setWidth 32).toNat
      let q := t.gong n.toNat
      (l.novl ≤ id ∨ prNslot p.prec ≤ r ∨ r = s.rootSlot g ∨ f.tokens.getLsbD r = true →
        Traps (.ovld n a c i j) s b g f .illegalOperand) ∧
      (id < l.novl → r < prNslot p.prec → r ≠ s.rootSlot g → f.tokens.getLsbD r = false →
        (q.mode = .count → TrapsWith (.ovld n a c i j) s b g f .gongMisuse 0 0 n.toNat) ∧
        (q.mode = .faulted → TrapsWith (.ovld n a c i j) s b g f .gongFault 0 0 n.toNat) ∧
        (q.mode = .unset ∨ q.mode = .byte → ∃ g', MovedOn b f 2 g g' ∧
          (∀ x, s.readySlot g.core (overlayKey s g id) = some x →
            exec (.ovld n a c i j) s = .next ((s.setGroup g').credit g.ref n.toNat 16384 0 3 0)) ∧
          (∀ x, s.readySlot g.core (overlayKey s g id) = none → s.loadingSlot g.core (overlayKey s g id) = some x →
            exec (.ovld n a c i j) s =
              .next ((s.setGroup g').attach g.core x (overlayKey s g id) (.gong g.ref n.toNat false))) ∧
          (s.readySlot g.core (overlayKey s g id) = none → s.loadingSlot g.core (overlayKey s g id) = none →
            exec (.ovld n a c i j) s = .next ((s.setGroup g').fresh.acceptLoad g.core (slotBase s g + r)
              ⟨s.nextId, overlayKey s g id, lrCode l.lrec + l.tab + 16 * id, [.gong g.ref n.toNat true], []⟩)))))

/-- R106, R230: `xdrain` sends what the core withholds, waits until it is performed, then goes on.
Readings of the model's own that it rests on: log 48. -/
def Obligations.DrainsWaitForTheirSums : Prop :=
  ∀ (s : State) (b : Bool) (g : Group) (f : Frag) (p : Part) (a : AReg), Issues s b g f →
    s.part? g.ref.part = some p → p.id = g.ref.part →
    (f.wait = .ready →
      (∃ s1, exec .xdrainAll s = .next (s1.setGroup
          { g with ctx := g.ctx.setFrag b (some (holding s f (.drain s.tick))) }) ∧
        (s1.core g.core).abuf = [] ∧ (∃ ps, s1.partials = s.partials ++ ps) ∧ SameBytes s s1) ∧
      (∀ e r, (g.ctx.getA a).toNat < 2 ^ 52 → xlate s p (g.ctx.getA a).toNat 0 = .hit e →
        (pteAcc e.pte = false ∨ pteRemote e.pte = true →
          ∃ g', exec (.xdrain a) s = .next (s.setGroup g') ∧ MovedOn b f 1 g g') ∧
        (pteAcc e.pte = true → pteRemote e.pte = false → regionOf s p (e.pa (g.ctx.getA a).toNat) = some r →
          ∃ s1, exec (.xdrain a) s = .next (s1.setGroup
              { g with ctx := g.ctx.setFrag b (some (holding s f (.drain s.tick))) }) ∧
            (∀ x ∈ (s1.core g.core).abuf, x.region ≠ r) ∧ (∃ ps, s1.partials = s.partials ++ ps) ∧ SameBytes s s1))) ∧
    (∀ t, f.wait = .drain t →
      (∀ e ∈ s.partials, ¬(e.1 = g.ref.part ∧ e.2.core = g.core ∧ e.2.sent ≤ t)) →
        (∃ g', exec (.xdrain a) s = .next (s.setGroup g') ∧ MovedOn b f 1 g g') ∧
        (∃ g', exec .xdrainAll s = .next (s.setGroup g') ∧ MovedOn b f 1 g g'))

/-- R45 to R54, R255 to R257: the traps of a scalar access, in their order: alignment of a strong access, then the
range; and the places an on-chip access resolves to. The address of a trap is the access's virtual address, and 0 where
the access is not to global memory.
Readings of the model's own that it rests on: log 34. -/
def Obligations.AccessChecks : Prop :=
  (∀ (s : State) (b : Bool) (g : Group) (f : Frag) (p : Part) (sp : Space) (m : SMem), Issues s b g f →
    s.part? g.ref.part = some p → sp = .spd ∨ sp = .pmem ∨ sp = .chip ∨ sp = .glb →
    let a := accessAddr g.ctx sp m
    let n := sizeBytes m.size
    let v := if sp = .glb then a else 0
    (m.scope ≠ none → a % n ≠ 0 →
      TrapsWith (scalarLd sp m) s b g f .misalign v 0 0 ∧ TrapsWith (scalarSt sp m) s b g f .misalign v 0 0) ∧
    (m.scope = none ∨ a % n = 0 → spaceLimit s g p sp < a + n →
      TrapsWith (scalarLd sp m) s b g f .protection v 0 0 ∧ TrapsWith (scalarSt sp m) s b g f .protection v 0 0)) ∧
  (∀ (s : State) (g : Group) (p : Part) (sp : Space) (a n lane req : Nat) (k : Kind), sp ≠ .glb → lane < 64 →
    k.strict = false ∨ k.align = 0 ∧ a % n = 0 ∨ k.align ≠ 0 ∧ a % k.align = 0 →
    (spaceLimit s g p sp < a + n → check s g p sp a n lane k req false = .fail 3 .protection 0) ∧
    (a + n ≤ spaceLimit s g p sp → check s g p sp a n lane k req false = .ok ⟨(List.range n).map fun i =>
      if sp = .slc then .slc g.ref (256 * lane + a + i) else onChipLoc s g p sp (a + i), none, 0, a, 0, 0⟩))

/-- R17, R79, R84, R258: a scalar load of an on-chip space, or of a plain page of global memory, is issued and waits for
its return, which writes the value of the bytes at its places; a poisoned byte traps `POISON` instead.
Readings of the model's own that it rests on: logs 9 and 43. -/
def Obligations.ScalarLoads : Prop :=
  (∀ (s : State) (b : Bool) (g : Group) (f : Frag) (p : Part) (sp : Space) (m : SMem), Issues s b g f →
    sp = .spd ∨ sp = .pmem ∨ sp = .chip ∨ sp = .glb →
    let a := accessAddr g.ctx sp m
    let n := sizeBytes m.size
    MayAccess s g p sp a n → NoAtomics g → m.scope = none ∨ a % n = 0 →
    (sp ≠ .glb → a + n ≤ spaceLimit s g p sp →
      ∃ s1 ld, exec (scalarLd sp m) s = .next (s1.setGroup { g with ctx := g.ctx.setFrag b (some (holding s f (.load ld))) }) ∧
        (s1 = s ∨ s1 = s.setPart p) ∧
        ld.fill = .scalar m.size m.sext m.data a ((List.range n).map fun i => onChipLoc s g p sp (a + i))) ∧
    (sp = .glb → ∀ x, check s g p .glb a n 0 { strict := m.scope.isSome, align := n } (Req.code m.req) false = .ok x →
      x.acc = none →
      ∃ s1 ld, exec (scalarLd sp m) s = .next (s1.setGroup { g with ctx := g.ctx.setFrag b (some (holding s f (.load ld))) }) ∧
        CachesOnly s s1 ∧ ld.fill = .scalar m.size m.sext m.data a x.locs) ∧
    (∀ (q : SLdt) (x : Acc), let va := (((g.ctx.getA q.base).toNat + q.off.toInt) % 2 ^ 64).toNat
      MayAccess s g p .glb va (sizeBytes q.size) →
      check s g p .glb va (sizeBytes q.size) 0 { strict := true, align := sizeBytes q.size } 0 false = .ok x → x.acc = none →
      ∃ s1 ld, exec (.ldt q) s = .next (s1.setGroup { g with ctx := g.ctx.setFrag b (some (holding s f (.load ld))) }) ∧
        CachesOnly s s1 ∧ ld.fill = .scalar q.size false q.data va x.locs)) ∧
  (∀ (s : State) (b : Bool) (g : Group) (f : Frag) (ld : Load) (z : Size) (sx : Bool) (d : BitVec 6) (va : Nat)
    (ls : List Loc), s.group? g.ref = some g → g.state = .live → g.ctx.frag b = some f → f.wait = .load ld →
    ld.fill = .scalar z sx d va ls → ls.length = sizeBytes z → ld.reads = [] →
    ((∃ l ∈ ls, s.bad l = true) →
      exec (.memoryReturn g.ref (.frag b)) s = .next (s.halt g (.frag b) .poison (if ld.glb then va else 0) 0 0 0)) ∧
    ((∀ l ∈ ls, s.bad l = false) → Still s → ld.got = [] → ld.past = [] →
      ∃ g' u, exec (.memoryReturn g.ref (.frag b)) s = .next u ∧ CachesOnly (s.setGroup g') u ∧
        g' = { g with ctx := g'.ctx, queue := g'.queue, memlat := g'.memlat } ∧
        g'.memlat.toNat = min (g.memlat.toNat + ld.stall) (2 ^ 32 - 1) ∧
        let w := loadWrites d z sx (valueOf (ls.map s.peek))
        Ran b (f.next 2) w.1 w.2 [] g.ctx g'.ctx))

/-- R49, R53, R54, R70, R75, R76, R80, R82, R258: a scalar store moves on and leaves its bytes, for the places its address
resolves to, to be performed, in the units of R80; until then no byte changes. A store that is performed writes its bytes
at their places and changes no other byte.
Readings of the model's own that it rests on: logs 9 and 43. -/
def Obligations.ScalarStores : Prop :=
  (∀ (s : State) (b : Bool) (g : Group) (f : Frag) (p : Part) (sp : Space) (m : SMem) (x : Acc), Issues s b g f →
    sp = .spd ∨ sp = .pmem ∨ sp = .chip ∨ sp = .glb →
    let a := accessAddr g.ctx sp m
    let n := sizeBytes m.size
    MayAccess s g p sp a n → x.acc = none →
    check s g p sp a n 0 { write := true, strict := m.scope.isSome, align := n } (Req.code m.req) false = .ok x →
    mopReads s g sp a n = false → (m.order = .rel ∨ m.order = .ar → Released s g) →
    ∃ s1 g' us, exec (scalarSt sp m) s = .next (s1.setGroup g') ∧
      (m.scope = some .grp ∨ m.order = .none ∨ m.order = .rel → s1 = s ∨ s1 = s.setPart p) ∧
      (m.scope ≠ some .grp → m.order = .acq ∨ m.order = .ar → s1 = s.discardSi g ∨ s1 = (s.setPart p).discardSi g) ∧
      SameBytes s (s1.setGroup g') ∧ Waits m.scope a (x.locs.zip (regBytes g.ctx m)) us ∧
      g' = { (if m.order = .acq ∨ m.order = .ar then g.noSeen else g) with ctx := g'.ctx, stores := g.stores ++ us } ∧
      Ran b (f.next 2) [] [] [] g.ctx g'.ctx) ∧
  (∀ (s : State) (g : Group) (n : Nat) (w : PStore), s.group? g.ref = some g → g.stores[n]? = some w →
    s.storeReady g n w = true → w.rmw = none → s.hostLines = [] → (∀ e ∈ w.ws, StoreOk s e.1) → (w.ws.map (·.1)).Nodup →
    g.ctx.f0 ≠ none ∨ g.ctx.f1 ≠ none →
    ∃ t g', exec (.storeAcknowledgement ⟨g.ref, n⟩) s = .next t ∧ Stored w.ws s t ∧ t.group? g.ref = some g' ∧
      g' = { g with slc := g'.slc, stores := g'.stores, before := g'.before, seen := g'.seen } ∧
      g'.stores.map (·.ws) = (g.stores.eraseIdx n).map (·.ws) ∧ OthersKept g s t)

/-- R232, R233, R238 to R241, R244, R248 to R250, R253: the integer, bit, move and index instructions write their
values in the lanes of act(f) and nothing else. -/
def Obligations.LaneIntegerResults : Prop :=
  ∀ (s : State) (g : Group) (e : Entry) (es : List Entry) (i : Instr) (w : LaneWord) (t : LTy) (val : Nat → Nat),
    LaneIssues s g e es → i.laneWord = some w → i.check3 = true → 4 * w.d.toNat + max 4 t.bytes ≤ 1024 →
    (∀ l, l < 64 → laneBitsValue s g e l i = some (t, val l)) → LaneWrites i s g e es w t val 0

/-- R121 to R133, R241, R242, R245, R247: the float instructions and conversions write their values, and the flags of
the lanes of act(f) go to `sr.fflags`.
Readings of the model's own that it rests on: logs 10 and 59. -/
def Obligations.LaneFloatResults : Prop :=
  ∀ (s : State) (g : Group) (e : Entry) (es : List Entry) (i : Instr) (w : LaneWord) (t : LTy) (val : Nat → Nat)
    (fl : Nat → BitVec 5),
    LaneIssues s g e es → i.laneWord = some w → i.check3 = true → 4 * w.d.toNat + max 4 t.bytes ≤ 1024 →
    (∀ l, l < 64 → laneFloatValue g e l i = some (t, val l, fl l)) →
    LaneWrites i s g e es w t val (orFlags (activeList g e w) fl)

/-- R121, R122: rounding returns a value that the type can hold exactly, with no flag, in every mode. -/
def Obligations.RoundingKeepsExactValues : Prop :=
  ∀ (t : LTy) (x : Nat) (neg : Bool) (n d : Nat) (m : Rnd) (sat : Bool) (r : Nat), isFloatTy t = true →
    x < 2 ^ (8 * t.bytes) → decodeF t x = .fin neg n d → floatRound t (decodeF t x) m sat r = (x, 0)

/-- R243, R251, R253: comparisons, votes and predicate arithmetic write their predicate in the lanes of act(f); a
signalling NaN that `cmp` meets sets NV. -/
def Obligations.LanePredicateResults : Prop :=
  ∀ (s : State) (g : Group) (e : Entry) (es : List Entry) (i : Instr) (w : LaneWord) (val : Nat → Bool),
    LaneIssues s g e es → i.laneWord = some w → i.check3 = true →
    (∀ l, l < 64 → lanePredValue g e l i = some (val l)) →
    PredWrites i s g e es w val (match i with
      | .cmp w => if w.ty.isFloat then orFlags (activeList g e w) fun l =>
          if (decodeF w.ty (rawA g e w w.ty l)).isSig || (decodeF w.ty (rawB g e w w.ty l)).isSig then 1 else 0 else 0
      | _ => 0)

/-- R236, R246, R250 to R252: `ballot`, `rdc` and `scan` over the lanes of act(f), to lanes or to a scalar register;
`bperm` from the highest sender; `rng`; `bfi` into its old destination; `cvq` of eight values. -/
def Obligations.LaneCrossResults : Prop :=
  ∀ (s : State) (g : Group) (e : Entry) (es : List Entry) (w : LaneWord), LaneIssues s g e es →
    4 * w.d.toNat + max 4 w.ty.bytes ≤ 1024 →
    let ls := activeList g e w
    (∀ v : Word, (∀ i < 32, v.getLsbD i = (decide (32 * (w.imm.toNat % 2) + i ∈ ls) &&
        (g.getP (w.a.setWidth 3)).getLsbD (32 * (w.imm.toNat % 2) + i))) →
      (w.m41 = true → ScalarFromLanes (.ballot w) s g e es w v 0) ∧
      (w.m41 = false → LaneWrites (.ballot w) s g e es w .b32 (fun _ => v.toNat) 0)) ∧
    (∀ r, r = foldLanes w (ls.map fun l => rawA g e w w.ty l) →
      (w.m41 = true → ScalarFromLanes (.rdc w) s g e es w (BitVec.ofNat 32 r.1) r.2) ∧
      (w.m41 = false → LaneWrites (.rdc w) s g e es w w.ty (fun _ => r.1) r.2)) ∧
    (∀ r : Nat → Nat × FFlags,
      (∀ l, r l = foldLanes w ((ls.filter fun j => if w.imm.getLsbD 0 then j < l else j ≤ l).map fun j => rawA g e w w.ty j)) →
      LaneWrites (.scan w) s g e es w w.ty (fun l => (r l).1) (orFlags ls fun l => (r l).2)) ∧
    (w.ty = .b32 ∨ w.ty = .b64 → LaneWrites (.bperm w) s g e es w w.ty (fun t =>
      match (ls.filter fun l => numB g e w l % lrWidth (s.lrec g.ref) = t).getLast? with
      | some l => rawA g e w w.ty l
      | none => g.lane t w.d.toNat w.ty.bytes) 0) ∧
    (w.ty = .b32 ∨ w.ty = .b64 → LaneWrites (.bfi w) s g e es w w.ty (fun l =>
      let pos := if w.bSrc = 2 then w.imm.toNat % 256 else numB g e w l
      let len := if w.bSrc = 2 then w.imm.toNat / 256 % 256 else g.lane l w.c.toNat 4
      let n := if 8 * w.ty.bytes ≤ pos then 0 else min len (8 * w.ty.bytes - pos)
      let old := g.lane l w.d.toNat w.ty.bytes
      old - old / 2 ^ pos % 2 ^ n * 2 ^ pos + rawA g e w w.ty l % 2 ^ n * 2 ^ pos) 0) ∧
    LaneWrites (.rng w) s g e es w .b32 (fun l =>
      let z0 := (rawA g e w .b32 l * 2 ^ 32 + rawB g e w .b32 l + 0x9E3779B97F4A7C15) % 2 ^ 64
      let z1 := ((z0 ^^^ (z0 / 2 ^ 30)) * 0xBF58476D1CE4E5B9) % 2 ^ 64
      let z2 := ((z1 ^^^ (z1 / 2 ^ 27)) * 0x94D049BB133111EB) % 2 ^ 64
      (z2 ^^^ (z2 / 2 ^ 31)) / 2 ^ 32) 0 ∧
    (w.m41 = false → LaneWrites (.cvq w) s g e es w .b32 (fun l => (encode8 g w (numB g e w l % 256) l).1)
      (orFlags ls fun l => (encode8 g w (numB g e w l % 256) l).2)) ∧
    (w.m41 = true → 4 * w.d.toNat + 32 ≤ 1024 → (Instr.cvq w).check3 = true →
      ∃ m, exec (.cvq w) s = .next (afterWord s w.last
          { g with lregs := m, perf := g.perf.set 1 (g.perf[1] + 1), queue := queueAfter w.last e es,
                   fflags := g.fflags ||| orFlags ls fun l => orFlags (List.range 8) fun j =>
                     (floatRound (srcTy w) (q4Decode (rawA g e w .b32 l / 2 ^ (4 * j) % 16) (numB g e w l % 256)) (mode w) false 0).2 }) ∧
        ∀ l o, o < 1024 → Memory.rd m (1024 * l + o) =
          if (activeLanes g e w).getLsbD l = true ∧ 4 * w.d.toNat ≤ o ∧ o < 4 * w.d.toNat + 32 then
            BitVec.ofNat 8 ((floatRound (srcTy w) (q4Decode (rawA g e w .b32 l / 2 ^ (4 * ((o - 4 * w.d.toNat) / 4)) % 16)
              (numB g e w l % 256)) (mode w) false 0).1 / 256 ^ ((o - 4 * w.d.toNat) % 4))
          else Memory.rd g.lregs (1024 * l + o))

/-- R17, R233, R259, R262, R265: a lane load, or tolerance load, of plain places is issued and waits for its return,
which writes the values of the bytes at its places, lane by lane; that of an atomic writes the old values; a poisoned
byte of a load traps `POISON` in the lowest lane that has one. With no lane active a lane memory instruction is
performed at once and changes nothing.
Readings of the model's own that it rests on: logs 9 and 43. -/
def Obligations.LaneLoads : Prop :=
  (∀ (s : State) (g : Group) (e : Entry) (es : List Entry) (p : Part) (sp : Space) (w : LaneWord) (as : List (Nat × Acc)),
    LaneIssues s g e es → s.part? g.ref.part = some p →
    (activeList g e w = [] → ∀ i ∈ [Instr.laneLd sp w, .laneLdt w, .laneSt sp w, .atom sp w, .red sp w, .xadd w, .xaddi w],
      exec i s = .next (afterWord s w.last (wroteGroup g g w e es))) ∧
    (activeList g e w ≠ [] → LanesMay s g e p sp w → NoAtomics g → Resolves s g e p sp w (laneKind w false (w.scope ≠ 0) false) as →
      ∃ s1 ld, exec (.laneLd sp w) s = .next (s1.setGroup { g with queue := { e with wait := .load ld } :: es }) ∧
        CachesOnly s s1 ∧ ld.fill = .lanes w.d.toNat (max 4 w.ty.bytes) (w.ty = .i8 ∨ w.ty = .i16) w.last
          (as.map fun a => (a.1, a.2.va, a.2.locs))) ∧
    (activeList g e w ≠ [] → LanesMay s g e p .glb w → NoAtomics g → Resolves s g e p .glb w (laneKind w false true false) as →
      ∃ s1 ld, exec (.laneLdt w) s = .next (s1.setGroup { g with queue := { e with wait := .load ld } :: es }) ∧
        CachesOnly s s1 ∧ ld.fill = .lanes w.d.toNat (max 4 w.ty.bytes) (w.ty = .i8 ∨ w.ty = .i16) w.last
          (as.map fun a => (a.1, a.2.va, a.2.locs)))) ∧
  (∀ (s : State) (g : Group) (e : Entry) (es : List Entry) (ld : Load), s.group? g.ref = some g → g.state = .live →
    g.queue = e :: es → e.wait = .load ld → ld.reads = [] → Still s →
    (∀ d n sx last ps, ld.fill = .lanes d n sx last ps → (ps.map (·.1)).Nodup → 4 * d + n ≤ 1024 →
      (∀ pre x post, ps = pre ++ x :: post → (∀ y ∈ pre, ∀ l ∈ y.2.2, s.bad l = false) → (∃ l ∈ x.2.2, s.bad l = true) →
        exec (.memoryReturn g.ref .lane) s = .next (s.halt g .lane .poison (if ld.glb then x.2.1 else 0) x.1 0 0)) ∧
      ((∀ y ∈ ps, ∀ l ∈ y.2.2, s.bad l = false) → ld.got = [] → ld.past = [] → (∀ x ∈ (s.core g.core).l1, x.si = none) → ld.si = [] →
        ∀ val : Nat → Nat, (∀ y ∈ ps, val y.1 = loadedLane n y.2.2.length sx (valueOf (y.2.2.map s.peek))) →
        ∃ g' m, exec (.memoryReturn g.ref .lane) s = .next (afterLoad ld g (afterWord s last g')) ∧
          g' = { g with lregs := m, memlat := g'.memlat, perf := g.perf.set 1 (g.perf[1] + 1), queue := queueAfter last e es } ∧
          g'.memlat.toNat = min (g.memlat.toNat + ld.stall) (2 ^ 32 - 1) ∧ LaneBytes g (fun l => ps.any fun y => y.1 == l) d n val m)) ∧
    (∀ d n last vs, ld.fill = .olds d n last vs → (vs.map (·.1)).Nodup → 4 * d + n ≤ 1024 →
      ∀ val : Nat → Nat, (∀ y ∈ vs, val y.1 = y.2) →
      ∃ m, exec (.memoryReturn g.ref .lane) s = .next (afterLoad ld g (afterWord s last
          { g with lregs := m, perf := g.perf.set 1 (g.perf[1] + 1), queue := queueAfter last e es })) ∧
        LaneBytes g (fun l => vs.any fun y => y.1 == l) d n val m))

/-- R70, R75, R80, R82, R259: a lane store to its own slices, in lanes that do not overlap, writes each lane's value at
its places and changes no other byte, unless an access of its group to the same bytes still waits; to the other spaces
it leaves each lane's value, in the units of R80, to be performed, in an order that the device chooses, and no byte
changes yet. That stores wait, and are performed at later steps, is the model's choice: log 9. Readings of the model's
own that it rests on: log 57. -/
def Obligations.LaneStores : Prop :=
  ∀ (s : State) (g : Group) (e : Entry) (es : List Entry) (p : Part) (sp : Space) (w : LaneWord) (as : List (Nat × Acc)),
    LaneIssues s g e es → activeList g e w ≠ [] → LanesMay s g e p sp w →
    Resolves s g e p sp w (laneKind w true (w.scope ≠ 0) false) as →
    (∀ l ∈ activeList g e w, mopReads s g sp (laneAddr g e sp w l) w.ty.bytes = false) →
    (w.order = 2 ∨ w.order = 3 → Released s g) →
    let ws := fun (a : Nat × Acc) => a.2.locs.zip (leBytes w.ty.bytes (g.lane a.1 w.b.toNat w.ty.bytes))
    ∃ s1 g1, exec (.laneSt sp w) s = .next (afterWord s1 w.last (wroteGroup g g1 w e es)) ∧ s1.group? g.ref = some g1 ∧
      OthersKept g s s1 ∧
      (sp = .slc → (as.flatMap fun a => a.2.locs).Nodup → (∀ x ∈ g.stores, ∀ e ∈ x.ws, e.1 ∉ as.flatMap fun a => a.2.locs) →
        g1.stores = g.stores ∧ Stored (as.flatMap ws) s s1) ∧
      (sp = .slc → ∃ us : List PStore, g1.stores = g.stores ++ us ∧
        ∀ u ∈ us, ∃ x ∈ g.stores, ∃ e ∈ u.ws, ∃ y ∈ x.ws, e.1 = y.1) ∧
      (sp ≠ .slc → SameBytes s s1 ∧ ∃ (us : List PStore) (uss : List (List PStore)), g1.stores = g.stores ++ us ∧ us.Perm (List.flatten uss) ∧
        uss.length = as.length ∧ ∀ (i : Nat) a u, as[i]? = some a → uss[i]? = some u → Waits (Scope.ofCode w.scope) a.2.va (ws a) u)

/-- R70, R264 to R266: an atomic or a reduction leaves each lane's access to be performed, and an atomic waits for
them. An access that is performed reads the old value of its bytes, writes the value that its
operation makes of it, or nothing where a compare finds another value, and returns the old value to the atomic; it changes
no other byte. A floating addition traps in a partition that is deterministic (R111). That the accesses wait, and are
performed at later steps, is the model's choice: log 9. Readings of the model's own that it rests on: log 57. -/
def Obligations.LaneAtomics : Prop :=
  (∀ (s : State) (g : Group) (e : Entry) (es : List Entry) (p : Part) (sp : Space) (w : LaneWord) (as : List (Nat × Acc)),
    LaneIssues s g e es → activeList g e w ≠ [] → LanesMay s g e p sp w →
    (w.rnd = 0 → w.ty.isFloat = true → prDet p.prec = true → ∀ l, (activeList g e w).head? = some l →
      ∀ i ∈ [Instr.atom sp w, .red sp w], exec i s = .next (s.halt g .lane .nondetAtomic 0 l 0 0)) ∧
    (¬(w.rnd = 0 ∧ w.ty.isFloat = true ∧ prDet p.prec = true) →
      Resolves s g e p sp w (laneKind w true true true) as → (∀ a ∈ as, ∀ l ∈ a.2.locs, s.bad l = false) →
      (∀ l ∈ activeList g e w, mopReads s g sp (laneAddr g e sp w l) w.ty.bytes = false) →
      (w.order = 2 ∨ w.order = 3 → Released s g) →
      let holds := fun (us : List PStore) (ld : Load) =>
        { g with stores := g.stores ++ us, queue := { e with wait := .load ld } :: es }
      (w.order = 0 ∨ w.order = 2 → ∃ s1 us, Steady s p s1 ∧ AtomicsWait s g w false as us ∧
        exec (.red sp w) s = .next (afterWord s1 w.last { g with
          stores := g.stores ++ us, perf := g.perf.set 1 (g.perf[1] + 1), queue := queueAfter w.last e es })) ∧
      (∃ s1 us ld, Steady s p s1 ∧ AtomicsWait s g w true as us ∧ ld.fill = .olds w.d.toNat (max 4 w.ty.bytes) w.last [] ∧
        ld.at_ = s.tick ∧ exec (.atom sp w) s = .next (s1.setGroup (holds us ld))))) ∧
  (∀ (s : State) (g : Group) (n : Nat) (w : PStore) (r : Rmw), s.group? g.ref = some g → g.stores[n]? = some w →
    w.rmw = some r → w.past = [] → s.storeReady g n w = true → s.hostLines = [] → (∀ h ∈ s.groups, ∀ x ∈ h.stores, x.early = false) →
    (∀ e ∈ w.ws, StoreOk s e.1) → (w.ws.map (·.1)).Nodup → g.ctx.f0 ≠ none ∨ g.ctx.f1 ≠ none →
    let ls := w.ws.map (·.1)
    let old := valueOf (ls.map s.peek)
    ∃ t g', exec (.storeAcknowledgement ⟨g.ref, n⟩) s = .next t ∧ t.group? g.ref = some g' ∧ OthersKept g s t ∧
      Stored (match atomicLeaves r.ty r.op old r.b r.c with | some v => ls.zip (leBytes r.ty.bytes v) | none => []) s t ∧
      g' = { g with slc := g'.slc, stores := g'.stores, queue := g'.queue, loads := g'.loads, before := g'.before, seen := g'.seen } ∧
      g'.stores.map (·.ws) = (g.stores.eraseIdx n).map (·.ws) ∧
      ∀ (e : Entry) (es : List Entry) (ld : Load) (d k : Nat) (last : Bool) (vs : List (Nat × Nat)), g.queue = e :: es →
        e.wait = .load ld → ld.fill = .olds d k last vs → ld.at_ = r.at_ →
        ∃ es', g'.queue = { e with wait := .load { ld with fill := .olds d k last (vs ++ (r.to_.map fun lane => (lane, old)).toList) } } :: es')

/-- R90, R91, R263, R420: `xadd` and `xaddi` add each lane's contribution, on the grid of its region, to the word its
address names; where a region's POL is 1 a NaN, an infinity or a value too large traps.
Readings of the model's own that it rests on: log 49. -/
def Obligations.ExactAdditionsIssue : Prop :=
  ∀ (s : State) (g : Group) (e : Entry) (es : List Entry) (p : Part) (w : LaneWord) (float : Bool)
    (as : List (Nat × Acc)) (xs : List (Nat × Nat × Nat × Nat × Grid)), LaneIssues s g e es →
    let i := if float then Instr.xadd w else .xaddi w
    activeList g e w ≠ [] → s.part? g.ref.part = some p → prMixDbg p.prec = false → NoAtomics g →
    (∀ l ∈ activeList g e w, owned s g (laneAddr g e .glb w l) 16 = false) →
    as.map (·.1) = activeList g e w →
    (∀ a ∈ as, check s g p .glb (laneAddr g e .glb w a.1) 16 a.1 { xadd := true, strict := true, align := 16 } w.req false
      = .ok a.2) →
    xs.map (fun x => (x.1, x.2.1)) = as.map (fun a => (a.1, a.2.va)) →
    (∀ a ∈ as, ∀ x ∈ xs, a.1 = x.1 → a.2.acc = some x.2.2.1 ∧ (∃ k, a.2.locs.head? = some (.mem x.2.2.2.1 k)) ∧
      x.2.2.2.2 = if float then xsfFrom (decodeF w.ty (g.lane x.1 w.b.toNat w.ty.bytes)) (rdExp (descUsed s p x.1 x.2.2.1))
        else ⟨intOf w.ty (g.lane x.1 w.b.toNat w.ty.bytes), 0, false, false⟩) →
    let traps := fun (x : Nat × Nat × Nat × Nat × Grid) =>
      rdPol (descUsed s p x.1 x.2.2.1) && (x.2.2.2.2.nan || x.2.2.2.2.big)
    (∀ pre x post, xs = pre ++ x :: post → (∀ y ∈ pre, traps y = false) → traps x = true →
      exec i s = .next (s.halt g .lane .accOverflow x.2.1 x.1 0 0)) ∧
    ((∀ x ∈ xs, traps x = false) → ∃ s1 fl, Steady s p s1 ∧
      exec i s = .next ((addLanes g p s1 (xs.map fun x => x.2.2)).laneDone { g with fflags := g.fflags ||| fl, acks := g.acks + 1 } w.last) ∧
      fl = xs.foldl (fun (m : BitVec 5) x => m ||| x.2.2.2.2.flags) 0)

/-- R96, R97, R100, R107: an addition by a core changes what it owes the word by exactly its amount, and what it owes
no other word; draining lines changes nothing of it. -/
def Obligations.AdditionsAreExact : Prop :=
  ∀ (s : State) (part core r word : Nat) (n : Int), word % 16 = 0 →
    ((s.core core).abuf.map fun l => (l.region, l.line)).Nodup →
    (∀ w, w % 16 = 0 → owedTo (s.accAdd part core r word n) part core r w =
      owedTo s part core r w + if w = word then BitVec.ofInt 128 n else 0) ∧
    (∀ sel w, w % 16 = 0 → owedTo (s.drainLines part core sel) part core r w = owedTo s part core r w) ∧
    (∀ q w, q ≠ r → w % 16 = 0 → owedTo (s.accAdd part core r word n) part core q w = owedTo s part core q w)

/-- R271 to R274, R279 to R285, R289: `mwin` writes a window register, or traps on an operand out of range; the matrix
operations are checked and accepted, and a product advances its windows by their pitches, at issue.
Readings of the model's own that it rests on: logs 54 and 55. -/
def Obligations.MatrixOperationsAreAccepted : Prop :=
  (∀ (s : State) (b : Bool) (g : Group) (f : Frag) (d : BitVec 4) (x y : SReg) (src : WSrc) (rot : BitVec 3) (fmt : LTy)
    (blk mask : Bool) (tp : BitVec 19), Issues s b g f →
    let i := Instr.mwin d x y src rot fmt blk mask tp
    let base := (g.ctx.getS x).toNat
    let rp := (g.ctx.getS y).toNat % 2 ^ 16
    let so := (g.ctx.getS y).toNat / 2 ^ 16
    let ok := rot.toNat < 5 ∧ (blk = true → fmt = .q4) ∧ base % 16 = 0 ∧ rp % 16 = 0 ∧ rp ≠ 0 ∧ (fmt = .q4 ↔ so ≠ 0) ∧
      (src = .lreg → fmt ≠ .q4 ∧ mask = false ∧ rot = 0)
    (¬ok → Traps i s b g f .illegalOperand) ∧
    (ok → ∃ c', exec i s = .next (s.setGroup { g with ctx := c' }) ∧ Ran b (f.next 2) [] [] [] { g.ctx with mw := c'.mw } c' ∧
      (∀ r, r ≠ d → c'.getMw r = g.ctx.getMw r) ∧
      let m := c'.getMw d
      mwBase m = base ∧ mwRpitch m = rp ∧ mwSoff m = so ∧ mwSrc m = src ∧ mwRot m = rot.toNat ∧ mwFmt m = fmt.code ∧
      mwBlk m = blk ∧ mwMask m = mask ∧ mwValid m = true ∧ mwTpitch m = tp.toInt)) ∧
  (∀ (s : State) (b : Bool) (g : Group) (f : Frag), Issues s b g f →
    (∀ d, Accepts (.mzero d) s s b g f 1 (.zero d.toNat) g.ctx.mw) ∧
    (∀ (d x y : BitVec 4) (blocked : Bool), let i := if blocked then Instr.mmab d x y else .mma d x y
      let mx := g.ctx.getMw x
      let my := g.ctx.getMw y
      (tagAfter s g d.toNat ≠ 14 → Traps i s b g f .illegalOperand) ∧
      (tagAfter s g d.toNat = 14 → ∀ t, productTrap s g mx my blocked = some t → Traps i s b g f t) ∧
      (tagAfter s g d.toNat = 14 → productTrap s g mx my blocked = none →
        Accepts i s s b g f 1 (if blocked then .mmab d.toNat mx my else .mma d.toNat mx my)
          ((g.ctx.setMw x (advanceWindow mx)).setMw y (advanceWindow my)).mw)) ∧
    (∀ m : BitVec 128, (mwBase (advanceWindow m) : Int) = (mwBase m + 16 * mwTpitch m) % 2 ^ 32 ∧
      (advanceWindow m).toNat / 2 ^ 32 = m.toNat / 2 ^ 32) ∧
    (∀ (d : BitVec 4) (x : SReg) (sp : WSrc) (rot : BitVec 3) (off : BitVec 32),
      let o := ((g.ctx.getS x).toNat + off.toNat) % 2 ^ 32
      let rb := tagRow (tagAfter s g d.toNat)
      (∀ t, tileTrap s g sp rot o 256 = some t → Traps (.maccLd d x sp rot off) s b g f t) ∧
      (tileTrap s g sp rot o 256 = none →
        Accepts (.maccLd d x sp rot off) s s b g f 2 (.ld d.toNat sp rot.toNat o) g.ctx.mw) ∧
      (∀ t, tileTrap s g sp rot o rb = some t → Traps (.maccSt d x sp rot off) s b g f t) ∧
      (tileTrap s g sp rot o rb = none → ¬LinesFree s g (tileLines s g sp o rb) →
        OnlyWaits (.maccSt d x sp rot off) s b g f (parkedFrom f.wait)) ∧
      (tileTrap s g sp rot o rb = none → LinesFree s g (tileLines s g sp o rb) →
        Accepts (.maccSt d x sp rot off) s (s.raiseLines g.ref.tref (tileLines s g sp o rb)) b g f 2
          (.st d.toNat sp rot.toNat o) g.ctx.mw)) ∧
    (∀ (d x : BitVec 4) (ty : LTy) (rnd : BitVec 2) (sat : Bool) (e : BitVec 8),
      (tagAfter s g x.toNat ≠ 14 → Traps (.mcvt d x ty rnd sat e) s b g f .illegalOperand) ∧
      (tagAfter s g x.toNat = 14 →
        Accepts (.mcvt d x ty rnd sat e) s s b g f 2 (.cvt d.toNat x.toNat ty rnd.toNat sat e.toInt) g.ctx.mw)))

/-- R286 to R288, R292: `mfence` closes the open batch under the group's next number, `mwait` returns once a batch has
retired, `mhint` starts a ramp-up and asks the array to stay up; and the ramps.
Readings of the model's own that it rests on: log 56. -/
def Obligations.MatrixBatches : Prop :=
  (∀ (s : State) (b : Bool) (g : Group) (f : Frag), Issues s b g f →
    (∀ d : SReg, let closed := g.batches.filter fun x => x.num.isSome
      (15 ≤ closed.length → OnlyWaits (.mfence d) s b g f (parkedFrom f.wait)) ∧
      (closed.length < 15 → ∃ g', exec (.mfence d) s = .next (s.setGroup g') ∧
        g' = { g with ctx := g'.ctx, nb := g.nb + 1, batches := g'.batches, fflags := g'.fflags } ∧
        Ran b (f.next 1) [(d, g.nb.setWidth 32)] [] [] g.ctx g'.ctx ∧
        ∃ old new, closeBatch g.nb g.batches = old ++ new ∧ g'.batches = new ∧
          (∀ x ∈ old, x.num ≠ none ∧ x.left = 0) ∧ (∀ x, new.head? = some x → x.num = none ∨ x.left ≠ 0) ∧
          g'.fflags = old.foldl (fun m x => m ||| x.flags) g.fflags)) ∧
    (∀ (a : SReg) (i : BitVec 12), let n := (g.ctx.getS a + i.signExtend 32).setWidth 4
      ((∃ x ∈ g.batches, x.num = some n) → OnlyWaits (.mwait a i) s b g f (parkedFrom f.wait)) ∧
      ((∀ x ∈ g.batches, x.num ≠ some n) → ∃ g', exec (.mwait a i) s = .next (s.setGroup g') ∧ MovedOn b f 1 g g') ∧
      let c := s.core g.core
      ∃ g' r, exec (.mhint a i) s = .next ((s.setCore
          { c with hold := max c.hold (min (g.ctx.getS a + i.signExtend 32).toNat 4095), ramp := r }).setGroup g') ∧
        MovedOn b f 1 g g' ∧ r = if c.ramp = .down ∨ c.ramp = .rampingDown then .rampingUp else c.ramp)) ∧
  (∀ (s : State) (k : Nat), let c := s.core k
    (c.ramp = .rampingUp → exec (.rampUpEnd k) s = .next (s.setCore { c with ramp := .up })) ∧
    (c.ramp = .up → (∀ m ∈ c.mops, m.body.isProduct = false) → c.hold = 0 → c.fed + 16 ≤ s.clock → c.ran + 16 ≤ s.clock →
      exec (.rampDownStart k) s = .next (s.setCore { c with ramp := .rampingDown })) ∧
    (c.ramp = .up → c.fed + 2048 ≤ s.clock → exec (.rampDownStart k) s = .next (s.setCore { c with ramp := .rampingDown })) ∧
    (s.clock < c.fed + 2048 → (∃ m ∈ c.mops, m.body.isProduct = true) ∨ c.hold ≠ 0 ∨ s.clock < c.fed + 16 ∨ s.clock < c.ran + 16 →
      exec (.rampDownStart k) s = .next s) ∧
    (c.ramp = .rampingDown → (∀ m ∈ c.mops, m.body.isProduct = false) → exec (.rampDownEnd k) s = .next (s.setCore { c with ramp := .down })) ∧
    (c.ramp = .rampingDown → (∃ m ∈ c.mops, m.body.isProduct = true) →
      exec (.rampDownEnd k) s = .next (s.setCore { c with ramp := .rampingUp })))

/-- R134, R270, R271, R280 to R285, R289, R292: the oldest matrix operation of a core, once ready, performs its effect on
its tile or memory; and the array's ramps. -/
def Obligations.MatrixOperationsComplete : Prop :=
  ∀ (s : State) (k : Nat) (g : Group) (m : MOp) (ms : List MOp) (t : Team), (s.core k).mops = m :: ms →
    s.group? m.by_ = some g → mopReady s m ms = true → s.team? g.ref.tref = some t →
    let odd := onOdd s g
    let done := fun (d : Nat) (x : Tile) (fl : BitVec 5) => exec (.matrixOpComplete k) s = .next (((s.setTeam (t.setTile x)).setCore
        { s.core k with mops := ms, hold := if m.body.isProduct then (s.core k).hold - 1 else (s.core k).hold,
                           ran := if m.body.isProduct then s.clock else (s.core k).ran }).setGroup
        { g with batches := finishOp fl g.batches }.retireBatches) ∧ x.odd = odd ∧ x.idx = d
    (∀ d, m.body = .zero d → ∃ x, done d x 0 ∧ x.tag = 14 ∧ x.data = []) ∧
    (∀ d a c (blocked : Bool), m.body = (if blocked then .mmab d a c else .mma d a c) → ∃ x fl, done d x fl ∧ x.tag = (t.tile odd d).tag ∧
      ∀ r q, r < 64 → q < 64 → let n := 4 * (r / 16) + q / 16
        x.get r q 4 = (chunkDot ((t.tile odd d).get r q 4) (if blocked
          then elementChunks s g m a c true (16 * n + r % 16) (16 * n + q % 16) else elementChunks s g m a c false r q)).1 % 2 ^ 32) ∧
    (∀ d sp rot off, m.body = .ld d sp rot off → ∃ x, done d x 0 ∧ x.tag = 14 ∧
      ∀ r q, r < 64 → q < 256 → Memory.rd x.data (256 * r + q) = mopByte s m (rowLoc s g sp rot off 256 r q)) ∧
    (∀ d a ty rnd sat e, m.body = .cvt d a ty rnd sat e → ty = .f32 ∨ ty = .f16 ∨ ty = .bf16 ∨ ty = .e4m3 ∨ ty = .e5m2 →
      ∃ x fl, done d x fl ∧ x.tag.toNat = ty.code ∧
      ∀ r q, r < 64 → q < 64 → x.get r q ty.bytes = (floatRound ty ((decodeF .f32 ((t.tile odd a).get r q 4)).scale e)
        (match rnd with | 1 => .rz | 2 => .rd | 3 => .ru | _ => .rn) sat 0).1 % 2 ^ (8 * ty.bytes)) ∧
    (∀ d sp rot off, m.body = .st d sp rot off → let rb := tagRow (t.tile odd d).tag.toNat
      let ws := tileBytes (t.tile odd d) rb fun r q => rowLoc s g sp rot off rb r q
      (ws.map (·.1)).Nodup →
      ∃ s1 t1, exec (.matrixOpComplete k) s = .next s1 ∧ Stored ws s s1 ∧ s1.team? g.ref.tref = some t1 ∧
        (s1.core k).mops = ms ∧ ∀ line, t1.count line = if line ∈ tileLines s g sp off rb then t.count line - 1 else t.count line)

/-- R49, R147, R319, R325: `shp` writes a shape register with a record that passes its checks, from memory or from
another register with a new BASE; a record that does not pass traps. `cprf` changes no byte.
Readings of the model's own that it rests on: log 23. -/
def Obligations.ShapesAreChecked : Prop :=
  ∀ (s : State) (b : Bool) (g : Group) (f : Frag) (h : HReg) (a : AReg) (off : BitVec 32), Issues s b g f →
    let va := (((g.ctx.getA a).toNat + off.toInt) % 2 ^ 64).toNat
    (∀ p x, ReadsAt s g p va 64 64 x → let r := BitVec.ofNat 512 (valueOf (x.locs.map s.peek))
      (ShapeValid r → ∃ s1 g', exec (.shp h a off) s = .next (s1.setGroup g') ∧ CachesOnly s s1 ∧
        MovedOn b f 2 { g with shapes := g.shapes.set h.toNat r h.isLt } g') ∧
      (¬ShapeValid r → 5 ≤ shRot r ∧ shapeOk r = true ∧ TrapsAfter (.shp h a off) s b g f .illegalOperand ∨
        shapeOk r = false ∧ TrapsAfter (.shp h a off) s b g f .shapeInvalid)) ∧
    (∀ hs : HReg, let r := ((g.shapes[hs.toNat]'hs.isLt) >>> 64 <<< 64) ||| BitVec.ofNat 512 va
      (ShapeValid r → ∃ g', exec (.shpCopy h hs a off) s = .next (s.setGroup g') ∧
        MovedOn b f 2 { g with shapes := g.shapes.set h.toNat r h.isLt } g') ∧
      (shapeOk r = false → Traps (.shpCopy h hs a off) s b g f .shapeInvalid)) ∧
    (∀ (msc : Bool) (sc : SReg), let r := g.shapes[h.toNat]'h.isLt
      (shRank r = 0 ∨ 63 < sc.toNat + shRank r - 1 ∨ shSpace r ≠ .glb → Traps (.cprf msc h sc) s b g f .illegalOperand) ∧
      (¬(shRank r = 0 ∨ 63 < sc.toNat + shRank r - 1 ∨ shSpace r ≠ .glb) →
        ∃ s1 c', exec (.cprf msc h sc) s = .next (s1.setGroup { g with ctx := c' }) ∧
          Ran b (f.next 2) [] [] [] g.ctx c' ∧ SameBytes s s1 ∧ s1.groups = s.groups ∧ s1.mem = s.mem))

/-- R52, R143, R144, R149 to R151, R320 to R324: a copy instruction that passes its checks becomes an engine operation, or
supplies its group's slice of a team copy; the presence counts of its scratchpad lines rise at issue, and no byte changes
yet. A line that can go on writes its bytes, counts down and credits its gong; an access that fails stops the
operation.
Readings of the model's own that it rests on: logs 22, 29, 30 and 88. -/
def Obligations.CopiesRun : Prop :=
  (∀ (s : State) (b : Bool) (g : Group) (f : Frag) (t : Team) (x : CpyArgs), Issues s b g f → s.team? g.ref.tref = some t →
    (∀ form i, (form, i) ∈ [(CopyForm.cpy true, Instr.cpy true x), (.cpy false, .cpy false x), (.cpyt true, .cpyt true x),
        (.cpyt false, .cpyt false x), (.cpyg, .cpyg x), (.cpys, .cpys x)] ∨ (∃ n, form = .cpyw (n.toNat + 1) ∧ i = .cpyw n x) →
      (∀ tr, copyTrap g t form x = some tr → TrapsWith i s b g f tr 0 0 x.g.toNat) ∧
      (copyTrap g t form x = none → issueJob s g (copyJob g form x) = none → WaitsCounted i s b g f 2) ∧
      ∀ j, issueJob s g (copyJob g form x) = some j →
      let ls := j.copyLines s 0
      (copyTrap g t form x = none → ¬LinesFree s g (upLines ls) → WaitsCounted i s b g f 2) ∧
      (copyTrap g t form x = none → LinesFree s g (upLines ls) →
        (∀ o ∈ s.ops, o.id ≠ s.nextId) → (∀ c ∈ t.cpyts, c.op ≠ s.nextId) →
        (form = .cpy true ∨ form = .cpy false ∨ (∃ n, form = .cpyw n) →
          ∃ s1 g' t1, exec i s = .next (s1.setGroup g') ∧ MovedOn b f 2 g g' ∧ SameBytes s s1 ∧ s1.groups = s.groups ∧
            OpAdded s s1 g x.g.toNat (.copy [j] ls true) ∧ s1.team? t.ref = some t1 ∧ Raised t t1 (upLines ls)) ∧
        (form = .cpyg ∨ form = .cpys →
          ∃ s1 g' t1 j' ls' st, exec i s = .next (s1.setGroup g') ∧ MovedOn b f 2 g g' ∧ SameBytes s s1 ∧
            s1.groups = s.groups ∧ OpAdded s s1 g x.g.toNat (.copy [j'] ls' st) ∧ s1.team? t.ref = some t1 ∧
            Raised t t1 (upLines ls) ∧ (j' = j ∨ ∃ xs, j' = j.withList xs) ∧ (st = false → j' = j ∧ ls' = ls)) ∧
        (form = .cpyt true ∨ form = .cpyt false → (∀ c ∈ t.cpyts, c.i ≠ g.cpytN) →
          ∃ s1 g' t1, exec i s = .next (s1.setGroup g') ∧ MovedOn b f 2 { g with cpytN := g.cpytN + 1 } g' ∧
            SameBytes s s1 ∧ s1.groups = s.groups ∧ OpAdded s s1 g x.g.toNat (.copy [j] ls false) ∧
            s1.team? t.ref = some t1 ∧ Raised t t1 (upLines ls) ∧
            t1.cpyts = ⟨g.cpytN, x.g.toNat, s.nextId⟩ :: t.cpyts) ∧
        (form = .cpyt true ∨ form = .cpyt false → ∀ c o js l0 st, (t.cpyts.find? fun c => c.i = g.cpytN) = some c →
          s.op? c.op = some o → o.body = .copy js l0 st → let new := j.copyLines s js.length
          ∃ s1 g' t1, exec i s = .next (s1.setGroup g') ∧ MovedOn b f 2 { g with cpytN := g.cpytN + 1 } g' ∧
            SameBytes s s1 ∧ s1.groups = s.groups ∧ s1.team? t.ref = some t1 ∧ Raised t t1 (upLines new) ∧
            s1.op? c.op = some { o with body := .copy (js ++ [j]) (l0 ++ new) st }))) ∧
    -- every form completes where the checks of R321 pass, its lines are free and, for a team copy, its gong is the team's
    (let r := g.shapes[x.h.toNat]'x.h.isLt
     let ends := fun (form : CopyForm) (i : Instr) (n : Group → Nat) =>
       ∀ j, issueJob s g (copyJob g form x) = some j → LinesFree s g (upLines (j.copyLines s 0)) →
         ∃ s1 g', exec i s = .next (s1.setGroup g') ∧ MovedOn b f 2 { g with cpytN := n g } g' ∧ SameBytes s s1
     (∀ st, CopyMay g t x (coords g.ctx x.sc (shRank r)) →
       issueJob s g (copyJob g (.cpy st) x) = some (copyJob g (.cpy st) x) ∧ ends (.cpy st) (.cpy st x) (·.cpytN)) ∧
     (∀ st, CopyMay g t x (coords g.ctx x.sc (shRank r)) → (∀ c ∈ t.cpyts, c.i = g.cpytN → c.gong = x.g.toNat) →
       issueJob s g (copyJob g (.cpyt st) x) = some (copyJob g (.cpyt st) x) ∧ ends (.cpyt st) (.cpyt st x) (·.cpytN + 1)) ∧
     (∀ n : BitVec 4, 2 ≤ shRank r → shMask r = false → (n.toNat + 1) * shTile r ≤ 262144 →
       (let c := coords g.ctx x.sc (shRank r)
        CopyMay g t x (c.getD 0 0 * shBox r 0 :: c.drop 1)) →
       issueJob s g (copyJob g (.cpyw (n.toNat + 1)) x) = some (copyJob g (.cpyw (n.toNat + 1)) x) ∧
       ends (.cpyw (n.toNat + 1)) (.cpyw n x) (·.cpytN)) ∧
     (ListMay g t x → issueJob s g (copyJob g .cpyg x) = some (copyJob g .cpyg x) ∧ ends .cpyg (.cpyg x) (·.cpytN)) ∧
     (ListMay g t x → absent s g .spd (g.ctx.getS x.sc).toNat (4 * (g.ctx.getS (x.sc + 1)).toNat) = false →
       (∃ j, issueJob s g (copyJob g .cpys x) = some j) ∧ ends .cpys (.cpys x) (·.cpytN)))) ∧
  (∀ (s : State) (o : Op) (p : Part), OpActs s o p →
    (∀ js ls, o.body = .copy js ls false → ∀ s1, startCopy s o = .ok s1 → ∀ n, exec (.copyLineDone o.id n) s = .next s1) ∧
    (∀ js ls n x j, o.body = .copy js ls true → ls[n]? = some x → js[x.slice]? = some j → x.done = false →
      (∀ s1 w, lineReady s o p x j = .ok (s1, some w) → exec (.copyLineDone o.id n) s = .next (lineDone s1 o n x w)) ∧
      (∀ s1, lineReady s o p x j = .ok (s1, none) → exec (.copyLineDone o.id n) s = .next s1) ∧
      (∀ g, ChipTile s g p o j → (∀ l ∈ (tileLineBytes s g p j x.line).map (·.1), StoreOk s l) →
        ((tileLineBytes s g p j x.line).map (·.1)).Nodup →
        (ls.any fun y => !y.done && decide (y ≠ x)) = true →
        ∃ u q, exec (.copyLineDone o.id n) s = .next u ∧ Stored (tileLineBytes s g p j x.line) s u ∧ u.op? o.id = some q ∧
          q.body = .copy js (ls.set n { x with done := true, up := false, paid := true }) true)) ∧
    (∀ j js ls list n, (j.kind = .gather list n none ∨ j.kind = .scatter list n none) → o.body = .copy (j :: js) ls false →
      (∀ c ∈ ((s.team? o.by_.tref).map (·.cpyts)).getD [], c.op ≠ o.id) →
      ∀ g, s.group? j.by_ = some g → spdShare s g < list + 4 * n →
      exec (.copyAccessFault o.id) s = .next (stopCopy s o 0x06 0)) ∧
    (∀ c a, copyFault s o p = some (c, a) → exec (.copyAccessFault o.id) s = .next (stopCopy s o c a)))

/-- R301 to R303, R314, R316: the structure commands trap in the order of their checks, or are accepted as engine
operations; `bvset` leaves its binding pending on its own read.
Readings of the model's own that it rests on: logs 21 and 26. -/
def Obligations.StructureCommands : Prop :=
  ∀ (s : State) (b : Bool) (g : Group) (f : Frag) (t : Team) (n : GReg) (a : AReg) (r : SReg) (m : BitVec 6)
    (off : BitVec 26), Issues s b g f → s.team? g.ref.tref = some t →
    let q := t.gong n.toNat
    let va := structAddr g.ctx a off
    let k := ((g.ctx.getS r).toNat + m.toNat) % 2 ^ 32
    let src := (g.ctx.getA a).toNat
    StructTraps (.bvset n a r m off) s b g f n q (4 ≤ k) 64 [va] ∧ StructTraps (.bvfit n a off) s b g f n q False 64 [va] ∧
    StructTraps (.bvleaf n a r m off) s b g f n q (k = 0 ∨ 2 ^ 20 < k) 64 [src, va] ∧
    StructTraps (.bvnode n a off) s b g f n q False 128 [va] ∧
    (gongTrap q = none → va % 64 = 0 → va < 2 ^ 52 →
      (∀ h : k < 4, StructRuns (.bvset n a r m off) s b g f n (.bvset k va)
        { g with binds := g.binds.set k (.pending s.nextId) }) ∧
      (∀ p root nodes, s.part? g.ref.part = some p → readDescriptor s p va = .ok (root, nodes) →
        StructRuns (.bvfit n a off) s b g f n (.refit false va root nodes (some nodes)) g) ∧
      (∀ p e, s.part? g.ref.part = some p → readDescriptor s p va = .error e →
        StructRuns (.bvfit n a off) s b g f n (.refit false va 0 0 none) g) ∧
      (k ≠ 0 → k ≤ 2 ^ 20 → src % 64 = 0 → src < 2 ^ 52 →
        StructRuns (.bvleaf n a r m off) s b g f n (.bvleaf src va k 0) g) ∧
      (va % 128 = 0 → StructRuns (.bvnode n a off) s b g f n (.refit true va va 1 (some 1)) g))

/-- R304, R305, R311: `trc` and `trq` capture the rays of their lanes and become engine operations, once the group's own
accesses to their slots are done and no line of them counts 3; a lane, binding, queue or slot that does not pass traps.
Readings of the model's own that it rests on: log 60. -/
def Obligations.RayOperationsAreAccepted : Prop :=
  ∀ (s : State) (g : Group) (e : Entry) (es : List Entry) (t : Team) (w : LaneWord) (query : Bool), LaneIssues s g e es →
    s.team? g.ref.tref = some t →
    let i := if query then Instr.trq w else .trc w
    let ls := (activeList g e w).map fun l => (l, g.lane l w.b.toNat 4)
    let q := t.gong w.sub.toNat
    (∀ tr l, rayTrap s g query w q ls = some (tr, l) → exec i s = .next (s.halt g .lane tr 0 l 0 w.sub.toNat)) ∧
    (∀ tr, gongTrap q = some tr → rayTrap s g query w q ls = some (tr, (activeList g e w).head?.getD 0)) ∧
    (gongTrap q = none → g.binds[(w.imm.toNat / 256) % 4]? = some .unbound →
      rayTrap s g query w q ls = some (.illegalOperand, (activeList g e w).head?.getD 0)) ∧
    (rayTrap s g query w q ls = none → activeList g e w = [] → exec i s = .next (afterWord s w.last
        { g with perf := g.perf.set 1 (g.perf[1] + 1), queue := queueAfter w.last e es })) ∧
    let rs := raysOf s g e w
    let busy := s.linesFull g.ref.tref (slotLines rs) || g.storesIn (slotLines rs) || State.outstanding g (rs.flatMap fun x =>
      (List.range (slotBytes query)).map fun k => .spd g.ref.tref (x.slot + k))
    (rayTrap s g query w q ls = none → activeList g e w ≠ [] → busy = true →
      exec i s = .next (s.setGroup { g with queue := { e with wait := .parked } :: es })) ∧
    (rayTrap s g query w q ls = none → activeList g e w ≠ [] → busy = false →
      exec i s = .next (afterWord ((s.accept g w.sub.toNat (.ray query (w.mods.getLsbD 0)
          (g.binds[(w.imm.toNat / 256) % 4]'(by omega)) (w.imm.toNat % 256) (w.imm.toNat / 1024 % 4)
          rs)).raiseLines g.ref.tref (slotLines rs)) w.last
        { g with perf := g.perf.set 1 (g.perf[1] + 1), queue := queueAfter w.last e es }))

/-- R301, R303, R312, R314 to R316: the steps of ray engine operations.
Readings of the model's own that it rests on: logs 20, 21 and 26. -/
def Obligations.StructureSteps : Prop :=
  ∀ (s : State) (o : Op) (p : Part), OpActs s o p →
    (∀ i va root n, o.body = .bvset i va → readDescriptor s p va = .ok (root, n) →
      ∃ s1, CachesOnly s s1 ∧ exec (.bvsetReadDone o.id) s =
        .next (((s1.setBinding o (.bound root n) true).credit o.by_ o.gong 64 64 2 o.id).dropOp o.id)) ∧
    (∀ i va c a, o.body = .bvset i va → readDescriptor s p va = .error (.fault c a) →
      exec (.bvsetReadDone o.id) s = .next ((s.setBinding o .unbound false).stopOp o 2 c a)) ∧
    (∀ lane s1 t, laneRun s p o lane = some (.ended s1 t) → exec (.rayLaneFinish o.id lane) s = .next (finishLane s1 o lane t)) ∧
    (∀ qy an bd m q ls lane s1 t c a, o.body = .ray qy an bd m q ls → faultLane s p o ls = some (lane, s1, t, c, a) → c ≠ 0x21 →
      exec (.rayAccessFault o.id) s = .next (s1.stopOp { o with body := o.body.setTrav lane t false } 2 c a)) ∧
    (∀ node va root nodes k ws, o.body = .refit node va root nodes (some (k + 1)) →
      refitNode s p (fun x => node || (decide (root ≤ x) && (x - root) % 128 == 0 && decide (k < (x - root) / 128) &&
        decide ((x - root) / 128 < nodes))) (root + 128 * k) = .ok ws →
      ∃ s1, CachesOnly s s1 ∧
      let t := ((s1.engineWrites o ws).setOp { o with body := .refit node va root nodes (some k) }).credit o.by_ o.gong 64 64 2 o.id
      exec (.refitNodeDone o.id) s = .next (if k = 0 then t.dropOp o.id else t)) ∧
    (∀ src dst n done r ls, o.body = .bvleaf src dst n done → done + 1 = n →
      engineRead s p (src + 64 * done) 64 = .ok r → engineWrite s p (dst + 32 * done) 32 = .ok ls →
      ∃ s1, CachesOnly s s1 ∧ exec (.bvleafLineDone o.id) s = .next ((((s1.engineWrites o (ls.zip (boxRecord (BitVec.ofNat 512 r)))).setOp
        { o with body := .bvleaf src dst n n }).credit o.by_ o.gong 32 32 2 o.id).dropOp o.id)) ∧
    -- each step on a state in which its reads find plain memory: a descriptor; a node without a valid child, which a ray
    -- misses and a refit leaves as it is; a root that cannot be read
    (∀ i va v, o.body = .bvset i va → EngineReads s p va 64 v →
      let root := v % 2 ^ 64
      let n := v / 2 ^ 64 % 2 ^ 32
      (root % 128 = 0 → root < 2 ^ 52 → n ≠ 0 → ∃ s1, CachesOnly s s1 ∧ exec (.bvsetReadDone o.id) s =
        .next (((s1.setBinding o (.bound root n) true).credit o.by_ o.gong 64 64 2 o.id).dropOp o.id)) ∧
      (root % 128 ≠ 0 ∨ 2 ^ 52 ≤ root ∨ n = 0 → exec (.bvsetReadDone o.id) s =
        .next ((s.setBinding o .unbound false).stopOp o 2 0x20 va))) ∧
    (∀ an root nn m q x xs v, o.body = .ray false an (.bound root nn) m q (x :: xs) → x.fin = false → x.t = Trav.start →
      EngineReads s p root 128 v → v / 2 ^ 120 % 256 = 0 →
      exec (.rayLaneFinish o.id x.lane) s = .next (finishLane s o x.lane { Trav.start with here := some ⟨root, 0, 1, none⟩ })) ∧
    (∀ an root nn m q x xs t a, o.body = .ray false an (.bound root nn) m q (x :: xs) → x.fin = false → x.t = Trav.start →
      engine s p root 128 (root / 65536) false false = .fail t a →
      exec (.rayAccessFault o.id) s = .next (s.stopOp { o with body := o.body.setTrav x.lane x.t false } 2 t.code a)) ∧
    (∀ node va root nodes k v, o.body = .refit node va root nodes (some (k + 1)) → EngineReads s p (root + 128 * k) 128 v →
      v / 2 ^ 120 % 256 = 0 →
      ∃ s1, CachesOnly s s1 ∧
      let t := ((s1.engineWrites o []).setOp { o with body := .refit node va root nodes (some k) }).credit o.by_ o.gong 64 64 2 o.id
      exec (.refitNodeDone o.id) s = .next (if k = 0 then t.dropOp o.id else t)) ∧
    (∀ src dst n done v ls, o.body = .bvleaf src dst n done → done < n → done + 1 = n ∨ (dst + 32 * (done + 1)) % 128 = 0 →
      EngineReads s p (src + 64 * done) 64 v →
      engine s p (dst + 32 * done) 32 ((dst + 32 * done) / 65536) true false = .ok ls none → ∃ s1, CachesOnly s s1 ∧
      let t := ((s1.engineWrites o (ls.zip (boxRecord (BitVec.ofNat 512 v)))).setOp
        { o with body := .bvleaf src dst n (done + 1) }).credit o.by_ o.gong 32 32 2 o.id
      exec (.bvleafLineDone o.id) s = .next (if done + 1 = n then t.dropOp o.id else t))

/-- R327, R341, R343 to R347, R449: the Tambour's instructions trap in a launch that is not bound, and else read, wait,
abort or become engine operations; the descriptor's copy is taken; a dictionary bank is replaced
once no tile in flight refers to it.
Readings of the model's own that it rests on: logs 17, 38, 43, 86 and 103. -/
def Obligations.TambourInstructions : Prop :=
  (∀ (s : State) (b : Bool) (g : Group) (f : Frag) (l : Launch) (d x y : SReg) (a : AReg) (i off : BitVec 32) (n : GReg)
    (bank : Bool) (q : BitVec 2) (n1 : BitVec 6), Issues s b g f → s.launch? g.ref.part g.ref.lid = some l →
    let id := lrColl l.lrec
    let num := g.ctx.getS x + i
    let va := (((g.ctx.getA a).toNat + off.toInt) % 2 ^ 64).toNat
    (id = 0 → ∀ j ∈ [Instr.xinit a off, .xstat d x i, .xpoll d x i, .xabort x i, .xdict n bank a off, .rfwd n a y n1 off,
      .rrecv n q x y], Traps j s b g f .illegalOperand) ∧
    (id ≠ 0 → ∀ p z, ReadsAt s g p va 64 64 z →
      let f' := holding s f (.xinit (BitVec.ofNat 512 (valueOf (z.locs.map s.peek))))
      ∃ s1, CachesOnly s s1 ∧ exec (.xinit a off) s = .next (s1.setGroup { g with ctx := g.ctx.setFrag b (some f') })) ∧
    (id ≠ 0 → ∀ c t, s.coll? g.ref.part id = some c → s.team? g.ref.tref = some t →
      OnlyCtx (.xstat d x i) s g (Ran b (f.next 2) [(d, statusOf c num)] [] [] g.ctx) ∧
      (lrCoop l.lrec = false → (∃ k, l.seqNo = some k ∧ BitVec.ofNat 32 k = num) → Traps (.xpoll d x i) s b g f .illegalOperand) ∧
      (¬(lrCoop l.lrec = false ∧ ∃ k, l.seqNo = some k ∧ BitVec.ofNat 32 k = num) →
        (c.finished num = true → ∃ c', exec (.xpoll d x i) s = .next ((s.setGroup { g with ctx := c' }).discardSi g) ∧
          Ran b (f.next 2) [(d, 1)] [] [] g.ctx c') ∧
        (c.finished num = false → OnlyCtx (.xpoll d x i) s g (Ran b (f.next 2) [(d, 0)] [] [] g.ctx))) ∧
      (c.finished num = true ↔
        ((c.last.map fun k => BitVec.ofNat 32 k).getD 0xFFFFFFFF - num).toNat < 2 ^ 31) ∧
      (∃ g', MovedOn b f 2 g g' ∧
        (∀ z, (c.seqs.find? fun z => BitVec.ofNat 32 z.num = num ∧ z.live = true) = some z →
          exec (.xabort x i) s = .next ((s.setGroup g').abortSeq g.ref.part id z.num 3)) ∧
        ((∀ z ∈ c.seqs, ¬(BitVec.ofNat 32 z.num = num ∧ z.live = true)) → exec (.xabort x i) s = .next (s.setGroup g'))) ∧
      let gong := t.gong n.toNat
      (va % 128 ≠ 0 → TrapsWith (.xdict n bank a off) s b g f .misalign va 0 0) ∧
      (va % 128 = 0 → ∀ e, gongTrap gong = some e → TrapsWith (.xdict n bank a off) s b g f e 0 0 n.toNat) ∧
      (va % 128 = 0 → gongTrap gong = none → StructRuns (.xdict n bank a off) s b g f n (.xdict bank va) g) ∧
      let rank := (g.ctx.getS y).toNat
      (crN c.crec ≤ rank → Traps (.rfwd n a y n1 off) s b g f .illegalOperand) ∧
      (rank < crN c.crec → va % 64 = 0 → gongTrap gong = none → ∃ g', MovedOn b f 2 g g' ∧
        exec (.rfwd n a y n1 off) s = .next (forward s.nextId 65
          ((s.accept g n.toNat (.rfwd va rank (n1.toNat + 1) 0 0)).setGroup g'))) ∧
      let from_ := (g.ctx.getS x).toNat
      let count := (g.ctx.getS y).toNat
      let bad := crN c.crec ≤ from_ ∨ count = 0 ∨ 2 ^ 16 < count ∨ lrTq l.lrec q.toNat = 0
      let closed := (l.tq[q.toNat]'q.isLt).isClosed (s.turnOf g.ref)
      (bad → Traps (.rrecv n q x y) s b g f .illegalOperand) ∧
      (¬bad → gongTrap gong = none → closed = true → Traps (.rrecv n q x y) s b g f .ticketOrder) ∧
      (¬bad → gongTrap gong = none → closed = false → ∃ g', MovedOn b f 2 g g' ∧
        exec (.rrecv n q x y) s = .next (receive s.nextId 65537
          ((s.accept g n.toNat (.rrecv q.toNat from_ count 0)).setGroup g'))))) ∧
  (∀ (s : State),
    (∀ (b : Bool) (g : Group) (f : Frag) (d : BitVec 512), s.group? g.ref = some g → g.state = .live →
      g.ctx.frag b = some f → f.wait = .xinit d → ∃ g', MovedOn b f 2 g g' ∧
      let t := (s.setGroup g').onColl g.ref.part (lrColl (s.lrec g.ref)) fun c => { c with desc := some d }
      (cdRestart d = false → exec (.descriptorCopyTaken g.ref b) s = .next t) ∧
      (cdRestart d = true → exec (.descriptorCopyTaken g.ref b) s = .next (rerun t g.ref.part (lrColl (s.lrec g.ref))))) ∧
    (∀ (o : Op) (p : Part) (bank : Bool) (va : Nat) (s1 : State) (ls : List Loc), OpActs s o p → o.body = .xdict bank va →
      (∀ c, s.coll? o.by_.part (collOf s o) = some c → bankInUse c bank = false) → engineGet s o p va 2048 false = (s1, .ok ls) →
      exec (.dictionaryBankReplaced o.id) s = .next (((s1.onColl o.by_.part (collOf s1 o) fun c =>
        { c with dict := Memory.wrs c.dict (if bank then 2048 else 0) (ls.map s1.peek) }).credit
          o.by_ o.gong 2048 2048 4 o.id).dropOp o.id)) ∧
    (∀ (o : Op) (p : Part) (bank : Bool) (va : Nat) (c : Coll), OpActs s o p → o.body = .xdict bank va →
      s.coll? o.by_.part (collOf s o) = some c → bankInUse c bank = true → exec (.dictionaryBankReplaced o.id) s = .next s) ∧
    (∀ (o : Op) (p : Part) (bank : Bool) (va : Nat) (ls : List Loc), OpActs s o p → o.body = .xdict bank va →
      (∀ c, s.coll? o.by_.part (collOf s o) = some c → bankInUse c bank = false) →
      engine s p va 2048 (va / 65536) false false = .ok ls none → ∃ s1, CachesOnly s s1 ∧
      exec (.dictionaryBankReplaced o.id) s = .next (((s1.onColl o.by_.part (collOf s o) fun c =>
        { c with dict := Memory.wrs c.dict (if bank then 2048 else 0) (ls.map s.peek) }).credit
          o.by_ o.gong 2048 2048 4 o.id).dropOp o.id)))

/-- R328, R339 to R341, R345, R346, R452: what a message of the network does when it arrives, and a timer when it
expires.
Readings of the model's own that it rests on: logs 17 and 39. -/
def Obligations.TambourMessagesArrive : Prop :=
  ∀ (s : State) (r : SeqRef) (c : Coll), s.coll? r.part r.coll = some c →
    let seqIs := fun (q : Seq) => s.seq? r.part r.coll r.seq = some q
    (∀ at_ m q, let s1 := m.acks.foldl (fun t x => t.acked r.part r.coll r.seq r.run x m.sender) (s.seeRun r)
      s1.seq? r.part r.coll r.seq = some q →
      (r.run < q.seen ∨ (∃ e ∈ q.rx, e.2.1 = at_ ∧ r.run ≤ e.1) → exec (.tambourMessage r at_ m) s = .next s1) ∧
      (q.seen ≤ r.run → (∀ e ∈ q.rx, e.2.1 = at_ → e.1 < r.run) →
        (∀ line, placeMessage s1 r c at_ (64 + m.bytes.length) = .error line → exec (.tambourMessage r at_ m) s =
          .next { s1.askHost line with pending := (s1.askHost line).pending ++ [.tambourMessage r at_ m] }) ∧
        (∀ s2, placeMessage s1 r c at_ (64 + m.bytes.length) = .ok s2 → exec (.tambourMessage r at_ m) s =
          .next (digestCheck (s2.onSeq r.part r.coll r.seq fun q =>
            { q with rx := q.rx.filter (fun e => e.2.1 ≠ at_) ++ [(r.run, at_, m)] }) r.part r.coll r.seq)))) ∧
    -- a message is written to its receive slot
    (∀ p at_ n, s.part? r.part = some p → s.hostLines = [] → at_.k < slotsOf c.crec → at_.chunk < crNchMax c.crec →
      (∀ g ∈ s.groups, ∀ x ∈ g.stores, x.cut = false) →
      let slot := slotPa c.crec r.seq at_
      (∀ k, k < min n (crSlotSz c.crec) → PlainMemory s (slot + k) p.key) →
      ∃ s2, placeMessage s r c at_ n = .ok s2 ∧
        Stored ((List.range (min n (crSlotSz c.crec))).map fun k => (.mem (slot + k) p.key, Config.freeByte s.tick (slot + k))) s s2) ∧
    (∀ x q from_, seqIs q → ((awaited c q).find? fun e => e.1 = x) = some (x, from_) →
      let n := ((q.nacks.find? fun e => e.1 = x).map (·.2)).getD 0
      (8 ≤ n → exec (.slotTimerExpiry r (.slot x)) s = .next (loseMember s r.part r.coll from_)) ∧
      (n < 8 → exec (.slotTimerExpiry r (.slot x)) s = .next (((s.bumpNet 1 0).onSeq r.part r.coll r.seq fun q =>
          { q with nacks := (x, n + 1) :: q.nacks.filter fun e => e.1 ≠ x }).netSend
        (.send r.part r.coll from_ (.nack ⟨r.part, r.coll, r.seq, q.run⟩ (.slot x) (crRank c.crec)))))) ∧
    (∀ x q sender, seqIs q → (q.run < r.run ∨ (∀ m ∈ q.sent, ¬(m.at_ = x ∧ m.dest = sender)) ∧ q.status = 0) →
      exec (.nack r (.slot x) sender) s = .next (s.netSend (.send r.part r.coll sender (.wait r (.slot x))))) ∧
    (∀ x q sender m d, seqIs q → r.run ≤ q.run → (q.sent.find? fun m => m.at_ = x ∧ m.dest = sender) = some m → q.desc = some d →
      x ≠ ⟨0, kCommit d c.crec⟩ → x ≠ ⟨0, kConfirm d c.crec⟩ → exec (.nack r (.slot x) sender) s =
        .next (s.netSend (.send r.part r.coll sender (.tambourMessage { r with run := q.run } x m.body)))) ∧
    (∀ x, exec (.wait r (.slot x)) s = .next (s.onSeq r.part r.coll r.seq fun q =>
      { q with nacks := q.nacks.map fun e => if e.1 = x then (x, 0) else e })) ∧
    (∀ x sender, exec (.acknowledgement r (.slot x) sender) s = .next (s.onSeq r.part r.coll r.seq fun q =>
      if q.run = r.run then { q with sent := q.sent.filter fun m => ¬(m.at_ = x ∧ m.dest = sender) } else q)) ∧
    (∀ from_ k, (from_, k) ∈ awaitedRecords s r.part r.coll c →
      let n := ((c.rxNacks.find? fun e => e.1 = from_ ∧ e.2.1 = k).map (·.2.2)).getD 0
      (8 ≤ n → exec (.slotTimerExpiry r (.record from_ k)) s = .next (loseMember s r.part r.coll from_)) ∧
      (n < 8 → exec (.slotTimerExpiry r (.record from_ k)) s = .next (((s.bumpNet 1 0).onColl r.part r.coll fun c =>
          { c with rxNacks := (from_, k, n + 1) :: c.rxNacks.filter fun e => ¬(e.1 = from_ ∧ e.2.1 = k) }).toRank r.part r.coll from_
        (.nack ⟨r.part, r.coll, 0, 0⟩ (.record from_ k) (crRank c.crec))))) ∧
    (∀ from_ k sender op bs, (c.txKept.find? fun e => e.1 = sender ∧ e.2.1 = k) = some (sender, k, op, bs) →
      exec (.nack r (.record from_ k) sender) s =
        .next (s.toRank r.part r.coll sender (.remoteWorkRecord r.part r.coll from_ k bs)) ∧
      (∀ o va rank n sent acked, s.op? op = some o → o.body = .rfwd va rank n sent acked → acked + 1 < n →
        let s1 := s.onColl r.part r.coll fun c => { c with txKept := c.txKept.filter fun e => ¬(e.1 = sender ∧ e.2.1 = k) }
        exec (.acknowledgement r (.record from_ k) sender) s = .next ((s1.setOp
          { o with body := .rfwd va rank n sent (acked + 1) }).credit o.by_ o.gong 64 64 4 op))) ∧
    (∀ from_ k sender, (∀ e ∈ c.txKept, ¬(e.1 = sender ∧ e.2.1 = k)) → getKey c.txCount sender 0 ≤ k →
      exec (.nack r (.record from_ k) sender) s = .next (s.toRank r.part r.coll sender (.wait r (.record from_ k)))) ∧
    (∀ from_ k, exec (.wait r (.record from_ k)) s = .next (s.onColl r.part r.coll fun c =>
      { c with rxNacks := c.rxNacks.filter fun e => ¬(e.1 = from_ ∧ e.2.1 = k) })) ∧
    (∀ q fl, let s1 := s.seeRun r
      s1.seq? r.part r.coll r.seq = some q →
      let s2 := s1.onSeq r.part r.coll r.seq fun q => { q with commit := some (r.run, fl) }
      (q.over = false → q.seen = r.run → (∀ x, q.commit = some x → x.1 ≠ r.run) → ¬(crN c.crec = 2 ∧ crRank c.crec = 0) →
        exec (.commitMessage r fl) s = .next (advance s2 r.part r.coll r.seq)) ∧
      (∀ d, q.over = false → q.seen = r.run → (∀ x, q.commit = some x → x.1 ≠ r.run) → crN c.crec = 2 → crRank c.crec = 0 →
        q.desc = some d → exec (.commitMessage r fl) s =
          .next (advance (s2.acked r.part r.coll r.seq r.run ⟨0, kCommit d c.crec⟩ 1) r.part r.coll r.seq)) ∧
      (q.over = true ∨ r.run < q.seen → exec (.commitMessage r fl) s = .next s1)) ∧
    (∀ q fl d, seqIs q → q.live = true → q.run = r.run → q.desc = some d →
      let s1 := (s.orFlags r.part r.coll r.seq fl).ack r.part r.coll r.seq 0 (kConfirm d c.crec) 0
      (crRank c.crec + 1 ≠ crN c.crec → exec (.confirmation r fl) s = .next (s1.finishSeq r.part r.coll r.seq 1 0)) ∧
      (crRank c.crec + 1 = crN c.crec → exec (.confirmation r fl) s =
        .next ((s1.acked r.part r.coll r.seq r.run ⟨0, kCommit d c.crec⟩ 0).finishSeq r.part r.coll r.seq 1 0))) ∧
    (∀ lost sender, let s1 := s.netSend (.send r.part r.coll sender (.acknowledgement r (.notice lost) (crRank c.crec)))
      (lost ∈ c.lost → exec (.lossNotice r ⟨lost, sender⟩) s = .next (forwardAll s1 r.part r.coll lost)) ∧
      (lost ∉ c.lost → exec (.lossNotice r ⟨lost, sender⟩) s =
        .next (forwardAll (s1.loseRank r.part r.coll lost) r.part r.coll lost))) ∧
    (∀ lost sender, exec (.acknowledgement r (.notice lost) sender) s = .next (s.onColl r.part r.coll fun c =>
      { c with notices := c.notices.erase (lost, sender) })) ∧
    (∀ q st, let s1 := s.seeRun r
      s1.seq? r.part r.coll r.seq = some q →
      let s2 := if q.run < r.run then s1.onSeq r.part r.coll r.seq fun q => { q with told := some (r.run, st) } else s1
      (q.over = false → q.seen ≤ r.run → exec (.sequenceAbortNotice r st) s = .next (s2.finishSeq r.part r.coll r.seq st 0)) ∧
      (q.over = true → q.seen ≤ r.run → exec (.sequenceAbortNotice r st) s = .next s2) ∧
      (r.run < q.seen → exec (.sequenceAbortNotice r st) s = .next s1)) ∧
    (∀ p sender k bytes, s.part? r.part = some p → s.hostLines = [] → getKey c.rxTaken sender 0 ≤ k → k < getKey c.rxTaken sender 0 + crWin c.crec →
      (sender, k) ∉ c.rxHeld → exec (.remoteWorkRecord r.part r.coll sender k bytes) s = .next (receiveAll
        (((s.wrMem (mailboxPa c.crec sender k) 64 (ofBytes bytes) p.key).onColl r.part r.coll fun c =>
          { c with rxHeld := c.rxHeld ++ [(sender, k)], rxNacks := c.rxNacks.filter fun e => ¬(e.1 = sender ∧ e.2.1 = k) }).toRank
          r.part r.coll sender (.acknowledgement ⟨r.part, r.coll, 0, 0⟩ (.record sender k) (crRank c.crec))) r.part r.coll sender)) ∧
    (∀ receiver k, exec (.mailboxSlotRelease r.part r.coll receiver k) s = .next (forwardAll (s.onColl r.part r.coll fun c =>
      { c with txFree := setKey c.txFree receiver (max (k + 1) (getKey c.txFree receiver 0)) }) r.part (crId c.crec) receiver))

/-- R97, R99 to R101, R104, R105: the messages of the budget protocol, the knells of a quiet, and an addition at its
data home. A request that asks for more than is free splits the other holders first; then it is granted what it wants as far
as that is free, or denied.
Readings of the model's own that it rests on: logs 15, 49 and 98 (what a grant leaves a tracker that has meanwhile returned
budget is the model's choice). -/
def Obligations.BudgetMessages : Prop :=
  ∀ (s : State) (p : Part) (r k : Nat), s.part? p.id = some p → let h := p.home r
    let got := fun (m : BMsg) => s.setPart (p.setHome (h.take m))
    let c := s.core k
    (∀ lo want, .breq k lo want ∈ h.next → exec (.breq p.id k r lo want) s =
      .next ((got (.breq k lo want)).homeJob p.id r (.breq k lo want))) ∧
    (∀ n, .bgrant k n ∈ h.next →
      (∀ t, c.tracker r = some t → ∃ s1 : State, exec (.bgrant p.id k r n) s = .next s1 ∧
        s1 = { got (.bgrant k n) with cores := s1.cores } ∧ (∀ j, j ≠ k → s1.core j = s.core j) ∧
        s1.core k = { c with asks := c.asks.filter (·.1 ≠ r), trk := c.trk.map fun u =>
          if u.region = r then { u with b := n - getKey c.asks r 0 } else u }) ∧
      (c.tracker r = none → ∃ s1 : State, exec (.bgrant p.id k r n) s = .next (s1.bsend p.id r (.bret k n s.tick)) ∧
        s1 = { got (.bgrant k n) with cores := s1.cores } ∧ s1.core k = { c with asks := c.asks.filter (·.1 ≠ r) })) ∧
    (.bdeny k ∈ h.next → ∃ s1, exec (.bdeny p.id k r) s = .next s1 ∧ (∃ ps, s1.partials = s.partials ++ ps) ∧
      (s1.core k).asks = c.asks.filter (·.1 ≠ r) ∧ (c.tracker r ≠ none → ∀ l ∈ (s1.core k).abuf, l.region ≠ r) ∧
      (∀ t, c.tracker r = some t → t.b = 0 → (s1.core k).tracker r = none)) ∧
    (.drain k ∈ h.next → ∃ s1, exec (.drainKnell p.id k r) s = .next s1 ∧ (∃ ps, s1.partials = s.partials ++ ps) ∧
      (c.tracker r ≠ none → ∀ l ∈ (s1.core k).abuf, l.region ≠ r) ∧ (s1.core k).asks = c.asks ∧
      BMsg.kack k ((c.tracker r).map (·.b) |>.getD 0) s.tick ∈ ((s1.part? p.id).map fun q => (q.home r).msgs).getD [] ∧
      (c.asksFor r = false → (s1.core k).tracker r = none)) ∧
    (.split k ∈ h.next → ∃ s1, exec (.splitKnell p.id k r) s = .next s1 ∧ s1.partials = s.partials ∧
      (s1.core k).abuf = c.abuf ∧ (s1.core k).asks = c.asks ∧
      (∀ t, c.tracker r = some t → ∃ keep, keep = max ((roundUp16 t.m).getD t.m) (roundDown16 (t.b / 2)) ∧
        (s1.core k).trk = c.trk.map (fun u => if u.region = r then { u with b := keep } else u) ∧
        BMsg.kack k (t.b - keep) s.tick ∈ ((s1.part? p.id).map fun q => (q.home r).msgs).getD [])) ∧
    (∀ n t m, h.next.find? (fun m => match m with | .kack x y _ => x == k && y == n | _ => false) = some m → m = .kack k n t →
      (s.sentDone p.id k t (some r) = false → exec (.kack p.id k r n) s = .next s) ∧
      (s.sentDone p.id k t (some r) = true → exec (.kack p.id k r n) s = .next
        (((got m).onHome p.id r fun h =>
          { h.returned k n with await := h.await.map fun l => l.filter (· ≠ k) }).runHome p.id r))) ∧
    (∀ n t m, h.next.find? (fun m => match m with | .bret x y _ => x == k && y == n | _ => false) = some m → m = .bret k n t →
      s.sentDone p.id k t (some r) = true → exec (.bret p.id k r n) s = .next ((got m).homeJob p.id r (.bret k n))) ∧
    (∀ n js, h.jobs = .bret k n :: js → h.await = none →
      homeRun p.id r (js.length + 2) s =
        homeRun p.id r (js.length + 1) (s.setPart (p.setHome { h.returned k n with jobs := js, await := none }))) ∧
    (∀ lo want js n, h.jobs = .breq k lo want :: js →
      let free := h.granted k + (rdLimit (descOf s p r) - h.sum)
      let others := (h.holders.map (·.1)).filter (· ≠ k)
      let b := min want (roundDown16 free)
      let served := if h.locked = true ∨ free < lo then (s.setPart (p.setHome h.pop)).bsend p.id r (.bdeny k)
        else (s.setPart (p.setHome { h.pop with b := setKey h.b k b })).bsend p.id r (.bgrant k b)
      (h.await = none → h.locked = false → free < want → others ≠ [] → homeRun p.id r (n + 1) s =
        others.foldl (fun s o => s.bsend p.id r (.split o)) (s.setPart (p.setHome { h with await := some others }))) ∧
      (h.await = some [] ∨ (h.await = none ∧ (h.locked = true ∨ want ≤ free ∨ others = [])) →
        homeRun p.id r (n + 1) s = homeRun p.id r n served)) ∧
    (∀ i who tau but js, h.jobs = .quiet i who tau but :: js → h.await = none →
      let sel := selectHolders tau (h.holders.filter fun e => but ≠ some e.1)
      (sel = [] → exec (.toleranceQuiet p.id r i) s = .next ((quietDone s p.id r who).runHome p.id r)) ∧
      (sel ≠ [] → exec (.toleranceQuiet p.id r i) s = .next (sel.foldl (fun s o => s.bsend p.id r (.drain o))
        (s.setPart (p.setHome { h with await := some sel }))))) ∧
    (∀ word n e, (s.partials.find? fun e => e.1 = p.id ∧ e.2.core = k ∧ e.2.word = word ∧ e.2.n.toNat = n) = some e →
      (∀ i < 16, PlainMemory s (word + i) p.key) → s.hostLines = [] →
      ∃ s1, exec (.partialSumPerformed p.id k word n) s = .next s1 ∧ s1.partials = s.partials.erase e ∧
        s1.rdMem word 16 p.key = (s.rdMem word 16 p.key + n) % 2 ^ 128 ∧
        ∀ l, OneName l → (∀ i < 16, l ≠ .mem (word + i) p.key) → s1.peek l = s.peek l)

/-- R17, R82, R154, R161, R163, R193, R221, R429, R432, R443: what ends a wait.
Readings of the model's own that it rests on: logs 18 and 50. -/
def Obligations.WaitsEnd : Prop :=
  ∀ (s : State) (g : Group) (p : Part), s.group? g.ref = some g → s.part? g.ref.part = some p → p.id = g.ref.part →
    (∀ b f, g.state = .live → g.ctx.frag b = some f → f.wait = .pause →
      ∃ g', exec (.pauseEnd g.ref b) s = .next (s.setGroup g') ∧ MovedOn b f 1 g g') ∧
    (∀ st va lane, g.state = .live → g.waitOf st = some (.walk va lane) → s.hostLines = [] →
      (∀ e, walk s p va = .ok e → ∃ s1, CachesOnly s s1 ∧
        exec (.pageWalkComplete g.ref st) s = .next ((s1.setPart (p.cacheWalk s va e)).setWait g st .parked)) ∧
      (∀ t, walk s p va = .error t → exec (.pageWalkComplete g.ref st) s = .next (s.halt g st t va lane 0 0))) ∧
    (∀ n, g.stores.length ≤ n → exec (.storeAcknowledgement ⟨g.ref, n⟩) s = .next (s.setGroup { g with acks := g.acks - 1 })) ∧
    (∀ b f, Issues s b g f → Traps .illegalOpcodeWord s b g f .illegalOpcode) ∧
    (∀ e es, LaneIssues s g e es → exec .illegalOpcodeWord s = .next (s.halt g .lane .illegalOpcode 0 0 0 0)) ∧
    (∀ b f, g.ctx.frag b = some f → g.state = .live →
      (prWdog p.prec ≠ 0 → f.wait.parkedNow = true → 2 ^ (prWdog p.prec + 10) ≤ s.clock - f.since → ¬Provisional s g f →
        exec (.watchdogExpiry g.ref b) s = .next (s.halt g (.frag b) .watchdog 0 0 0 0)) ∧
      (prWdog p.prec = 0 ∨ f.wait.parkedNow = false ∨ s.clock - f.since < 2 ^ (prWdog p.prec + 10) →
        exec (.watchdogExpiry g.ref b) s = .next s)) ∧
    (∀ core slot l pend, s.slotOf core slot = .loading l pend → l.key.part = p.id →
      (∀ img, readOverlay s p l = .ok img → ∃ s1, CachesOnly s s1 ∧
        exec (.overlayLoadDone core slot) s = .next (s1.loadDone core slot l pend img)) ∧
      (∀ c va, readOverlay s p l = .error (.fault c va) →
        exec (.overlayLoadFault core slot) s = .next (s.loadFault core slot l pend c va))) ∧
    (∀ (l : Launch) (q : Fin 4), s.launch? p.id l.lid = some l → (l.tq[q]).closing = some false →
      (∀ ls a, engine s p (lrTq l.lrec q + 8) 8 0 true false = .ok ls a →
        let ws := ls.zip (leBytes 4 (l.tq[q]).next ++ leBytes 4 (l.tq[q]).drop)
        exec (.ticketHeaderWriteDone p.id l.lid q.val) s = .next (((s.cacheWrite none 1 0 0 ws).pokes ws).setLaunch
          { l with tq := l.tq.set q (TQueue.openNext (l.tq[q]).closed.length (l.tq[q])) }))) ∧
    (∀ x xs, p.posts = x :: xs → s.hostLines = [] → s.faultRoom p = true → p.mayPost x = true →
      exec (.faultQueueRoom p.id) s = .next (s.writeRecord { p with posts := xs } x.about x.bits))

/-- R25, R31, R106, R153, R219, R220: `exit` waits until earlier blocks and loads are over and what its group did is
performed, then frees its slot and ends its group with the last fragment; `kick` reads a launch record and launches it
once there is room.
Readings of the model's own that it rests on: logs 44 and 48. -/
def Obligations.ExitsAndKicks : Prop :=
  ∀ (s : State) (b : Bool) (g : Group) (f : Frag), Issues s b g f →
    (Provisional s g f ∨ g.loads ≠ [] ∨ ¬Released s g → OnlyWaits .exit s b g f (parkedFrom f.wait)) ∧
    (¬Provisional s g f → g.loads = [] → Released s g → ∃ c', c' = ({ g.ctx.setFrag b none with perf0 := g.ctx.perf0 + 1 } : Ctx).settle ∧
      exec .exit s = .next (((s.setGroup { g with ctx := c' }).drainCore g.core).settleGroup g.ref) ∧
      (g.ctx.stack = [] → g.ctx.frag (!b) = none → c'.f0 = none ∧ c'.f1 = none ∧ c'.stack = []) ∧
      (∀ o, g.ctx.stack = [] → g.ctx.frag (!b) = some o → waitsSince o = none → c'.frag b = none ∧ c'.frag (!b) = some o)) ∧
    (∀ a : AReg, let va := (g.ctx.getA a).toNat
      (256 ≤ s.kicksOpen g.ref.part ∨ ¬Released s g →
        (va % 128 ≠ 0 → TrapsWith (.kick a) s b g f .misalign va 0 0) ∧
        (va % 128 = 0 → OnlyWaits (.kick a) s b g f (parkedFrom f.wait))) ∧
      (s.kicksOpen g.ref.part < 256 → Released s g → ∀ p x, ReadsAt s g p va 128 128 x →
        ∃ s0 c', CachesOnly s s0 ∧ Ran b (f.next 1) [] [] [] g.ctx c' ∧
          let r := (s0.setGroup { g with ctx := c' }).kickLaunch g.ref.part g.ref.lid (BitVec.ofNat 1024 (valueOf (x.locs.map s.peek)))
          (∀ s1, r = .ok s1 → exec (.kick a) s = .next s1) ∧
          (∀ e, r = .error e → ∃ p', s0.part? g.ref.part = some p' ∧
            exec (.kick a) s = .next ((s0.askPeer p' e.1 e.2.1 e.2.2).setGroup
              { g with ctx := g.ctx.setFrag b (some (holding s f (parkedFrom f.wait))) }))))

/-- R17, R30, R200, R205, R429 to R431: a trap halts its group alone, with its registers as they were; its record is
posted in the partition's fault queue, or waits for room; and the return from it makes the group go on, at the same word or
the next. A lane trap returns the scalar context to its value just after the `lrun`, and what was issued since is
discarded (R17). The wait of a fragment that goes on waiting starts again (R432). That the record's LWORD counts from the
lane part is the model's reading: log 93. -/
def Obligations.TrapHaltsTheGroup : Prop :=
  ∀ (s : State) (g : Group) (p : Part) (t : Trap) (va lane user gong : Nat),
    s.group? g.ref = some g → s.part? g.ref.part = some p → s.dev.fenceP = [] → s.hostLines = [] →
    (∀ x, x ≤ prFqCap p.prec → getKey s.skey (prFqBase p.prec / 64 + x) 0 = 0) →
    va < 2 ^ 64 → lane < 64 → user < 2 ^ 16 → g.ref.lid < 2 ^ 32 → g.ref.team < 2 ^ 32 → g.ref.grp < 64 → g.core < 512 →
    let bars := s.barCounts g.ref
    (∀ b f, g.ctx.frag b = some f → f.pcw < 1024 → f.slot < 32 →
      let u := s.halt g (.frag b) t va lane user gong
      (∃ g', u.group? g.ref = some g' ∧
        g' = { g with state := .halted (.trap t.code gong (.frag b)), ctx := g.ctx.halted bars, queue := g'.queue, fetches := [] } ∧
        g'.ctx = { g.ctx with f0 := g'.ctx.f0, f1 := g'.ctx.f1, stack := g'.ctx.stack, perf0 := g'.ctx.perf0 }) ∧
      (∀ r, r ≠ g.ref → u.group? r = s.group? r) ∧
      ∃ r : BitVec 512, TrapFields g t va lane user r ∧ fld r 121 112 = f.pcw ∧ fld r 126 122 = f.slot ∧
        (s.faultRoom p = true ∧ p.posts = [] → RecordPosted s u p (.group g.ref) r) ∧
        (s.faultRoom p = false ∨ p.posts ≠ [] → RecordHeld s u p (.group g.ref) r)) ∧
    (∀ e es, g.queue = e :: es → e.lrunAt < 1024 → e.slot < 32 → e.word < 1024 →
      let u := s.halt g .lane t va lane user gong
      (∃ g', u.group? g.ref = some g' ∧ g' = { g with
          state := .halted (.trap t.code gong .lane), ctx := e.after.halted bars,
          queue := [{ e with wait := .ready, after := e.after.halted bars }], loads := g'.loads, fetches := [] } ∧
        ∀ l, l ∈ g'.loads ↔ l ∈ g.loads ∧ (l.st = .lane ∨ l.at_ ≤ e.at_)) ∧
      (∀ r, r ≠ g.ref → u.group? r = s.group? r) ∧
      ∃ r : BitVec 512, TrapFields g t va lane user r ∧ fld r 121 112 = e.lrunAt ∧ fld r 126 122 = e.slot ∧
        fld r 137 128 = e.word ∧
        (s.faultRoom p = true ∧ p.posts = [] → RecordPosted s u p (.group g.ref) r)) ∧
    (∀ c k b, g.state = .halted (.trap c k (.frag b)) →
      s.resumeGroup g false = s.setGroup { g.awake s with state := .live } ∧
      s.resumeGroup g true = s.setGroup { (g.onCtx fun x => x.retire b 1).awake s with state := .live }) ∧
    (∀ c k, g.state = .halted (.trap c k .lane) → s.resumeGroup g false = s.setGroup { g.awake s with state := .live }) ∧
    (∃ c', g.awake s = { g with ctx := c' } ∧ c' = { g.ctx with f0 := c'.f0, f1 := c'.f1 } ∧
      ∀ b, c'.frag b = (g.ctx.frag b).map fun f => { f with since := s.clock })

/-- R412, R439, R440, R465: the machine after reset is BOOTING, its clock at 0, with no partition, launch, team, group
or operation; no doorbell's operation is in progress and every DONE reads 0; the power limit is 3,600,000 mW. The
model's own fields and the memories, which list nothing, are its choice (logs 2, 3, 6, 7, 8 and 13). -/
def Obligations.ResetState : Prop :=
  State.reset.dev.up = 0 ∧ State.reset.clock = 0 ∧ State.reset.parts = [] ∧ State.reset.launches = [] ∧
  State.reset.teams = [] ∧ State.reset.groups = [] ∧ State.reset.ops = [] ∧ State.reset.dev.pwrlim = 3600000 ∧
  State.reset.dev.att = .reset ∧ State.reset.dev.fw = .reset ∧ Door.reset.done = 0 ∧ Door.reset.busy = none ∧
  (∀ k, k < 8 → let r := State.reset.regs k; r.inv = .reset ∧ r.dead = .reset ∧ r.net = .reset ∧ r.rinv = .reset) ∧
  (∀ off, State.reset.readReg off = 0) ∧ memoriesWf State.reset = true

/-- R438, R463, R465: while the device is not UP every register other than DEVSTAT and the attestation and firmware
groups reads 0; a register that takes writes reads back what was written, and no other register's value changes;
write-only registers read 0.
Readings of the model's own that it rests on: log 78. -/
def Obligations.RegistersRead : Prop :=
  ∀ (s : State),
    (∀ off, s.dev.up ≠ 1 → off ∉ [0x00, 0x20, 0x28, 0x30, 0x40, 0x48, 0x50] → s.readReg off = 0) ∧
    (∀ v : BitVec 64, ∀ e ∈ [((0x20 : Nat), (2 : Nat) ^ 64), (0x28, 16), (0x40, 2 ^ 64), (0x48, 2 ^ 32)],
      ∃ t : State, exec (.registerWrite e.1 v) s = .next t ∧ t.readReg e.1 % e.2 = v.toNat % e.2 ∧
        ∀ o, o ≠ e.1 → t.readReg o = s.readReg o) ∧
    (s.dev.up = 1 → ∀ v : BitVec 64,
      (∀ e ∈ [((0x08 : Nat), (2 : Nat) ^ 64), (0x10, 16), (0x18, 2 ^ 32)],
        ∃ t : State, exec (.registerWrite e.1 v) s = .next t ∧ t.readReg e.1 % e.2 = v.toNat % e.2 ∧
          ∀ o, o ≠ e.1 → t.readReg o = s.readReg o) ∧
      (∀ j, j < 512 → ∃ t : State, exec (.registerWrite (0x200 + j) v) s = .next t ∧
        t.readReg (0x200 + j) = v.toNat % 256 ∧ ∀ o, o ≠ 0x200 + j → t.readReg o = s.readReg o) ∧
      (∀ k, k < 8 → ∀ e ∈ [((0x00 : Nat), (2 : Nat) ^ 64), (0x08, 2 ^ 64), (0x20, 2 ^ 64), (0x28, 2 ^ 32), (0x40, 2 ^ 64),
          (0x50, 2 ^ 14)],
        ∃ t : State, exec (.registerWrite (0x1000 + 256 * k + e.1) v) s = .next t ∧
          t.readReg (0x1000 + 256 * k + e.1) % e.2 = v.toNat % e.2 ∧
          ∀ o, o ≠ 0x1000 + 256 * k + e.1 → t.readReg o = s.readReg o) ∧
      (∃ t : State, exec (.registerWrite 0x400C v) s = .next t ∧
        t.readReg 0x400C = min (max (v.toNat % 2 ^ 32) 1000000) 3600000)) ∧
    (∀ off ∈ [(0x2C : Nat), 0x4C], s.readReg off = 0) ∧
    (∀ k, k < 8 → ∀ o ∈ [(0x10 : Nat), 0x2C, 0x48, 0x54, 0x60], s.readReg (0x1000 + 256 * k + o) = 0)

/-- R15, R16, R32, R181, R193: where the move chosen is a stream's, its step is the instruction that the words where
it stands decode to, performed with that stream in the cursor and with time passed; the words are those of the
overlay copy in the slot of the fragment's PC, or of the lane queue's head. What is tracked beside it of earlier loads
changes nothing where the group has none, and a turn that performs nothing is given back.
Readings of the model's own that it rests on: logs 1 and 44. -/
def Obligations.StepRunsTheDecodedInstruction : Prop :=
  ∀ (s : State) (g : Group) (img : Image) (i : Instr), s.group? g.ref = some g → (s.core g.core).flaws = 0 →
    (∀ b f w e, nextMove s = some (.stream ⟨g.ref, .frag b⟩) → g.ctx.frag b = some f →
      s.image g f.slot = some img → (false, f.pcw) ∉ img.bad → img.scalar[f.pcw]? = some w →
      (isSX (fMajor w) = true → img.scalar[f.pcw + 1]? = some e ∧ (false, f.pcw + 1) ∉ img.bad) →
      (isSX (fMajor w) = false → e = 0) → decodeScalar w e = .ok i → i.fits (limits s g f.pcw) = true →
      let c : Cursor := ⟨g.ref, .frag b⟩
      let t := s.pass.scheduled c
      ∃ h, t.group? g.ref = some h ∧ h = { g with last1 := b, turns := h.turns } ∧ t.cur = c ∧
        (g.queue = [] → g.loads = [] → mustWait t h f w i = false) ∧
        (mustWait t h f w i = false →
          step s = settling (banked s.pass (turned s.pass c (track h i (carry t h f i (exec i t)))))) ∧
        (mustWait t h f w i = true → step s = settling (banked s.pass (turned s.pass c (.next (t.park h none))))) ∧
        (g.ctx.dep = [] → f.wait = .ready ∨ g.queue = [] → track h i (carry t h f i (exec i t)) = exec i t)) ∧
    (∀ x xs v, nextMove s = some (.stream ⟨g.ref, .lane⟩) → g.queue = x :: xs →
      s.image g x.slot = some img → (true, x.word) ∉ img.bad → img.lane[x.word]? = some v →
      decodeLane v = .ok i → i.fits (limits s g 0) = true →
      let c : Cursor := ⟨g.ref, .lane⟩
      let t := s.pass.scheduled c
      ∃ h, t.group? g.ref = some h ∧ h = { g with turns := h.turns } ∧ t.cur = c ∧
        (g.loads = [] → (s.core g.core).mops = [] → laneWaits t h i = false) ∧
        (laneWaits t h i = false → step s = settling (banked s.pass (turned s.pass c (trackLane h x i (exec i t))))) ∧
        (laneWaits t h i = true → step s = settling (banked s.pass (turned s.pass c (.next (t.park h none))))) ∧
        (g.ctx.dep = [] → g.ldep = [] → x.dep = [] → trackLane h x i (exec i t) = exec i t))

/-- R185 to R198: words that the specification writes out decode to the instructions it writes beside them. -/
def Obligations.KnownWordsDecode : Prop :=
  (∀ e ∈ knownScalarWords, decodeWords e.1 = .ok e.2) ∧ ∀ e ∈ knownLaneWords, decodeWords e.1 = .ok e.2

/-- R181 to R198: the words of every well-formed instruction of the scalar and lane streams decode to it, with every
operand at every value the encoding admits. -/
def Obligations.DecodeOfEncode : Prop :=
  ∀ i : Instr, i.wf = true → encode i ≠ [] → decodeWords (encode i) = .ok i

/-- Every step keeps every memory in its canonical form: physical memory, the chip scratchpad, scratchpads, tiles,
lane registers, lane scratch and dictionaries. -/
def Obligations.MemoriesStayCanonical : Prop :=
  ∀ s s' : State, memoriesWf s = true → step s = .next s' → memoriesWf s' = true

/-- R21, R31, R36 to R41, R47, R138, R172, R270, R422 to R424: the distributor's steps: entries are read, and the record of
an entry that has reached the head; the eligible head of highest PRIO is taken, a team is placed with its groups as R21 has
them, a launch that was passed over for 65536 cycles goes first, loading ends, teams move.
Readings of the model's own that it rests on: logs 32, 43 (a group's start discards every `.si` copy of its core), 67 (which
teams move, and where) and 108 (a `cpyt` not wholly gathered moves with its team). -/
def Obligations.DistributorSteps : Prop :=
  ∀ (s : State) (p : Part), s.part? p.id = some p → p.state = .active →
    (∀ q bs, q < prNlq p.prec → let d := queueDesc s p q
      let h := queueHead s p q
      s.hostLines = [] → h.1 ≠ fld d 127 96 → engineBytes s p (fld d 63 0 + 64 * (h.1 % 2 ^ fld d 68 64)) 64 0 false = .ok bs →
      let e := BitVec.ofNat 512 (valueOf bs)
      (s.incomplete p.id (entryLid e) = true → exec (.launchEntryRead p.id q) s = .next s) ∧
      (s.incomplete p.id (entryLid e) = false → ∃ s1, CachesOnly s s1 ∧ exec (.launchEntryRead p.id q) s =
        .next ((s1.setPart (p.setHead q ((h.1 + 1) % 2 ^ 32, h.2 ++ [(h.1, e)]))).addLaunch
          (Launch.new p.id (entryLid e) (fld e 63 0) (fld e 319 256) none (.read q (entryDeps e) (fld e 319 256 % 8 != 0)))))) ∧
    (headsHeld s p = none → ∀ l, headToRead s p = some l →
      (∀ r, readRecord s p l = .ok r → ∃ s1, CachesOnly s s1 ∧
        exec (.launchTaken p.id) s = .next (s1.setLaunch { l with lrec := r, headRead := some none })) ∧
      (∀ c a, readRecord s p l = .error (.fault c a) →
        exec (.launchTaken p.id) s = .next (s.setLaunch { l with headRead := some (some (c, a)) }))) ∧
    (∀ h, headsHeld s p = none → headToRead s p = none → ((queueHeads s p).find? fun h => headIs s p h.2 = .passed) = some h →
      exec (.launchTaken p.id) s = .next (s.passHead p.id h.1)) ∧
    (headsHeld s p = none → headToRead s p = none → (∀ h ∈ queueHeads s p, headIs s p h.2 ≠ .passed) →
      (∀ h, ((queueHeads s p).find? fun h => headIs s p h.2 = .failed) = some h →
        exec (.launchTaken p.id) s = .next ((s.passHead p.id h.1).completeLaunch p.id h.2.lid 3)) ∧
      ((∀ h ∈ queueHeads s p, headIs s p h.2 ≠ .failed) → ∀ q l i ds, headToTake s p = some (q, l) →
        let s1 := (s.setPart { p with rot := (q + 1) % prNlq p.prec }).passHead p.id q
        (l.state = .read i ds true → exec (.launchTaken p.id) s = .next (s1.completeLaunch p.id l.lid 0x10)) ∧
        (l.state = .read i ds false → ∀ t, s1.takeLaunch p.id l.lid (headRecord s p l) = .ok t →
          exec (.launchTaken p.id) s = .next t))) ∧
    (∀ q l, headToTake s p = some (q, l) → (q, l) ∈ queueHeads s p ∧ headIs s p l = .eligible ∧
      ∀ h ∈ queueHeads s p, headIs s p h.2 = .eligible → headPrio h.2 ≤ headPrio l) ∧
    (∀ l ls c odd t, toPlace s p = l :: ls → placeHeld s p = none → s.launch? p.id l.lid = some l → lrCoop l.lrec = false →
      chooseCore s p l ⟨p.id, l.lid, l.next⟩ = some (c, odd) → putTeam s p l c odd = some t →
      exec (.teamPlacement p.id) s = .next t) ∧
    (∀ l c odd t, putTeam s p l c odd = some t → lrDet l.lrec ≠ 1 → (∀ u ∈ s.teams, u.ref ≠ ⟨l.part, l.lid, l.next⟩) →
      (∀ g ∈ s.groups, g.ref.tref ≠ ⟨l.part, l.lid, l.next⟩) →
      (∃ u, t.team? ⟨l.part, l.lid, l.next⟩ = some u ∧ u.state = .loading ∧ u.core = c ∧ u.spd = [] ∧ u.pres = [] ∧
        u.tiles = [] ∧ u.gongs = List.replicate l.gongs .reset) ∧
      ∀ x < lrGroups l.lrec, ∃ g f, t.group? ⟨l.part, l.lid, l.next, x⟩ = some g ∧ g.state = .loading none ∧
        g.core = (if lrPair l.lrec = true ∧ lrEven l.lrec ≤ x then c + 1 else c) ∧ g.lregs = [] ∧ g.slc = [] ∧ g.queue = [] ∧
        (∀ r, g.ctx.getS r = 0) ∧ (∀ r, g.ctx.getA r = if r = 0 then BitVec.ofNat 64 (lrParam l.lrec) else 0) ∧
        (∀ r, g.ctx.getC r = false) ∧ g.ctx.f0 = some f ∧ g.ctx.f1 = none ∧ g.ctx.stack = [] ∧ f.pcw = lrEntry l.lrec ∧
        f.mask = BitVec.ofNat 64 (2 ^ lrWidth l.lrec - 1) ∧ f.depth = 0 ∧ f.tokens = 0 ∧ f.wait = .ready) ∧
    (∀ l lid, ((toPlace s p).find? fun l => l.lid = lid) = some l → l.waited = false →
      (∀ t, l.passed = some t → 65536 ≤ s.clock - t → (placeTeams p.id lid l.batch s).isNone = true →
        exec (.placementWaitLimit p.id lid) s = .next (s.setLaunch { l with waited := true })) ∧
      ((∀ t, l.passed = some t → s.clock - t < 65536) → exec (.placementWaitLimit p.id lid) s = .next s)) ∧
    (∀ g h, s.group? g.ref = some g → g.ref.part = p.id → g.state = .loading h → overlaysReady s g = true →
      exec (.groupSetupComplete g.ref) s = .next (((s.discardSi g).setGroup
        { g.noSeen.awake s with state := (match h with | some x => .halted x | none => .live),
                                turns := Vector.replicate 3 s.clock }).settleLoading g.ref.tref)) ∧
    (∀ l t core, s.launch? p.id l.lid = some l → s.team? t.ref = some t → t.ref.part = p.id → t.ref.lid = l.lid →
      (mayMove s p l t core = true → ∃ u : State, exec (.migrationStart p.id l.lid t.ref.team core) s =
          .next (u.setTeam { t with state := .migrating, moved := some core }) ∧ u.teams = s.teams ∧
        (∀ g ∈ u.groups, g.ref.tref = t.ref → g.state ≠ .live) ∧
        (∀ r, r.tref ≠ t.ref → u.group? r = s.group? r) ∧
        ((s.groups.map (·.ref)).Nodup → ∀ r g, s.group? r = some g → g.state ≠ .live → u.group? r = some g)) ∧
      (t.state = .migrating → t.moved = some core → (∀ o ∈ s.ops, o.by_.tref = t.ref → cpytReady s o = false) →
        (∀ m ∈ (s.core t.core).mops, m.by_.tref ≠ t.ref) →
        (∀ g ∈ s.teamGroups t.ref, g.state.present = true → g.loads = [] ∧ Released s g) →
        (∀ n ∈ needs l.lrec, hasRoom s core n l.gongs l.nacc true = true) →
        ∀ x, bringTeam s p l t core (heldSlots s t.ref) = some x →
          exec (.migrationComplete p.id l.lid t.ref.team) s = .next (x.drainCore t.core)))

/-- R411 to R421, R425, R431, R433 to R435: the management commands: what each refuses with which status, and what each
does.
Readings of the model's own that it rests on: logs 62, 63, 64 (the granule table), 65, 66 (save images), 83 and 96 (an
unlock drops the region's trackers). -/
def Obligations.ManagementCommands : Prop :=
  ∀ (s : State) (c : Cmd),
    (∀ op i, IsCommand op c i → c.clean = false ∨ 7 < c.part → exec i s = .next (s.answer c 2)) ∧
    (∀ op i, IsCommand op c i → op ≠ 1 → c.clean = true → c.part < 8 → s.part? c.part = none →
      exec i s = .next (s.answer c 4)) ∧
    (∀ op i p, IsCommand op c i → Takes s c p →
      (op = 1 ∨ (op = 2 ∧ p.state ≠ .active ∧ p.state ≠ .suspended) ∨ (op = 4 ∧ p.state ≠ .suspended) ∨
        (op ≠ 2 ∧ op ≠ 4 ∧ p.state ≠ .active)) → exec i s = .next (s.answer c 3)) ∧
    (c.clean = true → c.part < 8 → s.part? c.part = none → let r := BitVec.ofNat 1024 (s.rdMem c.arg0 128 0)
      (c.arg0 % 128 ≠ 0 ∨ isHbm c.arg0 = false ∨ recordOk s r = false → exec (.partCreate c) s = .next (s.answer c 2)) ∧
      (c.arg0 % 128 = 0 → isHbm c.arg0 = true → recordOk s r = true →
        ∃ (t : State) (hs : List (Nat × Nat × List (Nat × BitVec 512))), exec (.partCreate c) s = .next (t.answer c 1) ∧ t.keys = s.keys + 1 ∧
          t.parts = s.parts ++ [Part.new c.part r (s.keys + 1) (granuleTable s r) hs] ∧
          (∀ k ∈ prCores r, t.core k = { Core.reset k with ueAt := (s.core k).ueAt, ceAt := (s.core k).ceAt }) ∧
          (∀ m, m ∈ t.msc ↔ m ∈ s.msc ∧ (prMscWays r).getLsbD m.way = false) ∧
          ∀ o, o / 65536 ∈ granuleTable s r → Memory.rd t.chip o = 0)) ∧
    (∀ p, Takes s c p → p.state = .active ∨ p.state = .suspended →
      exec (.partDestroy c) s = .next (let s1 := killAll (s.begin p 2 c .destroying) p.id
        match s1.part? p.id with | some q => abortAll (drainPart s1 q) q | none => s1)) ∧
    (∀ p, c.clean = true → c.part < 8 → s.part? c.part = some p → p.cmd = some (2, c) → drained s p = true →
      (∀ l ∈ s.launches, l.part = p.id → l.state.isComplete = true) →
      (∀ k ∈ p.colls, ∀ q ∈ k.seqs, q.ending = none) → ∃ t : State, exec (.partDestroy c) s = .next (t.answer c 1) ∧
        t.part? p.id = none ∧ (∀ g ∈ t.groups, g.ref.part ≠ p.id) ∧ (∀ x ∈ t.teams, x.ref.part ≠ p.id) ∧
        (∀ l ∈ t.launches, l.part ≠ p.id) ∧ (∀ o ∈ t.ops, o.by_.part ≠ p.id) ∧
        (∀ m ∈ t.msc, (prMscWays p.prec).getLsbD m.way = false) ∧ (∀ e ∈ t.dirty, e.2 ≠ p.key) ∧
        (∀ l ∈ t.l2, l ∈ s.l2 ∧ getKey s.skey (2 * l.line) (p.key + 1) ≠ p.key ∧ getKey s.skey (2 * l.line + 1) (p.key + 1) ≠ p.key) ∧
        (∀ o, o / 65536 ∈ p.grans → Memory.rd t.chip o = 0)) ∧
    (∀ p, Takes s c p → p.state = .active →
      (c.arg0 % 65536 ≠ 0 ∨ isHbm (c.arg0 + saveBytes p - 1) = false → exec (.preempt c) s = .next (s.answer c 2)) ∧
      (c.arg0 % 65536 = 0 → isHbm (c.arg0 + saveBytes p - 1) = true → ∃ (u : State) (hs : List Home), exec (.preempt c) s = .next (drainPart u p) ∧
        u.part? p.id = some { p with state := .suspending, cmd := some (3, c), homes := hs,
                                     saveAt := some (c.arg0, s.clock, s.nextId + 1) } ∧
        (∀ g ∈ u.groups, g.ref.part = p.id → g.state ≠ .live) ∧ (∀ x ∈ u.teams, x.ref.part = p.id → x.state ≠ .migrating))) ∧
    (∀ p area t0 id, s.part? p.id = some p → p.state = .suspending → p.cmd = some (3, c) → p.saveAt = some (area, t0, id) →
      s.hostLines = [] → partQuiet s p.id = true → drained s p = true →
      ∃ (u : State) (q : Part), u.part? p.id = some q ∧ exec (.saveComplete p.id) s = .next ((u.setPart { q with state := .suspended }).answer c 1) ∧
        (∀ x ∈ u.teams, x.ref.part = p.id → x.state.present = false) ∧ (area + 64, saveBytes p - 64, id) ∈ u.images) ∧
    (∀ p, c.clean = true → c.part < 8 → s.part? c.part = some p → p.state = .suspended →
      (p.cmd = none → imageWhole s p c.arg0 = false → exec (.restore c) s = .next (s.answer c 5)) ∧
      (p.cmd = none → imageWhole s p c.arg0 = true →
        ∀ u, bringAll p true (s.teams.filter fun t => t.ref.part = p.id ∧ t.state = .saved) s = some u →
          let posts := (p.recs.map fun r => (⟨some r.about, r.bits &&& ~~~(place 512 224 (2 ^ 32 - 1)), true⟩ : Posting)) ++ p.posts
          let v := if u.faultRoomFor p posts.length then u else u.wrMem (prFqBase p.prec + 8) 1 1 0
          exec (.restore c) s = .next (v.setPart { p with cmd := some (4, c), recs := [], posts := posts })) ∧
      (p.cmd = some (4, c) → p.posts = [] → (∀ t ∈ s.teams, t.ref.part = p.id → t.state ≠ .loading ∧ t.state ≠ .saved) →
        exec (.restore c) s = .next ((s.setPart { p with state := .active, saveAt := none }).answer c 1))) ∧
    (∀ p, c.clean = true → c.part < 8 → s.part? c.part = some p → p.cmd = some (5, c) →
      s.incomplete p.id (c.arg0 % 2 ^ 32) = false → exec (.kill c) s = .next (s.answer c 1)) ∧
    (∀ p r, c.clean = true → c.part < 8 → s.part? c.part = some p → p.cmd = some (6, c) → openRec p c = some r →
      (awaitsSlot s r = true → exec (.replay c) s = .next s) ∧
      (awaitsSlot s r = false → exec (.replay c) s = .next ((closeRec s p r).answer c 1))) ∧
    (∀ p, Takes s c p → p.state = .active →
      (s.incomplete p.id (c.arg0 % 2 ^ 32) = true → let u := s.killLaunch p.id (c.arg0 % 2 ^ 32)
        (u.incomplete p.id (c.arg0 % 2 ^ 32) = false → exec (.kill c) s = .next (u.answer c 1)) ∧
        (u.incomplete p.id (c.arg0 % 2 ^ 32) = true → ∃ q, u.part? p.id = some q ∧
          exec (.kill c) s = .next (u.begin q 5 c q.state))) ∧
      (s.incomplete p.id (c.arg0 % 2 ^ 32) = false → exec (.kill c) s = .next (s.answer c 2)) ∧
      (∀ r, (p.recs.find? fun r => r.seq % 2 ^ 32 = c.arg0 % 2 ^ 32) = some r →
        (∀ t, replay (closeRec s p r) p r = some t → awaitsSlot t r = false → exec (.replay c) s = .next (t.answer c 1)) ∧
        (∀ t q, replay (closeRec s p r) p r = some t → awaitsSlot t r = true → t.part? p.id = some q →
          exec (.replay c) s = .next (t.begin { q with recs := r :: q.recs } 6 c q.state)) ∧
        (replay (closeRec s p r) p r = none → exec (.replay c) s = .next (s.answer c 2)) ∧
        (∀ g, r.about = .group g.ref → s.group? g.ref = some g → fld r.bits 7 0 = 0x10 ∨ fld r.bits 7 0 = 0x11 →
          exec (.resume c) s = .next (((closeRec s p r).resumeGroup g true).answer c 1))) ∧
      ((∀ r ∈ p.recs, r.seq % 2 ^ 32 ≠ c.arg0 % 2 ^ 32) →
        exec (.replay c) s = .next (s.answer c 2) ∧ exec (.resume c) s = .next (s.answer c 2)) ∧
      let h := p.home c.arg0
      (prNrdt p.prec ≤ c.arg0 → exec (.regionLock c) s = .next (s.answer c 2) ∧ exec (.regionUnlock c) s = .next (s.answer c 2)) ∧
      (c.arg0 < prNrdt p.prec → h.locked = true → .lock ∉ h.quiet → exec (.regionLock c) s = .next (s.answer c 1)) ∧
      (c.arg0 < prNrdt p.prec → h.locked = false → h.jobs = [] → h.holders = [] →
        ∃ t : State, exec (.regionLock c) s = .next (t.answer c 1) ∧ (t.home p.id c.arg0).locked = true ∧
          (t.home p.id c.arg0).desc = some (h.desc.getD (tableDesc s p c.arg0)) ∧ t.mem = s.mem) ∧
      (c.arg0 < prNrdt p.prec → ∃ t : State, exec (.regionUnlock c) s = .next (t.answer c 1) ∧ (t.home p.id c.arg0).locked = false ∧
        (t.home p.id c.arg0).desc = none ∧ ∀ k ∈ prCores p.prec, (t.core k).tracker c.arg0 = none) ∧
      ((∃ t ∈ s.teams, t.ref.part = p.id ∧ t.state.present = true) → exec (.slotFlush c) s = .next (s.answer c 3)) ∧
      ((∀ t ∈ s.teams, t.ref.part = p.id → t.state.present = false) →
        (∀ k ∈ prCores p.prec, (s.core k).waits = [] ∧ ∀ e ∈ (s.core k).slots, e.2.inFlight = false) →
        ∃ t : State, exec (.slotFlush c) s = .next (t.answer c 1) ∧ ∀ k ∈ prCores p.prec, ∀ a, prSlotBase p.prec ≤ a →
          a < prSlotBase p.prec + prNslot p.prec → t.slotOf k a = .empty))

/-- R438 to R440, R444 to R446, R449, R453, R456, R457: the doorbells, the steps that end their operations, and the
writes of the device's registers.
Readings of the model's own that it rests on: log 70. -/
def Obligations.DoorbellsAndRegisters : Prop :=
  ∀ (s : State),
    (∀ part n v go fin, IsGo n part v go → IsEnd n part fin → let r := s.regs part
      let d := doorOf r n
      (s.dev.up ≠ 1 → exec go s = .next s) ∧
      (s.dev.up = 1 → part < 8 → v.toNat < 2 ^ 24 →
        (∀ q, d.busy = some q → ∃ t : State, exec go s = .next t ∧ t.outbox = s.outbox ++ [.msix (1 + part)] ∧
          doorOf (t.regs part) n = { d with done := BitVec.ofNat 32 (v.toNat + 3 * 2 ^ 24) }) ∧
        (d.busy = none → ∃ t : State, exec go s = .next t ∧
          doorOf (t.regs part) n = { d with busy := some (v.setWidth 24), arg0 := (argsOf r n).1, arg1 := (argsOf r n).2 })) ∧
      (d.busy = none → exec fin s = .next s)) ∧
    (∀ part p va len, s.part? part = some p → part < 8 → let d := (s.regs part).inv
      d.busy ≠ none → d.arg0 = va → d.arg1 = len →
      (rangeOk va len = false → ∃ t : State, exec (.shootdownComplete part) s = .next t ∧ Ended d (t.regs part).inv 2) ∧
      (rangeOk va len = true → translating s part = true → exec (.shootdownComplete part) s = .next s) ∧
      (rangeOk va len = true → translating s part = false → ∃ t : State, exec (.shootdownComplete part) s = .next t ∧
        Ended d (t.regs part).inv 1 ∧ ∃ q, t.part? part = some q ∧ q.stale = [] ∧
        q.tlb = p.tlb.filter (fun e => !e.within va len) ∧ q.descs = p.descs.filter (fun e => !e.within va len) ∧
        q = { p with stale := [], tlb := q.tlb, descs := q.descs })) ∧
    (∀ part, part < 8 → let d := (s.regs part).dead
      d.busy ≠ none →
      (deadOk d.arg0 d.arg1 = false → ∃ t : State, exec (.deadDeclarationDone part) s = .next t ∧ Ended d (t.regs part).dead 2) ∧
      (deadOk d.arg0 d.arg1 = true → s.dev.raced = [] → ∃ t : State, exec (.deadDeclarationDone part) s = .next t ∧
        Ended d (t.regs part).dead 1 ∧ ∀ x, let within := d.arg0 ≤ x ∧ x < d.arg0 + 65536 * d.arg1
          (within → (∀ l ∈ t.l2, 128 * l.line ≠ x) ∧ ∀ m ∈ t.msc, 2048 * m.chunk ≠ x) ∧
          (within → Memory.rd t.mem x = 0 ∧ chunkUnwritten t.unwritten (x / 2048) = true ∧ x / 64 ∉ t.poison) ∧
          (¬within → Memory.rd t.mem x = Memory.rd s.mem x))) ∧
    (∀ part p, s.part? part = some p → part < 8 → s.hostLines = [] → let d := (s.regs part).net
      let t := readNet s d.arg0
      d.busy ≠ none →
      (netOk s part d.arg0 t = false → ∃ u : State, exec (.netSetupDone part) s = .next u ∧ Ended d (u.regs part).net 2) ∧
      (netOk s part d.arg0 t = true → collBusy s p t = true → ∃ u : State, exec (.netSetupDone part) s = .next u ∧
        Ended d (u.regs part).net 3) ∧
      (netOk s part d.arg0 t = true → collBusy s p t = false → ∃ u : State, exec (.netSetupDone part) s = .next u ∧
        Ended d (u.regs part).net 1 ∧ ∃ q, u.part? part = some q ∧ q.nethdr = t.hdr ∧ q.colls.map (·.crec) = t.colls)) ∧
    (∀ part p, s.part? part = some p → part < 8 → let d := (s.regs part).rinv
      d.busy ≠ none → ∃ t q, exec (.remoteInvalidationDone part) s = .next t ∧ Ended d (t.regs part).rinv 1 ∧
        t.part? part = some q ∧ q = { p with remote := q.remote } ∧
        ∀ e, e ∈ q.remote ↔ e ∈ p.remote ∧ d.arg0 ≠ 0x3FFF ∧ e.1 ≠ d.arg0) ∧
    (∀ v : BitVec 32, v.toNat < 2 ^ 24 → s.dev.att.busy = none → ∃ t : State, exec (.attgo v) s = .next t ∧ t.dev.att =
      { s.dev.att with busy := some (v.setWidth 24), arg0 := s.dev.attAddr.toNat, arg1 := s.dev.attPart.toNat % 16 }) ∧
    (s.dev.att.busy ≠ none →
      (8 < s.dev.att.arg1 → ∃ t : State, exec .attestationDone s = .next t ∧ Ended s.dev.att t.dev.att 2 ∧ t.mem = s.mem) ∧
      (s.dev.att.arg1 ≤ 8 → ∃ t bs, exec .attestationDone s = .next t ∧ Ended s.dev.att t.dev.att 1 ∧ bs.length = 1280 ∧
        t.mem = (s.pokes ((hostMem (s.dev.att.arg0 + 64) 1536).zip
          (reportBytes s ((hostMem s.dev.att.arg0 64).map s.peek) s.dev.att.arg1 ++ bs))).mem)) ∧
    (∀ v : BitVec 32, v.toNat < 2 ^ 24 → s.dev.fw.busy = none →
      (s.dev.up = 1 → s.parts ≠ [] → ∃ t : State, exec (.fwgo v) s = .next t ∧ t.outbox = s.outbox ++ [.msix 0] ∧
        t.dev.fw = { s.dev.fw with done := BitVec.ofNat 32 (v.toNat + 3 * 2 ^ 24) }) ∧
      (s.dev.up ≠ 1 ∨ s.parts = [] → ∃ t : State, exec (.fwgo v) s = .next t ∧ t.dev.fw =
        { s.dev.fw with busy := some (v.setWidth 24), arg0 := s.dev.fwAddr.toNat, arg1 := s.dev.fwSize.toNat })) ∧
    (s.dev.fw.busy ≠ none → let bs := (hostMem s.dev.fw.arg0 s.dev.fw.arg1).map s.peek
      ∃ t : State, exec .firmwareUpdateDone s = .next t ∧
        (imageFault bs = none → Ended s.dev.fw t.dev.fw 1 ∧ t.dev.flash = bs ∧ t.dev.failcnt = 0) ∧
        (imageFault bs ≠ none → Ended s.dev.fw t.dev.fw 2 ∧ t.dev.flash = s.dev.flash ∧ t.dev.failcnt = s.dev.failcnt)) ∧
    (∀ (off : Nat) (v : BitVec 64),
      (s.dev.up ≠ 1 → off ∉ [0x20, 0x28, 0x2C, 0x40, 0x48, 0x4C] → exec (.registerWrite off v) s = .next s) ∧
      exec (.registerWrite 0x20 v) s = .next { s with dev := { s.dev with attAddr := v } } ∧
      exec (.registerWrite 0x2C v) s = exec (.attgo (v.setWidth 32)) s ∧
      exec (.registerWrite 0x4C v) s = exec (.fwgo (v.setWidth 32)) s ∧
      (s.dev.up = 1 → exec (.registerWrite 0x18 v) s = .next { s with dev := { s.dev with mrtail := v.setWidth 32 } } ∧
        exec (.registerWrite 0x400C v) s = exec (.pwrlimWrite (v.setWidth 32)) s ∧
        (∀ part, part < 8 → exec (.registerWrite (0x1000 + 256 * part + 0x10) v) s = exec (.invgo part (v.setWidth 32)) s ∧
          exec (.registerWrite (0x1000 + 256 * part + 0x60) v) s = exec (.peerdown part (v.setWidth 32)) s) ∧
        (0x1800 ≤ off → off ≠ 0x400C → exec (.registerWrite off v) s = .next s))) ∧
    (∀ v : BitVec 32, s.dev.up = 1 → exec (.pwrlimWrite v) s =
      .next { s with dev := { s.dev with pwrlim := BitVec.ofNat 32 (min (max v.toNat 1000000) 3600000) } }) ∧
    (∀ part (v : BitVec 32) c, s.coll? part (fld v 15 0) = some c → s.dev.up = 1 → fld v 28 16 < crN c.crec →
      exec (.peerdown part v) s = .next (loseMember s part (fld v 15 0) (fld v 28 16)))

/-- R62 to R64, R454, R456, R459 to R467: refresh, scrubs, errors, calibration, telemetry, heat and starts.
Readings of the model's own that it rests on: logs 33, 37, 75, 84, 115 (a refresh that falls due during an all-bank refresh
waits for it), 124 (seconds are those of the clock) and 125 (at most 15 of 16 cycles are gated). -/
def Obligations.MemoryUpkeepAndStarts : Prop :=
  ∀ (s : State),
    (∀ st ch, let p := s.pch st ch
      let bank := 4 * (p.n % 4) + p.n / 4 % 4
      let t0 := p.dueAt
      (s.dev.up ≠ 1 ∨ 5 * s.clock < t0 → exec (.refreshDue st ch) s = .next s) ∧
      (s.dev.up = 1 → t0 ≤ 5 * s.clock →
        (s.bankBusy p (p.n % 4) t0 = true → p.owed.length < 8 →
          exec (.refreshDue st ch) s = .next (s.setPch { p with n := p.n + 1, owed := p.owed ++ [bank] })) ∧
        (s.bankBusy p (p.n % 4) t0 = true → 8 ≤ p.owed.length → ∃ t : State, exec (.refreshDue st ch) s = .next t ∧
          t.pch st ch = { p with n := p.n + 1, owed := [], all_ := some (t0 + 2100) }) ∧
        (s.bankBusy p (p.n % 4) t0 = false → p.all_ = none → (∀ b ∈ p.banks, b.1 / 4 ≠ p.n % 4) → (∀ b ∈ p.due, b / 4 ≠ p.n % 4) →
          ∃ t : State, exec (.refreshDue st ch) s = .next t ∧
            t.pch st ch = { p with n := p.n + 1, banks := p.banks ++ [(bank, t0 + 1200)] }) ∧
        (s.bankBusy p (p.n % 4) t0 = false → p.all_ ≠ none →
          exec (.refreshDue st ch) s = .next (s.setPch { p with n := p.n + 1, due := p.due ++ [bank] }))) ∧
      (∀ b e, b ≠ 16 → (p.banks.find? fun x => x.1 = b) = some (b, e) →
        (5 * s.clock < e → exec (.refreshEnd st ch b) s = .next s) ∧
        (e ≤ 5 * s.clock → exec (.refreshEnd st ch b) s =
          .next (s.startIn { p with banks := p.banks.filter fun x => x.1 ≠ b } (b / 4) e))) ∧
      (∀ e, p.all_ = some e → e ≤ 5 * s.clock →
        ∃ t : State, exec (.refreshEnd st ch 16) s = .next t ∧ (t.pch st ch).all_ = none) ∧
      (∀ bg t, p.idleAt bg = some t → bg ∈ p.busy → t ≤ 5 * s.clock → s.queued p.stack p.pch bg t = false → exec (.bankGroupIdle st ch bg) s =
          .next (s.startIn { p with busy := p.busy.erase bg } bg t)) ∧
      (s.dev.up = 1 → p.calib = false → p.calibAt = 0 ∨ p.calibAt + 600000000 ≤ 5 * s.clock →
        exec (.phyCalibration st ch) s = .next (s.setPch { p with calib := true, calibAt := max 1 (5 * s.clock) })) ∧
      (p.calib = true → let q := { p with calib := false }
        exec (.phyCalibrationEnd st ch) s = .next ((s.setPch q).resumeReads q))) ∧
    (∀ x, let p := s.pch (hbmStack (64 * x)) (hbmPch (64 * x))
      s.dev.up = 1 → isHbm (64 * x) = true → p.calib = false → p.all_ = none → (∀ b ∈ p.banks, b.1 ≠ hbmBank (64 * x)) →
      s.toRead (inSector x) = false →
      let s1 : State := { s with dev := { s.dev with scrubbed := addSector s.dev.scrubbed x } }
      (∀ r, chunkUnwritten s.unwritten (64 * x / 2048) = true → exec (.patrolScrub x r false) s = .next s1) ∧
      (passComplete s1 = false → exec (.patrolScrub x .clean true) s = .next s1) ∧
      (passComplete s1 = true → ∃ t : State, exec (.patrolScrub x .clean true) s = .next t ∧
        counted s.dev.scrubP t.dev.scrubP 1 ∧ t.dev.scrubbed = [] ∧ ∀ q ∈ t.pchs, q.bad = 0) ∧
      (chunkUnwritten s.unwritten (64 * x / 2048) = false →
        exec (.patrolScrub x .clean false) s = .next s1 ∧
        (∃ t : State, exec (.patrolScrub x .corrected false) s = .next t ∧ counted s.dev.hbmCe t.dev.hbmCe 1 ∧ SameBytes s t ∧
          t.poison = s.poison) ∧
        (p.bad < 15 → ∃ t : State, exec (.patrolScrub x .uncorrectable false) s = .next t ∧ counted s.dev.hbmUe t.dev.hbmUe 1 ∧
          ∀ y, y ∈ t.poison ↔ y = x ∨ y ∈ s.poison))) ∧
    (s.dev.up = 1 → (∀ a, exec (.sramScrub a .clean) s = .next s) ∧
      (∀ a, ∃ t : State, exec (.sramScrub a .corrected) s = .next t ∧ counted s.dev.sramCe t.dev.sramCe 1 ∧ SameBytes s t) ∧
      (∀ l, s.toRead (inArray s (.dirtyLine l)) = false → (∃ e ∈ s.dirty, e.1 ∈ s.dirtySectors l) →
        ∃ t : State, exec (.sramScrub (.dirtyLine l) .uncorrectable) s = .next t ∧ counted s.dev.sramUe t.dev.sramUe 1 ∧
          ∀ y, y ∈ t.poison ↔ y ∈ s.dirtySectors l ∨ y ∈ s.poison) ∧
      (∀ k, 10000 ≤ ((s.core k).ceAt.filter fun t => s.clock ≤ t + cyclesIn 1).length →
        ∃ t : State, exec (.sramScrub (.coreArray k) .corrected) s = .next t ∧ (k ∈ t.dev.fenceC ∨ k ∈ t.dev.pendC)) ∧
      (∀ k, s.toRead (inArray s (.coreArray k)) = false → ∃ t : State,
        exec (.sramScrub (.coreArray k) .uncorrectable) s = .next t ∧ counted s.dev.sramUe t.dev.sramUe 1 ∧
        ((∃ e ∈ (s.core k).ueAt, s.clock ≤ e + cyclesIn 24) → k ∈ t.dev.fenceC ∨ k ∈ t.dev.pendC)) ∧
      (∀ o, s.toRead (inArray s (.chipWord o)) = false → ∃ t : State, exec (.sramScrub (.chipWord o) .uncorrectable) s = .next t ∧ counted s.dev.sramUe t.dev.sramUe 1 ∧
        t.bad (.chip o) = true)) ∧
    (∃ t : State, exec (.crcRetry .hostLink) s = .next t ∧ counted s.dev.linkRty t.dev.linkRty 1 ∧ SameBytes s t) ∧
    (∀ n, ∃ t : State, exec (.crcRetry (.port n)) s = .next t ∧ SameBytes s t ∧ t.dev.linkRty = s.dev.linkRty ∧
      let e? := s.dev.portCrc.find? fun e => e.port = n
      (∀ e, e? = some e → e.second = secondOf s.clock → 1000 ≤ e.count → 59 ≤ e.run → n ∈ t.dev.fenceN) ∧
      ((∀ e, e? = some e → e.second ≠ secondOf s.clock ∨ e.count < 1000 ∨ e.run < 59) → t.dev.fenceN = s.dev.fenceN)) ∧
    (∀ x, s.dev.up = 1 → ∃ t : State, exec (.telemetrySample x) s = .next t ∧ counted s.dev.snap t.dev.snap 1 ∧
      t = { s with dev := t.dev } ∧ t.dev = { s.dev with power := x.power, dieTemp := x.dieTemp, hbmTemp := x.hbmTemp,
                                                         snap := t.dev.snap, sampleAt := s.clock, sampled := true }) ∧
    (s.dev.up = 1 → let hot := s.dev.pwrlim.toNat < s.dev.power.toNat ∨ ∃ x ∈ s.dev.dieTemp, 760 ≤ x.toInt
      (s.dev.sampled = false → exec .thermalControl s = .next s) ∧
      (s.dev.sampled = true → ∃ t : State, exec .thermalControl s = .next t ∧
        t = { s with dev := { s.dev with gate := t.dev.gate, throt := t.dev.throt, gateAt := s.clock, sampled := false } } ∧
        (hot → t.dev.gate = min (s.dev.gate + 1) 15) ∧ (¬hot → t.dev.gate = s.dev.gate - 1) ∧
        counted s.dev.throt t.dev.throt (gatedBefore s.dev.gate s.clock - gatedBefore s.dev.gate s.dev.gateAt))) ∧
    (s.dev.up = 1 → (∃ x ∈ s.dev.dieTemp, 880 ≤ x.toInt) → ∃ t : State, exec .trip s = .next t ∧ t.dev.up = 0 ∧
      counted s.dev.trips t.dev.trips 1 ∧ t.clock = 0 ∧ t.parts = [] ∧ t.groups = [] ∧ t.chip = [] ∧ t.mem = s.mem) ∧
    (s.dev.up = 1 → (∀ x ∈ s.dev.dieTemp, x.toInt < 880) → exec .trip s = .next s) ∧
    (∀ r cs ps ns, (s.dev.up = 1 → exec (.deviceStart r cs ps ns) s = .next s) ∧
      (s.dev.up ≠ 1 → s.dev.failcnt = 3 → ∃ t : State, exec (.deviceStart r cs ps ns) s = .next t ∧ t.dev.up = 2 ∧ t.clock = 0 ∧ t.parts = [])) ∧
    (s.dev.up ≠ 1 → s.dev.failcnt < 3 → ∀ r cs ps ns,
      let d := (s.powerDown.fenceFailed r cs ps ns).dev
      let fails := fun (reason : BitVec 8) => ∃ t : State, exec (.deviceStart r cs ps ns) s = .next t ∧
        t.dev.failcnt = s.dev.failcnt + 1 ∧ t.dev.reason = reason ∧ t.dev.up = 0 ∧ t.clock = 0 ∧ t.mem = s.mem
      (r = .failed 0x07 → fails 0x07) ∧
      (r ≠ .failed 0x07 → ∀ reason, imageFault s.dev.flash = some reason → fails reason) ∧
      (r ≠ .failed 0x07 → imageFault s.dev.flash = none →
        (d.noStack = true → fails 0x03) ∧ (d.noStack = false → d.noPair = true → fails 0x06) ∧
        (d.noStack = false → d.noPair = false → ∀ b, r = .failed b → fails (if b = 0x04 then 0x04 else 0x05)) ∧
        (d.noPair = false → r = .up → s.dev.fenceP = [] → ps = [] → ∃ t : State, exec (.deviceStart r cs ps ns) s = .next t ∧
          t.dev.up = 1 ∧ t.clock = 0 ∧ t.dev.failcnt = 0 ∧ t.parts = [] ∧ t.groups = [] ∧
          t.dev.badPg = BitVec.ofNat 64 Config.badPageTable ∧
          (∀ x, x / 64 ≠ Config.badPageTable / 64 → x / 64 ≠ (Config.badPageTable + 7) / 64 → Memory.rd t.mem x = Memory.rd s.mem x) ∧
          (∀ k, k ∈ t.dev.fenceC ↔ k ∈ s.dev.fenceC ∨ k ∈ s.dev.pendC ∨ k ∈ cs) ∧
          ∀ k, k ∈ t.dev.fenceN ↔ k ∈ s.dev.fenceN ∨ k ∈ ns))) ∧
    (s.dev.up = 0 → s.dev.failcnt < 3 → ∃ t : State, exec .startWatchdogExpiry s = .next t ∧ t.dev.failcnt = s.dev.failcnt + 1 ∧
      t.dev.reason = 0x05) ∧
    (s.dev.up ≠ 0 → exec .startWatchdogExpiry s = .next s)

/-- R6, R54, R60, R77, R87, R418, R447, R453: reads, writes and answers of the host, and lines fetched from peers.
Readings of the model's own that it rests on: logs 69, 72 and 80. -/
def Obligations.HostAndPeers : Prop :=
  ∀ (s : State),
    (∀ a n, let ls := hostLocs s a n
      s.dev.up = 1 → 0 < n → a + n ≤ 2 ^ 39 → hostRegions s a n = [] → (∀ g ∈ s.groups, g.stores = []) →
      ∃ s1, CachesOnly s s1 ∧
      ((∀ l ∈ ls, s.bad l = false) → ∃ t : State, exec (.hostCxlMemRead a n) s = .next t ∧
        t = { s1 with outbox := s.outbox ++ [.hostData a (ls.map s.peek)], hostLines := t.hostLines }) ∧
      ((∃ l ∈ ls, s.bad l = true) → exec (.hostCxlMemRead a n) s = .next { s1 with outbox := s.outbox ++ [.hostPoison a] })) ∧
    (∀ a bs, let ls := hostLocs s a bs.length
      s.dev.up = 1 → bs ≠ [] → a + bs.length ≤ 2 ^ 39 → hostRegions s a bs.length = [] → (∀ g ∈ s.groups, g.stores = []) →
      let new := ((List.range bs.length).zip bs).map fun e => hostByte s (a + e.1) e.2
      ∃ t : State, exec (.hostCxlMemWrite a bs) s = .next t ∧ t.outbox = s.outbox ++ [.hostDone a] ∧
        ((∀ l ∈ ls, StoreOk s l) → Stored (ls.zip new) s t)) ∧
    (∀ a b, let old := BitVec.ofNat 8 (s.rdMem a 1 0)
      let fq := fun (p : Part) => prFqBase p.prec ≤ a ∧ a < prFqBase p.prec + 64 + 64 * prFqCap p.prec
      let lq := fun (p : Part) => prLqtab p.prec ≤ a ∧ a < prLqtab p.prec + 32 * prNlq p.prec
      let rd := fun (p : Part) => prRdt p.prec ≤ a ∧ a < prRdt p.prec + 32 * prNrdt p.prec
      let save := fun (p : Part) => ∃ x, p.saveAt = some x ∧ x.1 ≤ a ∧ a < x.1 + 64
      ((∀ p ∈ s.parts, ¬fq p ∧ ¬lq p ∧ ¬rd p ∧ ¬save p) → hostByte s a b = b) ∧
      ∀ ps p qs, s.parts = ps ++ p :: qs → (∀ q ∈ ps, ¬fq q ∧ ¬lq q ∧ ¬rd q ∧ ¬save q) →
        (fq p → let o := a - prFqBase p.prec
          hostByte s a b = if 4 ≤ o ∧ o < 8 then b else if o = 8 then (old &&& 0xFE) ||| (old &&& ~~~b &&& 1) else old) ∧
        (¬fq p → lq p → let o := (a - prLqtab p.prec) % 32
          hostByte s a b = if o = 8 then (old &&& 0xE0) ||| (b &&& 0x1F)
            else if (9 ≤ o ∧ o < 12) ∨ 16 ≤ o then old else b) ∧
        (¬fq p → ¬lq p → rd p → let o := (a - prRdt p.prec) % 32
          hostByte s a b = if o = 24 then (old &&& 0xFC) ||| (old &&& ~~~b &&& 3)
            else if o = 3 ∨ (12 ≤ o ∧ o < 16) ∨ 25 ≤ o then old else b) ∧
        (¬fq p → ¬lq p → ¬rd p → save p → hostByte s a b = old)) ∧
    (∀ line, (getKey s.hostLines line 0 ≠ 1 → ∀ d, exec (.backInvalidationResponse line d) s = .next s) ∧
      (getKey s.hostLines line 0 = 1 →
        exec (.backInvalidationResponse line none) s = .next { s with hostLines := s.hostLines.filter fun e => e.1 ≠ line } ∧
        ∀ bs, bs.length = 128 → (∀ g ∈ s.groups, g.stores = []) → let ls := hostLocs s (128 * line) 128
          (∀ l ∈ ls, StoreOk s l) → ∃ t : State, exec (.backInvalidationResponse line (some bs)) s = .next t ∧
            Stored (ls.zip (((List.range 128).zip bs).map fun e => hostByte s (128 * line + e.1) e.2)) s t ∧
            ∀ e ∈ t.hostLines, e.1 ≠ line)) ∧
    (∀ p part sender page line, s.part? part = some p →
      let ls := (List.range 2048).map fun i => Loc.mem (nhExpPa p.nethdr + 65536 * page + 2048 * line + i) p.key
      let answers := fun (a : FetchAnswer) => exec (.remoteFetchRequest part sender page line) s =
        .next (s.send (.peer part sender (.remoteFetchAnswer part 0 page line a)))
      (nhExpN p.nethdr ≤ page → answers .refused) ∧
      (page < nhExpN p.nethdr → s.hostLines = [] → (∃ l ∈ ls, s.bad l = true) → answers .poison) ∧
      (page < nhExpN p.nethdr → s.hostLines = [] → (∀ l ∈ ls, s.bad l = false) → ∃ s1, CachesOnly s s1 ∧
        exec (.remoteFetchRequest part sender page line) s =
          .next (s1.send (.peer part sender (.remoteFetchAnswer part 0 page line (.line (ls.map s.peek))))))) ∧
    (∀ p part peer page line, s.part? part = some p →
      let rest := p.fetch.filter fun f => ¬(f.1 = peer ∧ f.2.1 = page ∧ f.2.2.1 = line)
      ((peer, page, line, 0) ∉ p.fetch → ∀ a, exec (.remoteFetchAnswer part peer page line a) s = .next s) ∧
      ((peer, page, line, 0) ∈ p.fetch →
        (∀ bs, exec (.remoteFetchAnswer part peer page line (.line bs)) s =
          .next (s.setPart { p with fetch := rest, remote := (peer, page, line, bs) :: p.remote })) ∧
        exec (.remoteFetchAnswer part peer page line .refused) s =
          .next (s.setPart { p with fetch := (peer, page, line, 1) :: rest }) ∧
        exec (.remoteFetchAnswer part peer page line .unreachable) s =
          .next (s.setPart { p with fetch := (peer, page, line, 2) :: rest }) ∧
        exec (.remoteFetchAnswer part peer page line .poison) s =
          .next (s.setPart { p with fetch := (peer, page, line, 3) :: rest })))
end

