-- ==== Sys2Proof/Laws/State.lean ====
section
/-!
SUPPORT. What each update of the state leaves alone, field by field.
-/
namespace Sys2Proof.Machine

/-! ### `setGroup` -/
@[simp] theorem State.setGroup_cur (s : State) (g : Group) : (s.setGroup g).cur = s.cur := rfl
@[simp] theorem State.setGroup_script (s : State) (g : Group) : (s.setGroup g).script = s.script := rfl
@[simp] theorem State.setGroup_tick (s : State) (g : Group) : (s.setGroup g).tick = s.tick := rfl
@[simp] theorem State.setGroup_pending (s : State) (g : Group) : (s.setGroup g).pending = s.pending := rfl
@[simp] theorem State.setGroup_outbox (s : State) (g : Group) : (s.setGroup g).outbox = s.outbox := rfl
@[simp] theorem State.setGroup_clock (s : State) (g : Group) : (s.setGroup g).clock = s.clock := rfl
@[simp] theorem State.setGroup_mem (s : State) (g : Group) : (s.setGroup g).mem = s.mem := rfl
@[simp] theorem State.setGroup_skey (s : State) (g : Group) : (s.setGroup g).skey = s.skey := rfl
@[simp] theorem State.setGroup_poison (s : State) (g : Group) : (s.setGroup g).poison = s.poison := rfl
@[simp] theorem State.setGroup_unwritten (s : State) (g : Group) : (s.setGroup g).unwritten = s.unwritten := rfl
@[simp] theorem State.setGroup_dirty (s : State) (g : Group) : (s.setGroup g).dirty = s.dirty := rfl
@[simp] theorem State.setGroup_l2 (s : State) (g : Group) : (s.setGroup g).l2 = s.l2 := rfl
@[simp] theorem State.setGroup_msc (s : State) (g : Group) : (s.setGroup g).msc = s.msc := rfl
@[simp] theorem State.setGroup_pred (s : State) (g : Group) : (s.setGroup g).pred = s.pred := rfl
@[simp] theorem State.setGroup_images (s : State) (g : Group) : (s.setGroup g).images = s.images := rfl
@[simp] theorem State.setGroup_chip (s : State) (g : Group) : (s.setGroup g).chip = s.chip := rfl
@[simp] theorem State.setGroup_chipBad (s : State) (g : Group) : (s.setGroup g).chipBad = s.chipBad := rfl
@[simp] theorem State.setGroup_hostLines (s : State) (g : Group) : (s.setGroup g).hostLines = s.hostLines := rfl
@[simp] theorem State.setGroup_keys (s : State) (g : Group) : (s.setGroup g).keys = s.keys := rfl
@[simp] theorem State.setGroup_nextId (s : State) (g : Group) : (s.setGroup g).nextId = s.nextId := rfl
@[simp] theorem State.setGroup_parts (s : State) (g : Group) : (s.setGroup g).parts = s.parts := rfl
@[simp] theorem State.setGroup_launches (s : State) (g : Group) : (s.setGroup g).launches = s.launches := rfl
@[simp] theorem State.setGroup_teams (s : State) (g : Group) : (s.setGroup g).teams = s.teams := rfl
@[simp] theorem State.setGroup_cores (s : State) (g : Group) : (s.setGroup g).cores = s.cores := rfl
@[simp] theorem State.setGroup_ops (s : State) (g : Group) : (s.setGroup g).ops = s.ops := rfl
@[simp] theorem State.setGroup_partials (s : State) (g : Group) : (s.setGroup g).partials = s.partials := rfl
@[simp] theorem State.setGroup_others (s : State) (g : Group) : (s.setGroup g).others = s.others := rfl
@[simp] theorem State.setGroup_touched (s : State) (g : Group) : (s.setGroup g).touched = s.touched := rfl
@[simp] theorem State.setGroup_pchs (s : State) (g : Group) : (s.setGroup g).pchs = s.pchs := rfl
@[simp] theorem State.setGroup_dev (s : State) (g : Group) : (s.setGroup g).dev = s.dev := rfl

/-! ### `setTeam` -/
@[simp] theorem State.setTeam_cur (s : State) (t : Team) : (s.setTeam t).cur = s.cur := rfl
@[simp] theorem State.setTeam_script (s : State) (t : Team) : (s.setTeam t).script = s.script := rfl
@[simp] theorem State.setTeam_tick (s : State) (t : Team) : (s.setTeam t).tick = s.tick := rfl
@[simp] theorem State.setTeam_pending (s : State) (t : Team) : (s.setTeam t).pending = s.pending := rfl
@[simp] theorem State.setTeam_outbox (s : State) (t : Team) : (s.setTeam t).outbox = s.outbox := rfl
@[simp] theorem State.setTeam_clock (s : State) (t : Team) : (s.setTeam t).clock = s.clock := rfl
@[simp] theorem State.setTeam_mem (s : State) (t : Team) : (s.setTeam t).mem = s.mem := rfl
@[simp] theorem State.setTeam_skey (s : State) (t : Team) : (s.setTeam t).skey = s.skey := rfl
@[simp] theorem State.setTeam_poison (s : State) (t : Team) : (s.setTeam t).poison = s.poison := rfl
@[simp] theorem State.setTeam_unwritten (s : State) (t : Team) : (s.setTeam t).unwritten = s.unwritten := rfl
@[simp] theorem State.setTeam_dirty (s : State) (t : Team) : (s.setTeam t).dirty = s.dirty := rfl
@[simp] theorem State.setTeam_l2 (s : State) (t : Team) : (s.setTeam t).l2 = s.l2 := rfl
@[simp] theorem State.setTeam_msc (s : State) (t : Team) : (s.setTeam t).msc = s.msc := rfl
@[simp] theorem State.setTeam_pred (s : State) (t : Team) : (s.setTeam t).pred = s.pred := rfl
@[simp] theorem State.setTeam_images (s : State) (t : Team) : (s.setTeam t).images = s.images := rfl
@[simp] theorem State.setTeam_chip (s : State) (t : Team) : (s.setTeam t).chip = s.chip := rfl
@[simp] theorem State.setTeam_chipBad (s : State) (t : Team) : (s.setTeam t).chipBad = s.chipBad := rfl
@[simp] theorem State.setTeam_hostLines (s : State) (t : Team) : (s.setTeam t).hostLines = s.hostLines := rfl
@[simp] theorem State.setTeam_keys (s : State) (t : Team) : (s.setTeam t).keys = s.keys := rfl
@[simp] theorem State.setTeam_nextId (s : State) (t : Team) : (s.setTeam t).nextId = s.nextId := rfl
@[simp] theorem State.setTeam_parts (s : State) (t : Team) : (s.setTeam t).parts = s.parts := rfl
@[simp] theorem State.setTeam_launches (s : State) (t : Team) : (s.setTeam t).launches = s.launches := rfl
@[simp] theorem State.setTeam_groups (s : State) (t : Team) : (s.setTeam t).groups = s.groups := rfl
@[simp] theorem State.setTeam_cores (s : State) (t : Team) : (s.setTeam t).cores = s.cores := rfl
@[simp] theorem State.setTeam_ops (s : State) (t : Team) : (s.setTeam t).ops = s.ops := rfl
@[simp] theorem State.setTeam_partials (s : State) (t : Team) : (s.setTeam t).partials = s.partials := rfl
@[simp] theorem State.setTeam_others (s : State) (t : Team) : (s.setTeam t).others = s.others := rfl
@[simp] theorem State.setTeam_touched (s : State) (t : Team) : (s.setTeam t).touched = s.touched := rfl
@[simp] theorem State.setTeam_pchs (s : State) (t : Team) : (s.setTeam t).pchs = s.pchs := rfl
@[simp] theorem State.setTeam_dev (s : State) (t : Team) : (s.setTeam t).dev = s.dev := rfl

/-! ### `setLaunch` -/
@[simp] theorem State.setLaunch_cur (s : State) (l : Launch) : (s.setLaunch l).cur = s.cur := rfl
@[simp] theorem State.setLaunch_script (s : State) (l : Launch) : (s.setLaunch l).script = s.script := rfl
@[simp] theorem State.setLaunch_tick (s : State) (l : Launch) : (s.setLaunch l).tick = s.tick := rfl
@[simp] theorem State.setLaunch_pending (s : State) (l : Launch) : (s.setLaunch l).pending = s.pending := rfl
@[simp] theorem State.setLaunch_outbox (s : State) (l : Launch) : (s.setLaunch l).outbox = s.outbox := rfl
@[simp] theorem State.setLaunch_clock (s : State) (l : Launch) : (s.setLaunch l).clock = s.clock := rfl
@[simp] theorem State.setLaunch_mem (s : State) (l : Launch) : (s.setLaunch l).mem = s.mem := rfl
@[simp] theorem State.setLaunch_skey (s : State) (l : Launch) : (s.setLaunch l).skey = s.skey := rfl
@[simp] theorem State.setLaunch_poison (s : State) (l : Launch) : (s.setLaunch l).poison = s.poison := rfl
@[simp] theorem State.setLaunch_unwritten (s : State) (l : Launch) : (s.setLaunch l).unwritten = s.unwritten := rfl
@[simp] theorem State.setLaunch_dirty (s : State) (l : Launch) : (s.setLaunch l).dirty = s.dirty := rfl
@[simp] theorem State.setLaunch_l2 (s : State) (l : Launch) : (s.setLaunch l).l2 = s.l2 := rfl
@[simp] theorem State.setLaunch_msc (s : State) (l : Launch) : (s.setLaunch l).msc = s.msc := rfl
@[simp] theorem State.setLaunch_pred (s : State) (l : Launch) : (s.setLaunch l).pred = s.pred := rfl
@[simp] theorem State.setLaunch_images (s : State) (l : Launch) : (s.setLaunch l).images = s.images := rfl
@[simp] theorem State.setLaunch_chip (s : State) (l : Launch) : (s.setLaunch l).chip = s.chip := rfl
@[simp] theorem State.setLaunch_chipBad (s : State) (l : Launch) : (s.setLaunch l).chipBad = s.chipBad := rfl
@[simp] theorem State.setLaunch_hostLines (s : State) (l : Launch) : (s.setLaunch l).hostLines = s.hostLines := rfl
@[simp] theorem State.setLaunch_keys (s : State) (l : Launch) : (s.setLaunch l).keys = s.keys := rfl
@[simp] theorem State.setLaunch_nextId (s : State) (l : Launch) : (s.setLaunch l).nextId = s.nextId := rfl
@[simp] theorem State.setLaunch_parts (s : State) (l : Launch) : (s.setLaunch l).parts = s.parts := rfl
@[simp] theorem State.setLaunch_teams (s : State) (l : Launch) : (s.setLaunch l).teams = s.teams := rfl
@[simp] theorem State.setLaunch_groups (s : State) (l : Launch) : (s.setLaunch l).groups = s.groups := rfl
@[simp] theorem State.setLaunch_cores (s : State) (l : Launch) : (s.setLaunch l).cores = s.cores := rfl
@[simp] theorem State.setLaunch_ops (s : State) (l : Launch) : (s.setLaunch l).ops = s.ops := rfl
@[simp] theorem State.setLaunch_partials (s : State) (l : Launch) : (s.setLaunch l).partials = s.partials := rfl
@[simp] theorem State.setLaunch_others (s : State) (l : Launch) : (s.setLaunch l).others = s.others := rfl
@[simp] theorem State.setLaunch_touched (s : State) (l : Launch) : (s.setLaunch l).touched = s.touched := rfl
@[simp] theorem State.setLaunch_pchs (s : State) (l : Launch) : (s.setLaunch l).pchs = s.pchs := rfl
@[simp] theorem State.setLaunch_dev (s : State) (l : Launch) : (s.setLaunch l).dev = s.dev := rfl

/-! ### `setPart` -/
@[simp] theorem State.setPart_cur (s : State) (p : Part) : (s.setPart p).cur = s.cur := rfl
@[simp] theorem State.setPart_script (s : State) (p : Part) : (s.setPart p).script = s.script := rfl
@[simp] theorem State.setPart_tick (s : State) (p : Part) : (s.setPart p).tick = s.tick := rfl
@[simp] theorem State.setPart_pending (s : State) (p : Part) : (s.setPart p).pending = s.pending := rfl
@[simp] theorem State.setPart_outbox (s : State) (p : Part) : (s.setPart p).outbox = s.outbox := rfl
@[simp] theorem State.setPart_clock (s : State) (p : Part) : (s.setPart p).clock = s.clock := rfl
@[simp] theorem State.setPart_mem (s : State) (p : Part) : (s.setPart p).mem = s.mem := rfl
@[simp] theorem State.setPart_skey (s : State) (p : Part) : (s.setPart p).skey = s.skey := rfl
@[simp] theorem State.setPart_poison (s : State) (p : Part) : (s.setPart p).poison = s.poison := rfl
@[simp] theorem State.setPart_unwritten (s : State) (p : Part) : (s.setPart p).unwritten = s.unwritten := rfl
@[simp] theorem State.setPart_dirty (s : State) (p : Part) : (s.setPart p).dirty = s.dirty := rfl
@[simp] theorem State.setPart_l2 (s : State) (p : Part) : (s.setPart p).l2 = s.l2 := rfl
@[simp] theorem State.setPart_msc (s : State) (p : Part) : (s.setPart p).msc = s.msc := rfl
@[simp] theorem State.setPart_pred (s : State) (p : Part) : (s.setPart p).pred = s.pred := rfl
@[simp] theorem State.setPart_images (s : State) (p : Part) : (s.setPart p).images = s.images := rfl
@[simp] theorem State.setPart_chip (s : State) (p : Part) : (s.setPart p).chip = s.chip := rfl
@[simp] theorem State.setPart_chipBad (s : State) (p : Part) : (s.setPart p).chipBad = s.chipBad := rfl
@[simp] theorem State.setPart_hostLines (s : State) (p : Part) : (s.setPart p).hostLines = s.hostLines := rfl
@[simp] theorem State.setPart_keys (s : State) (p : Part) : (s.setPart p).keys = s.keys := rfl
@[simp] theorem State.setPart_nextId (s : State) (p : Part) : (s.setPart p).nextId = s.nextId := rfl
@[simp] theorem State.setPart_launches (s : State) (p : Part) : (s.setPart p).launches = s.launches := rfl
@[simp] theorem State.setPart_teams (s : State) (p : Part) : (s.setPart p).teams = s.teams := rfl
@[simp] theorem State.setPart_groups (s : State) (p : Part) : (s.setPart p).groups = s.groups := rfl
@[simp] theorem State.setPart_cores (s : State) (p : Part) : (s.setPart p).cores = s.cores := rfl
@[simp] theorem State.setPart_ops (s : State) (p : Part) : (s.setPart p).ops = s.ops := rfl
@[simp] theorem State.setPart_partials (s : State) (p : Part) : (s.setPart p).partials = s.partials := rfl
@[simp] theorem State.setPart_others (s : State) (p : Part) : (s.setPart p).others = s.others := rfl
@[simp] theorem State.setPart_touched (s : State) (p : Part) : (s.setPart p).touched = s.touched := rfl
@[simp] theorem State.setPart_pchs (s : State) (p : Part) : (s.setPart p).pchs = s.pchs := rfl
@[simp] theorem State.setPart_dev (s : State) (p : Part) : (s.setPart p).dev = s.dev := rfl

/-! ### `setCore` -/
@[simp] theorem State.setCore_cur (s : State) (c : Core) : (s.setCore c).cur = s.cur := rfl
@[simp] theorem State.setCore_script (s : State) (c : Core) : (s.setCore c).script = s.script := rfl
@[simp] theorem State.setCore_tick (s : State) (c : Core) : (s.setCore c).tick = s.tick := rfl
@[simp] theorem State.setCore_pending (s : State) (c : Core) : (s.setCore c).pending = s.pending := rfl
@[simp] theorem State.setCore_outbox (s : State) (c : Core) : (s.setCore c).outbox = s.outbox := rfl
@[simp] theorem State.setCore_clock (s : State) (c : Core) : (s.setCore c).clock = s.clock := rfl
@[simp] theorem State.setCore_mem (s : State) (c : Core) : (s.setCore c).mem = s.mem := rfl
@[simp] theorem State.setCore_skey (s : State) (c : Core) : (s.setCore c).skey = s.skey := rfl
@[simp] theorem State.setCore_poison (s : State) (c : Core) : (s.setCore c).poison = s.poison := rfl
@[simp] theorem State.setCore_unwritten (s : State) (c : Core) : (s.setCore c).unwritten = s.unwritten := rfl
@[simp] theorem State.setCore_dirty (s : State) (c : Core) : (s.setCore c).dirty = s.dirty := rfl
@[simp] theorem State.setCore_l2 (s : State) (c : Core) : (s.setCore c).l2 = s.l2 := rfl
@[simp] theorem State.setCore_msc (s : State) (c : Core) : (s.setCore c).msc = s.msc := rfl
@[simp] theorem State.setCore_pred (s : State) (c : Core) : (s.setCore c).pred = s.pred := rfl
@[simp] theorem State.setCore_images (s : State) (c : Core) : (s.setCore c).images = s.images := rfl
@[simp] theorem State.setCore_chip (s : State) (c : Core) : (s.setCore c).chip = s.chip := rfl
@[simp] theorem State.setCore_chipBad (s : State) (c : Core) : (s.setCore c).chipBad = s.chipBad := rfl
@[simp] theorem State.setCore_hostLines (s : State) (c : Core) : (s.setCore c).hostLines = s.hostLines := rfl
@[simp] theorem State.setCore_keys (s : State) (c : Core) : (s.setCore c).keys = s.keys := rfl
@[simp] theorem State.setCore_nextId (s : State) (c : Core) : (s.setCore c).nextId = s.nextId := rfl
@[simp] theorem State.setCore_parts (s : State) (c : Core) : (s.setCore c).parts = s.parts := rfl
@[simp] theorem State.setCore_launches (s : State) (c : Core) : (s.setCore c).launches = s.launches := rfl
@[simp] theorem State.setCore_teams (s : State) (c : Core) : (s.setCore c).teams = s.teams := rfl
@[simp] theorem State.setCore_groups (s : State) (c : Core) : (s.setCore c).groups = s.groups := rfl
@[simp] theorem State.setCore_ops (s : State) (c : Core) : (s.setCore c).ops = s.ops := rfl
@[simp] theorem State.setCore_partials (s : State) (c : Core) : (s.setCore c).partials = s.partials := rfl
@[simp] theorem State.setCore_others (s : State) (c : Core) : (s.setCore c).others = s.others := rfl
@[simp] theorem State.setCore_touched (s : State) (c : Core) : (s.setCore c).touched = s.touched := rfl
@[simp] theorem State.setCore_pchs (s : State) (c : Core) : (s.setCore c).pchs = s.pchs := rfl
@[simp] theorem State.setCore_dev (s : State) (c : Core) : (s.setCore c).dev = s.dev := rfl

/-! ### `setOp` -/
@[simp] theorem State.setOp_cur (s : State) (o : Op) : (s.setOp o).cur = s.cur := rfl
@[simp] theorem State.setOp_script (s : State) (o : Op) : (s.setOp o).script = s.script := rfl
@[simp] theorem State.setOp_tick (s : State) (o : Op) : (s.setOp o).tick = s.tick := rfl
@[simp] theorem State.setOp_pending (s : State) (o : Op) : (s.setOp o).pending = s.pending := rfl
@[simp] theorem State.setOp_outbox (s : State) (o : Op) : (s.setOp o).outbox = s.outbox := rfl
@[simp] theorem State.setOp_clock (s : State) (o : Op) : (s.setOp o).clock = s.clock := rfl
@[simp] theorem State.setOp_mem (s : State) (o : Op) : (s.setOp o).mem = s.mem := rfl
@[simp] theorem State.setOp_skey (s : State) (o : Op) : (s.setOp o).skey = s.skey := rfl
@[simp] theorem State.setOp_poison (s : State) (o : Op) : (s.setOp o).poison = s.poison := rfl
@[simp] theorem State.setOp_unwritten (s : State) (o : Op) : (s.setOp o).unwritten = s.unwritten := rfl
@[simp] theorem State.setOp_dirty (s : State) (o : Op) : (s.setOp o).dirty = s.dirty := rfl
@[simp] theorem State.setOp_l2 (s : State) (o : Op) : (s.setOp o).l2 = s.l2 := rfl
@[simp] theorem State.setOp_msc (s : State) (o : Op) : (s.setOp o).msc = s.msc := rfl
@[simp] theorem State.setOp_pred (s : State) (o : Op) : (s.setOp o).pred = s.pred := rfl
@[simp] theorem State.setOp_images (s : State) (o : Op) : (s.setOp o).images = s.images := rfl
@[simp] theorem State.setOp_chip (s : State) (o : Op) : (s.setOp o).chip = s.chip := rfl
@[simp] theorem State.setOp_chipBad (s : State) (o : Op) : (s.setOp o).chipBad = s.chipBad := rfl
@[simp] theorem State.setOp_hostLines (s : State) (o : Op) : (s.setOp o).hostLines = s.hostLines := rfl
@[simp] theorem State.setOp_keys (s : State) (o : Op) : (s.setOp o).keys = s.keys := rfl
@[simp] theorem State.setOp_nextId (s : State) (o : Op) : (s.setOp o).nextId = s.nextId := rfl
@[simp] theorem State.setOp_parts (s : State) (o : Op) : (s.setOp o).parts = s.parts := rfl
@[simp] theorem State.setOp_launches (s : State) (o : Op) : (s.setOp o).launches = s.launches := rfl
@[simp] theorem State.setOp_teams (s : State) (o : Op) : (s.setOp o).teams = s.teams := rfl
@[simp] theorem State.setOp_groups (s : State) (o : Op) : (s.setOp o).groups = s.groups := rfl
@[simp] theorem State.setOp_cores (s : State) (o : Op) : (s.setOp o).cores = s.cores := rfl
@[simp] theorem State.setOp_partials (s : State) (o : Op) : (s.setOp o).partials = s.partials := rfl
@[simp] theorem State.setOp_others (s : State) (o : Op) : (s.setOp o).others = s.others := rfl
@[simp] theorem State.setOp_touched (s : State) (o : Op) : (s.setOp o).touched = s.touched := rfl
@[simp] theorem State.setOp_pchs (s : State) (o : Op) : (s.setOp o).pchs = s.pchs := rfl
@[simp] theorem State.setOp_dev (s : State) (o : Op) : (s.setOp o).dev = s.dev := rfl

/-! ### `dropOp` -/
@[simp] theorem State.dropOp_cur (s : State) (i : Nat) : (s.dropOp i).cur = s.cur := rfl
@[simp] theorem State.dropOp_script (s : State) (i : Nat) : (s.dropOp i).script = s.script := rfl
@[simp] theorem State.dropOp_tick (s : State) (i : Nat) : (s.dropOp i).tick = s.tick := rfl
@[simp] theorem State.dropOp_pending (s : State) (i : Nat) : (s.dropOp i).pending = s.pending := rfl
@[simp] theorem State.dropOp_outbox (s : State) (i : Nat) : (s.dropOp i).outbox = s.outbox := rfl
@[simp] theorem State.dropOp_clock (s : State) (i : Nat) : (s.dropOp i).clock = s.clock := rfl
@[simp] theorem State.dropOp_mem (s : State) (i : Nat) : (s.dropOp i).mem = s.mem := rfl
@[simp] theorem State.dropOp_skey (s : State) (i : Nat) : (s.dropOp i).skey = s.skey := rfl
@[simp] theorem State.dropOp_poison (s : State) (i : Nat) : (s.dropOp i).poison = s.poison := rfl
@[simp] theorem State.dropOp_unwritten (s : State) (i : Nat) : (s.dropOp i).unwritten = s.unwritten := rfl
@[simp] theorem State.dropOp_dirty (s : State) (i : Nat) : (s.dropOp i).dirty = s.dirty := rfl
@[simp] theorem State.dropOp_l2 (s : State) (i : Nat) : (s.dropOp i).l2 = s.l2 := rfl
@[simp] theorem State.dropOp_msc (s : State) (i : Nat) : (s.dropOp i).msc = s.msc := rfl
@[simp] theorem State.dropOp_pred (s : State) (i : Nat) : (s.dropOp i).pred = s.pred := rfl
@[simp] theorem State.dropOp_images (s : State) (i : Nat) : (s.dropOp i).images = s.images := rfl
@[simp] theorem State.dropOp_chip (s : State) (i : Nat) : (s.dropOp i).chip = s.chip := rfl
@[simp] theorem State.dropOp_chipBad (s : State) (i : Nat) : (s.dropOp i).chipBad = s.chipBad := rfl
@[simp] theorem State.dropOp_hostLines (s : State) (i : Nat) : (s.dropOp i).hostLines = s.hostLines := rfl
@[simp] theorem State.dropOp_keys (s : State) (i : Nat) : (s.dropOp i).keys = s.keys := rfl
@[simp] theorem State.dropOp_nextId (s : State) (i : Nat) : (s.dropOp i).nextId = s.nextId := rfl
@[simp] theorem State.dropOp_parts (s : State) (i : Nat) : (s.dropOp i).parts = s.parts := rfl
@[simp] theorem State.dropOp_launches (s : State) (i : Nat) : (s.dropOp i).launches = s.launches := rfl
@[simp] theorem State.dropOp_teams (s : State) (i : Nat) : (s.dropOp i).teams = s.teams := rfl
@[simp] theorem State.dropOp_groups (s : State) (i : Nat) : (s.dropOp i).groups = s.groups := rfl
@[simp] theorem State.dropOp_cores (s : State) (i : Nat) : (s.dropOp i).cores = s.cores := rfl
@[simp] theorem State.dropOp_partials (s : State) (i : Nat) : (s.dropOp i).partials = s.partials := rfl
@[simp] theorem State.dropOp_others (s : State) (i : Nat) : (s.dropOp i).others = s.others := rfl
@[simp] theorem State.dropOp_touched (s : State) (i : Nat) : (s.dropOp i).touched = s.touched := rfl
@[simp] theorem State.dropOp_pchs (s : State) (i : Nat) : (s.dropOp i).pchs = s.pchs := rfl
@[simp] theorem State.dropOp_dev (s : State) (i : Nat) : (s.dropOp i).dev = s.dev := rfl

/-! ### `setPch` -/
@[simp] theorem State.setPch_cur (s : State) (p : Pch) : (s.setPch p).cur = s.cur := rfl
@[simp] theorem State.setPch_script (s : State) (p : Pch) : (s.setPch p).script = s.script := rfl
@[simp] theorem State.setPch_tick (s : State) (p : Pch) : (s.setPch p).tick = s.tick := rfl
@[simp] theorem State.setPch_pending (s : State) (p : Pch) : (s.setPch p).pending = s.pending := rfl
@[simp] theorem State.setPch_outbox (s : State) (p : Pch) : (s.setPch p).outbox = s.outbox := rfl
@[simp] theorem State.setPch_clock (s : State) (p : Pch) : (s.setPch p).clock = s.clock := rfl
@[simp] theorem State.setPch_mem (s : State) (p : Pch) : (s.setPch p).mem = s.mem := rfl
@[simp] theorem State.setPch_skey (s : State) (p : Pch) : (s.setPch p).skey = s.skey := rfl
@[simp] theorem State.setPch_poison (s : State) (p : Pch) : (s.setPch p).poison = s.poison := rfl
@[simp] theorem State.setPch_unwritten (s : State) (p : Pch) : (s.setPch p).unwritten = s.unwritten := rfl
@[simp] theorem State.setPch_dirty (s : State) (p : Pch) : (s.setPch p).dirty = s.dirty := rfl
@[simp] theorem State.setPch_l2 (s : State) (p : Pch) : (s.setPch p).l2 = s.l2 := rfl
@[simp] theorem State.setPch_msc (s : State) (p : Pch) : (s.setPch p).msc = s.msc := rfl
@[simp] theorem State.setPch_pred (s : State) (p : Pch) : (s.setPch p).pred = s.pred := rfl
@[simp] theorem State.setPch_images (s : State) (p : Pch) : (s.setPch p).images = s.images := rfl
@[simp] theorem State.setPch_chip (s : State) (p : Pch) : (s.setPch p).chip = s.chip := rfl
@[simp] theorem State.setPch_chipBad (s : State) (p : Pch) : (s.setPch p).chipBad = s.chipBad := rfl
@[simp] theorem State.setPch_hostLines (s : State) (p : Pch) : (s.setPch p).hostLines = s.hostLines := rfl
@[simp] theorem State.setPch_keys (s : State) (p : Pch) : (s.setPch p).keys = s.keys := rfl
@[simp] theorem State.setPch_nextId (s : State) (p : Pch) : (s.setPch p).nextId = s.nextId := rfl
@[simp] theorem State.setPch_parts (s : State) (p : Pch) : (s.setPch p).parts = s.parts := rfl
@[simp] theorem State.setPch_launches (s : State) (p : Pch) : (s.setPch p).launches = s.launches := rfl
@[simp] theorem State.setPch_teams (s : State) (p : Pch) : (s.setPch p).teams = s.teams := rfl
@[simp] theorem State.setPch_groups (s : State) (p : Pch) : (s.setPch p).groups = s.groups := rfl
@[simp] theorem State.setPch_cores (s : State) (p : Pch) : (s.setPch p).cores = s.cores := rfl
@[simp] theorem State.setPch_ops (s : State) (p : Pch) : (s.setPch p).ops = s.ops := rfl
@[simp] theorem State.setPch_partials (s : State) (p : Pch) : (s.setPch p).partials = s.partials := rfl
@[simp] theorem State.setPch_others (s : State) (p : Pch) : (s.setPch p).others = s.others := rfl
@[simp] theorem State.setPch_touched (s : State) (p : Pch) : (s.setPch p).touched = s.touched := rfl
@[simp] theorem State.setPch_dev (s : State) (p : Pch) : (s.setPch p).dev = s.dev := rfl

/-! ### `send` -/
@[simp] theorem State.send_cur (s : State) (o : Output) : (s.send o).cur = s.cur := rfl
@[simp] theorem State.send_script (s : State) (o : Output) : (s.send o).script = s.script := rfl
@[simp] theorem State.send_tick (s : State) (o : Output) : (s.send o).tick = s.tick := rfl
@[simp] theorem State.send_pending (s : State) (o : Output) : (s.send o).pending = s.pending := rfl
@[simp] theorem State.send_clock (s : State) (o : Output) : (s.send o).clock = s.clock := rfl
@[simp] theorem State.send_mem (s : State) (o : Output) : (s.send o).mem = s.mem := rfl
@[simp] theorem State.send_skey (s : State) (o : Output) : (s.send o).skey = s.skey := rfl
@[simp] theorem State.send_poison (s : State) (o : Output) : (s.send o).poison = s.poison := rfl
@[simp] theorem State.send_unwritten (s : State) (o : Output) : (s.send o).unwritten = s.unwritten := rfl
@[simp] theorem State.send_dirty (s : State) (o : Output) : (s.send o).dirty = s.dirty := rfl
@[simp] theorem State.send_l2 (s : State) (o : Output) : (s.send o).l2 = s.l2 := rfl
@[simp] theorem State.send_msc (s : State) (o : Output) : (s.send o).msc = s.msc := rfl
@[simp] theorem State.send_pred (s : State) (o : Output) : (s.send o).pred = s.pred := rfl
@[simp] theorem State.send_images (s : State) (o : Output) : (s.send o).images = s.images := rfl
@[simp] theorem State.send_chip (s : State) (o : Output) : (s.send o).chip = s.chip := rfl
@[simp] theorem State.send_chipBad (s : State) (o : Output) : (s.send o).chipBad = s.chipBad := rfl
@[simp] theorem State.send_hostLines (s : State) (o : Output) : (s.send o).hostLines = s.hostLines := rfl
@[simp] theorem State.send_keys (s : State) (o : Output) : (s.send o).keys = s.keys := rfl
@[simp] theorem State.send_nextId (s : State) (o : Output) : (s.send o).nextId = s.nextId := rfl
@[simp] theorem State.send_parts (s : State) (o : Output) : (s.send o).parts = s.parts := rfl
@[simp] theorem State.send_launches (s : State) (o : Output) : (s.send o).launches = s.launches := rfl
@[simp] theorem State.send_teams (s : State) (o : Output) : (s.send o).teams = s.teams := rfl
@[simp] theorem State.send_groups (s : State) (o : Output) : (s.send o).groups = s.groups := rfl
@[simp] theorem State.send_cores (s : State) (o : Output) : (s.send o).cores = s.cores := rfl
@[simp] theorem State.send_ops (s : State) (o : Output) : (s.send o).ops = s.ops := rfl
@[simp] theorem State.send_partials (s : State) (o : Output) : (s.send o).partials = s.partials := rfl
@[simp] theorem State.send_others (s : State) (o : Output) : (s.send o).others = s.others := rfl
@[simp] theorem State.send_touched (s : State) (o : Output) : (s.send o).touched = s.touched := rfl
@[simp] theorem State.send_pchs (s : State) (o : Output) : (s.send o).pchs = s.pchs := rfl
@[simp] theorem State.send_dev (s : State) (o : Output) : (s.send o).dev = s.dev := rfl

/-! ### `fresh` and `pass` -/
@[simp] theorem State.fresh_cur (s : State) : s.fresh.cur = s.cur := rfl
@[simp] theorem State.fresh_script (s : State) : s.fresh.script = s.script := rfl
@[simp] theorem State.fresh_tick (s : State) : s.fresh.tick = s.tick := rfl
@[simp] theorem State.fresh_pending (s : State) : s.fresh.pending = s.pending := rfl
@[simp] theorem State.fresh_outbox (s : State) : s.fresh.outbox = s.outbox := rfl
@[simp] theorem State.fresh_clock (s : State) : s.fresh.clock = s.clock := rfl
@[simp] theorem State.fresh_mem (s : State) : s.fresh.mem = s.mem := rfl
@[simp] theorem State.fresh_skey (s : State) : s.fresh.skey = s.skey := rfl
@[simp] theorem State.fresh_poison (s : State) : s.fresh.poison = s.poison := rfl
@[simp] theorem State.fresh_unwritten (s : State) : s.fresh.unwritten = s.unwritten := rfl
@[simp] theorem State.fresh_dirty (s : State) : s.fresh.dirty = s.dirty := rfl
@[simp] theorem State.fresh_l2 (s : State) : s.fresh.l2 = s.l2 := rfl
@[simp] theorem State.fresh_msc (s : State) : s.fresh.msc = s.msc := rfl
@[simp] theorem State.fresh_pred (s : State) : s.fresh.pred = s.pred := rfl
@[simp] theorem State.fresh_images (s : State) : s.fresh.images = s.images := rfl
@[simp] theorem State.fresh_chip (s : State) : s.fresh.chip = s.chip := rfl
@[simp] theorem State.fresh_chipBad (s : State) : s.fresh.chipBad = s.chipBad := rfl
@[simp] theorem State.fresh_hostLines (s : State) : s.fresh.hostLines = s.hostLines := rfl
@[simp] theorem State.fresh_keys (s : State) : s.fresh.keys = s.keys := rfl
@[simp] theorem State.fresh_parts (s : State) : s.fresh.parts = s.parts := rfl
@[simp] theorem State.fresh_launches (s : State) : s.fresh.launches = s.launches := rfl
@[simp] theorem State.fresh_teams (s : State) : s.fresh.teams = s.teams := rfl
@[simp] theorem State.fresh_groups (s : State) : s.fresh.groups = s.groups := rfl
@[simp] theorem State.fresh_cores (s : State) : s.fresh.cores = s.cores := rfl
@[simp] theorem State.fresh_ops (s : State) : s.fresh.ops = s.ops := rfl
@[simp] theorem State.fresh_partials (s : State) : s.fresh.partials = s.partials := rfl
@[simp] theorem State.fresh_others (s : State) : s.fresh.others = s.others := rfl
@[simp] theorem State.fresh_touched (s : State) : s.fresh.touched = s.touched := rfl
@[simp] theorem State.fresh_pchs (s : State) : s.fresh.pchs = s.pchs := rfl
@[simp] theorem State.fresh_dev (s : State) : s.fresh.dev = s.dev := rfl
@[simp] theorem State.pass_cur (s : State) : s.pass.cur = s.cur := rfl
@[simp] theorem State.pass_pending (s : State) : s.pass.pending = s.pending := rfl
@[simp] theorem State.pass_outbox (s : State) : s.pass.outbox = s.outbox := rfl
@[simp] theorem State.pass_mem (s : State) : s.pass.mem = s.mem := rfl
@[simp] theorem State.pass_skey (s : State) : s.pass.skey = s.skey := rfl
@[simp] theorem State.pass_poison (s : State) : s.pass.poison = s.poison := rfl
@[simp] theorem State.pass_unwritten (s : State) : s.pass.unwritten = s.unwritten := rfl
@[simp] theorem State.pass_dirty (s : State) : s.pass.dirty = s.dirty := rfl
@[simp] theorem State.pass_l2 (s : State) : s.pass.l2 = s.l2 := rfl
@[simp] theorem State.pass_msc (s : State) : s.pass.msc = s.msc := rfl
@[simp] theorem State.pass_pred (s : State) : s.pass.pred = s.pred := rfl
@[simp] theorem State.pass_images (s : State) : s.pass.images = s.images := rfl
@[simp] theorem State.pass_chip (s : State) : s.pass.chip = s.chip := rfl
@[simp] theorem State.pass_chipBad (s : State) : s.pass.chipBad = s.chipBad := rfl
@[simp] theorem State.pass_hostLines (s : State) : s.pass.hostLines = s.hostLines := rfl
@[simp] theorem State.pass_keys (s : State) : s.pass.keys = s.keys := rfl
@[simp] theorem State.pass_nextId (s : State) : s.pass.nextId = s.nextId := rfl
@[simp] theorem State.pass_parts (s : State) : s.pass.parts = s.parts := rfl
@[simp] theorem State.pass_launches (s : State) : s.pass.launches = s.launches := rfl
@[simp] theorem State.pass_teams (s : State) : s.pass.teams = s.teams := rfl
@[simp] theorem State.pass_groups (s : State) : s.pass.groups = s.groups := rfl
@[simp] theorem State.pass_cores (s : State) : s.pass.cores = s.cores := rfl
@[simp] theorem State.pass_ops (s : State) : s.pass.ops = s.ops := rfl
@[simp] theorem State.pass_partials (s : State) : s.pass.partials = s.partials := rfl
@[simp] theorem State.pass_others (s : State) : s.pass.others = s.others := rfl
@[simp] theorem State.pass_touched (s : State) : s.pass.touched = [] := rfl
@[simp] theorem State.pass_pchs (s : State) : s.pass.pchs = s.pchs := rfl
@[simp] theorem State.pass_dev (s : State) : s.pass.dev = s.dev := rfl

/-! ### `passNone` -/
@[simp] theorem State.passNone_cur (s : State) : s.passNone.cur = s.cur := rfl
@[simp] theorem State.passNone_pending (s : State) : s.passNone.pending = s.pending := rfl
@[simp] theorem State.passNone_outbox (s : State) : s.passNone.outbox = s.outbox := rfl
@[simp] theorem State.passNone_mem (s : State) : s.passNone.mem = s.mem := rfl
@[simp] theorem State.passNone_skey (s : State) : s.passNone.skey = s.skey := rfl
@[simp] theorem State.passNone_poison (s : State) : s.passNone.poison = s.poison := rfl
@[simp] theorem State.passNone_unwritten (s : State) : s.passNone.unwritten = s.unwritten := rfl
@[simp] theorem State.passNone_dirty (s : State) : s.passNone.dirty = s.dirty := rfl
@[simp] theorem State.passNone_l2 (s : State) : s.passNone.l2 = s.l2 := rfl
@[simp] theorem State.passNone_msc (s : State) : s.passNone.msc = s.msc := rfl
@[simp] theorem State.passNone_pred (s : State) : s.passNone.pred = s.pred := rfl
@[simp] theorem State.passNone_images (s : State) : s.passNone.images = s.images := rfl
@[simp] theorem State.passNone_chip (s : State) : s.passNone.chip = s.chip := rfl
@[simp] theorem State.passNone_chipBad (s : State) : s.passNone.chipBad = s.chipBad := rfl
@[simp] theorem State.passNone_hostLines (s : State) : s.passNone.hostLines = s.hostLines := rfl
@[simp] theorem State.passNone_keys (s : State) : s.passNone.keys = s.keys := rfl
@[simp] theorem State.passNone_nextId (s : State) : s.passNone.nextId = s.nextId := rfl
@[simp] theorem State.passNone_parts (s : State) : s.passNone.parts = s.parts := rfl
@[simp] theorem State.passNone_launches (s : State) : s.passNone.launches = s.launches := rfl
@[simp] theorem State.passNone_teams (s : State) : s.passNone.teams = s.teams := rfl
@[simp] theorem State.passNone_groups (s : State) : s.passNone.groups = s.groups := rfl
@[simp] theorem State.passNone_cores (s : State) : s.passNone.cores = s.cores := rfl
@[simp] theorem State.passNone_ops (s : State) : s.passNone.ops = s.ops := rfl
@[simp] theorem State.passNone_partials (s : State) : s.passNone.partials = s.partials := rfl
@[simp] theorem State.passNone_others (s : State) : s.passNone.others = s.others := rfl
@[simp] theorem State.passNone_touched (s : State) : s.passNone.touched = s.touched := rfl
@[simp] theorem State.passNone_pchs (s : State) : s.passNone.pchs = s.pchs := rfl
@[simp] theorem State.passNone_dev (s : State) : s.passNone.dev = s.dev := rfl
@[simp] theorem State.passNone_clock (s : State) : s.passNone.clock = s.clock := rfl
@[simp] theorem State.passNone_script (s : State) : s.passNone.script = s.script := rfl

/-! ### Groups -/
@[simp] theorem Group.onCtx_ref (g : Group) (f : Ctx → Ctx) : (g.onCtx f).ref = g.ref := rfl
@[simp] theorem Group.onCtx_core (g : Group) (f : Ctx → Ctx) : (g.onCtx f).core = g.core := rfl
@[simp] theorem Group.onCtx_seat (g : Group) (f : Ctx → Ctx) : (g.onCtx f).seat = g.seat := rfl
@[simp] theorem Group.onCtx_state (g : Group) (f : Ctx → Ctx) : (g.onCtx f).state = g.state := rfl
@[simp] theorem Group.onCtx_p (g : Group) (f : Ctx → Ctx) : (g.onCtx f).p = g.p := rfl
@[simp] theorem Group.onCtx_lregs (g : Group) (f : Ctx → Ctx) : (g.onCtx f).lregs = g.lregs := rfl
@[simp] theorem Group.onCtx_slc (g : Group) (f : Ctx → Ctx) : (g.onCtx f).slc = g.slc := rfl
@[simp] theorem Group.onCtx_queue (g : Group) (f : Ctx → Ctx) : (g.onCtx f).queue = g.queue := rfl
@[simp] theorem Group.onCtx_shapes (g : Group) (f : Ctx → Ctx) : (g.onCtx f).shapes = g.shapes := rfl
@[simp] theorem Group.onCtx_binds (g : Group) (f : Ctx → Ctx) : (g.onCtx f).binds = g.binds := rfl
@[simp] theorem Group.onCtx_fflags (g : Group) (f : Ctx → Ctx) : (g.onCtx f).fflags = g.fflags := rfl
@[simp] theorem Group.onCtx_memlat (g : Group) (f : Ctx → Ctx) : (g.onCtx f).memlat = g.memlat := rfl
@[simp] theorem Group.onCtx_perf (g : Group) (f : Ctx → Ctx) : (g.onCtx f).perf = g.perf := rfl
@[simp] theorem Group.onCtx_nb (g : Group) (f : Ctx → Ctx) : (g.onCtx f).nb = g.nb := rfl
@[simp] theorem Group.onCtx_batches (g : Group) (f : Ctx → Ctx) : (g.onCtx f).batches = g.batches := rfl
@[simp] theorem Group.onCtx_cpytN (g : Group) (f : Ctx → Ctx) : (g.onCtx f).cpytN = g.cpytN := rfl
@[simp] theorem Group.onCtx_acks (g : Group) (f : Ctx → Ctx) : (g.onCtx f).acks = g.acks := rfl
@[simp] theorem Group.onCtx_loads (g : Group) (f : Ctx → Ctx) : (g.onCtx f).loads = g.loads := rfl
@[simp] theorem Group.onCtx_stores (g : Group) (f : Ctx → Ctx) : (g.onCtx f).stores = g.stores := rfl
@[simp] theorem Group.onCtx_last1 (g : Group) (f : Ctx → Ctx) : (g.onCtx f).last1 = g.last1 := rfl
@[simp] theorem Group.onCtx_turns (g : Group) (f : Ctx → Ctx) : (g.onCtx f).turns = g.turns := rfl
@[simp] theorem Group.onCtx_before (g : Group) (f : Ctx → Ctx) : (g.onCtx f).before = g.before := rfl
@[simp] theorem Group.onCtx_seen (g : Group) (f : Ctx → Ctx) : (g.onCtx f).seen = g.seen := rfl
@[simp] theorem Group.onCtx_ldep (g : Group) (f : Ctx → Ctx) : (g.onCtx f).ldep = g.ldep := rfl
@[simp] theorem Group.onCtx_fetches (g : Group) (f : Ctx → Ctx) : (g.onCtx f).fetches = g.fetches := rfl
@[simp] theorem Group.onCtx_ctx (g : Group) (f : Ctx → Ctx) : (g.onCtx f).ctx = f g.ctx := rfl
@[simp] theorem Group.count_ref (g : Group) (n : Fin 6) (v : Nat) : (g.count n v).ref = g.ref := rfl
@[simp] theorem Group.count_core (g : Group) (n : Fin 6) (v : Nat) : (g.count n v).core = g.core := rfl
@[simp] theorem Group.count_seat (g : Group) (n : Fin 6) (v : Nat) : (g.count n v).seat = g.seat := rfl
@[simp] theorem Group.count_state (g : Group) (n : Fin 6) (v : Nat) : (g.count n v).state = g.state := rfl
@[simp] theorem Group.count_ctx (g : Group) (n : Fin 6) (v : Nat) : (g.count n v).ctx = g.ctx := rfl
@[simp] theorem Group.count_p (g : Group) (n : Fin 6) (v : Nat) : (g.count n v).p = g.p := rfl
@[simp] theorem Group.count_lregs (g : Group) (n : Fin 6) (v : Nat) : (g.count n v).lregs = g.lregs := rfl
@[simp] theorem Group.count_slc (g : Group) (n : Fin 6) (v : Nat) : (g.count n v).slc = g.slc := rfl
@[simp] theorem Group.count_queue (g : Group) (n : Fin 6) (v : Nat) : (g.count n v).queue = g.queue := rfl
@[simp] theorem Group.count_shapes (g : Group) (n : Fin 6) (v : Nat) : (g.count n v).shapes = g.shapes := rfl
@[simp] theorem Group.count_binds (g : Group) (n : Fin 6) (v : Nat) : (g.count n v).binds = g.binds := rfl
@[simp] theorem Group.count_fflags (g : Group) (n : Fin 6) (v : Nat) : (g.count n v).fflags = g.fflags := rfl
@[simp] theorem Group.count_memlat (g : Group) (n : Fin 6) (v : Nat) : (g.count n v).memlat = g.memlat := rfl
@[simp] theorem Group.count_nb (g : Group) (n : Fin 6) (v : Nat) : (g.count n v).nb = g.nb := rfl
@[simp] theorem Group.count_batches (g : Group) (n : Fin 6) (v : Nat) : (g.count n v).batches = g.batches := rfl
@[simp] theorem Group.count_cpytN (g : Group) (n : Fin 6) (v : Nat) : (g.count n v).cpytN = g.cpytN := rfl
@[simp] theorem Group.count_acks (g : Group) (n : Fin 6) (v : Nat) : (g.count n v).acks = g.acks := rfl
@[simp] theorem Group.count_loads (g : Group) (n : Fin 6) (v : Nat) : (g.count n v).loads = g.loads := rfl
@[simp] theorem Group.count_stores (g : Group) (n : Fin 6) (v : Nat) : (g.count n v).stores = g.stores := rfl
@[simp] theorem Group.count_last1 (g : Group) (n : Fin 6) (v : Nat) : (g.count n v).last1 = g.last1 := rfl
@[simp] theorem Group.count_turns (g : Group) (n : Fin 6) (v : Nat) : (g.count n v).turns = g.turns := rfl
@[simp] theorem Group.count_before (g : Group) (n : Fin 6) (v : Nat) : (g.count n v).before = g.before := rfl
@[simp] theorem Group.count_seen (g : Group) (n : Fin 6) (v : Nat) : (g.count n v).seen = g.seen := rfl
@[simp] theorem Group.count_ldep (g : Group) (n : Fin 6) (v : Nat) : (g.count n v).ldep = g.ldep := rfl
@[simp] theorem Group.count_fetches (g : Group) (n : Fin 6) (v : Nat) : (g.count n v).fetches = g.fetches := rfl
@[simp] theorem Group.flag_ref (g : Group) (x : BitVec 5) : (g.flag x).ref = g.ref := rfl
@[simp] theorem Group.flag_core (g : Group) (x : BitVec 5) : (g.flag x).core = g.core := rfl
@[simp] theorem Group.flag_seat (g : Group) (x : BitVec 5) : (g.flag x).seat = g.seat := rfl
@[simp] theorem Group.flag_state (g : Group) (x : BitVec 5) : (g.flag x).state = g.state := rfl
@[simp] theorem Group.flag_ctx (g : Group) (x : BitVec 5) : (g.flag x).ctx = g.ctx := rfl
@[simp] theorem Group.flag_p (g : Group) (x : BitVec 5) : (g.flag x).p = g.p := rfl
@[simp] theorem Group.flag_lregs (g : Group) (x : BitVec 5) : (g.flag x).lregs = g.lregs := rfl
@[simp] theorem Group.flag_slc (g : Group) (x : BitVec 5) : (g.flag x).slc = g.slc := rfl
@[simp] theorem Group.flag_queue (g : Group) (x : BitVec 5) : (g.flag x).queue = g.queue := rfl
@[simp] theorem Group.flag_shapes (g : Group) (x : BitVec 5) : (g.flag x).shapes = g.shapes := rfl
@[simp] theorem Group.flag_binds (g : Group) (x : BitVec 5) : (g.flag x).binds = g.binds := rfl
@[simp] theorem Group.flag_memlat (g : Group) (x : BitVec 5) : (g.flag x).memlat = g.memlat := rfl
@[simp] theorem Group.flag_perf (g : Group) (x : BitVec 5) : (g.flag x).perf = g.perf := rfl
@[simp] theorem Group.flag_nb (g : Group) (x : BitVec 5) : (g.flag x).nb = g.nb := rfl
@[simp] theorem Group.flag_batches (g : Group) (x : BitVec 5) : (g.flag x).batches = g.batches := rfl
@[simp] theorem Group.flag_cpytN (g : Group) (x : BitVec 5) : (g.flag x).cpytN = g.cpytN := rfl
@[simp] theorem Group.flag_acks (g : Group) (x : BitVec 5) : (g.flag x).acks = g.acks := rfl
@[simp] theorem Group.flag_loads (g : Group) (x : BitVec 5) : (g.flag x).loads = g.loads := rfl
@[simp] theorem Group.flag_stores (g : Group) (x : BitVec 5) : (g.flag x).stores = g.stores := rfl
@[simp] theorem Group.flag_last1 (g : Group) (x : BitVec 5) : (g.flag x).last1 = g.last1 := rfl
@[simp] theorem Group.flag_turns (g : Group) (x : BitVec 5) : (g.flag x).turns = g.turns := rfl
@[simp] theorem Group.flag_before (g : Group) (x : BitVec 5) : (g.flag x).before = g.before := rfl
@[simp] theorem Group.flag_seen (g : Group) (x : BitVec 5) : (g.flag x).seen = g.seen := rfl
@[simp] theorem Group.flag_ldep (g : Group) (x : BitVec 5) : (g.flag x).ldep = g.ldep := rfl
@[simp] theorem Group.flag_fetches (g : Group) (x : BitVec 5) : (g.flag x).fetches = g.fetches := rfl
@[simp] theorem Group.setLane_ref (g : Group) (l d n v : Nat) : (g.setLane l d n v).ref = g.ref := rfl
@[simp] theorem Group.setLane_core (g : Group) (l d n v : Nat) : (g.setLane l d n v).core = g.core := rfl
@[simp] theorem Group.setLane_seat (g : Group) (l d n v : Nat) : (g.setLane l d n v).seat = g.seat := rfl
@[simp] theorem Group.setLane_state (g : Group) (l d n v : Nat) : (g.setLane l d n v).state = g.state := rfl
@[simp] theorem Group.setLane_ctx (g : Group) (l d n v : Nat) : (g.setLane l d n v).ctx = g.ctx := rfl
@[simp] theorem Group.setLane_p (g : Group) (l d n v : Nat) : (g.setLane l d n v).p = g.p := rfl
@[simp] theorem Group.setLane_slc (g : Group) (l d n v : Nat) : (g.setLane l d n v).slc = g.slc := rfl
@[simp] theorem Group.setLane_queue (g : Group) (l d n v : Nat) : (g.setLane l d n v).queue = g.queue := rfl
@[simp] theorem Group.setLane_shapes (g : Group) (l d n v : Nat) : (g.setLane l d n v).shapes = g.shapes := rfl
@[simp] theorem Group.setLane_binds (g : Group) (l d n v : Nat) : (g.setLane l d n v).binds = g.binds := rfl
@[simp] theorem Group.setLane_fflags (g : Group) (l d n v : Nat) : (g.setLane l d n v).fflags = g.fflags := rfl
@[simp] theorem Group.setLane_memlat (g : Group) (l d n v : Nat) : (g.setLane l d n v).memlat = g.memlat := rfl
@[simp] theorem Group.setLane_perf (g : Group) (l d n v : Nat) : (g.setLane l d n v).perf = g.perf := rfl
@[simp] theorem Group.setLane_nb (g : Group) (l d n v : Nat) : (g.setLane l d n v).nb = g.nb := rfl
@[simp] theorem Group.setLane_batches (g : Group) (l d n v : Nat) : (g.setLane l d n v).batches = g.batches := rfl
@[simp] theorem Group.setLane_cpytN (g : Group) (l d n v : Nat) : (g.setLane l d n v).cpytN = g.cpytN := rfl
@[simp] theorem Group.setLane_acks (g : Group) (l d n v : Nat) : (g.setLane l d n v).acks = g.acks := rfl
@[simp] theorem Group.setLane_loads (g : Group) (l d n v : Nat) : (g.setLane l d n v).loads = g.loads := rfl
@[simp] theorem Group.setLane_stores (g : Group) (l d n v : Nat) : (g.setLane l d n v).stores = g.stores := rfl
@[simp] theorem Group.setLane_last1 (g : Group) (l d n v : Nat) : (g.setLane l d n v).last1 = g.last1 := rfl
@[simp] theorem Group.setLane_turns (g : Group) (l d n v : Nat) : (g.setLane l d n v).turns = g.turns := rfl
@[simp] theorem Group.setLane_before (g : Group) (l d n v : Nat) : (g.setLane l d n v).before = g.before := rfl
@[simp] theorem Group.setLane_seen (g : Group) (l d n v : Nat) : (g.setLane l d n v).seen = g.seen := rfl
@[simp] theorem Group.setLane_ldep (g : Group) (l d n v : Nat) : (g.setLane l d n v).ldep = g.ldep := rfl
@[simp] theorem Group.setLane_fetches (g : Group) (l d n v : Nat) : (g.setLane l d n v).fetches = g.fetches := rfl
@[simp] theorem Group.setP_ref (g : Group) (r : PReg) (v : LaneMask) : (g.setP r v).ref = g.ref := by
  unfold Group.setP; split <;> rfl
@[simp] theorem Group.setP_core (g : Group) (r : PReg) (v : LaneMask) : (g.setP r v).core = g.core := by
  unfold Group.setP; split <;> rfl
@[simp] theorem Group.setP_seat (g : Group) (r : PReg) (v : LaneMask) : (g.setP r v).seat = g.seat := by
  unfold Group.setP; split <;> rfl
@[simp] theorem Group.setP_state (g : Group) (r : PReg) (v : LaneMask) : (g.setP r v).state = g.state := by
  unfold Group.setP; split <;> rfl
@[simp] theorem Group.setP_ctx (g : Group) (r : PReg) (v : LaneMask) : (g.setP r v).ctx = g.ctx := by
  unfold Group.setP; split <;> rfl
@[simp] theorem Group.setP_lregs (g : Group) (r : PReg) (v : LaneMask) : (g.setP r v).lregs = g.lregs := by
  unfold Group.setP; split <;> rfl
@[simp] theorem Group.setP_slc (g : Group) (r : PReg) (v : LaneMask) : (g.setP r v).slc = g.slc := by
  unfold Group.setP; split <;> rfl
@[simp] theorem Group.setP_queue (g : Group) (r : PReg) (v : LaneMask) : (g.setP r v).queue = g.queue := by
  unfold Group.setP; split <;> rfl
@[simp] theorem Group.setP_shapes (g : Group) (r : PReg) (v : LaneMask) : (g.setP r v).shapes = g.shapes := by
  unfold Group.setP; split <;> rfl
@[simp] theorem Group.setP_binds (g : Group) (r : PReg) (v : LaneMask) : (g.setP r v).binds = g.binds := by
  unfold Group.setP; split <;> rfl
@[simp] theorem Group.setP_fflags (g : Group) (r : PReg) (v : LaneMask) : (g.setP r v).fflags = g.fflags := by
  unfold Group.setP; split <;> rfl
@[simp] theorem Group.setP_memlat (g : Group) (r : PReg) (v : LaneMask) : (g.setP r v).memlat = g.memlat := by
  unfold Group.setP; split <;> rfl
@[simp] theorem Group.setP_perf (g : Group) (r : PReg) (v : LaneMask) : (g.setP r v).perf = g.perf := by
  unfold Group.setP; split <;> rfl
@[simp] theorem Group.setP_nb (g : Group) (r : PReg) (v : LaneMask) : (g.setP r v).nb = g.nb := by
  unfold Group.setP; split <;> rfl
@[simp] theorem Group.setP_batches (g : Group) (r : PReg) (v : LaneMask) : (g.setP r v).batches = g.batches := by
  unfold Group.setP; split <;> rfl
@[simp] theorem Group.setP_cpytN (g : Group) (r : PReg) (v : LaneMask) : (g.setP r v).cpytN = g.cpytN := by
  unfold Group.setP; split <;> rfl
@[simp] theorem Group.setP_acks (g : Group) (r : PReg) (v : LaneMask) : (g.setP r v).acks = g.acks := by
  unfold Group.setP; split <;> rfl
@[simp] theorem Group.setP_loads (g : Group) (r : PReg) (v : LaneMask) : (g.setP r v).loads = g.loads := by
  unfold Group.setP; split <;> rfl
@[simp] theorem Group.setP_stores (g : Group) (r : PReg) (v : LaneMask) : (g.setP r v).stores = g.stores := by
  unfold Group.setP; split <;> rfl
@[simp] theorem Group.setP_last1 (g : Group) (r : PReg) (v : LaneMask) : (g.setP r v).last1 = g.last1 := by
  unfold Group.setP; split <;> rfl
@[simp] theorem Group.setP_turns (g : Group) (r : PReg) (v : LaneMask) : (g.setP r v).turns = g.turns := by
  unfold Group.setP; split <;> rfl
@[simp] theorem Group.setP_before (g : Group) (r : PReg) (v : LaneMask) : (g.setP r v).before = g.before := by
  unfold Group.setP; split <;> rfl
@[simp] theorem Group.setP_seen (g : Group) (r : PReg) (v : LaneMask) : (g.setP r v).seen = g.seen := by
  unfold Group.setP; split <;> rfl
@[simp] theorem Group.setP_ldep (g : Group) (r : PReg) (v : LaneMask) : (g.setP r v).ldep = g.ldep := by
  unfold Group.setP; split <;> rfl
@[simp] theorem Group.setP_fetches (g : Group) (r : PReg) (v : LaneMask) : (g.setP r v).fetches = g.fetches := by
  unfold Group.setP; split <;> rfl

/-! ### Contexts -/
@[simp] theorem Ctx.setS_a (x : Ctx) (r : SReg) (v : Word) : (x.setS r v).a = x.a := by
  unfold Ctx.setS; split <;> rfl
@[simp] theorem Ctx.setS_c (x : Ctx) (r : SReg) (v : Word) : (x.setS r v).c = x.c := by
  unfold Ctx.setS; split <;> rfl
@[simp] theorem Ctx.setS_mw (x : Ctx) (r : SReg) (v : Word) : (x.setS r v).mw = x.mw := by
  unfold Ctx.setS; split <;> rfl
@[simp] theorem Ctx.setS_f0 (x : Ctx) (r : SReg) (v : Word) : (x.setS r v).f0 = x.f0 := by
  unfold Ctx.setS; split <;> rfl
@[simp] theorem Ctx.setS_f1 (x : Ctx) (r : SReg) (v : Word) : (x.setS r v).f1 = x.f1 := by
  unfold Ctx.setS; split <;> rfl
@[simp] theorem Ctx.setS_stack (x : Ctx) (r : SReg) (v : Word) : (x.setS r v).stack = x.stack := by
  unfold Ctx.setS; split <;> rfl
@[simp] theorem Ctx.setS_top (x : Ctx) (r : SReg) (v : Word) : (x.setS r v).top = x.top := by
  unfold Ctx.setS; split <;> rfl
@[simp] theorem Ctx.setS_clockHi (x : Ctx) (r : SReg) (v : Word) : (x.setS r v).clockHi = x.clockHi := by
  unfold Ctx.setS; split <;> rfl
@[simp] theorem Ctx.setS_ovCount (x : Ctx) (r : SReg) (v : Word) : (x.setS r v).ovCount = x.ovCount := by
  unfold Ctx.setS; split <;> rfl
@[simp] theorem Ctx.setS_ovLast (x : Ctx) (r : SReg) (v : Word) : (x.setS r v).ovLast = x.ovLast := by
  unfold Ctx.setS; split <;> rfl
@[simp] theorem Ctx.setS_perf0 (x : Ctx) (r : SReg) (v : Word) : (x.setS r v).perf0 = x.perf0 := by
  unfold Ctx.setS; split <;> rfl
@[simp] theorem Ctx.setS_dep (x : Ctx) (r : SReg) (v : Word) : (x.setS r v).dep = x.dep := by
  unfold Ctx.setS; split <;> rfl
@[simp] theorem Ctx.setA_s (x : Ctx) (r : AReg) (v : Addr) : (x.setA r v).s = x.s := rfl
@[simp] theorem Ctx.setA_c (x : Ctx) (r : AReg) (v : Addr) : (x.setA r v).c = x.c := rfl
@[simp] theorem Ctx.setA_mw (x : Ctx) (r : AReg) (v : Addr) : (x.setA r v).mw = x.mw := rfl
@[simp] theorem Ctx.setA_f0 (x : Ctx) (r : AReg) (v : Addr) : (x.setA r v).f0 = x.f0 := rfl
@[simp] theorem Ctx.setA_f1 (x : Ctx) (r : AReg) (v : Addr) : (x.setA r v).f1 = x.f1 := rfl
@[simp] theorem Ctx.setA_stack (x : Ctx) (r : AReg) (v : Addr) : (x.setA r v).stack = x.stack := rfl
@[simp] theorem Ctx.setA_top (x : Ctx) (r : AReg) (v : Addr) : (x.setA r v).top = x.top := rfl
@[simp] theorem Ctx.setA_clockHi (x : Ctx) (r : AReg) (v : Addr) : (x.setA r v).clockHi = x.clockHi := rfl
@[simp] theorem Ctx.setA_ovCount (x : Ctx) (r : AReg) (v : Addr) : (x.setA r v).ovCount = x.ovCount := rfl
@[simp] theorem Ctx.setA_ovLast (x : Ctx) (r : AReg) (v : Addr) : (x.setA r v).ovLast = x.ovLast := rfl
@[simp] theorem Ctx.setA_perf0 (x : Ctx) (r : AReg) (v : Addr) : (x.setA r v).perf0 = x.perf0 := rfl
@[simp] theorem Ctx.setA_dep (x : Ctx) (r : AReg) (v : Addr) : (x.setA r v).dep = x.dep := rfl
@[simp] theorem Ctx.setC_s (x : Ctx) (r : CReg) (v : Bool) : (x.setC r v).s = x.s := rfl
@[simp] theorem Ctx.setC_a (x : Ctx) (r : CReg) (v : Bool) : (x.setC r v).a = x.a := rfl
@[simp] theorem Ctx.setC_mw (x : Ctx) (r : CReg) (v : Bool) : (x.setC r v).mw = x.mw := rfl
@[simp] theorem Ctx.setC_f0 (x : Ctx) (r : CReg) (v : Bool) : (x.setC r v).f0 = x.f0 := rfl
@[simp] theorem Ctx.setC_f1 (x : Ctx) (r : CReg) (v : Bool) : (x.setC r v).f1 = x.f1 := rfl
@[simp] theorem Ctx.setC_stack (x : Ctx) (r : CReg) (v : Bool) : (x.setC r v).stack = x.stack := rfl
@[simp] theorem Ctx.setC_top (x : Ctx) (r : CReg) (v : Bool) : (x.setC r v).top = x.top := rfl
@[simp] theorem Ctx.setC_clockHi (x : Ctx) (r : CReg) (v : Bool) : (x.setC r v).clockHi = x.clockHi := rfl
@[simp] theorem Ctx.setC_ovCount (x : Ctx) (r : CReg) (v : Bool) : (x.setC r v).ovCount = x.ovCount := rfl
@[simp] theorem Ctx.setC_ovLast (x : Ctx) (r : CReg) (v : Bool) : (x.setC r v).ovLast = x.ovLast := rfl
@[simp] theorem Ctx.setC_perf0 (x : Ctx) (r : CReg) (v : Bool) : (x.setC r v).perf0 = x.perf0 := rfl
@[simp] theorem Ctx.setC_dep (x : Ctx) (r : CReg) (v : Bool) : (x.setC r v).dep = x.dep := rfl
@[simp] theorem Ctx.setMw_s (x : Ctx) (r : BitVec 4) (v : BitVec 128) : (x.setMw r v).s = x.s := rfl
@[simp] theorem Ctx.setMw_a (x : Ctx) (r : BitVec 4) (v : BitVec 128) : (x.setMw r v).a = x.a := rfl
@[simp] theorem Ctx.setMw_c (x : Ctx) (r : BitVec 4) (v : BitVec 128) : (x.setMw r v).c = x.c := rfl
@[simp] theorem Ctx.setMw_f0 (x : Ctx) (r : BitVec 4) (v : BitVec 128) : (x.setMw r v).f0 = x.f0 := rfl
@[simp] theorem Ctx.setMw_f1 (x : Ctx) (r : BitVec 4) (v : BitVec 128) : (x.setMw r v).f1 = x.f1 := rfl
@[simp] theorem Ctx.setMw_stack (x : Ctx) (r : BitVec 4) (v : BitVec 128) : (x.setMw r v).stack = x.stack := rfl
@[simp] theorem Ctx.setMw_top (x : Ctx) (r : BitVec 4) (v : BitVec 128) : (x.setMw r v).top = x.top := rfl
@[simp] theorem Ctx.setMw_clockHi (x : Ctx) (r : BitVec 4) (v : BitVec 128) : (x.setMw r v).clockHi = x.clockHi := rfl
@[simp] theorem Ctx.setMw_ovCount (x : Ctx) (r : BitVec 4) (v : BitVec 128) : (x.setMw r v).ovCount = x.ovCount := rfl
@[simp] theorem Ctx.setMw_ovLast (x : Ctx) (r : BitVec 4) (v : BitVec 128) : (x.setMw r v).ovLast = x.ovLast := rfl
@[simp] theorem Ctx.setMw_perf0 (x : Ctx) (r : BitVec 4) (v : BitVec 128) : (x.setMw r v).perf0 = x.perf0 := rfl
@[simp] theorem Ctx.setMw_dep (x : Ctx) (r : BitVec 4) (v : BitVec 128) : (x.setMw r v).dep = x.dep := rfl
@[simp] theorem Ctx.setFrag_s (x : Ctx) (b : Bool) (f : Option Frag) : (x.setFrag b f).s = x.s := by
  cases b <;> rfl
@[simp] theorem Ctx.setFrag_a (x : Ctx) (b : Bool) (f : Option Frag) : (x.setFrag b f).a = x.a := by
  cases b <;> rfl
@[simp] theorem Ctx.setFrag_c (x : Ctx) (b : Bool) (f : Option Frag) : (x.setFrag b f).c = x.c := by
  cases b <;> rfl
@[simp] theorem Ctx.setFrag_mw (x : Ctx) (b : Bool) (f : Option Frag) : (x.setFrag b f).mw = x.mw := by
  cases b <;> rfl
@[simp] theorem Ctx.setFrag_stack (x : Ctx) (b : Bool) (f : Option Frag) : (x.setFrag b f).stack = x.stack := by
  cases b <;> rfl
@[simp] theorem Ctx.setFrag_top (x : Ctx) (b : Bool) (f : Option Frag) : (x.setFrag b f).top = x.top := by
  cases b <;> rfl
@[simp] theorem Ctx.setFrag_clockHi (x : Ctx) (b : Bool) (f : Option Frag) : (x.setFrag b f).clockHi = x.clockHi := by
  cases b <;> rfl
@[simp] theorem Ctx.setFrag_ovCount (x : Ctx) (b : Bool) (f : Option Frag) : (x.setFrag b f).ovCount = x.ovCount := by
  cases b <;> rfl
@[simp] theorem Ctx.setFrag_ovLast (x : Ctx) (b : Bool) (f : Option Frag) : (x.setFrag b f).ovLast = x.ovLast := by
  cases b <;> rfl
@[simp] theorem Ctx.setFrag_perf0 (x : Ctx) (b : Bool) (f : Option Frag) : (x.setFrag b f).perf0 = x.perf0 := by
  cases b <;> rfl
@[simp] theorem Ctx.setFrag_dep (x : Ctx) (b : Bool) (f : Option Frag) : (x.setFrag b f).dep = x.dep := by
  cases b <;> rfl

end Sys2Proof.Machine
end

