-- ==== Sys2Proof/Laws/Memory.lean ====
section
/-!
SUPPORT. Memory: a byte written reads back, every other byte stays, and every operation keeps the canonical form.
-/
namespace Sys2Proof.Machine

theorem Memory.rd_ins (m : Memory) (k j : Nat) (v : Byte) (h : ∀ c ∈ m, c.1 ≠ k) :
    Memory.rd (Memory.ins m k v) j = if j = k then v else Memory.rd m j := by
  induction m with
  | nil => simp only [Memory.ins, Memory.rd]; grind
  | cons c m ih =>
    obtain ⟨a, b⟩ := c
    have ha : a ≠ k := h (a, b) (by simp)
    have := ih fun c hc => h c (by simp [hc])
    simp only [Memory.ins]
    split <;> simp only [Memory.rd, this] <;> grind

theorem Memory.rd_drop (m : Memory) (k j : Nat) :
    Memory.rd (m.filter fun c => c.1 ≠ k) j = if j = k then 0 else Memory.rd m j := by
  induction m with
  | nil => simp [Memory.rd]
  | cons c m ih =>
    obtain ⟨a, b⟩ := c
    by_cases ha : a = k
    · rw [List.filter_cons_of_neg (by simp [ha]), ih]; simp only [Memory.rd]; grind
    · rw [List.filter_cons_of_pos (by simp [ha])]; simp only [Memory.rd, ih]; grind

/-- A byte written reads back; every other byte reads as before. -/
theorem Memory.rd_wr (m : Memory) (k j : Nat) (v : Byte) :
    Memory.rd (Memory.wr m k v) j = if j = k then v else Memory.rd m j := by
  unfold Memory.wr
  dsimp only
  split
  · rw [Memory.rd_drop]; grind
  · rw [Memory.rd_ins _ _ _ _ (by simp), Memory.rd_drop]; grind

@[simp] theorem Memory.rd_wr_same (m : Memory) (k : Nat) (v : Byte) : Memory.rd (Memory.wr m k v) k = v := by
  simp [Memory.rd_wr]

theorem Memory.rd_wr_other (m : Memory) {k j : Nat} (v : Byte) (h : j ≠ k) :
    Memory.rd (Memory.wr m k v) j = Memory.rd m j := by simp [Memory.rd_wr, h]

/-- Consecutive bytes written read back; every other byte reads as before. -/
theorem Memory.rd_wrs (l : List Byte) (m : Memory) (k j : Nat) :
    Memory.rd (Memory.wrs m k l) j = if k ≤ j then (l[j - k]?).getD (Memory.rd m j) else Memory.rd m j := by
  induction l generalizing m k with
  | nil => simp [Memory.wrs]
  | cons b l ih =>
    simp only [Memory.wrs, ih, Memory.rd_wr]
    by_cases h1 : k = j
    · subst h1; simp [show ¬k + 1 ≤ k by omega]
    · by_cases h2 : k < j
      · have : j - k = (j - (k + 1)) + 1 := by omega
        rw [if_pos (show k + 1 ≤ j by omega), if_pos (show k ≤ j by omega), this, List.getElem?_cons_succ,
          if_neg (show ¬j = k by omega)]
      · rw [if_neg (show ¬k + 1 ≤ j by omega), if_neg (show ¬k ≤ j by omega), if_neg (show ¬j = k by omega)]

theorem Memory.wf_cons (a : Nat) (b : Byte) (m : Memory) :
    Memory.wf ((a, b) :: m) = true ↔ b ≠ 0 ∧ (∀ c ∈ m, a < c.1) ∧ Memory.wf m = true := by
  simp [Memory.wf, and_assoc]

theorem Memory.wf_filter (m : Memory) (p : Host.Cell → Bool) (h : Memory.wf m = true) : Memory.wf (m.filter p) = true := by
  induction m with
  | nil => rfl
  | cons c m ih =>
    obtain ⟨a, b⟩ := c
    rw [Memory.wf_cons] at h
    by_cases hp : p (a, b)
    · rw [List.filter_cons_of_pos hp, Memory.wf_cons]
      exact ⟨h.1, fun c hc => h.2.1 c (List.mem_filter.mp hc).1, ih h.2.2⟩
    · rw [List.filter_cons_of_neg hp]; exact ih h.2.2

theorem Memory.mem_ins (m : Memory) (k : Nat) (v : Byte) (c : Host.Cell) (h : c ∈ Memory.ins m k v) : c = (k, v) ∨ c ∈ m := by
  induction m with
  | nil => simpa [Memory.ins] using h
  | cons e m ih =>
    obtain ⟨a, b⟩ := e
    simp only [Memory.ins] at h
    split at h
    · simpa using h
    · rcases List.mem_cons.mp h with h | h
      · simp [h]
      · rcases ih h with h | h <;> simp [h]

theorem Memory.wf_ins (m : Memory) (k : Nat) (v : Byte) (h : Memory.wf m = true) (hk : ∀ c ∈ m, c.1 ≠ k) (hv : v ≠ 0) :
    Memory.wf (Memory.ins m k v) = true := by
  induction m with
  | nil => exact (Memory.wf_cons _ _ _).mpr ⟨hv, by simp, rfl⟩
  | cons e m ih =>
    obtain ⟨a, b⟩ := e
    have h0 := (Memory.wf_cons a b m).mp h
    have ha : a ≠ k := hk (a, b) (by simp)
    simp only [Memory.ins]
    split
    · rename_i hlt
      refine (Memory.wf_cons _ _ _).mpr ⟨hv, fun c hc => ?_, h⟩
      rcases List.mem_cons.mp hc with hc | hc
      · rw [hc]; exact hlt
      · exact Nat.lt_trans hlt (h0.2.1 c hc)
    · rename_i hlt
      refine (Memory.wf_cons _ _ _).mpr ⟨h0.1, fun c hc => ?_, ih h0.2.2 fun c hc => hk c (by simp [hc])⟩
      rcases Memory.mem_ins _ _ _ _ hc with hc | hc
      · rw [hc]; simp only; omega
      · exact h0.2.1 c hc

/-- A write keeps the canonical form. -/
theorem Memory.wf_wr (m : Memory) (k : Nat) (v : Byte) (h : Memory.wf m = true) : Memory.wf (Memory.wr m k v) = true := by
  unfold Memory.wr
  dsimp only
  have hd := Memory.wf_filter m (fun c => decide (c.1 ≠ k)) h
  split
  · exact hd
  · exact Memory.wf_ins _ _ _ hd (by simp) ‹_›

theorem Memory.wf_wrs (l : List Byte) (m : Memory) (k : Nat) (h : Memory.wf m = true) : Memory.wf (Memory.wrs m k l) = true := by
  induction l generalizing m k with
  | nil => exact h
  | cons b l ih => exact ih _ _ (Memory.wf_wr m k b h)

@[simp] theorem Memory.wf_nil : Memory.wf [] = true := rfl

/-- Canonical memories that read the same are the same. -/
theorem Memory.ext_wf (m n : Memory) (hm : Memory.wf m = true) (hn : Memory.wf n = true)
    (h : ∀ k, Memory.rd m k = Memory.rd n k) : m = n := by
  have rd0 : ∀ (m : Memory) (k : Nat), (∀ c ∈ m, k < c.1) → Memory.rd m k = 0 := by
    intro m k hk
    induction m with
    | nil => rfl
    | cons c m ih =>
      obtain ⟨a, b⟩ := c
      have := hk (a, b) (by simp)
      simp only [Memory.rd]
      rw [if_neg (by simp at this; omega)]
      exact ih fun c hc => hk c (by simp [hc])
  induction m generalizing n with
  | nil =>
    cases n with
    | nil => rfl
    | cons c n =>
      obtain ⟨a, b⟩ := c
      have := h a
      simp [Memory.rd] at this
      exact absurd this.symm ((Memory.wf_cons a b n).mp hn).1
  | cons c m ih =>
    obtain ⟨a, b⟩ := c
    have hm' := (Memory.wf_cons a b m).mp hm
    cases n with
    | nil =>
      have := h a
      simp [Memory.rd] at this
      exact absurd this hm'.1
    | cons d n =>
      obtain ⟨e, f⟩ := d
      have hn' := (Memory.wf_cons e f n).mp hn
      have hae : a = e := by
        rcases Nat.lt_trichotomy a e with hlt | heq | hgt
        · have := h a
          rw [rd0 ((e, f) :: n) a (by intro c hc; rcases List.mem_cons.mp hc with hc | hc; (rw [hc]; exact hlt); exact Nat.lt_trans hlt (hn'.2.1 c hc))] at this
          simp [Memory.rd] at this
          exact absurd this hm'.1
        · exact heq
        · have := h e
          rw [rd0 ((a, b) :: m) e (by intro c hc; rcases List.mem_cons.mp hc with hc | hc; (rw [hc]; exact hgt); exact Nat.lt_trans hgt (hm'.2.1 c hc))] at this
          simp [Memory.rd] at this
          exact absurd this.symm hn'.1
      subst hae
      have hbf : b = f := by have := h a; simpa [Memory.rd] using this
      subst hbf
      rw [ih n hm'.2.2 hn'.2.2]
      intro k
      by_cases hk : a = k
      · subst hk; rw [rd0 m a hm'.2.1, rd0 n a hn'.2.1]
      · have := h k; simpa [Memory.rd, hk] using this

end Sys2Proof.Machine
end

