-- ==== Sys2Proof/Laws/Ops.lean ====
section
/-!
SUPPORT. What the shared operations do: looking groups up, running an instruction of a stream, registers,
and moving a fragment on.
-/
namespace Sys2Proof.Machine
open Sys2Proof.Safety

/-! ### Lists with one element per key -/

theorem find?_map_key {α κ : Type} [DecidableEq κ] (key : α → κ) (a : α) (l : List α) (k : κ) :
    (l.map fun x => if key x = key a then a else x).find? (fun x => key x = k) =
      if k = key a then (l.find? fun x => key x = k).map fun _ => a else l.find? fun x => key x = k := by
  induction l with
  | nil => simp
  | cons x l ih =>
    simp only [List.map_cons, List.find?_cons]
    by_cases hx : key x = key a <;> by_cases hk : k = key a <;>
      simp_all [eq_comm]

/-! ### Looking up what was set -/

theorem State.group?_setGroup (s : State) (g : Group) (r : GRef) :
    (s.setGroup g).group? r = if r = g.ref then (s.group? r).map (fun _ => g) else s.group? r := by
  simpa [State.group?, State.setGroup] using find?_map_key Group.ref g s.groups r

theorem State.team?_setTeam (s : State) (t : Team) (r : TRef) :
    (s.setTeam t).team? r = if r = t.ref then (s.team? r).map (fun _ => t) else s.team? r := by
  simpa [State.team?, State.setTeam] using find?_map_key Team.ref t s.teams r

theorem State.part?_setPart (s : State) (p : Part) (i : Nat) :
    (s.setPart p).part? i = if i = p.id then (s.part? i).map (fun _ => p) else s.part? i := by
  simpa [State.part?, State.setPart] using find?_map_key Part.id p s.parts i

theorem State.op?_setOp (s : State) (o : Op) (i : Nat) :
    (s.setOp o).op? i = if i = o.id then (s.op? i).map (fun _ => o) else s.op? i := by
  simpa [State.op?, State.setOp] using find?_map_key Op.id o s.ops i

@[simp] theorem State.part?_setGroup (s : State) (g : Group) (i : Nat) : (s.setGroup g).part? i = s.part? i := rfl
@[simp] theorem State.team?_setGroup (s : State) (g : Group) (r : TRef) : (s.setGroup g).team? r = s.team? r := rfl
@[simp] theorem State.launch?_setGroup (s : State) (g : Group) (p l : Nat) : (s.setGroup g).launch? p l = s.launch? p l := rfl
@[simp] theorem State.core_setGroup (s : State) (g : Group) (k : Nat) : (s.setGroup g).core k = s.core k := rfl
@[simp] theorem State.op?_setGroup (s : State) (g : Group) (k : Nat) : (s.setGroup g).op? k = s.op? k := rfl
@[simp] theorem State.group?_setTeam (s : State) (t : Team) (r : GRef) : (s.setTeam t).group? r = s.group? r := rfl
@[simp] theorem State.group?_setPart (s : State) (p : Part) (r : GRef) : (s.setPart p).group? r = s.group? r := rfl
@[simp] theorem State.group?_setLaunch (s : State) (l : Launch) (r : GRef) : (s.setLaunch l).group? r = s.group? r := rfl
@[simp] theorem State.group?_setCore (s : State) (c : Core) (r : GRef) : (s.setCore c).group? r = s.group? r := rfl

/-- A group keeps its name when it is looked up. -/
theorem State.group?_ref {s : State} {r : GRef} {g : Group} (h : s.group? r = some g) : g.ref = r := by
  have := List.find?_some h; simpa using this

/-! ### Instructions of a stream -/

theorem onFrag_issues {s : State} {b : Bool} {g : Group} {f : Frag} (h : Issues s b g f) (k : Group → Frag → State) :
    onFrag s k = .next (k g f) := by
  obtain ⟨h1, h2, h3, h4⟩ := h
  simp [onFrag, h1, h2, h3, h4]

theorem onLane_issues {s : State} {g : Group} {e : Entry} {es : List Entry} (h : LaneIssues s g e es)
    (k : Group → Entry → State) : onLane s k = .next (k g e) := by
  obtain ⟨h1, h2, h3, h4⟩ := h
  simp [onLane, h1, h2, h3, h4]

theorem slot1_issues {s : State} {b : Bool} {g : Group} {f : Frag} (h : Issues s b g f) : s.cur.st.slot1 = b := by
  simp [h.cur, Stream.slot1]

theorem regOp_issues {s : State} {b : Bool} {g : Group} {f : Frag} (h : Issues s b g f) (n : Nat) (k : Ctx → Ctx) :
    regOp s n k = .next (s.setGroup (g.onCtx fun c => (k c).retire b n)) := by
  rw [regOp, onFrag_issues h, slot1_issues h]

/-! ### Registers of a context -/

@[simp] theorem Ctx.getS_zero (c : Ctx) : c.getS 0#6 = 0#32 := by simp [Ctx.getS]

theorem Ctx.getS_setS (c : Ctx) (d r : SReg) (v : Word) :
    (c.setS d v).getS r = if r = 0 then 0 else if r = d then v else c.getS r := by
  unfold Ctx.getS Ctx.setS
  by_cases hr : r = 0
  · simp [hr]
  · by_cases hd : d = 0
    · subst hd; simp only [↓reduceIte, hr]
    · simp only [hr, hd, if_false]
      rw [Vector.getElem_set]
      by_cases h : r = d
      · subst h; simp
      · have : d.toNat ≠ r.toNat := fun e => h (BitVec.eq_of_toNat_eq e.symm)
        simp [this, h]

theorem Ctx.getA_setA (c : Ctx) (d r : AReg) (v : Addr) :
    (c.setA d v).getA r = if r = d then v else c.getA r := by
  unfold Ctx.getA Ctx.setA
  simp only [Vector.getElem_set]
  by_cases h : r = d
  · subst h; simp
  · have : d.toNat ≠ r.toNat := fun e => h (BitVec.eq_of_toNat_eq e.symm)
    simp [this, h]

theorem Ctx.getC_setC (c : Ctx) (d r : CReg) (v : Bool) :
    (c.setC d v).getC r = if r = d then v else c.getC r := by
  unfold Ctx.getC Ctx.setC
  simp only [Vector.getElem_set]
  by_cases h : r = d
  · subst h; simp
  · have : d.toNat ≠ r.toNat := fun e => h (BitVec.eq_of_toNat_eq e.symm)
    simp [this, h]

theorem Ctx.getMw_setMw (c : Ctx) (d r : BitVec 4) (v : BitVec 128) :
    (c.setMw d v).getMw r = if r = d then v else c.getMw r := by
  unfold Ctx.getMw Ctx.setMw
  simp only [Vector.getElem_set]
  by_cases h : r = d
  · subst h; simp
  · have : d.toNat ≠ r.toNat := fun e => h (BitVec.eq_of_toNat_eq e.symm)
    simp [this, h]

@[simp] theorem Ctx.getA_setS (c : Ctx) (d : SReg) (v : Word) (r : AReg) : (c.setS d v).getA r = c.getA r := by
  simp [Ctx.getA]
@[simp] theorem Ctx.getC_setS (c : Ctx) (d : SReg) (v : Word) (r : CReg) : (c.setS d v).getC r = c.getC r := by
  simp [Ctx.getC]
@[simp] theorem Ctx.getS_setA (c : Ctx) (d : AReg) (v : Addr) (r : SReg) : (c.setA d v).getS r = c.getS r := by
  simp [Ctx.getS]
@[simp] theorem Ctx.getC_setA (c : Ctx) (d : AReg) (v : Addr) (r : CReg) : (c.setA d v).getC r = c.getC r := by
  simp [Ctx.getC]
@[simp] theorem Ctx.getS_setC (c : Ctx) (d : CReg) (v : Bool) (r : SReg) : (c.setC d v).getS r = c.getS r := by
  simp [Ctx.getS]
@[simp] theorem Ctx.getA_setC (c : Ctx) (d : CReg) (v : Bool) (r : AReg) : (c.setC d v).getA r = c.getA r := by
  simp [Ctx.getA]
@[simp] theorem Ctx.getS_setFrag (c : Ctx) (b : Bool) (f : Option Frag) (r : SReg) : (c.setFrag b f).getS r = c.getS r := by
  simp [Ctx.getS]
@[simp] theorem Ctx.getA_setFrag (c : Ctx) (b : Bool) (f : Option Frag) (r : AReg) : (c.setFrag b f).getA r = c.getA r := by
  simp [Ctx.getA]
@[simp] theorem Ctx.getC_setFrag (c : Ctx) (b : Bool) (f : Option Frag) (r : CReg) : (c.setFrag b f).getC r = c.getC r := by
  simp [Ctx.getC]

theorem Ctx.frag_setFrag (c : Ctx) (b d : Bool) (f : Option Frag) :
    (c.setFrag b f).frag d = if d = b then f else c.frag d := by
  cases b <;> cases d <;> rfl
@[simp] theorem Ctx.frag_setS (c : Ctx) (d : SReg) (v : Word) (b : Bool) : (c.setS d v).frag b = c.frag b := by
  simp [Ctx.frag]
@[simp] theorem Ctx.frag_setA (c : Ctx) (d : AReg) (v : Addr) (b : Bool) : (c.setA d v).frag b = c.frag b := rfl
@[simp] theorem Ctx.frag_setC (c : Ctx) (d : CReg) (v : Bool) (b : Bool) : (c.setC d v).frag b = c.frag b := rfl
@[simp] theorem Ctx.frag_setMw (c : Ctx) (d : BitVec 4) (v : BitVec 128) (b : Bool) : (c.setMw d v).frag b = c.frag b := rfl

@[simp] theorem Ctx.setFrag_setFrag (c : Ctx) (b : Bool) (f f' : Option Frag) :
    (c.setFrag b f).setFrag b f' = c.setFrag b f' := by cases b <;> rfl

theorem Ctx.retire_some {c : Ctx} {b : Bool} {f : Frag} (h : c.frag b = some f) (n : Nat) :
    c.retire b n = { c.setFrag b (some (f.next n)) with perf0 := c.perf0 + 1 } := by
  simp [Ctx.retire, h]
theorem Ctx.goto_some {c : Ctx} {b : Bool} {f : Frag} (h : c.frag b = some f) (slot pcw : Nat) :
    c.goto b slot pcw = { c.setFrag b (some (f.jump slot pcw)) with perf0 := c.perf0 + 1 } := by
  simp [Ctx.goto, h]

/-- An instruction that writes nothing and leaves its fragment f'. -/
theorem ran_setFrag {c : Ctx} {b : Bool} (f' : Frag) :
    Ran b f' [] [] [] c { c.setFrag b (some f') with perf0 := c.perf0 + 1 } := by
  refine ⟨⟨⟨?_, ?_, ?_, ?_⟩, ?_, ⟨?_, ?_⟩, rfl⟩, ?_, ?_, ⟨?_, ?_⟩⟩
  · intro r; simp only [Ctx.getS, Ctx.setFrag_s, List.lookup, Option.getD_none]; grind
  · intro r; simp [Ctx.getA]
  · intro r; simp [Ctx.getC]
  all_goals cases b <;> rfl

/-! ### Bytes -/

theorem sameBytes_setGroup {s : State} {g g' : Group} (h : s.group? g.ref = some g) (hr : g'.ref = g.ref)
    (hs : g'.slc = g.slc) (hl : g'.lregs = g.lregs) : SameBytes s (s.setGroup g') := by
  intro l
  cases l with
  | slc r o =>
    simp only [State.peek, State.group?_setGroup]
    split
    · rename_i e; rw [hr] at e; subst e; simp [h, hs]
    · rfl
  | lreg r o =>
    simp only [State.peek, State.group?_setGroup]
    split
    · rename_i e; rw [hr] at e; subst e; simp [h, hl]
    · rfl
  | _ => rfl

theorem sameBytes_ctx {s : State} {g : Group} (h : s.group? g.ref = some g) (c : Ctx) :
    SameBytes s (s.setGroup { g with ctx := c }) := sameBytes_setGroup h rfl rfl rfl

end Sys2Proof.Machine
end

