-- ==== Sys2Proof/Laws/Cache.lean ====
section
/-!
SUPPORT. What the operations of the caches do to the rest of the machine: nothing. They change what the caches hold, what
HBM4E banks wait for and the records of R82, and no byte of any place.
-/
namespace Sys2Proof.Machine
open Sys2Proof.Safety

/-- State t is s but for the caches, the pseudo-channels, the records of R82 and the lines a step has banks read. -/
structure InCaches (s t : State) : Prop where
  rest  : t = { s with cores := t.cores, l2 := t.l2, msc := t.msc, pred := t.pred, dirty := t.dirty, parts := t.parts,
                       pchs := t.pchs, touched := t.touched }
  parts : t.parts.map (fun p => { p with mixed := [] }) = s.parts.map fun p => { p with mixed := [] }
  cores : ∀ k, { t.core k with l1 := [] } = { s.core k with l1 := [] }

namespace InCaches
theorem refl (s : State) : InCaches s s := ⟨rfl, rfl, fun _ => rfl⟩

theorem trans {s t u : State} (h : InCaches s t) (k : InCaches t u) : InCaches s u := by
  refine ⟨?_, k.parts.trans h.parts, fun c => (k.cores c).trans (h.cores c)⟩
  rw [k.rest, h.rest]

theorem fold {α : Type} (f : State → α → State) (h : ∀ s a, InCaches s (f s a)) (l : List α) (s : State) :
    InCaches s (l.foldl f s) := by
  induction l generalizing s with
  | nil => exact refl s
  | cons a l ih => exact (h s a).trans (ih _)

theorem ite {p : Prop} [Decidable p] {s t u : State} (h : InCaches s t) (k : InCaches s u) :
    InCaches s (if p then t else u) := by split <;> assumption

theorem elim {α : Type} {s t : State} {f : α → State} (h : InCaches s t) (k : ∀ a, InCaches t (f a)) (o : Option α) :
    InCaches s (o.elim t f) := by
  cases o with
  | none => exact h
  | some a => exact h.trans (k a)

/-- A part's fields other than the records of R82. -/
theorem part {s t : State} (h : InCaches s t) (i : Nat) :
    (t.part? i).map (fun p => { p with mixed := [] }) = (s.part? i).map fun p => { p with mixed := [] } := by
  have key : ∀ u : State, (u.part? i).map (fun p => { p with mixed := [] }) =
      (u.parts.map fun p => { p with mixed := [] }).find? fun p => p.id = i := by
    intro u; simp only [State.part?, List.find?_map]; rfl
  rw [key, key, h.parts]

/-- No byte differs. -/
theorem bytes {s t : State} (h : InCaches s t) : SameBytes s t := by
  intro l
  have hp := h.part
  have e := h.rest
  cases l with
  | rem p i g o =>
    have r : (t.part? p).map (·.remote) = (s.part? p).map (·.remote) := by
      have := congrArg (Option.map (·.remote)) (hp p)
      simpa [Option.map_map, Function.comp_def] using this
    cases ht : t.part? p <;> cases hs : s.part? p <;> rw [ht, hs] at r <;> simp only [Option.map] at r
    · simp only [State.peek, ht, hs]
    · exact nomatch r
    · exact nomatch r
    · simp only [State.peek, ht, hs, Option.bind, Option.some.inj r]
  | _ => rw [e]; rfl
end InCaches

namespace State
theorem core_id (s : State) (k : Nat) : (s.core k).id = k := by
  unfold core
  cases h : s.cores.find? fun c => c.id = k with
  | none => rfl
  | some c => simpa using List.find?_some h

theorem core_setCore (s : State) (c : Core) (k : Nat) : (s.setCore c).core k = if k = c.id then c else s.core k := by
  unfold core setCore
  by_cases h : k = c.id
  · simp [h]
  · have : (c.id = k) ↔ False := ⟨fun e => h e.symm, False.elim⟩
    simp only [List.find?_cons, this, decide_false, if_neg h]
    rw [List.find?_filter]
    congr 2
    funext d
    by_cases e : d.id = k <;> simp [e, h]

theorem inCaches_mscEvict (s : State) (m : MLine) : InCaches s (s.mscEvict m) := ⟨rfl, rfl, fun _ => rfl⟩

/-- Sectors that come into the memory-side cache. -/
theorem inCaches_mscFill (s : State) (p : Part) (c prio : Nat) (x d : BitVec 32) : InCaches s (s.mscFill p c prio x d) := by
  unfold mscFill
  split
  · exact ⟨rfl, rfl, fun _ => rfl⟩
  · dsimp only
    split
    · exact ⟨rfl, rfl, fun _ => rfl⟩
    · split
      · exact (inCaches_mscEvict s _).trans ⟨rfl, rfl, fun _ => rfl⟩
      · exact .refl s

/-- A line that leaves its L2 slice. -/
theorem inCaches_l2Evict (s : State) (p : Part) (l : L2Line) : InCaches s (s.l2Evict p l) := by
  unfold l2Evict
  have h : InCaches s { s with l2 := s.l2.filter (fun e => e.line ≠ l.line),
                               parts := s.parts.map fun q => { q with mixed := q.mixed.filter fun m => m.1 / 128 ≠ l.line } } :=
    ⟨rfl, by simp [List.map_map, Function.comp_def], fun _ => rfl⟩
  exact .ite (h.trans (inCaches_mscFill _ _ _ _ _ _)) h

/-- A line that comes into its L2 slice. -/
theorem inCaches_l2Fill (s : State) (p : Part) (l prio : Nat) (d : Bool) : InCaches s (s.l2Fill p l prio d) := by
  unfold l2Fill
  split
  · exact ⟨rfl, rfl, fun _ => rfl⟩
  · dsimp only
    refine InCaches.trans (t := if _ then s else _) (.ite (.refl s) ?_) ⟨rfl, rfl, fun _ => rfl⟩
    split
    · exact inCaches_l2Evict _ _ _
    · exact .refl s

theorem inCaches_setL1 (s : State) (c : Nat) (ls : List L1Line) : InCaches s (s.setL1 c ls) := by
  refine ⟨rfl, rfl, fun k => ?_⟩
  unfold setL1
  rw [core_setCore]
  split
  · rename_i h; rw [h]; simp only [core_id]
  · rfl

theorem inCaches_dropSi (s : State) (c : Nat) (ls : List Nat) : InCaches s (s.dropSi c ls) :=
  .ite (.refl s) (inCaches_setL1 _ _ _)
theorem inCaches_clearSi (s : State) (c : Nat) : InCaches s (s.clearSi c) := .ite (.refl s) (inCaches_setL1 _ _ _)
theorem inCaches_touch (s : State) (ls : List Nat) (w : Bool) : InCaches s (s.touch ls w) :=
  .ite (.refl s) ⟨rfl, rfl, fun _ => rfl⟩

/-- A line that leaves an L1. -/
theorem inCaches_l1Evict (s : State) (p : Part) (c : Nat) (e : L1Line) : InCaches s (s.l1Evict p c e) :=
  .ite (inCaches_setL1 _ _ _) ((inCaches_setL1 _ _ _).trans (inCaches_l2Fill _ _ _ _ _))

/-- A line that comes into an L1. -/
theorem inCaches_l1Fill (s : State) (p : Part) (c : Nat) (e : L1Line) : InCaches s (s.l1Fill p c e) := by
  unfold l1Fill
  split
  · exact inCaches_setL1 _ _ _
  · dsimp only
    refine InCaches.trans (t := if _ then s else _) (.ite (.refl s) ?_) (inCaches_setL1 _ _ _)
    split
    · exact inCaches_l1Evict _ _ _ _
    · exact .refl s

theorem inCaches_mapL1 (s : State) (f : Core → List L1Line) :
    InCaches s { s with cores := s.cores.map fun c => { c with l1 := f c } } := by
  refine ⟨rfl, rfl, fun k => ?_⟩
  simp only [core, List.find?_map, Function.comp_def]
  cases s.cores.find? fun c => c.id = k <;> rfl

theorem inCaches_recallRead (s : State) (c : Option Nat) (l : Nat) (m : BitVec 128) : InCaches s (s.recallRead c l m) := by
  have h := inCaches_mapL1 s fun x => if some x.id = c then x.l1
    else x.l1.map fun e => if e.line = l then { e with own := e.own &&& ~~~wordMask m } else e
  refine cast (congrArg (InCaches s) ?_) h
  unfold recallRead
  congr 2
  funext x
  split <;> rfl

theorem inCaches_recallWrite (s : State) (c : Option Nat) (l : Nat) (m : BitVec 128) (o : Bool) :
    InCaches s (s.recallWrite c l m o) := by
  have h := inCaches_mapL1 s fun x => if some x.id = c then x.l1
    else (x.l1.map fun e => if e.line = l then
        { e with full := false, own := if o then (if o && s.ownedElsewhere c l m then 0 else e.own) else e.own &&& ~~~wordMask m }
      else e).filter fun e => e.line ≠ l || e.own ≠ 0 || e.si.isSome
  refine cast (congrArg (InCaches s) ?_) h
  unfold recallWrite
  congr 2
  funext x
  split <;> rfl

theorem inCaches_setPch (s : State) (p : Pch) : InCaches s (s.setPch p) := ⟨rfl, rfl, fun _ => rfl⟩
theorem inCaches_queueRead (s : State) (pa : Nat) : InCaches s (s.queueRead pa).1 := inCaches_setPch _ _

/-- A home that serves a read. -/
theorem inCaches_homeRead (s : State) (p : Part) (l prio lvl : Nat) : InCaches s (s.homeRead p l prio lvl).1 := by
  have h : ∀ b : Bool, InCaches s (if b then s else s.mscFill p (l / 16) prio (lineSectors l) 0) :=
    fun b => .ite (.refl s) (inCaches_mscFill _ _ _ _ _ _)
  exact .ite ((h _).trans (inCaches_l2Fill _ _ _ _ _)) (h _)
/-- A home that takes new data. -/
theorem inCaches_homeWrite (s : State) (p : Part) (l prio lvl : Nat) : InCaches s (s.homeWrite p l prio lvl) :=
  .ite (inCaches_l2Fill _ _ _ _ _) (.ite (inCaches_mscFill _ _ _ _ _ _) (inCaches_touch _ _ _))

/-- Places that an agent without an L1 reads. -/
theorem inCaches_recalls (s : State) (ls : List Loc) : InCaches s (s.recalls ls) :=
  (inCaches_touch _ _ _).trans (InCaches.fold _ (fun _ _ => inCaches_recallRead _ _ _ _) _ _)

theorem inCaches_writeCopy (s : State) (p : Part) (c l k prio : Nat) (o : Bool) (m : BitVec 128) (ws : List (Loc × Byte)) :
    InCaches s (s.writeCopy p c l k prio o m ws) := by
  unfold writeCopy
  split
  · exact inCaches_l1Fill _ _ _ _
  · exact .ite (inCaches_l1Fill _ _ _ _) (.refl s)

/-- A write goes through the caches before its bytes are there. -/
theorem inCaches_cacheWrite (s : State) (c : Option Nat) (req prio lvl : Nat) (ws : List (Loc × Byte)) :
    InCaches s (s.cacheWrite c req prio lvl ws) := by
  unfold cacheWrite
  refine InCaches.fold _ (fun s e => ?_) _ _
  dsimp only
  have h := inCaches_recallWrite s c e.1 (maskIn e.1 (ws.map (·.1))) (req == 0)
  cases c with
  | none => exact h
  | some c =>
    exact .elim h (fun p => .ite (inCaches_writeCopy _ _ _ _ _ _ _ _ _)
      ((inCaches_writeCopy _ _ _ _ _ _ _ _ _).trans (inCaches_homeWrite _ _ _ _ _))) _

/-- A load of a line that its home serves. -/
theorem inCaches_loadHome (s : State) (g : Group) (p : Part) (a : Acc) (l : Load) (line key : Nat) (m : BitVec 128) :
    InCaches s (s.loadHome g p a l line key m).1 := by
  have h : InCaches s ((s.homeServes g p a line m).1.takeServed g p a line key (s.homeServes g p a line m).2.2) :=
    ((inCaches_recallRead _ _ _ _).trans (inCaches_homeRead _ _ _ _ _)).trans (.ite (inCaches_l1Fill _ _ _ _) (.refl _))
  unfold loadHome
  dsimp only
  split
  · exact h.trans (inCaches_queueRead _ _)
  · exact h

/-- A load looks a line up: only the caches change. -/
theorem inCaches_loadLine (s : State) (g : Group) (p : Part) (a : Acc) (l : Load) (line key : Nat) :
    InCaches s (s.loadLine g p a l line key).1 := by
  unfold loadLine
  dsimp only
  split
  · split
    · exact inCaches_l1Fill _ _ _ _
    · split
      · split
        · exact inCaches_l1Fill _ _ _ _
        · exact inCaches_loadHome _ _ _ _ _ _ _ _
      · exact inCaches_loadHome _ _ _ _ _ _ _ _
  · exact inCaches_loadHome _ _ _ _ _ _ _ _

/-- A load looks its lines up. -/
theorem inCaches_startLoad (s : State) (g : Group) (p : Part) (as : List (Nat × Acc)) (l : Load) :
    InCaches s (s.startLoad g p as l).1 := by
  unfold startLoad
  have step : ∀ (f : State × Load → Nat × Nat → State × Load), (∀ r e, InCaches r.1 (f r e).1) →
      ∀ (xs : List (Nat × Nat)) r, InCaches r.1 (xs.foldl f r).1 := by
    intro f h xs
    induction xs with
    | nil => exact fun r => .refl _
    | cons e xs ih => exact fun r => (h r e).trans (ih _)
  have all : ∀ (xs : List (Nat × Acc)) (r : State × Load),
      InCaches r.1 (xs.foldl (fun r a => (linesOf a.2.locs).foldl (fun r e => r.1.loadLine g p a.2 r.2 e.1 e.2) r) r).1 := by
    intro xs
    induction xs with
    | nil => exact fun r => .refl _
    | cons a xs ih => exact fun r => (step _ (fun r e => inCaches_loadLine _ _ _ _ _ _ _) _ r).trans (ih _)
  exact (inCaches_dropSi _ _ _).trans (all as (_, _))

/-- A load that has read its places leaves copies. -/
theorem inCaches_endLoad (s : State) (g : Group) (p : Part) (l : Load) (ls : List Loc) : InCaches s (s.endLoad g p l ls) := by
  refine (inCaches_dropSi _ _ _).trans (InCaches.fold _ (fun t e => ?_) _ _)
  split
  · exact inCaches_l1Fill _ _ _ _
  · exact .refl t
end State
end Sys2Proof.Machine
end

