-- ==== Sys2Proof/Laws/PerInstr.lean ====
section
/-!
SUPPORT. What holds of every instruction as syntax, one lemma per constructor.
-/
namespace Sys2Proof.Laws.WordCount

/-- A lane instruction encodes to three words (R191); a scalar instruction to one or two (R182), and a device step
to none. -/
def Statement (i : Instr) : Prop :=
  (i.isLane = true → (encode i).length = 3) ∧ (i.isLane = false → (encode i).length ≤ 2)

theorem ofLane (i : Instr) (h : i.isLane = true) (n : (encode i).length = 3) : Statement i :=
  ⟨fun _ => n, fun h' => (nomatch h.symm.trans h')⟩
theorem ofScalar (i : Instr) (h : i.isLane = false) (n : (encode i).length ≤ 2) : Statement i :=
  ⟨fun h' => (nomatch h.symm.trans h'), fun _ => n⟩

theorem nop : Statement .nop := ofScalar _ rfl (Nat.le_of_ble_eq_true rfl)
theorem sadd (d a b : SReg) : Statement (.sadd d a b) := ofScalar _ rfl (Nat.le_of_ble_eq_true rfl)
theorem ssub (d a b : SReg) : Statement (.ssub d a b) := ofScalar _ rfl (Nat.le_of_ble_eq_true rfl)
theorem smul (d a b : SReg) : Statement (.smul d a b) := ofScalar _ rfl (Nat.le_of_ble_eq_true rfl)
theorem smulhI32 (d a b : SReg) : Statement (.smulhI32 d a b) := ofScalar _ rfl (Nat.le_of_ble_eq_true rfl)
theorem smulhN32 (d a b : SReg) : Statement (.smulhN32 d a b) := ofScalar _ rfl (Nat.le_of_ble_eq_true rfl)
theorem sand (d a b : SReg) : Statement (.sand d a b) := ofScalar _ rfl (Nat.le_of_ble_eq_true rfl)
theorem sor (d a b : SReg) : Statement (.sor d a b) := ofScalar _ rfl (Nat.le_of_ble_eq_true rfl)
theorem sxor (d a b : SReg) : Statement (.sxor d a b) := ofScalar _ rfl (Nat.le_of_ble_eq_true rfl)
theorem sshl (d a b : SReg) : Statement (.sshl d a b) := ofScalar _ rfl (Nat.le_of_ble_eq_true rfl)
theorem sshr (d a b : SReg) : Statement (.sshr d a b) := ofScalar _ rfl (Nat.le_of_ble_eq_true rfl)
theorem ssra (d a b : SReg) : Statement (.ssra d a b) := ofScalar _ rfl (Nat.le_of_ble_eq_true rfl)
theorem sminI32 (d a b : SReg) : Statement (.sminI32 d a b) := ofScalar _ rfl (Nat.le_of_ble_eq_true rfl)
theorem sminN32 (d a b : SReg) : Statement (.sminN32 d a b) := ofScalar _ rfl (Nat.le_of_ble_eq_true rfl)
theorem smaxI32 (d a b : SReg) : Statement (.smaxI32 d a b) := ofScalar _ rfl (Nat.le_of_ble_eq_true rfl)
theorem smaxN32 (d a b : SReg) : Statement (.smaxN32 d a b) := ofScalar _ rfl (Nat.le_of_ble_eq_true rfl)
theorem spopc (d a : SReg) : Statement (.spopc d a) := ofScalar _ rfl (Nat.le_of_ble_eq_true rfl)
theorem sclz (d a : SReg) : Statement (.sclz d a) := ofScalar _ rfl (Nat.le_of_ble_eq_true rfl)
theorem smov (d a : SReg) : Statement (.smov d a) := ofScalar _ rfl (Nat.le_of_ble_eq_true rfl)
theorem scmp (cond : SCond) (d : CReg) (a b : SReg) : Statement (.scmp cond d a b) := ofScalar _ rfl (Nat.le_of_ble_eq_true rfl)
theorem ssel (neg : Bool) (c : CReg) (d a b : SReg) : Statement (.ssel neg c d a b) := ofScalar _ rfl (Nat.le_of_ble_eq_true rfl)
theorem sbfx (signed : Bool) (pos len1 : BitVec 5) (d a : SReg) : Statement (.sbfx signed pos len1 d a) := ofScalar _ rfl (Nat.le_of_ble_eq_true rfl)
theorem sbfi (pos len1 : BitVec 5) (d a : SReg) : Statement (.sbfi pos len1 d a) := ofScalar _ rfl (Nat.le_of_ble_eq_true rfl)
theorem saddImm (d a : SReg) (i : BitVec 12) : Statement (.saddImm d a i) := ofScalar _ rfl (Nat.le_of_ble_eq_true rfl)
theorem sandImm (d a : SReg) (i : BitVec 12) : Statement (.sandImm d a i) := ofScalar _ rfl (Nat.le_of_ble_eq_true rfl)
theorem sorImm (d a : SReg) (i : BitVec 12) : Statement (.sorImm d a i) := ofScalar _ rfl (Nat.le_of_ble_eq_true rfl)
theorem sxorImm (d a : SReg) (i : BitVec 12) : Statement (.sxorImm d a i) := ofScalar _ rfl (Nat.le_of_ble_eq_true rfl)
theorem sshlImm (d a : SReg) (i : BitVec 5) : Statement (.sshlImm d a i) := ofScalar _ rfl (Nat.le_of_ble_eq_true rfl)
theorem sshrImm (d a : SReg) (i : BitVec 5) : Statement (.sshrImm d a i) := ofScalar _ rfl (Nat.le_of_ble_eq_true rfl)
theorem ssraImm (d a : SReg) (i : BitVec 5) : Statement (.ssraImm d a i) := ofScalar _ rfl (Nat.le_of_ble_eq_true rfl)
theorem sli (sx : Bool) (d : SReg) (i : BitVec 16) : Statement (.sli sx d i) := ofScalar _ rfl (Nat.le_of_ble_eq_true rfl)
theorem slih (d : SReg) (i : BitVec 16) : Statement (.slih d i) := ofScalar _ rfl (Nat.le_of_ble_eq_true rfl)
theorem aadd (d a : AReg) (b : SReg) (sh : BitVec 2) : Statement (.aadd d a b sh) := ofScalar _ rfl (Nat.le_of_ble_eq_true rfl)
theorem aaddImm (d a : AReg) (i : BitVec 12) : Statement (.aaddImm d a i) := ofScalar _ rfl (Nat.le_of_ble_eq_true rfl)
theorem alea (d a : AReg) (i : BitVec 32) : Statement (.alea d a i) := ofScalar _ rfl (Nat.le_of_ble_eq_true rfl)
theorem amov (d a : AReg) : Statement (.amov d a) := ofScalar _ rfl (Nat.le_of_ble_eq_true rfl)
theorem amovN32 (d : AReg) (a : SReg) : Statement (.amovN32 d a) := ofScalar _ rfl (Nat.le_of_ble_eq_true rfl)
theorem amovI32 (d : AReg) (a : SReg) : Statement (.amovI32 d a) := ofScalar _ rfl (Nat.le_of_ble_eq_true rfl)
theorem amovLo (d : SReg) (a : AReg) : Statement (.amovLo d a) := ofScalar _ rfl (Nat.le_of_ble_eq_true rfl)
theorem amovHi (d : SReg) (a : AReg) : Statement (.amovHi d a) := ofScalar _ rfl (Nat.le_of_ble_eq_true rfl)
theorem amovPair (d : AReg) (a b : SReg) : Statement (.amovPair d a b) := ofScalar _ rfl (Nat.le_of_ble_eq_true rfl)
theorem br (off : BitVec 20) : Statement (.br off) := ofScalar _ rfl (Nat.le_of_ble_eq_true rfl)
theorem brc (neg : Bool) (c : CReg) (off : BitVec 20) : Statement (.brc neg c off) := ofScalar _ rfl (Nat.le_of_ble_eq_true rfl)
theorem call (off : BitVec 20) : Statement (.call off) := ofScalar _ rfl (Nat.le_of_ble_eq_true rfl)
theorem ret : Statement .ret := ofScalar _ rfl (Nat.le_of_ble_eq_true rfl)
theorem callo (id : BitVec 8) (entry : BitVec 10) : Statement (.callo id entry) := ofScalar _ rfl (Nat.le_of_ble_eq_true rfl)
theorem reto : Statement .reto := ofScalar _ rfl (Nat.le_of_ble_eq_true rfl)
theorem loop (a : SReg) (fin : BitVec 10) : Statement (.loop a fin) := ofScalar _ rfl (Nat.le_of_ble_eq_true rfl)
theorem loopi (count : BitVec 20) (fin : BitVec 10) : Statement (.loopi count fin) := ofScalar _ rfl (Nat.le_of_ble_eq_true rfl)
theorem lbrk : Statement .lbrk := ofScalar _ rfl (Nat.le_of_ble_eq_true rfl)
theorem split (p : PReg) (target joinAt : BitVec 10) : Statement (.split p target joinAt) := ofScalar _ rfl (Nat.le_of_ble_eq_true rfl)
theorem join : Statement .join := ofScalar _ rfl (Nat.le_of_ble_eq_true rfl)
theorem yield : Statement .yield := ofScalar _ rfl (Nat.le_of_ble_eq_true rfl)
theorem lrun (off : BitVec 10) : Statement (.lrun off) := ofScalar _ rfl (Nat.le_of_ble_eq_true rfl)
theorem lwait : Statement .lwait := ofScalar _ rfl (Nat.le_of_ble_eq_true rfl)
theorem exit : Statement .exit := ofScalar _ rfl (Nat.le_of_ble_eq_true rfl)
theorem trap (i : BitVec 16) : Statement (.trap i) := ofScalar _ rfl (Nat.le_of_ble_eq_true rfl)
theorem kick (a : AReg) : Statement (.kick a) := ofScalar _ rfl (Nat.le_of_ble_eq_true rfl)
theorem garrive (g : GReg) (a : SReg) (i : BitVec 12) : Statement (.garrive g a i) := ofScalar _ rfl (Nat.le_of_ble_eq_true rfl)
theorem gwait (g : GReg) (a : SReg) (q : Bool) : Statement (.gwait g a q) := ofScalar _ rfl (Nat.le_of_ble_eq_true rfl)
theorem gsync (g : GReg) (a : SReg) (i : BitVec 12) : Statement (.gsync g a i) := ofScalar _ rfl (Nat.le_of_ble_eq_true rfl)
theorem garm (g : GReg) (a b : SReg) (count : BitVec 7) (bytes : BitVec 25) : Statement (.garm g a b count bytes) := ofScalar _ rfl (Nat.le_of_ble_eq_true rfl)
theorem gget (d : SReg) (g : GReg) (sel : BitVec 2) : Statement (.gget d g sel) := ofScalar _ rfl (Nat.le_of_ble_eq_true rfl)
theorem lbar (n : BitVec 3) : Statement (.lbar n) := ofScalar _ rfl (Nat.le_of_ble_eq_true rfl)
theorem tkt (d a : SReg) (count : BitVec 10) (q : BitVec 2) : Statement (.tkt d a count q) := ofScalar _ rfl (Nat.le_of_ble_eq_true rfl)
theorem tktv (q : BitVec 2) : Statement (.tktv q) := ofScalar _ rfl (Nat.le_of_ble_eq_true rfl)
theorem xfire (a : SReg) (i : BitVec 12) : Statement (.xfire a i) := ofScalar _ rfl (Nat.le_of_ble_eq_true rfl)
theorem xwait (a : SReg) (i : BitVec 12) : Statement (.xwait a i) := ofScalar _ rfl (Nat.le_of_ble_eq_true rfl)
theorem sget (d : SReg) (n : BitVec 16) : Statement (.sget d n) := ofScalar _ rfl (Nat.le_of_ble_eq_true rfl)
theorem sset (a : SReg) (n : BitVec 16) : Statement (.sset a n) := ofScalar _ rfl (Nat.le_of_ble_eq_true rfl)
theorem ovld (g : GReg) (a b : SReg) (id : BitVec 8) (slot : BitVec 5) : Statement (.ovld g a b id slot) := ofScalar _ rfl (Nat.le_of_ble_eq_true rfl)
theorem ovq (d a : SReg) (i : BitVec 12) : Statement (.ovq d a i) := ofScalar _ rfl (Nat.le_of_ble_eq_true rfl)
theorem xdrain (a : AReg) : Statement (.xdrain a) := ofScalar _ rfl (Nat.le_of_ble_eq_true rfl)
theorem xdrainAll : Statement .xdrainAll := ofScalar _ rfl (Nat.le_of_ble_eq_true rfl)
theorem pause (n : BitVec 12) : Statement (.pause n) := ofScalar _ rfl (Nat.le_of_ble_eq_true rfl)
theorem pauseEnd (g : GRef) (slot1 : Bool) : Statement (.pauseEnd g slot1) := ofScalar _ rfl (Nat.le_of_ble_eq_true rfl)
theorem brkpt (i : BitVec 16) : Statement (.brkpt i) := ofScalar _ rfl (Nat.le_of_ble_eq_true rfl)
theorem perf (d : SReg) (n : BitVec 3) : Statement (.perf d n) := ofScalar _ rfl (Nat.le_of_ble_eq_true rfl)
theorem ldSpd (m : SMem) : Statement (.ldSpd m) := ofScalar _ rfl (Nat.le_of_ble_eq_true rfl)
theorem ldPmem (m : SMem) : Statement (.ldPmem m) := ofScalar _ rfl (Nat.le_of_ble_eq_true rfl)
theorem ldChip (m : SMem) : Statement (.ldChip m) := ofScalar _ rfl (Nat.le_of_ble_eq_true rfl)
theorem ldGlb (m : SMem) : Statement (.ldGlb m) := ofScalar _ rfl (Nat.le_of_ble_eq_true rfl)
theorem stSpd (m : SMem) : Statement (.stSpd m) := ofScalar _ rfl (Nat.le_of_ble_eq_true rfl)
theorem stPmem (m : SMem) : Statement (.stPmem m) := ofScalar _ rfl (Nat.le_of_ble_eq_true rfl)
theorem stChip (m : SMem) : Statement (.stChip m) := ofScalar _ rfl (Nat.le_of_ble_eq_true rfl)
theorem stGlb (m : SMem) : Statement (.stGlb m) := ofScalar _ rfl (Nat.le_of_ble_eq_true rfl)
theorem ldt (m : SLdt) : Statement (.ldt m) := ofScalar _ rfl (Nat.le_of_ble_eq_true rfl)
theorem fenceAcq (sc : Scope) : Statement (.fenceAcq sc) := ofScalar _ rfl (Nat.le_of_ble_eq_true rfl)
theorem fenceRel (sc : Scope) : Statement (.fenceRel sc) := ofScalar _ rfl (Nat.le_of_ble_eq_true rfl)
theorem fenceAr (sc : Scope) : Statement (.fenceAr sc) := ofScalar _ rfl (Nat.le_of_ble_eq_true rfl)
theorem prf (msc : Bool) (a : AReg) (off : BitVec 32) : Statement (.prf msc a off) := ofScalar _ rfl (Nat.le_of_ble_eq_true rfl)
theorem pres (d a : SReg) (i : BitVec 12) : Statement (.pres d a i) := ofScalar _ rfl (Nat.le_of_ble_eq_true rfl)
theorem mwin (d : BitVec 4) (a b : SReg) (src : WSrc) (rot : BitVec 3) (fmt : LTy) (blk mask : Bool) (tpitch : BitVec 19) : Statement (.mwin d a b src rot fmt blk mask tpitch) := ofScalar _ rfl (Nat.le_of_ble_eq_true rfl)
theorem mzero (d : BitVec 4) : Statement (.mzero d) := ofScalar _ rfl (Nat.le_of_ble_eq_true rfl)
theorem mma (d a b : BitVec 4) : Statement (.mma d a b) := ofScalar _ rfl (Nat.le_of_ble_eq_true rfl)
theorem mmab (d a b : BitVec 4) : Statement (.mmab d a b) := ofScalar _ rfl (Nat.le_of_ble_eq_true rfl)
theorem mfence (d : SReg) : Statement (.mfence d) := ofScalar _ rfl (Nat.le_of_ble_eq_true rfl)
theorem mwait (a : SReg) (i : BitVec 12) : Statement (.mwait a i) := ofScalar _ rfl (Nat.le_of_ble_eq_true rfl)
theorem mhint (a : SReg) (i : BitVec 12) : Statement (.mhint a i) := ofScalar _ rfl (Nat.le_of_ble_eq_true rfl)
theorem maccLd (d : BitVec 4) (a : SReg) (sp : WSrc) (rot : BitVec 3) (off : BitVec 32) : Statement (.maccLd d a sp rot off) := ofScalar _ rfl (Nat.le_of_ble_eq_true rfl)
theorem maccSt (d : BitVec 4) (a : SReg) (sp : WSrc) (rot : BitVec 3) (off : BitVec 32) : Statement (.maccSt d a sp rot off) := ofScalar _ rfl (Nat.le_of_ble_eq_true rfl)
theorem mcvt (d a : BitVec 4) (ty : LTy) (rnd : BitVec 2) (sat : Bool) (s : BitVec 8) : Statement (.mcvt d a ty rnd sat s) := ofScalar _ rfl (Nat.le_of_ble_eq_true rfl)
theorem bvset (g : GReg) (a : AReg) (b : SReg) (m : BitVec 6) (off : BitVec 26) : Statement (.bvset g a b m off) := ofScalar _ rfl (Nat.le_of_ble_eq_true rfl)
theorem bvfit (g : GReg) (a : AReg) (off : BitVec 26) : Statement (.bvfit g a off) := ofScalar _ rfl (Nat.le_of_ble_eq_true rfl)
theorem bvleaf (g : GReg) (a : AReg) (b : SReg) (m : BitVec 6) (off : BitVec 26) : Statement (.bvleaf g a b m off) := ofScalar _ rfl (Nat.le_of_ble_eq_true rfl)
theorem bvnode (g : GReg) (a : AReg) (off : BitVec 26) : Statement (.bvnode g a off) := ofScalar _ rfl (Nat.le_of_ble_eq_true rfl)
theorem shp (h : HReg) (a : AReg) (off : BitVec 32) : Statement (.shp h a off) := ofScalar _ rfl (Nat.le_of_ble_eq_true rfl)
theorem shpCopy (h hs : HReg) (a : AReg) (off : BitVec 32) : Statement (.shpCopy h hs a off) := ofScalar _ rfl (Nat.le_of_ble_eq_true rfl)
theorem cpy (st : Bool) (x : CpyArgs) : Statement (.cpy st x) := ofScalar _ rfl (Nat.le_of_ble_eq_true rfl)
theorem cpyt (st : Bool) (x : CpyArgs) : Statement (.cpyt st x) := ofScalar _ rfl (Nat.le_of_ble_eq_true rfl)
theorem cpyw (run1 : BitVec 4) (x : CpyArgs) : Statement (.cpyw run1 x) := ofScalar _ rfl (Nat.le_of_ble_eq_true rfl)
theorem cpyg (x : CpyArgs) : Statement (.cpyg x) := ofScalar _ rfl (Nat.le_of_ble_eq_true rfl)
theorem cpys (x : CpyArgs) : Statement (.cpys x) := ofScalar _ rfl (Nat.le_of_ble_eq_true rfl)
theorem cprf (msc : Bool) (h : HReg) (sc : SReg) : Statement (.cprf msc h sc) := ofScalar _ rfl (Nat.le_of_ble_eq_true rfl)
theorem xdict (g : GReg) (bank : Bool) (a : AReg) (off : BitVec 32) : Statement (.xdict g bank a off) := ofScalar _ rfl (Nat.le_of_ble_eq_true rfl)
theorem xpoll (d a : SReg) (i : BitVec 32) : Statement (.xpoll d a i) := ofScalar _ rfl (Nat.le_of_ble_eq_true rfl)
theorem rfwd (g : GReg) (a : AReg) (b : SReg) (n1 : BitVec 6) (off : BitVec 32) : Statement (.rfwd g a b n1 off) := ofScalar _ rfl (Nat.le_of_ble_eq_true rfl)
theorem rrecv (g : GReg) (q : BitVec 2) (a b : SReg) : Statement (.rrecv g q a b) := ofScalar _ rfl (Nat.le_of_ble_eq_true rfl)
theorem xinit (a : AReg) (off : BitVec 32) : Statement (.xinit a off) := ofScalar _ rfl (Nat.le_of_ble_eq_true rfl)
theorem xabort (a : SReg) (i : BitVec 32) : Statement (.xabort a i) := ofScalar _ rfl (Nat.le_of_ble_eq_true rfl)
theorem xstat (d a : SReg) (i : BitVec 32) : Statement (.xstat d a i) := ofScalar _ rfl (Nat.le_of_ble_eq_true rfl)
theorem mov (w : LaneWord) : Statement (.mov w) := ofLane _ rfl rfl
theorem add (w : LaneWord) : Statement (.add w) := ofLane _ rfl rfl
theorem sub (w : LaneWord) : Statement (.sub w) := ofLane _ rfl rfl
theorem mul (w : LaneWord) : Statement (.mul w) := ofLane _ rfl rfl
theorem mulh (w : LaneWord) : Statement (.mulh w) := ofLane _ rfl rfl
theorem mad (w : LaneWord) : Statement (.mad w) := ofLane _ rfl rfl
theorem fma (w : LaneWord) : Statement (.fma w) := ofLane _ rfl rfl
theorem min (w : LaneWord) : Statement (.min w) := ofLane _ rfl rfl
theorem max (w : LaneWord) : Statement (.max w) := ofLane _ rfl rfl
theorem abs (w : LaneWord) : Statement (.abs w) := ofLane _ rfl rfl
theorem neg (w : LaneWord) : Statement (.neg w) := ofLane _ rfl rfl
theorem and (w : LaneWord) : Statement (.and w) := ofLane _ rfl rfl
theorem or (w : LaneWord) : Statement (.or w) := ofLane _ rfl rfl
theorem xor (w : LaneWord) : Statement (.xor w) := ofLane _ rfl rfl
theorem not (w : LaneWord) : Statement (.not w) := ofLane _ rfl rfl
theorem shl (w : LaneWord) : Statement (.shl w) := ofLane _ rfl rfl
theorem shr (w : LaneWord) : Statement (.shr w) := ofLane _ rfl rfl
theorem sra (w : LaneWord) : Statement (.sra w) := ofLane _ rfl rfl
theorem bfx (w : LaneWord) : Statement (.bfx w) := ofLane _ rfl rfl
theorem bfi (w : LaneWord) : Statement (.bfi w) := ofLane _ rfl rfl
theorem brev (w : LaneWord) : Statement (.brev w) := ofLane _ rfl rfl
theorem popc (w : LaneWord) : Statement (.popc w) := ofLane _ rfl rfl
theorem clz (w : LaneWord) : Statement (.clz w) := ofLane _ rfl rfl
theorem sel (w : LaneWord) : Statement (.sel w) := ofLane _ rfl rfl
theorem cmp (w : LaneWord) : Statement (.cmp w) := ofLane _ rfl rfl
theorem rcp (w : LaneWord) : Statement (.rcp w) := ofLane _ rfl rfl
theorem rsq (w : LaneWord) : Statement (.rsq w) := ofLane _ rfl rfl
theorem sqrt (w : LaneWord) : Statement (.sqrt w) := ofLane _ rfl rfl
theorem ex2 (w : LaneWord) : Statement (.ex2 w) := ofLane _ rfl rfl
theorem lg2 (w : LaneWord) : Statement (.lg2 w) := ofLane _ rfl rfl
theorem sin (w : LaneWord) : Statement (.sin w) := ofLane _ rfl rfl
theorem cos (w : LaneWord) : Statement (.cos w) := ofLane _ rfl rfl
theorem frc (w : LaneWord) : Statement (.frc w) := ofLane _ rfl rfl
theorem cvt (w : LaneWord) : Statement (.cvt w) := ofLane _ rfl rfl
theorem cvq (w : LaneWord) : Statement (.cvq w) := ofLane _ rfl rfl
theorem cvx (w : LaneWord) : Statement (.cvx w) := ofLane _ rfl rfl
theorem pack (w : LaneWord) : Statement (.pack w) := ofLane _ rfl rfl
theorem unpack (w : LaneWord) : Statement (.unpack w) := ofLane _ rfl rfl
theorem rng (w : LaneWord) : Statement (.rng w) := ofLane _ rfl rfl
theorem ballot (w : LaneWord) : Statement (.ballot w) := ofLane _ rfl rfl
theorem vany (w : LaneWord) : Statement (.vany w) := ofLane _ rfl rfl
theorem vall (w : LaneWord) : Statement (.vall w) := ofLane _ rfl rfl
theorem elect (w : LaneWord) : Statement (.elect w) := ofLane _ rfl rfl
theorem shfl (w : LaneWord) : Statement (.shfl w) := ofLane _ rfl rfl
theorem bfly (w : LaneWord) : Statement (.bfly w) := ofLane _ rfl rfl
theorem bperm (w : LaneWord) : Statement (.bperm w) := ofLane _ rfl rfl
theorem rdc (w : LaneWord) : Statement (.rdc w) := ofLane _ rfl rfl
theorem scan (w : LaneWord) : Statement (.scan w) := ofLane _ rfl rfl
theorem pset (w : LaneWord) : Statement (.pset w) := ofLane _ rfl rfl
theorem pand (w : LaneWord) : Statement (.pand w) := ofLane _ rfl rfl
theorem por (w : LaneWord) : Statement (.por w) := ofLane _ rfl rfl
theorem pxor (w : LaneWord) : Statement (.pxor w) := ofLane _ rfl rfl
theorem pget (w : LaneWord) : Statement (.pget w) := ofLane _ rfl rfl
theorem lget (w : LaneWord) : Statement (.lget w) := ofLane _ rfl rfl
theorem laneLd (sp : Space) (w : LaneWord) : Statement (.laneLd sp w) := ofLane _ rfl rfl
theorem laneSt (sp : Space) (w : LaneWord) : Statement (.laneSt sp w) := ofLane _ rfl rfl
theorem laneLdt (w : LaneWord) : Statement (.laneLdt w) := ofLane _ rfl rfl
theorem xadd (w : LaneWord) : Statement (.xadd w) := ofLane _ rfl rfl
theorem xaddi (w : LaneWord) : Statement (.xaddi w) := ofLane _ rfl rfl
theorem atom (sp : Space) (w : LaneWord) : Statement (.atom sp w) := ofLane _ rfl rfl
theorem red (sp : Space) (w : LaneWord) : Statement (.red sp w) := ofLane _ rfl rfl
theorem laneFence (w : LaneWord) : Statement (.laneFence w) := ofLane _ rfl rfl
theorem lanePrf (w : LaneWord) : Statement (.lanePrf w) := ofLane _ rfl rfl
theorem trc (w : LaneWord) : Statement (.trc w) := ofLane _ rfl rfl
theorem trq (w : LaneWord) : Statement (.trq w) := ofLane _ rfl rfl
theorem memoryReturn (g : GRef) (st : Stream) : Statement (.memoryReturn g st) := ofScalar _ rfl (Nat.le_of_ble_eq_true rfl)
theorem copyLineDone (op line : Nat) : Statement (.copyLineDone op line) := ofScalar _ rfl (Nat.le_of_ble_eq_true rfl)
theorem copyAccessFault (op : Nat) : Statement (.copyAccessFault op) := ofScalar _ rfl (Nat.le_of_ble_eq_true rfl)
theorem faultQueueRoom (part : Nat) : Statement (.faultQueueRoom part) := ofScalar _ rfl (Nat.le_of_ble_eq_true rfl)
theorem overlayLoadDone (core slot : Nat) : Statement (.overlayLoadDone core slot) := ofScalar _ rfl (Nat.le_of_ble_eq_true rfl)
theorem overlayLoadFault (core slot : Nat) : Statement (.overlayLoadFault core slot) := ofScalar _ rfl (Nat.le_of_ble_eq_true rfl)
theorem matrixOpComplete (core : Nat) : Statement (.matrixOpComplete core) := ofScalar _ rfl (Nat.le_of_ble_eq_true rfl)
theorem rampUpEnd (core : Nat) : Statement (.rampUpEnd core) := ofScalar _ rfl (Nat.le_of_ble_eq_true rfl)
theorem rampDownStart (core : Nat) : Statement (.rampDownStart core) := ofScalar _ rfl (Nat.le_of_ble_eq_true rfl)
theorem rampDownEnd (core : Nat) : Statement (.rampDownEnd core) := ofScalar _ rfl (Nat.le_of_ble_eq_true rfl)
theorem bvsetReadDone (op : Nat) : Statement (.bvsetReadDone op) := ofScalar _ rfl (Nat.le_of_ble_eq_true rfl)
theorem rayLaneFinish (op lane : Nat) : Statement (.rayLaneFinish op lane) := ofScalar _ rfl (Nat.le_of_ble_eq_true rfl)
theorem rayAccessFault (op : Nat) : Statement (.rayAccessFault op) := ofScalar _ rfl (Nat.le_of_ble_eq_true rfl)
theorem refitNodeDone (op : Nat) : Statement (.refitNodeDone op) := ofScalar _ rfl (Nat.le_of_ble_eq_true rfl)
theorem bvleafLineDone (op : Nat) : Statement (.bvleafLineDone op) := ofScalar _ rfl (Nat.le_of_ble_eq_true rfl)
theorem ticketHeaderWriteDone (part lid q : Nat) : Statement (.ticketHeaderWriteDone part lid q) := ofScalar _ rfl (Nat.le_of_ble_eq_true rfl)
theorem breq (part core region min want : Nat) : Statement (.breq part core region min want) := ofScalar _ rfl (Nat.le_of_ble_eq_true rfl)
theorem bgrant (part core region b : Nat) : Statement (.bgrant part core region b) := ofScalar _ rfl (Nat.le_of_ble_eq_true rfl)
theorem bdeny (part core region : Nat) : Statement (.bdeny part core region) := ofScalar _ rfl (Nat.le_of_ble_eq_true rfl)
theorem drainKnell (part core region : Nat) : Statement (.drainKnell part core region) := ofScalar _ rfl (Nat.le_of_ble_eq_true rfl)
theorem splitKnell (part core region : Nat) : Statement (.splitKnell part core region) := ofScalar _ rfl (Nat.le_of_ble_eq_true rfl)
theorem kack (part core region ret : Nat) : Statement (.kack part core region ret) := ofScalar _ rfl (Nat.le_of_ble_eq_true rfl)
theorem bret (part core region ret : Nat) : Statement (.bret part core region ret) := ofScalar _ rfl (Nat.le_of_ble_eq_true rfl)
theorem toleranceQuiet (part region id : Nat) : Statement (.toleranceQuiet part region id) := ofScalar _ rfl (Nat.le_of_ble_eq_true rfl)
theorem launchEntryRead (part q : Nat) : Statement (.launchEntryRead part q) := ofScalar _ rfl (Nat.le_of_ble_eq_true rfl)
theorem launchTaken (part : Nat) : Statement (.launchTaken part) := ofScalar _ rfl (Nat.le_of_ble_eq_true rfl)
theorem teamPlacement (part : Nat) : Statement (.teamPlacement part) := ofScalar _ rfl (Nat.le_of_ble_eq_true rfl)
theorem placementWaitLimit (part lid : Nat) : Statement (.placementWaitLimit part lid) := ofScalar _ rfl (Nat.le_of_ble_eq_true rfl)
theorem groupSetupComplete (g : GRef) : Statement (.groupSetupComplete g) := ofScalar _ rfl (Nat.le_of_ble_eq_true rfl)
theorem migrationStart (part lid team core : Nat) : Statement (.migrationStart part lid team core) := ofScalar _ rfl (Nat.le_of_ble_eq_true rfl)
theorem migrationComplete (part lid team : Nat) : Statement (.migrationComplete part lid team) := ofScalar _ rfl (Nat.le_of_ble_eq_true rfl)
theorem watchdogExpiry (g : GRef) (slot1 : Bool) : Statement (.watchdogExpiry g slot1) := ofScalar _ rfl (Nat.le_of_ble_eq_true rfl)
theorem refreshDue (stack pch : Nat) : Statement (.refreshDue stack pch) := ofScalar _ rfl (Nat.le_of_ble_eq_true rfl)
theorem refreshEnd (stack pch bank : Nat) : Statement (.refreshEnd stack pch bank) := ofScalar _ rfl (Nat.le_of_ble_eq_true rfl)
theorem bankGroupIdle (stack pch bg : Nat) : Statement (.bankGroupIdle stack pch bg) := ofScalar _ rfl (Nat.le_of_ble_eq_true rfl)
theorem tambourMessage (r : SeqRef) (at_ : SlotRef) (m : MsgBody) : Statement (.tambourMessage r at_ m) := ofScalar _ rfl (Nat.le_of_ble_eq_true rfl)
theorem slotTimerExpiry (r : SeqRef) (at_ : MsgRef) : Statement (.slotTimerExpiry r at_) := ofScalar _ rfl (Nat.le_of_ble_eq_true rfl)
theorem nack (r : SeqRef) (at_ : MsgRef) (sender : Nat) : Statement (.nack r at_ sender) := ofScalar _ rfl (Nat.le_of_ble_eq_true rfl)
theorem wait (r : SeqRef) (at_ : MsgRef) : Statement (.wait r at_) := ofScalar _ rfl (Nat.le_of_ble_eq_true rfl)
theorem acknowledgement (r : SeqRef) (at_ : MsgRef) (sender : Nat) : Statement (.acknowledgement r at_ sender) := ofScalar _ rfl (Nat.le_of_ble_eq_true rfl)
theorem commitMessage (r : SeqRef) (flags : BitVec 3) : Statement (.commitMessage r flags) := ofScalar _ rfl (Nat.le_of_ble_eq_true rfl)
theorem confirmation (r : SeqRef) (flags : BitVec 3) : Statement (.confirmation r flags) := ofScalar _ rfl (Nat.le_of_ble_eq_true rfl)
theorem lossNotice (r : SeqRef) (l : LossRef) : Statement (.lossNotice r l) := ofScalar _ rfl (Nat.le_of_ble_eq_true rfl)
theorem remoteFetchRequest (part sender page line : Nat) : Statement (.remoteFetchRequest part sender page line) := ofScalar _ rfl (Nat.le_of_ble_eq_true rfl)
theorem remoteFetchAnswer (part peer page line : Nat) (ans : FetchAnswer) : Statement (.remoteFetchAnswer part peer page line ans) := ofScalar _ rfl (Nat.le_of_ble_eq_true rfl)
theorem remoteWorkRecord (part coll sender k : Nat) (bytes : List Byte) : Statement (.remoteWorkRecord part coll sender k bytes) := ofScalar _ rfl (Nat.le_of_ble_eq_true rfl)
theorem mailboxSlotRelease (part coll receiver k : Nat) : Statement (.mailboxSlotRelease part coll receiver k) := ofScalar _ rfl (Nat.le_of_ble_eq_true rfl)
theorem hostCxlMemRead (addr n : Nat) : Statement (.hostCxlMemRead addr n) := ofScalar _ rfl (Nat.le_of_ble_eq_true rfl)
theorem hostCxlMemWrite (addr : Nat) (bytes : List Byte) : Statement (.hostCxlMemWrite addr bytes) := ofScalar _ rfl (Nat.le_of_ble_eq_true rfl)
theorem partCreate (c : Cmd) : Statement (.partCreate c) := ofScalar _ rfl (Nat.le_of_ble_eq_true rfl)
theorem partDestroy (c : Cmd) : Statement (.partDestroy c) := ofScalar _ rfl (Nat.le_of_ble_eq_true rfl)
theorem preempt (c : Cmd) : Statement (.preempt c) := ofScalar _ rfl (Nat.le_of_ble_eq_true rfl)
theorem saveComplete (part : Nat) : Statement (.saveComplete part) := ofScalar _ rfl (Nat.le_of_ble_eq_true rfl)
theorem restore (c : Cmd) : Statement (.restore c) := ofScalar _ rfl (Nat.le_of_ble_eq_true rfl)
theorem kill (c : Cmd) : Statement (.kill c) := ofScalar _ rfl (Nat.le_of_ble_eq_true rfl)
theorem replay (c : Cmd) : Statement (.replay c) := ofScalar _ rfl (Nat.le_of_ble_eq_true rfl)
theorem resume (c : Cmd) : Statement (.resume c) := ofScalar _ rfl (Nat.le_of_ble_eq_true rfl)
theorem regionLock (c : Cmd) : Statement (.regionLock c) := ofScalar _ rfl (Nat.le_of_ble_eq_true rfl)
theorem regionUnlock (c : Cmd) : Statement (.regionUnlock c) := ofScalar _ rfl (Nat.le_of_ble_eq_true rfl)
theorem slotFlush (c : Cmd) : Statement (.slotFlush c) := ofScalar _ rfl (Nat.le_of_ble_eq_true rfl)
theorem attgo (v : BitVec 32) : Statement (.attgo v) := ofScalar _ rfl (Nat.le_of_ble_eq_true rfl)
theorem fwgo (v : BitVec 32) : Statement (.fwgo v) := ofScalar _ rfl (Nat.le_of_ble_eq_true rfl)
theorem invgo (part : Nat) (v : BitVec 32) : Statement (.invgo part v) := ofScalar _ rfl (Nat.le_of_ble_eq_true rfl)
theorem shootdownComplete (part : Nat) : Statement (.shootdownComplete part) := ofScalar _ rfl (Nat.le_of_ble_eq_true rfl)
theorem deadgo (part : Nat) (v : BitVec 32) : Statement (.deadgo part v) := ofScalar _ rfl (Nat.le_of_ble_eq_true rfl)
theorem netgo (part : Nat) (v : BitVec 32) : Statement (.netgo part v) := ofScalar _ rfl (Nat.le_of_ble_eq_true rfl)
theorem rinvgo (part : Nat) (v : BitVec 32) : Statement (.rinvgo part v) := ofScalar _ rfl (Nat.le_of_ble_eq_true rfl)
theorem peerdown (part : Nat) (v : BitVec 32) : Statement (.peerdown part v) := ofScalar _ rfl (Nat.le_of_ble_eq_true rfl)
theorem pwrlimWrite (v : BitVec 32) : Statement (.pwrlimWrite v) := ofScalar _ rfl (Nat.le_of_ble_eq_true rfl)
theorem registerWrite (off : Nat) (v : BitVec 64) : Statement (.registerWrite off v) := ofScalar _ rfl (Nat.le_of_ble_eq_true rfl)
theorem deviceStart (r : StartResult) (fencedCores : List Nat) (fencedPch : List Nat) (fencedPorts : List Nat) : Statement (.deviceStart r fencedCores fencedPch fencedPorts) := ofScalar _ rfl (Nat.le_of_ble_eq_true rfl)
theorem startWatchdogExpiry : Statement .startWatchdogExpiry := ofScalar _ rfl (Nat.le_of_ble_eq_true rfl)
theorem telemetrySample (x : Sample) : Statement (.telemetrySample x) := ofScalar _ rfl (Nat.le_of_ble_eq_true rfl)
theorem thermalControl : Statement .thermalControl := ofScalar _ rfl (Nat.le_of_ble_eq_true rfl)
theorem trip : Statement .trip := ofScalar _ rfl (Nat.le_of_ble_eq_true rfl)
theorem patrolScrub (sector : Nat) (r : ScrubResult) (endsPass : Bool) : Statement (.patrolScrub sector r endsPass) := ofScalar _ rfl (Nat.le_of_ble_eq_true rfl)
theorem sramScrub (a : SramArray) (r : ScrubResult) : Statement (.sramScrub a r) := ofScalar _ rfl (Nat.le_of_ble_eq_true rfl)
theorem phyCalibration (stack pch : Nat) : Statement (.phyCalibration stack pch) := ofScalar _ rfl (Nat.le_of_ble_eq_true rfl)
theorem phyCalibrationEnd (stack pch : Nat) : Statement (.phyCalibrationEnd stack pch) := ofScalar _ rfl (Nat.le_of_ble_eq_true rfl)
theorem illegalOpcodeWord : Statement .illegalOpcodeWord := ofScalar _ rfl (Nat.le_of_ble_eq_true rfl)
theorem pageWalkComplete (g : GRef) (st : Stream) : Statement (.pageWalkComplete g st) := ofScalar _ rfl (Nat.le_of_ble_eq_true rfl)
theorem storeAcknowledgement (x : StoreRef) : Statement (.storeAcknowledgement x) := ofScalar _ rfl (Nat.le_of_ble_eq_true rfl)
theorem partialSumPerformed (part core word n : Nat) : Statement (.partialSumPerformed part core word n) := ofScalar _ rfl (Nat.le_of_ble_eq_true rfl)
theorem backInvalidationResponse (line : Nat) (dirty : Option (List Byte)) : Statement (.backInvalidationResponse line dirty) := ofScalar _ rfl (Nat.le_of_ble_eq_true rfl)
theorem dictionaryBankReplaced (op : Nat) : Statement (.dictionaryBankReplaced op) := ofScalar _ rfl (Nat.le_of_ble_eq_true rfl)
theorem descriptorCopyTaken (g : GRef) (slot1 : Bool) : Statement (.descriptorCopyTaken g slot1) := ofScalar _ rfl (Nat.le_of_ble_eq_true rfl)
theorem sequenceAbortNotice (r : SeqRef) (status : Nat) : Statement (.sequenceAbortNotice r status) := ofScalar _ rfl (Nat.le_of_ble_eq_true rfl)
theorem crcRetry (site : CrcSite) : Statement (.crcRetry site) := ofScalar _ rfl (Nat.le_of_ble_eq_true rfl)
theorem deadDeclarationDone (part : Nat) : Statement (.deadDeclarationDone part) := ofScalar _ rfl (Nat.le_of_ble_eq_true rfl)
theorem netSetupDone (part : Nat) : Statement (.netSetupDone part) := ofScalar _ rfl (Nat.le_of_ble_eq_true rfl)
theorem remoteInvalidationDone (part : Nat) : Statement (.remoteInvalidationDone part) := ofScalar _ rfl (Nat.le_of_ble_eq_true rfl)
theorem attestationDone : Statement .attestationDone := ofScalar _ rfl (Nat.le_of_ble_eq_true rfl)
theorem firmwareUpdateDone : Statement .firmwareUpdateDone := ofScalar _ rfl (Nat.le_of_ble_eq_true rfl)

end Sys2Proof.Laws.WordCount
end

