-- ==== Sys2Proof/Tests/Slice0.lean ====
section
/-!
SUPPORT. Tests: words the specification writes out, ill-formed instructions that the checks refuse, single
instructions whose results the specification gives, and states that meet the hypotheses of the statements.
-/
set_option Elab.async false

namespace Sys2Proof.Tests
open Sys2Proof Sys2Proof.Machine Sys2Proof.Safety Sys2Proof.Claims

/-! ### Decoding, against words of the specification -/

/-- R206's form SR and R207's immediate form (spec/15, transpose kernel). -/
theorem test_decode_sadd_imm : (decodeWords [0x07186001]).toOption = some (.saddImm 6 6 1) := by decide
/-- Spec/15: `aadd a1, a1, s7, 0`. -/
theorem test_decode_aadd : (decodeWords [0x100411C0]).toOption = some (.aadd 1 1 7 0) := by decide
/-- R214's example. -/
theorem test_decode_callo : (decodeWords [0x24001C0C]).toOption = some (.callo 7 12) := by decide
/-- R215's example. -/
theorem test_decode_loopi : (decodeWords [0x27000000, 0x01400064]).toOption = some (.loopi 100 20) := by decide
/-- Spec/08's worked listing. -/
theorem test_decode_split : (decodeWords [0x29040000, 0x0000F028]).toOption = some (.split 1 40 60) := by decide
/-- R222's example. -/
theorem test_decode_garm : (decodeWords [0x430C0000, 0x00080001]).toOption = some (.garm 3 0 0 1 4096) := by decide
/-- R225's example. -/
theorem test_decode_tkt : (decodeWords [0x4614000D]).toOption = some (.tkt 5 0 3 1) := by decide
/-- Spec/15: `sget s7, sr.team.x`. -/
theorem test_decode_sget : (decodeWords [0x501C0002]).toOption = some (.sget 7 2) := by decide
/-- Spec/08's worked listing: an acquiring load. -/
theorem test_decode_ld_acq : (decodeWords [0x6314280A, 0]).toOption =
    some (.ldGlb ⟨5, 2, some .dev, .page, .acq, false, .b32, 0⟩) := by decide
/-- Spec/11's table: a fence. -/
theorem test_decode_fence : (decodeWords [0x6900001C]).toOption = some (.fenceAr .dev) := by decide
/-- Spec/12's table: a window. -/
theorem test_decode_mwin : (decodeWords [0x70004140, 0x00480640]).toOption = some (.mwin 0 4 5 .spd 0 .q4 true false 576) := by
  decide
/-- R302's example. -/
theorem test_decode_bvset : (decodeWords [0x80044000, 0x00000082]).toOption = some (.bvset 1 4 0 2 2) := by decide
/-- R318's example. -/
theorem test_decode_cpy : (decodeWords [0x890CA203, 1]).toOption = some (.cpy false ⟨.spd, 3, 1, 8, 10, 0⟩) := by decide
/-- R344's example. -/
theorem test_decode_rfwd : (decodeWords [0x91086243, 0x80]).toOption = some (.rfwd 2 6 9 3 128) := by decide
/-- Spec/08's worked lane word. -/
theorem test_decode_fma : (decodeWords [0, 0x080DC020, 0x05882004]).toOption =
    some (.fma ⟨2, false, 8, 1, 2, 3, .f32, 0, 0, true, 0, 0⟩) := by decide
/-- Spec/10's example of a butterfly. -/
theorem test_decode_bfly : (decodeWords [0x0000FFFF, 0x001040A0, 0x211C0404]).toOption =
    some (.bfly ⟨7, false, 1, 1, 0, 4, .b32, 0, 2, true, 0, 0xFFFF⟩) := by decide
/-- Spec/11's table: an atomic. -/
theorem test_decode_atom : (decodeWords [0, 0x1800C024, 0x35DC1410]).toOption =
    some (.atom .glb ⟨7, false, 5, 4, 6, 0, .i32, 0, 0, true, 4, 0⟩) := by decide
/-- R304's example. -/
theorem test_decode_trq : (decodeWords [0x4FF, 0x24000023, 0x385C0010]).toOption =
    some (.trq ⟨7, false, 0, 4, 9, 0, .b8, 0, 0, true, 3, 0x4FF⟩) := by decide
/-- The encoder gives the words of the specification back. -/
theorem test_encode_bfly : encode (.bfly ⟨7, false, 1, 1, 0, 4, .b32, 0, 2, true, 0, 0xFFFF⟩) =
    [0x0000FFFF, 0x001040A0, 0x211C0404] := by decide

/-! ### Changed words, by the table of spec/08 -/

/-- The `fma` word of spec/08 with another type or rounding code. -/
def changedFma (mid : Word) : List Word := [0, mid, 0x05882004]
theorem test_changed_fma_b128 : decodeWords (changedFma 0x080E8020) = .error .illegalOpcode := rfl
theorem test_changed_fma_rounding : decodeWords (changedFma 0x080DD020) = .error .illegalOpcode := rfl
/-- d = 255 in a group with 256 bytes per lane. -/
theorem test_changed_fma_d : (Instr.fma ⟨2, false, 255, 1, 2, 3, .f32, 0, 0, true, 0, 0⟩).check4 ⟨256, 64, 32, 16, 0⟩ = false := by decide
theorem test_changed_ld_rel : decodeScalar 0x63181012 0 = .error .illegalOpcode := rfl
theorem test_changed_ld_base : decodeScalar 0x63190002 0 = .error .illegalOperand := rfl
theorem test_zero_word : decodeScalar 0 0 = .error .illegalOpcode := rfl
theorem test_split_extension : decodeScalar 0x0000F028 0 = .error .illegalOpcode := rfl

/-! ### Ill-formed instructions, one for each check -/

theorem test_wf_guard : (Instr.mov ⟨7, true, 0, 0, 1, 0, .b32, 0, 0, false, 0, 0⟩).wf = false := by decide
theorem test_wf_guard_ok : (Instr.mov ⟨7, false, 0, 0, 1, 0, .b32, 0, 0, false, 0, 0⟩).wf = true := by decide
theorem test_wf_rounding : (Instr.add ⟨7, false, 0, 0, 1, 0, .f32, 7, 0, false, 0, 0⟩).wf = false := by decide
theorem test_wf_load_order : (Instr.ldGlb ⟨1, 0, some .dev, .page, .rel, false, .b32, 0⟩).wf = false := by decide
theorem test_wf_store_order : (Instr.stGlb ⟨1, 0, none, .page, .rel, false, .b32, 0⟩).wf = false := by decide
theorem test_wf_ldt_default : (Instr.ldt ⟨1, 0, true, 3, false, .b32, 0⟩).wf = false := by decide
theorem test_wf_window_format : (Instr.mwin 0 1 2 .spd 0 .i8 false false 0).wf = false := by decide
theorem test_wf_convert_format : (Instr.mcvt 0 1 .q4 0 false 0).wf = false := by decide
theorem test_wf_copy_space : (Instr.cpy false ⟨.slc, 0, 0, 0, 0, 0⟩).wf = false := by decide
theorem test_wf_view_aligned : (Instr.mov ⟨7, false, 1, 0, 2, 0, .b64, 0, 0, false, 0, 0⟩).wf = false := by decide
theorem test_wf_view_allocated : (Instr.mov ⟨7, false, 64, 0, 2, 0, .b32, 0, 0, false, 0, 0⟩).fits ⟨256, 64, 32, 16, 0⟩ = false := by
  decide
theorem test_wf_immediate_fits : (Instr.mov ⟨7, false, 0, 0, 0, 0, .b8, 0, 2, false, 0, 256⟩).wf = false := by decide
theorem test_wf_bit_field : (Instr.sbfx false 31 1 1 1).wf = false ∧ (Instr.sbfx false 31 0 1 1).wf = true := by decide
theorem test_wf_loop_end : (Instr.loopi 1 1).wf = false ∧ (Instr.loopi 1 2).wf = true := by decide
theorem test_wf_gong : (Instr.garrive 4 0 1).fits ⟨1024, 64, 4, 16, 0⟩ = false := by decide
theorem test_wf_gget : (Instr.gget 1 0 3).wf = false := by decide
theorem test_wf_counter : (Instr.perf 1 6).wf = false ∧ (Instr.perf 1 5).wf = true := by decide
theorem test_wf_pair_register : (Instr.ldGlb ⟨16, 0, none, .page, .none, false, .b64, 0⟩).wf = false := by decide
theorem test_wf_base_class : (Instr.ldGlb ⟨1, 16, none, .page, .none, false, .b32, 0⟩).wf = false := by decide
theorem test_wf_tile : (Instr.mzero 4).fits ⟨1024, 64, 32, 4, 0⟩ = false := by decide
theorem test_wf_butterfly : (Instr.bfly ⟨7, false, 1, 1, 2, 5, .b32, 0, 0, false, 0, 0⟩).fits ⟨1024, 32, 32, 16, 0⟩ = false := by
  decide
theorem test_wf_ballot : (Instr.ballot ⟨7, false, 1, 1, 0, 0, .b32, 0, 0, false, 0, 1⟩).fits ⟨1024, 32, 32, 16, 0⟩ = false := by
  decide

/-- R49, R199: a rotation code of 5 is illegal before the tile's address is looked at. -/
theorem test_wf_rotation : (Instr.maccLd 0 1 .spd 5 0).fits ⟨1024, 64, 32, 16, 0⟩ = false ∧
    (Instr.maccLd 0 1 .spd 4 0).fits ⟨1024, 64, 32, 16, 0⟩ = true := by decide
/-- R197, R248: the high half of a 16-bit immediate is 0. -/
theorem test_wf_pack_half : (Instr.pack ⟨7, false, 1, 1, 0, 0, .b32, 0, 2, false, 0, 0x10000⟩).check3 = false ∧
    (Instr.pack ⟨7, false, 1, 1, 0, 0, .b32, 0, 2, false, 0, 0xFFFF⟩).check3 = true := by decide

/-! ### Small states -/

/-- A launch of one team of one group whose fragment issues, and one whose lane queue issues. -/
def sc : State := { State.reset.placeWord true 0x01000000 with cur := ⟨placedRef, .frag false⟩ }
def ln : State := { State.reset.placeWord false 0 with cur := ⟨placedRef, .lane⟩ }
def gs : Group := placedGroup true
def gl : Group := placedGroup false
/-- The same states with another group, launch, partition or team. -/
def withGroup (s : State) (g : Group) : State := { s with groups := [g] }
def withLaunch (s : State) (l : Launch) : State := { s with launches := [l] }
def withPart (s : State) (p : Part) : State := { s with parts := [p] }
def withTeam (s : State) (t : Team) : State := { s with teams := [t] }
def withCore (s : State) (c : Core) : State := { s with cores := [c] }
/-- The group with scalar registers set, or with its fragment replaced. -/
def regs (l : List (SReg × Word)) : Group :=
  { gs with ctx := l.foldl (fun c e => c.setS e.1 e.2) gs.ctx }
def frag (f : Frag) : Group := { gs with ctx := gs.ctx.setFrag false (some f) }
/-- The group with lane registers set, lane by lane and word by word. -/
def lanes (l : List (Nat × Nat × Nat)) : Group :=
  { gl with lregs := l.foldl (fun m e => Memory.wrs m (1024 * e.1 + 4 * e.2.1) (leBytes 4 e.2.2)) [] }
def entry : Entry :=
  { slot := 0, start := 0, word := 0, mask := BitVec.allOnes 64, capS := Ctx.reset.s, capA := Ctx.reset.a, frag := false,
    lrunAt := 0, wait := .ready, after := .reset }

/-- What an instruction leaves of the group, if it answers a next state. -/
def groupAfter (i : Instr) (s : State) : Option Group :=
  match exec i s with | .next t => t.group? placedRef | _ => none
def sAfter (i : Instr) (g : Group) (r : SReg) : Option Word := (groupAfter i (withGroup sc g)).map fun h => h.ctx.getS r
def laneAfter (i : Instr) (g : Group) (l d : Nat) : Option Nat := (groupAfter i (withGroup ln g)).map fun h => h.lane l d 4

theorem issues_of (s : State) (g : Group) (f : Frag) (h : s.cur = ⟨g.ref, .frag false⟩) (h0 : s.groups = [g]) (h1 : g.state = .live)
    (h2 : g.ctx.frag false = some f) : Issues s false g f :=
  ⟨h, by simp [h0, State.group?], h1, h2⟩
theorem lane_issues_of (s : State) (g : Group) (e : Entry) (es : List Entry) (h : s.cur = ⟨g.ref, .lane⟩) (h0 : s.groups = [g])
    (h1 : g.state = .live) (h2 : g.queue = e :: es) : LaneIssues s g e es :=
  ⟨h, by simp [h0, State.group?], h1, h2⟩
/-- A check that finds the places given. -/
def finds (c : Chk) (x : Acc) : Bool := match c with | .ok y => decide (y = x) | _ => false
theorem of_finds (c : Chk) (x : Acc) (h : finds c x = true) : c = .ok x := by
  cases c <;> simp_all [finds]
theorem sc_issues (g : Group) (f : Frag) (h : g.ref = placedRef) (h1 : g.state = .live) (h2 : g.ctx.frag false = some f) :
    Issues (withGroup sc g) false g f :=
  ⟨by rw [h]; rfl, by simp [withGroup, State.group?], h1, h2⟩
theorem ln_issues (g : Group) (e : Entry) (es : List Entry) (h : g.ref = placedRef) (h1 : g.state = .live) (h2 : g.queue = e :: es) :
    LaneIssues (withGroup ln g) g e es :=
  ⟨by rw [h]; rfl, by simp [withGroup, State.group?], h1, h2⟩

/-! ### Results the specification gives -/

/-- R206: addition wraps modulo 2³², and `ssra` by 32 or more fills with the sign. -/
theorem test_sadd_wraps : sAfter (.sadd 3 1 2) (regs [(1, 0xFFFFFFFF), (2, 2)]) 3 = some 1 := by decide
theorem test_ssra_far : sAfter (.ssra 3 1 2) (regs [(1, 0x80000000), (2, 32)]) 3 = some 0xFFFFFFFF := by decide
theorem test_ssub_wraps : sAfter (.ssub 3 1 2) (regs [(1, 0), (2, 1)]) 3 = some 0xFFFFFFFF := by decide
theorem test_sshl_far : sAfter (.sshl 3 1 2) (regs [(1, 1), (2, 32)]) 3 = some 0 := by decide
theorem test_smulh_signed : sAfter (.smulhI32 3 1 2) (regs [(1, 0xFFFFFFFF), (2, 1)]) 3 = some 0xFFFFFFFF := by decide
theorem test_sclz_zero : sAfter (.sclz 3 1) gs 3 = some 32 := by decide
/-- R19: a write to `s0` is ignored. -/
theorem test_s0_reads_zero : sAfter (.saddImm 0 0 5) gs 0 = some 0 := by decide
/-- R209: `slih` keeps the low half. -/
theorem test_slih_keeps_low : sAfter (.slih 3 0xABCD) (regs [(3, 0x1234)]) 3 = some 0xABCD1234 := by decide
/-- R210: a signed extract copies the top bit of the field. -/
theorem test_sbfx_signed : sAfter (.sbfx true 4 3 3 1) (regs [(1, 0xF0)]) 3 = some 0xFFFFFFFF := by decide
/-- R240's example: `bfx.b32 v4, v1, 0x0505` extracts bits [9:5]. -/
theorem test_bfx_example : laneAfter (.bfx ⟨7, false, 4, 1, 0, 0, .b32, 0, 2, false, 0, 0x505⟩) (lanes [(0, 1, 0x3A0)]) 0 4 = some 0x1D := by
  decide +kernel
/-- R246, the worked example of spec/10: `cvt.bf16.f32.rs` of 0x3F804000 with random word 0x20000000. -/
theorem test_cvt_rs : convert .f32 .bf16 .rs false 0x20000000 0x3F804000 = (0x3F81, 0x10) := by decide

/-! ### States that meet the hypotheses of the statements -/

theorem witness_scalar_integer : Issues (withGroup sc gs) false gs placedFrag ∧ aluResult gs.ctx (.sclz 3 0) = some (3, 32) ∧
    (Instr.sbfx true 31 0 3 1).wf = true ∧ immResult gs.ctx (.sbfx true 31 0 3 1) = some (3, 0) :=
  ⟨sc_issues _ _ rfl rfl rfl, by decide, by decide, by decide⟩
theorem witness_compare : Issues (withGroup sc gs) false gs placedFrag ∧ condHolds .eq (gs.ctx.getS 1) (gs.ctx.getS 2) ∧
    ¬condHolds .ne (gs.ctx.getS 1) (gs.ctx.getS 2) :=
  ⟨sc_issues _ _ rfl rfl rfl, rfl, by simp [condHolds]; rfl⟩
theorem witness_address : Issues (withGroup sc gs) false gs placedFrag ∧ addrResult gs.ctx (.alea 1 2 0xFFFFFFFF) = some (2, [], [(1, -1)]) :=
  ⟨sc_issues _ _ rfl rfl rfl, by decide⟩
theorem witness_alu_functions : fMajor 0x02041000 = 2 ∧ fFn 0x02041000 = 0 ∧ fMajor 0x0204100F = 2 ∧ fFn 0x0204100F = 0x0F ∧
    fSb 0x0204100F = 0 ∧ fSb 0x0204104F ≠ 0 ∧ fMajor 0x02041012 = 2 ∧ 0x12 ≤ fFn 0x02041012 ∧ fMajor 0x0204103F = 2 := by decide
theorem witness_branches : Issues (withGroup sc gs) false gs placedFrag ∧ (placedFrag.pcw : Int) + (1023 : BitVec 20).toInt = (1023 : Nat) ∧
    1023 < (withGroup sc gs).swords gs placedFrag ∧
    ((withGroup sc gs).swords gs placedFrag : Int) ≤ placedFrag.pcw + (1024 : BitVec 20).toInt ∧
    (placedFrag.pcw : Int) + (-1 : BitVec 20).toInt < 0 ∧ (withGroup sc gs).lwords gs placedFrag ≤ (0 : BitVec 10).toNat :=
  ⟨sc_issues _ _ rfl rfl rfl, by decide +kernel⟩

/-- The group with a link word in `s63`: of the current overlay, and of a token. -/
theorem witness_returns : Issues (withGroup sc gs) false gs placedFrag ∧ gs.ctx.getS 63 = linkWord false 0 0 ∧
    0 = (withGroup sc gs).curOvl gs placedFrag ∧ 0 < (withGroup sc gs).swords gs placedFrag ∧
    (regs [(63, 1)]).ctx.getS 63 = linkWord true 0 0 ∧ placedFrag.tokens.getLsbD placedFrag.slot = false ∧
    (regs [(63, 0xFFFFC)]).ctx.getS 63 = linkWord false 1023 255 :=
  ⟨sc_issues _ _ rfl rfl rfl, by decide +kernel⟩
/-- The fragment with a token for slot 1, which holds overlay 1. -/
def tokenFrag : Frag := { placedFrag with tokens := 2 }
def twoSlots : Core :=
  { Core.reset 0 with slots := [(0, .ready (placedImage true 0)), (1, .ready { placedImage true 0 with key := ⟨0, 0, 1⟩ })] }
def tokenState : State := withCore (withLaunch (withGroup sc (frag tokenFrag)) { placedLaunch with novl := 3 }) twoSlots
theorem witness_return_to_overlay : (tokenFrag.tokens.getLsbD 1 = true) ∧
    ((tokenState.image (frag tokenFrag) 1).map fun i => i.key.ovl) = some 1 ∧ (1 : Nat) ≠ lrRoot (tokenState.lrec (frag tokenFrag).ref) := by
  decide +kernel
theorem witness_overlay_calls : Issues (withGroup sc gs) false gs placedFrag ∧
    (withGroup sc gs).launch? gs.ref.part gs.ref.lid = some placedLaunch ∧ (0 : BitVec 8).toNat < placedLaunch.novl ∧
    (0 : BitVec 8).toNat = lrRoot placedLaunch.lrec :=
  ⟨sc_issues _ _ rfl rfl rfl, rfl, by decide +kernel⟩
/-- Overlay 1 is ready and overlay 2 is not. -/
theorem witness_overlay_hit_and_miss : tokenState.readySlot 0 (overlayKey tokenState (frag tokenFrag) 1) = some 1 ∧
    ((tokenState.imageOf 0 1).map fun i => i.scalar.length) = some 1024 ∧
    tokenState.readySlot 0 (overlayKey tokenState (frag tokenFrag) 2) = none ∧ 1023 < 1024 := by decide +kernel
/-- A loop level that ends at the fragment's word, and four levels. -/
def level (c : Word) : LoopLevel := ⟨c, 0, 0, 0⟩
theorem witness_loops : Issues (withGroup sc (frag { placedFrag with loops := [level 2] })) false
      (frag { placedFrag with loops := [level 2] }) { placedFrag with loops := [level 2] } ∧
    (1023 : BitVec 10).toNat < (withGroup sc gs).swords gs placedFrag ∧ gs.ctx.getS 1 = 0 ∧ (regs [(1, 1)]).ctx.getS 1 ≠ 0 ∧
    4 ≤ ({ placedFrag with loops := [level 1, level 1, level 1, level 1] } : Frag).loops.length :=
  ⟨sc_issues _ _ rfl rfl rfl, by decide +kernel⟩
theorem witness_loop_check : atEnd { placedFrag with loops := [level 2] } (level 2) ∧ 1 < (level 2).count.toNat ∧
    (level 1).count.toNat ≤ 1 ∧ ¬atEnd { placedFrag with pcw := 1 } (level 2) :=
  ⟨⟨rfl, rfl⟩, by decide, by decide, fun h => absurd h.1 (by decide)⟩
/-- A predicate that is 1 in lane 0 only divides the lanes; an empty and a full one do not. -/
def splitGroup (m : LaneMask) : Group := { gs with p := gs.p.set 1 m }
theorem witness_split : Issues (withGroup sc (splitGroup 1)) false (splitGroup 1) placedFrag ∧
    thenLanes (splitGroup 1) placedFrag 1 ≠ 0 ∧ elseLanes (splitGroup 1) placedFrag 1 ≠ 0 ∧ placedFrag.depth < 64 ∧
    thenLanes (splitGroup 0) placedFrag 1 = 0 ∧ elseLanes (splitGroup 0) placedFrag 7 = 0 ∧
    (splitGroup 1).ctx.frag true = none ∧ ({ placedFrag with depth := 64 } : Frag).depth = 64 :=
  ⟨sc_issues _ _ rfl rfl rfl, by decide +kernel⟩
/-- A second fragment in the other slot, with a stack that has room and one that is full. -/
def pairGroup (o : Frag) (st : List Frag) : Group :=
  { splitGroup 1 with ctx := { gs.ctx with f1 := some o, stack := st } }
theorem witness_split_spills : (pairGroup placedFrag []).ctx.frag true = some placedFrag ∧ placedFrag.canSpill = true ∧
    ([] : List Frag).length < lrDstack (withLaunch sc { placedLaunch with lrec := placedLaunch.lrec ||| place 1024 110 1 } |>.lrec placedRef) ∨
    lrDstack (sc.lrec placedRef) ≤ ([] : List Frag).length := by decide +kernel
/-- Fragments that meet, and fragments that do not, at a `join`. -/
theorem witness_join : Issues (withGroup sc (frag { placedFrag with depth := 1, solo := 1 })) false
      (frag { placedFrag with depth := 1, solo := 1 }) { placedFrag with depth := 1, solo := 1 } ∧
    ({ placedFrag with depth := 1, solo := 1 } : Frag).solo.getLsbD 0 = true ∧ placedFrag.solo.getLsbD 63 = false ∧
    waitsSince { placedFrag with wait := .join 0 } = some 0 ∧ waitsSince placedFrag = none ∧ 0 < ({ sc with tick := 1 } : State).tick :=
  ⟨sc_issues _ _ rfl rfl rfl, by decide +kernel⟩
theorem witness_yield : Issues (withGroup sc (pairGroup placedFrag [placedFrag])) false (pairGroup placedFrag [placedFrag]) placedFrag ∧
    (pairGroup placedFrag [placedFrag]).ctx.stack = [placedFrag] :=
  ⟨sc_issues _ _ rfl rfl rfl, rfl⟩
/-- An overlay with one lane word, and a queue with room and one that is full. -/
def laneImage : Core := { Core.reset 0 with slots := [(0, .ready { placedImage true 0 with lane := [0] })] }
theorem witness_lane_queue : Issues (withCore (withGroup sc gs) laneImage) false gs placedFrag ∧
    (0 : BitVec 10).toNat < (withCore (withGroup sc gs) laneImage).lwords gs placedFrag ∧ gs.queue.length < 8 ∧
    8 ≤ ({ gs with queue := List.replicate 8 entry } : Group).queue.length :=
  ⟨⟨rfl, rfl, rfl, rfl⟩, by decide +kernel⟩
theorem witness_break : (withGroup sc gs).part? 0 = some placedPart ∧ prDebug placedPart.prec = false ∧
    prDebug (placedPart.prec ||| place 1024 170 1) = true ∧ (5 : BitVec 3).toNat < 6 := ⟨rfl, by decide +kernel⟩
/-- A group alone in its team arrives for a count of one; a count of zero or two is forbidden. -/
theorem witness_gongs : Issues (withGroup sc gs) false gs placedFrag ∧ gs.queue = [] ∧
    (withGroup sc gs).team? gs.ref.tref = some placedTeam ∧ (placedTeam.gong 31).mode = .unset ∧
    ¬arrivalForbidden (placedTeam.gong 31) 0 1 (lrGroups ((withGroup sc gs).lrec gs.ref)) ∧
    arrivalForbidden (placedTeam.gong 31) 0 0 1 ∧ arrivalForbidden (placedTeam.gong 31) 0 2 1 ∧
    (0 : Int) + (2 ^ 30 : Nat) < 2 ^ 31 :=
  ⟨sc_issues _ _ rfl rfl rfl, rfl, rfl, rfl, by simp [arrivalForbidden]; decide +kernel, by simp [arrivalForbidden],
    by simp [arrivalForbidden], by decide⟩
/-- Credits: to an UNSET gong, to one whose group has arrived and waits for 32 bytes, to a FAULTED one, and to a COUNT
phase. -/
def gongOf (m : GMode) (bal : Int) : Gong := { placedTeam.gong 3 with mode := m, need := 1, arrived := 1, bal := bal }
theorem witness_credits : sc.team? placedRef.tref = some placedTeam ∧ (placedTeam.gong 3).mode = .unset ∧
    (gongOf .byte 32).mode = .byte ∧ 1 ≤ (gongOf .byte 32).need ∧ (gongOf .byte 32).arrived = (gongOf .byte 32).need ∧
    (gongOf .byte 32).bal - (32 : Nat) = 0 ∧ (gongOf .byte 32).bal - (16 : Nat) ≠ 0 ∧ (gongOf .faulted 0).mode = .faulted ∧
    (gongOf .count 0).mode = .count := by decide +kernel
/-- R144: the phase that a credit completes shows the real bytes credited in it. -/
theorem test_credit_completes : ((({ sc with teams := [placedTeam.setGong 3 (gongOf .byte 32)] } : State).credit placedRef 3 32 20 3 0).team?
    placedRef.tref).map (fun t => ((t.gong 3).phase, (t.gong 3).real)) = some (true, 20) := by decide +kernel
/-- PHASE of a new gong differs from an odd q and equals an even one; a group has arrived in a phase that is over. -/
theorem witness_gong_waits : (placedTeam.gong 0).phase ≠ (gs.ctx.getS 0 + 1#32).getLsbD 0 ∧
    (placedTeam.gong 0).phase = (gs.ctx.getS 0 + 0#32).getLsbD 0 ∧
    ({ placedFrag with wait := .gong 0 true } : Frag).wait = .gong (0 : GReg).toNat true ∧ (placedTeam.gong 0).phase ≠ true := by
  decide +kernel
/-- A cooperative launch of one group: its arrival is the last. -/
def coopLaunch : Launch := { placedLaunch with lrec := placedLaunch.lrec ||| place 1024 95 1 }
theorem witness_launch_barriers : Issues (withGroup sc gs) false gs placedFrag ∧
    (withLaunch (withGroup sc gs) coopLaunch).launch? 0 1 = some coopLaunch ∧ lrCoop coopLaunch.lrec = true ∧
    lrCoop placedLaunch.lrec = false ∧ (∀ j : Fin 8, gs.ref ∉ (coopLaunch.bars[j]).here) ∧
    (∀ h ∈ (withLaunch (withGroup sc gs) coopLaunch).launchGroups 0 1, h.ref = gs.ref) :=
  ⟨sc_issues _ _ rfl rfl rfl, rfl, by decide +kernel⟩
/-- A partition with one collective of two ranks, bound by the launch. -/
def coll : Coll :=
  { crec := place 512 0 1 ||| place 512 16 2, desc := none, count := 0, seqs := [], last := none, lost := [], dict := [], rxHeld := [],
    rxTaken := [], rxNacks := [], txCount := [], txFree := [], txKept := [], notices := [] }
def boundLaunch : Launch := { placedLaunch with lrec := placedLaunch.lrec ||| place 1024 448 1 }
def crecord : BitVec 512 := place 512 0 1 ||| place 512 32 2
def boundState : State := withPart (withLaunch (withGroup sc gs) boundLaunch) { placedPart with colls := [{ coll with crec := crecord }] }
theorem witness_collectives : Issues boundState false gs placedFrag ∧ boundState.launch? 0 1 = some boundLaunch ∧
    lrColl boundLaunch.lrec = 1 ∧ lrColl placedLaunch.lrec = 0 ∧ boundState.coll? 0 1 = some { coll with crec := crecord } ∧
    nchOf boundState boundLaunch = none ∧ boundState.partials = [] ∧ boundLaunch.seqNo = none ∧
    ((0xFFFFFFFF : Word) - 0x80000000).toNat < 2 ^ 31 :=
  ⟨issues_of _ _ _ rfl rfl rfl rfl, by decide +kernel⟩
theorem witness_special : Issues (withGroup sc gs) false gs placedFrag ∧ specialValue (withGroup sc gs) gs 0x42 = some 0 ∧
    specialValue (withGroup sc gs) gs 0x08 = some 64 ∧ specialValue (withGroup sc gs) gs 0x43 = none ∧
    specialValue (withGroup sc gs) gs 0x09 = none ∧ specialValue (withGroup sc gs) gs 0x23 = none :=
  ⟨sc_issues _ _ rfl rfl rfl, by decide +kernel⟩
theorem witness_fences : Issues (withGroup sc gs) false gs placedFrag ∧ (withGroup sc gs).ackWait gs = false ∧
    SumsDone (withGroup sc gs) gs ∧ (withGroup sc gs).team? gs.ref.tref = some placedTeam ∧
    ¬SumsDone { withGroup sc gs with partials := [(0, ⟨0, 0, 0, 1, 0⟩)] } gs ∧ spdShare (withGroup sc gs) gs = 524288 :=
  ⟨sc_issues _ _ rfl rfl rfl, by decide +kernel, fun _ h => (nomatch h), by decide +kernel,
    fun h => h (0, ⟨0, 0, 0, 1, 0⟩) (by simp) ⟨rfl, rfl, by decide⟩, by decide +kernel⟩
theorem witness_lane_fences : LaneIssues (withGroup ln gl) gl entry [] ∧ (withGroup ln gl).ackWait gl = false :=
  ⟨ln_issues _ _ _ rfl rfl rfl, by decide +kernel⟩
theorem witness_overlay_loads : Issues (withGroup sc gs) false gs placedFrag ∧ (withGroup sc gs).launch? 0 1 = some placedLaunch ∧
    (withGroup sc gs).part? 0 = some placedPart ∧ prNslot placedPart.prec = 32 ∧ (withGroup sc gs).rootSlot gs = 0 ∧
    placedFrag.tokens.getLsbD 31 = false ∧ placedFrag.tokens.getLsbD 0 = false ∧ (placedTeam.gong 0).mode = .unset :=
  ⟨sc_issues _ _ rfl rfl rfl, rfl, rfl, by decide +kernel⟩
theorem witness_overlay_loading :
    (withCore (withGroup sc gs) { Core.reset 0 with slots := [(3, .loading ⟨1, ⟨0, 0, 0⟩, 0, [], []⟩ none)] }).loadingSlot 0 ⟨0, 0, 0⟩ = some 3 ∧
    (withCore (withGroup sc gs) { Core.reset 0 with slots := [(3, .loading ⟨1, ⟨0, 0, 0⟩, 0, [], []⟩ none)] }).readySlot 0 ⟨0, 0, 0⟩ = none := by
  decide +kernel

/-! #### A page of global memory: page 5, mapped at address 0, with its walk and its cached translation -/

def leaf : BitVec 64 := place 64 0 3 ||| place 64 16 5 ||| place 64 48 1
def cell (m : Memory) (a : Nat) (e : BitVec 64) : Memory := Memory.wrs m a (leBytes 8 e.toNat)
def tables : Memory :=
  cell (cell (cell (cell [] 0x10000 (0x20001 : BitVec 64)) 0x20000 (place 64 63 1 ||| 0x30001#64)) 0x30000 (place 64 63 1 ||| 0x40001#64))
    0x40000 leaf
def pagePart : Part := { placedPart with prec := placedPart.prec ||| place 1024 256 0x10000, tlb := [⟨0, 65536, leaf⟩] }
def pageState (s : State) : State := { withPart s pagePart with mem := tables }
/-- The bytes of the page from an offset. -/
def pageLocs (o n : Nat) : List Loc := (List.range n).map fun i => .mem (0x50000 + o + i) 1
def okLocs : Chk → Option (List Loc × Option Nat)
  | .ok x => some (x.locs, x.acc)
  | _ => none
/-- Places found by an access at an address, of no ACC page. -/
def accAt (ls : List Loc) (va : Nat) : Acc := { locs := ls, acc := none, req := 0, va := va }
theorem witness_walk : (walk (pageState sc) pagePart 0).toOption = some ⟨0, 65536, leaf⟩ := by decide +kernel
theorem witness_page : okLocs (check (pageState sc) gs pagePart .glb 0 64 0 { strict := true, align := 64 } 0 false) =
    some (pageLocs 0 64, none) := by decide +kernel
theorem witness_page_store : okLocs (check (pageState sc) gs pagePart .glb 65532 4 0 { write := true, strict := true, align := 4 } 0 false) =
    some (pageLocs 65532 4, none) := by decide +kernel
theorem witness_reads_at : ∃ x, ReadsAt (pageState (withGroup sc gs)) gs pagePart 0 64 64 x :=
  ⟨accAt (pageLocs 0 64) 0, rfl, by decide +kernel, by decide +kernel, rfl, ⟨by decide +kernel, rfl⟩, by decide +kernel, ⟨rfl, by decide +kernel⟩,
    of_finds _ _ (by decide +kernel), rfl, by decide +kernel⟩

/-- A launch with a ticket queue whose header has been read; its base lies on page 5. -/
def ticketLaunch : Launch :=
  { placedLaunch with lrec := placedLaunch.lrec ||| place 1024 576 128, tq := placedLaunch.tq.set 0 { TQueue.reset with hdr := some (4, 16) } }
def ticketState : State := pageState (withLaunch (withGroup sc gs) ticketLaunch)
/-- The physical address that the base's checks find. -/
def basePa : Except Hdr Nat → Option Nat
  | .ok pa => some pa
  | .error _ => none
theorem of_basePa (e : Except Hdr Nat) (pa : Nat) (h : basePa e = some pa) : e = .ok pa := by
  cases e <;> simp_all [basePa]
theorem ticket_header : readHeader ticketState pagePart ticketLaunch 0 false = .ok ticketState (4, 16) := by
  have hp := of_basePa (headerAt ticketState pagePart (lrTq ticketLaunch.lrec (0 : Fin 4).val) false) 0x50080 (by decide +kernel)
  have h : (ticketLaunch.tq[(0 : Fin 4)]).hdr = some (4, 16) := by decide +kernel
  unfold readHeader
  rw [hp]
  simp only [h]
  rfl
theorem witness_tickets : Issues ticketState false gs placedFrag ∧ ticketState.launch? 0 1 = some ticketLaunch ∧
    ticketState.part? 0 = some pagePart ∧ lrTq ticketLaunch.lrec 0 ≠ 0 ∧ lrTq placedLaunch.lrec 0 = 0 ∧
    (ticketLaunch.tq[0]).isClosed (ticketState.turnOf gs.ref) = false ∧ ticketState.turnOf gs.ref = (ticketLaunch.tq[0]).turn ∧
    readHeader ticketState pagePart ticketLaunch 0 false = .ok ticketState (4, 16) ∧
    (∀ o ∈ ticketState.ops, o.by_ = gs.ref → o.reserves 0 = false) :=
  ⟨issues_of _ _ _ rfl rfl rfl rfl, by decide +kernel, by decide +kernel, by decide +kernel, by decide +kernel, by decide +kernel,
    by decide +kernel, ticket_header, fun _ h => nomatch h⟩
/-- The base's checks: page 5 is neither remote nor an ACC page, and the bytes of a header read there. -/
theorem witness_ticket_base : (match xlate ticketState pagePart 128 0 with
      | .hit e => (!pteRemote e.pte && !pteAcc e.pte && isHbm (e.pa 128), (headerLocs pagePart (e.pa 128)).any ticketState.bad)
      | _ => (false, true)) = (true, false) ∧ ticketState.hostHeld 0x50080 64 = none ∧ headerOf [4, 0, 0, 0, 16] = (4, 16) := by
  decide +kernel
theorem witness_access_checks : Issues (withGroup sc gs) false gs placedFrag ∧ (withGroup sc gs).part? 0 = some placedPart ∧
    accessAddr gs.ctx .spd ⟨1, 0, some .team, .page, .none, false, .b32, 2⟩ % 4 ≠ 0 ∧
    spaceLimit (withGroup sc gs) gs placedPart .spd < accessAddr gs.ctx .spd ⟨1, 0, none, .page, .none, false, .b32, 524285⟩ + 4 ∧
    accessAddr gs.ctx .spd ⟨1, 0, none, .page, .none, false, .b32, 524284⟩ + 4 ≤ spaceLimit (withGroup sc gs) gs placedPart .spd :=
  ⟨sc_issues _ _ rfl rfl rfl, rfl, by decide +kernel⟩
theorem witness_scalar_loads : Issues (withGroup sc gs) false gs placedFrag ∧ MayAccess (withGroup sc gs) gs placedPart .spd 524284 4 ∧
    524284 + 4 ≤ spaceLimit (withGroup sc gs) gs placedPart .spd :=
  ⟨sc_issues _ _ rfl rfl rfl, ⟨rfl, rfl, by decide +kernel, by decide +kernel⟩, by decide +kernel⟩
/-- A group that waits for a load of four bytes of scratchpad, one of global memory that is poisoned. -/
def loadOf (ls : List Loc) : Load := { fill := .scalar .b32 false 3 0 ls, glb := false, weak := true, si := [], acq := false }
def loading (ls : List Loc) : Frag := { placedFrag with wait := .load (loadOf ls) }
def spdLocs (n : Nat) : List Loc := (List.range n).map fun i => .spd ⟨0, 1, 0⟩ i
theorem spd_store_ok (s : State) (h : s.team? ⟨0, 1, 0⟩ ≠ none) (n : Nat) (l : Loc) (hl : l ∈ spdLocs n) : StoreOk s l := by
  simp only [spdLocs, List.mem_map] at hl
  obtain ⟨i, -, rfl⟩ := hl
  exact h
theorem witness_load_returns : (withGroup sc (frag (loading (spdLocs 4)))).group? placedRef = some (frag (loading (spdLocs 4))) ∧
    (frag (loading (spdLocs 4))).ctx.frag false = some (loading (spdLocs 4)) ∧ (spdLocs 4).length = sizeBytes .b32 ∧
    (∀ l ∈ spdLocs 4, (withGroup sc (frag (loading (spdLocs 4)))).bad l = false) ∧ (∀ e ∈ (sc.core 0).l1, e.si = none) :=
  ⟨rfl, rfl, rfl, by decide +kernel, by decide +kernel⟩
theorem witness_load_poisoned : ({ pageState sc with poison := [0x50000 / 64] } : State).bad (.mem 0x50000 1) = true := by decide +kernel
theorem witness_scalar_stores : ∃ x, check (withGroup sc gs) gs placedPart .spd 0 4 0 { write := true, strict := false, align := 4 } 0 false = .ok x ∧
    x.acc = none ∧ (∀ l ∈ x.locs, StoreOk (withGroup sc gs) l) ∧ x.locs.Nodup ∧ mopReads (withGroup sc gs) gs .spd 0 4 = false ∧
    Released (withGroup sc gs) gs ∧ MayAccess (withGroup sc gs) gs placedPart .spd 0 4 :=
  ⟨accAt (spdLocs 4) 0, of_finds _ _ (by decide +kernel), rfl, spd_store_ok _ (by decide +kernel) 4, by decide +kernel, by decide +kernel,
    ⟨rfl, fun _ h => (nomatch h), by decide +kernel⟩, rfl, rfl, by decide +kernel, by decide +kernel⟩
theorem witness_plain_memory : PlainMemory { pageState sc with skey := [(0x5FFFF / 64, 1)] } 0x5FFFF 1 :=
  ⟨fun _ => ⟨by decide +kernel, fun _ => rfl, by decide +kernel⟩, fun h => absurd h (by decide +kernel), rfl, rfl⟩
/-! #### Lane instructions -/

/-- A lane word that ends its block, with lane registers 1 and 2 as sources and 4 as destination. -/
def word (t : LTy) (d : BitVec 8) : LaneWord := ⟨7, false, d, 1, 2, 0, t, 0, 0, true, 0, 0⟩
theorem witness_lane_integer : LaneIssues (withGroup ln gl) gl entry [] ∧ (Instr.add (word .i32 255)).check3 = true ∧
    4 * (word .i32 255).d.toNat + max 4 LTy.i32.bytes ≤ 1024 ∧
    (∀ l, l < 64 → laneBitsValue (withGroup ln gl) gl entry l (.add (word .i32 255)) = some (.i32, 0)) ∧
    (∀ l, l < 64 → laneBitsValue (withGroup ln gl) gl entry l (.lget (word .b32 4)) = some (.b32, l)) :=
  ⟨ln_issues _ _ _ rfl rfl rfl, by decide +kernel⟩
theorem witness_lane_float : LaneIssues (withGroup ln gl) gl entry [] ∧ (Instr.fma (word .f32 255)).check3 = true ∧
    (∀ l, l < 64 → laneFloatValue gl entry l (.fma (word .f32 255)) = some (.f32, 0, 0)) :=
  ⟨ln_issues _ _ _ rfl rfl rfl, by decide +kernel⟩
/-- The largest finite FP16 number, and the least subnormal of FP32. -/
theorem witness_rounding : (match decodeF .f16 0x7BFF with | .fin _ _ _ => true | _ => false) = true ∧
    (match decodeF .f32 1 with | .fin _ _ _ => true | _ => false) = true ∧ isFloatTy .f16 = true ∧ 0x7BFF < 2 ^ (8 * LTy.f16.bytes) := by
  decide +kernel
theorem witness_lane_predicate : LaneIssues (withGroup ln gl) gl entry [] ∧ (Instr.cmp (word .i32 7)).check3 = true ∧
    (∀ l, l < 64 → lanePredValue gl entry l (.cmp (word .i32 7)) = some true) ∧
    (∀ l, l < 64 → lanePredValue gl entry l (.elect (word .b8 1)) = some (decide (l = 0))) :=
  ⟨ln_issues _ _ _ rfl rfl rfl, by decide +kernel⟩
theorem witness_lane_cross : LaneIssues (withGroup ln gl) gl entry [] ∧ 4 * (word .b32 255).d.toNat + max 4 LTy.b32.bytes ≤ 1024 ∧
    (∀ i < 32, (0 : Word).getLsbD i = (decide (32 * ((word .b32 255).imm.toNat % 2) + i ∈ activeList gl entry (word .b32 255)) &&
      (gl.getP ((word .b32 255).a.setWidth 3)).getLsbD (32 * ((word .b32 255).imm.toNat % 2) + i))) :=
  ⟨ln_issues _ _ _ rfl rfl rfl, by decide +kernel⟩

/-! #### Lane memory: lane 0 alone is active -/

def one : Entry := { entry with mask := 1 }
def oneLane : Group := { gl with queue := [one] }
def w0 : LaneWord := ⟨7, false, 4, 1, 2, 0, .i32, 0, 0, true, 0, 0⟩
/-- The last four bytes of a lane's 256 bytes of slice, and the first four of scratchpad. -/
def sliceLocs : List Loc := (List.range 4).map fun i => .slc placedRef (252 + i)
theorem witness_lane_loads : LaneIssues (withGroup ln oneLane) oneLane one [] ∧ activeList oneLane one w0 = [0] ∧
    LanesMay (withGroup ln oneLane) oneLane one placedPart .spd w0 ∧
    Resolves (withGroup ln oneLane) oneLane one placedPart .spd w0 (laneKind w0 false false false) [(0, accAt (spdLocs 4) 0)] ∧
    activeList gl { entry with mask := 0 } w0 = [] :=
  ⟨ln_issues _ _ _ rfl rfl rfl, by decide +kernel, ⟨rfl, by decide +kernel, rfl, by decide +kernel⟩,
    ⟨by decide +kernel, fun a h => by rw [List.mem_singleton] at h; subst h; exact of_finds _ _ (by decide +kernel), by decide +kernel⟩, by decide +kernel⟩
theorem witness_lane_stores : Resolves (withGroup ln oneLane) oneLane one placedPart .spd w0 (laneKind w0 true false false)
      [(0, accAt (spdLocs 4) 0)] ∧ (spdLocs 4).Nodup ∧ (∀ l ∈ spdLocs 4, StoreOk (withGroup ln oneLane) l) ∧
    (∀ l ∈ activeList oneLane one w0, mopReads (withGroup ln oneLane) oneLane .spd (laneAddr oneLane one .spd w0 l) 4 = false) ∧
    SumsDone (withGroup ln oneLane) oneLane :=
  ⟨⟨by decide +kernel, fun a h => by rw [List.mem_singleton] at h; subst h; exact of_finds _ _ (by decide +kernel), by decide +kernel⟩, by decide +kernel,
    spd_store_ok _ (by decide +kernel) 4, by decide +kernel, fun _ h => (nomatch h)⟩
theorem witness_slice_end : ∃ x, check (withGroup ln oneLane) oneLane placedPart .slc 252 4 0 (laneKind w0 true false false) 0 false = .ok x ∧
    x.locs = sliceLocs := ⟨accAt sliceLocs 252, of_finds _ _ (by decide +kernel), rfl⟩
def laneLoad : Load := { fill := .lanes 255 4 false true [(0, 0, spdLocs 4)], glb := false, weak := true, si := [], acq := false }
theorem witness_lane_returns : (withGroup ln { gl with queue := [ { entry with wait := .load laneLoad } ] }).group? placedRef ≠ none ∧
    ([(0, 0, spdLocs 4)].map (·.1)).Nodup ∧ 4 * 255 + 4 ≤ 1024 ∧ (∀ l ∈ spdLocs 4, (withGroup ln gl).bad l = false) ∧
    loadedLane 4 1 true 0x80 = 0xFFFFFF80 := by decide +kernel
theorem witness_atomics : Resolves (withGroup ln oneLane) oneLane one placedPart .spd w0 (laneKind w0 true true true)
      [(0, accAt (spdLocs 4) 0)] ∧ (∀ l ∈ spdLocs 4, (withGroup ln oneLane).bad l = false) ∧ prDet placedPart.prec = false ∧
    prDet (placedPart.prec ||| place 1024 168 1) = true ∧ (activeList oneLane one w0).head? = some 0 :=
  ⟨⟨by decide +kernel, fun a h => by rw [List.mem_singleton] at h; subst h; exact of_finds _ _ (by decide +kernel), by decide +kernel⟩, by decide +kernel⟩
/-- Page 5 is an ACC page of region 0, whose descriptor the budget home holds; POL is 0, or 1. -/
def accLeaf : BitVec 64 := leaf ||| place 64 10 1
def region (pol : Nat) : Home :=
  { region := 0, b := [], jobs := [], await := none, msgs := [], quiet := [], locked := false,
    desc := some (place 256 16 1 ||| place 256 17 pol ||| place 256 32 1 ||| place 256 64 5) }
def accPart (pol : Nat) : Part :=
  { pagePart with prec := pagePart.prec ||| place 1024 224 1, tlb := [⟨0, 65536, accLeaf⟩], homes := [region pol] }
def accState (pol : Nat) : State :=
  { withPart (withGroup ln oneLane) (accPart pol) with mem := cell tables 0x40000 accLeaf }
def wx (t : LTy) : LaneWord := ⟨7, false, 0, 4, 2, 0, t, 0, 0, true, 0, 0⟩
theorem witness_exact_addition : LaneIssues (accState 0) oneLane one [] ∧ (accState 0).part? 0 = some (accPart 0) ∧
    okLocs (check (accState 0) oneLane (accPart 0) .glb 0 16 0 { xadd := true, strict := true, align := 16 } 0 false) =
      some (pageLocs 0 16, some 0) ∧
    owned (accState 0) oneLane (laneAddr oneLane one .glb (wx .i32) 0) 16 = false ∧ rdPol ((accState 0).homeDesc 0 0) = false ∧
    rdPol ((accState 1).homeDesc 0 0) = true ∧ (xsfFrom (decodeF .f32 0x7FC00000) 0).nan = true :=
  ⟨lane_issues_of _ _ _ _ rfl rfl rfl rfl, by decide +kernel⟩
theorem witness_additions : ((accState 0).core 0).abuf = [] ∧ (0 : Nat) % 16 = 0 := by decide +kernel

/-! #### Matrix array, copies, structures -/

/-- Windows over 8 KiB of scratchpad, as `mwin` writes them. -/
def windowState : State := withGroup sc (regs [(5, 256)])
def window : BitVec 128 := ((groupAfter (.mwin 0 4 5 .spd 0 .f16 false false 0) windowState).map fun g => g.ctx.getMw 0).getD 0
def productGroup : Group := { gs with ctx := (gs.ctx.setMw 0 window).setMw 1 window }
theorem witness_windows : mwValid window = true ∧ (256 : Nat) % 16 = 0 ∧ (BitVec.toNat (256#32)) / 2 ^ 16 = 0 := by decide +kernel
theorem witness_products : tagAfter (withGroup sc productGroup) productGroup 15 = 14 ∧
    productTrap (withGroup sc productGroup) productGroup window window false = none ∧
    productTrap (withGroup sc gs) gs 0 0 false = some .illegalOperand ∧ tileTrap (withGroup sc gs) gs .spd 0 0 256 = none ∧
    tileTrap (withGroup sc gs) gs .spd 0 8 256 = some .misalign ∧
    (sc.core 0).mops.length < 64 ∧ (withGroup sc gs).linesFull gs.ref.tref (tileLines (withGroup sc gs) gs .spd 0 256) = false := by
  decide +kernel
theorem witness_batches : (gs.batches.filter fun x => x.num.isSome).length < 15 ∧
    15 ≤ ((List.replicate 15 (⟨some 0, 1, 0⟩ : Batch)).filter fun x => x.num.isSome).length ∧ (sc.core 0).ramp = .down := by decide +kernel
/-- A zeroing is the oldest operation of the core. -/
def zeroOp : MOp := ⟨placedRef, .zero 0, []⟩
def mopState : State := withCore (withGroup sc { gs with batches := [⟨none, 1, 0⟩] }) { Core.reset 0 with mops := [zeroOp] }
theorem witness_matrix_complete : (mopState.core 0).mops = [zeroOp] ∧ (mopState.group? zeroOp.by_).isSome = true ∧
    mopReady mopState zeroOp [] = true ∧ mopState.team? ⟨0, 1, 0⟩ = some placedTeam := by decide +kernel
/-- A record of rank 1: 16 elements of one byte in global memory, EXT0 1. -/
def shape : BitVec 512 := place 512 64 1 ||| place 512 128 1 ||| place 512 160 1 ||| place 512 192 1 ||| place 512 224 1 ||| place 512 256 1 |||
  place 512 448 15
theorem witness_shape_rejected : shapeOk 0 = false ∧ ¬ShapeValid 0 := ⟨by decide +kernel, fun h => absurd h.rank.1 (by decide +kernel)⟩
theorem witness_shape_valid : ShapeValid shape :=
  ⟨by decide +kernel, by decide +kernel, by decide +kernel, by decide +kernel,
    fun j h1 h2 => (show ∀ j < 5, 1 ≤ j → shStride shape j % 16 = 0 by decide +kernel) j h2 h1, by decide +kernel, by decide +kernel,
    by decide +kernel⟩
/-- A copy of that record to scratchpad passes its checks; one with no rank does not. -/
def shaped : Group := { gs with shapes := gs.shapes.set 1 shape }
def copyArgs : CpyArgs := ⟨.spd, 0, 1, 8, 10, 0⟩
theorem witness_copies : (withGroup sc shaped).team? shaped.ref.tref = some placedTeam ∧
    copyTrap shaped placedTeam (.cpy false) copyArgs = none ∧ copyTrap gs placedTeam (.cpy false) copyArgs = some .illegalOperand ∧
    (withGroup sc shaped).linesFull ⟨0, 1, 0⟩ (upLines ((copyJob shaped (.cpy false) copyArgs).copyLines (withGroup sc shaped) 0)) = false := by
  decide +kernel
theorem witness_structure_commands : gongTrap (placedTeam.gong 31) = none ∧ structAddr gs.ctx 0 0 = 0 ∧
    structAddr gs.ctx 0 (-1) = 2 ^ 64 - 64 ∧ ((gs.ctx.getS 0).toNat + (3 : BitVec 6).toNat) % 2 ^ 32 < 4 := by
  decide +kernel
/-- A group whose binding 0 is bound, with slots 0 of its lanes in scratchpad. -/
def rayGroup : Group := { oneLane with binds := gl.binds.set 0 (.bound 0 1) }
def rayWord : LaneWord := ⟨7, false, 0, 0, 8, 0, .b8, 0, 0, true, 3, 0xFF⟩
theorem witness_rays : LaneIssues (withGroup ln rayGroup) rayGroup one [] ∧
    rayTrap (withGroup ln rayGroup) rayGroup false rayWord (placedTeam.gong 3) [(0, 0)] = none ∧
    rayTrap (withGroup ln oneLane) oneLane false rayWord (placedTeam.gong 3) [(0, 0)] = some (.illegalOperand, 0) ∧
    (withGroup ln rayGroup).linesFull ⟨0, 1, 0⟩ (slotLines (raysOf (withGroup ln rayGroup) rayGroup one rayWord)) = false :=
  ⟨ln_issues _ _ _ rfl rfl rfl, by decide +kernel⟩
/-- A `bvset` in flight whose descriptor lies on page 5, which holds zeros: it is malformed. -/
def bindOp : Op := { id := 9, by_ := placedRef, core := 0, gong := 0, fault := false, body := .bvset 0 0 }
def opState : State := { pageState (withGroup sc gs) with ops := [bindOp] }
theorem witness_structure_steps : OpActs opState bindOp pagePart ∧
    (match readDescriptor opState pagePart 0 with | .error (.fault c _) => c == 0x20 | _ => false) = true :=
  ⟨⟨by decide +kernel, by decide +kernel, by decide +kernel, by decide +kernel, rfl⟩, by decide +kernel⟩

/-! #### Tambour, budgets, ends of waits -/

theorem witness_tambour_instructions : Issues boundState false gs placedFrag ∧ boundState.launch? gs.ref.part gs.ref.lid = some boundLaunch ∧
    boundState.team? gs.ref.tref = some placedTeam ∧ crN crecord = 2 ∧ gongTrap (placedTeam.gong 0) = none ∧
    (Coll.finished { coll with crec := crecord } 0xFFFFFFFF) = true ∧ (Coll.finished { coll with crec := crecord } 0) = false :=
  ⟨issues_of _ _ _ rfl rfl rfl rfl, by decide +kernel⟩
/-- A sequence on this rank that is live, with no message received. -/
def seq0 : Seq :=
  { num := 0, run := 0, desc := none, chunkB := 16, rtile := 0, lid := none, chunks := [], rx := [], sent := [], nacks := [],
    commit := none, flags := 0, status := 0, lost := 0, ending := none, held := false, seen := 0, begun := false }
def seqState : State :=
  withPart (withGroup sc gs) { placedPart with colls := [{ coll with crec := crecord, seqs := [seq0], lost := [1] }] }
theorem witness_messages : (seqState.coll? 0 1).isSome = true ∧ seqState.seq? 0 1 0 = some seq0 ∧ seq0.live = false ∧
    (seqState.knowSeq 0 1 0).seq? 0 1 0 = some seq0 ∧ seq0.status = 0 ∧ seq0.over = false := by decide +kernel
/-- A home with a request, a grant, a denial, a drain and a split on their way. -/
def busyHome : Home :=
  { region 0 with msgs := [.breq 0 16 32, .bgrant 1 16, .bdeny 2, .drain 3, .split 4, .kack 5 16 0, .bret 6 16 0] }
def homeState : State := withPart sc { placedPart with homes := [busyHome] }
theorem witness_budget : homeState.part? 0 = some { placedPart with homes := [busyHome] } ∧
    (({ placedPart with homes := [busyHome] } : Part).home 0).next.any (· == .breq 0 16 32) = true ∧
    (({ placedPart with homes := [busyHome] } : Part).home 0).next.any (· == .bgrant 1 16) = true ∧
    (({ placedPart with homes := [busyHome] } : Part).home 0).next.any (· == .drain 3) = true ∧
    homeState.sentDone 0 5 0 (some 0) = true ∧ (homeState.core 1).tracker 0 = none := by decide +kernel
theorem witness_quiet : (({ placedPart with homes := [{ region 0 with jobs := [.quiet 1 .nobody 0 none], b := [(7, 16)] }] } : Part).home 0).jobs =
    [.quiet 1 .nobody 0 none] := by decide +kernel
theorem witness_partial : ({ sc with partials := [(0, ⟨0, 0, 0x50000, 1, 0⟩)] } : State).partials.find? (fun e =>
    decide (e.1 = 0 ∧ e.2.core = 0 ∧ e.2.word = 0x50000 ∧ e.2.n.toNat = 1)) = some (0, ⟨0, 0, 0x50000, 1, 0⟩) := by decide +kernel
theorem witness_waits_end : sc.group? placedRef = some gs ∧ sc.part? 0 = some placedPart ∧
    (withGroup sc (frag { placedFrag with wait := .pause })).group? placedRef = some (frag { placedFrag with wait := .pause }) ∧
    (frag { placedFrag with wait := .walk 0 0 }).waitOf (.frag false) = some (.walk 0 0) ∧
    ({ placedFrag with wait := .parked } : Frag).wait.parkedNow = true ∧ prWdog (placedPart.prec ||| place 1024 171 1) ≠ 0 ∧
    prWdog placedPart.prec = 0 := by decide +kernel
theorem witness_exit : Issues (withGroup sc gs) false gs placedFrag ∧ gs.queue = [] ∧ SumsDone (withGroup sc gs) gs ∧
    gs.ctx.stack = [] ∧ gs.ctx.frag true = none ∧ (withGroup sc gs).kicksOpen 0 < 256 :=
  ⟨issues_of _ _ _ rfl rfl rfl rfl, rfl, fun _ h => (nomatch h), rfl, rfl, by decide +kernel⟩
theorem witness_kick : ∃ x, ReadsAt (pageState (withGroup sc gs)) gs pagePart 0 128 128 x :=
  ⟨accAt (pageLocs 0 128) 0, rfl, by decide +kernel, by decide +kernel, rfl, ⟨by decide +kernel, rfl⟩, by decide +kernel, ⟨rfl, by decide +kernel⟩,
    of_finds _ _ (by decide +kernel), rfl, by decide +kernel⟩
/-- A posting that waits and may be made: in an ACTIVE partition, and not one held while it is SUSPENDING. -/
theorem witness_postings : placedPart.mayPost ⟨none, 0, false⟩ = true ∧
    ({ placedPart with state := .suspending } : Part).mayPost ⟨none, 0, true⟩ = false := by decide +kernel
/-- A fault queue with room, and one that is full: PROD 64 of 64 records. -/
def fullState : State := { sc with mem := Memory.wrs [] 0 [64] }
theorem witness_traps : sc.group? placedRef = some gs ∧ sc.part? 0 = some placedPart ∧ sc.dev.fenceP = [] ∧
    sc.faultRoom placedPart = true ∧ placedPart.posts = [] ∧ fullState.faultRoom placedPart = false ∧
    placedFrag.pcw < 1024 ∧ placedFrag.slot < 32 ∧ gl.queue = [entry] ∧
    (gs.halted (fun _ => 0) .move).state = .halted .move := by decide +kernel

/-! #### The device -/

def up : State := { sc with dev := { sc.dev with up := 1 } }
theorem witness_registers : up.dev.up = 1 ∧ sc.dev.up ≠ 1 ∧ (0x4000 : Nat) ∉ [0x00, 0x20, 0x28, 0x30, 0x40, 0x48, 0x50] := by decide +kernel
/-- FIPS 202's SHAKE256 of the empty message begins with these bytes (R455). -/
theorem test_shake256_empty : shake256 [] 4 = [0x46, 0xB9, 0xDD, 0x2B] := by decide +kernel
theorem test_power_limit : (match exec (.registerWrite 0x400C 999999) up with | .next t => t.readReg 0x400C | _ => 0) = 1000000 := by
  decide +kernel
/-- The step that the placed instruction takes. -/
def nopNext : State := State.reset.withFetchWord 32 0x01000000
theorem witness_step : nextMove nopNext = some (.stream ⟨placedRef, .frag false⟩) ∧
    nopNext.group? placedRef = some gs ∧ (nopNext.core 0).flaws = 0 ∧
    (nopNext.image gs 0).map (fun i => i.scalar[0]?) = some (some 0x01000000) ∧ (Instr.nop).fits (limits nopNext gs 0) = true := by
  decide +kernel
def laneNext : State := State.reset.withFetchWord 96 0x0588200408 -- not a lane word; the move is the lane queue's
theorem witness_lane_step : nextMove laneNext = some (.stream ⟨placedRef, .lane⟩) := by
  decide +kernel
theorem witness_encode : (Instr.nop).wf = true ∧ encode .nop ≠ [] ∧ (Instr.fma (word .f32 255)).wf = true ∧
    encode (.fma (word .f32 255)) ≠ [] := by decide +kernel
theorem witness_canonical : memoriesWf State.reset = true ∧ memoriesWf nopNext = true := by decide +kernel
theorem witness_distributor : sc.part? 0 = some placedPart ∧ placedPart.state = .active ∧ 0 < prNlq placedPart.prec := by decide +kernel
/-- A launch that is taken with its one team to place, on a core that is empty. -/
def placing : State := { withLaunch sc { placedLaunch with next := 0 } with teams := [], groups := [] }
theorem witness_placement : (toPlace placing placedPart).map (·.lid) = [1] ∧
    (match putTeam placing placedPart { placedLaunch with next := 0 } 0 false with | some _ => true | none => false) = true ∧
    lrDet placedLaunch.lrec ≠ 1 := by decide +kernel
theorem witness_loading : (withGroup sc { gs with state := .loading none }).group? placedRef = some { gs with state := .loading none } ∧
    overlaysReady sc { gs with state := .loading none } = true := by decide +kernel
def cmd : Cmd := { part := 0, arg0 := 0, arg1 := 0, clean := true, at_ := 0 }
theorem witness_commands : Takes up cmd placedPart ∧ placedPart.state = .active ∧ State.reset.part? cmd.part = none ∧
    ({ cmd with part := 8 } : Cmd).part > 7 ∧ isHbm (cmd.arg0 + saveBytes placedPart - 1) = true ∧ up.incomplete 0 1 = true ∧
    up.incomplete 0 0 = false :=
  ⟨⟨rfl, by decide, by decide +kernel, rfl⟩, by decide +kernel⟩
theorem witness_doors : up.dev.up = 1 ∧ (0xFFFFFF : Word).toNat < 2 ^ 24 ∧ (up.regs 7).inv.busy = none ∧ rangeOk 0 0 = true ∧
    rangeOk 0 65537 = false ∧ translating up 0 = false ∧ up.dev.att.busy = none := by decide +kernel
theorem witness_memory : up.dev.up = 1 ∧ isHbm 0 = true ∧ (up.pch 0 0).calib = false ∧ (up.pch 0 0).all_ = none ∧ getKey (up.pch 0 0).banks 0 0 = 0 ∧
    chunkUnwritten up.unwritten 0 = false ∧ sc.dev.failcnt < 3 ∧ sc.dev.up = 0 := by decide +kernel
theorem witness_upkeep : (∃ e ∈ ({ up with dirty := [(0, 1)] } : State).dirty, e.1 ∈ up.dirtySectors 0) ∧
    ({ up.dev with dieTemp := [880] } : Dev).reached 880 = true ∧ up.dev.reached 880 = false := by
  refine ⟨⟨(0, 1), by decide, by decide +kernel⟩, by decide +kernel, by decide +kernel⟩
/-- No access is still to read a sector, an array or a word; with a load of it that has not returned there is one. -/
theorem witness_not_read : up.toRead (inSector 0) = false ∧ up.toRead (inArray up (.dirtyLine 0)) = false ∧
    up.toRead (inArray up (.coreArray 0)) = false ∧ up.toRead (inArray up (.chipWord 0)) = false ∧
    (withGroup up { gs with loads := [{ loadOf [.chip 0] with st := .frag false }] }).toRead (inArray up (.chipWord 0)) = true := by
  decide +kernel
/-- A pass of the patrol scrub that has one sector left, and one that has none. -/
theorem witness_patrol_pass : passComplete { up with dev := { up.dev with scrubbed := [(1, 2 ^ 33 - 1)] } } = false ∧
    passComplete { up with dev := { up.dev with scrubbed := [(0, 2 ^ 33)] } } = true ∧
    chunkUnwritten ({ up with unwritten := [(0, 1)] } : State).unwritten 0 = true := by decide +kernel
/-- 10000 corrected errors within the hour, one uncorrectable error within the day; the sixtieth second of retries. -/
theorem recent_errors (n : Nat) : ((List.replicate n 0).filter fun t => decide (up.clock ≤ t + cyclesIn 1)).length = n := by
  induction n with
  | zero => rfl
  | succ n ih => rw [List.replicate_succ, List.filter_cons_of_pos (by decide +kernel), List.length_cons, ih]
theorem witness_error_counts :
    10000 ≤ (({ Core.reset 0 with ceAt := List.replicate 10000 0 } : Core).ceAt.filter fun t => up.clock ≤ t + cyclesIn 1).length ∧
    (∃ e ∈ ({ Core.reset 0 with ueAt := [0] } : Core).ueAt, up.clock ≤ e + cyclesIn 24) :=
  ⟨Nat.le_of_eq (recent_errors 10000).symm, ⟨0, List.mem_singleton_self _, by decide +kernel⟩⟩
theorem witness_retries : secondOf 70800000000 = 59 ∧ ([(⟨3, 59, 1000, 59⟩ : PortCrc)].find? fun e => e.port = 3) = some ⟨3, 59, 1000, 59⟩ ∧
    ([(⟨3, 59, 1000, 59⟩ : PortCrc)].find? fun e => e.port = 4) = none := by decide +kernel
/-- Every pseudo-channel fenced leaves no stack, a core of each pair no pair. -/
def noStacks : Dev := { State.reset.dev with fenceP := (List.range 1280).map fun x => (x / 160, x % 160) }
def noPairs : Dev := { State.reset.dev with fenceC := (List.range 144).map fun x => 2 * x }
theorem all_listed {α} [BEq α] [LawfulBEq α] (g : Nat → α) (n : Nat) (l : List α) (h : l = (List.range n).map g) :
    ((List.range n).all fun x => l.contains (g x)) = true :=
  List.all_eq_true.2 fun x hx => List.contains_iff_mem.2 (h ▸ List.mem_map.2 ⟨x, hx, rfl⟩)
theorem witness_failing_units : State.reset.dev.noStack = false ∧ State.reset.dev.noPair = false ∧ noStacks.noStack = true ∧
    noPairs.noPair = true :=
  ⟨by decide +kernel, by decide +kernel,
    all_listed (fun x => (x / 160, x % 160)) 1280 noStacks.fenceP (by simp only [noStacks]), by decide +kernel⟩
theorem witness_heat : ({ up.dev with dieTemp := [760] } : Dev).dieTemp.any (fun x => decide (760 ≤ x.toInt)) = true ∧
    ({ up.dev with sampled := true } : Dev).sampled = true ∧ up.dev.sampled = false ∧ gatedBefore 3 20 = 6 := by decide +kernel
/-- A partition that has been saved, with the image of its latest save. -/
def savedPart : Part := { placedPart with state := .suspended, saveAt := some (0, 0, 5) }
def suspended : State := { up with parts := [savedPart], teams := [], images := [(64, saveBytes savedPart - 64, 5)], skey := [(0, 1)] }
theorem witness_restore : suspended.part? 0 = some savedPart ∧ savedPart.cmd = none ∧ imageWhole suspended savedPart 0 = true ∧
    imageWhole suspended savedPart 65536 = false ∧ (bringAll savedPart true [] suspended).isSome = true := by decide +kernel
theorem witness_host : up.dev.up = 1 ∧ hostRegions up 0 64 = [] ∧ (∀ l ∈ hostLocs up 0 64, up.bad l = false) ∧
    getKey up.hostLines 0 0 ≠ 1 ∧ getKey ({ up with hostLines := [(0, 1)] } : State).hostLines 0 0 = 1 := by decide +kernel

/-! #### Stores and loads that are not performed, holds, copies and engine steps -/

/-- A store of a word of scratchpad that is not performed. -/
def waiting : PStore := { ws := (spdLocs 4).zip [1, 2, 3, 4], scope := none, size := 0, req := 0, prio := 0, lvl := 0, early := false }
def storing : Group := { gs with stores := [waiting] }
theorem witness_release : Released (withGroup sc gs) gs ∧ ¬Released (withGroup sc storing) storing :=
  ⟨⟨rfl, fun _ h => (nomatch h), by decide +kernel⟩, fun h => absurd h.1 (by decide)⟩
theorem witness_store_performed : (withGroup sc storing).group? storing.ref = some storing ∧ storing.stores[0]? = some waiting ∧
    (withGroup sc storing).storeReady storing 0 waiting = true ∧ (withGroup sc storing).hostLines = [] ∧
    (∀ e ∈ waiting.ws, StoreOk (withGroup sc storing) e.1) ∧ (waiting.ws.map (·.1)).Nodup ∧ storing.ctx.f0 ≠ none :=
  ⟨by decide +kernel, rfl, by decide +kernel, rfl,
    fun e h => spd_store_ok _ (by decide +kernel) 4 e.1 (by simp only [waiting] at h; exact (List.of_mem_zip h).1),
    by decide +kernel, by decide +kernel⟩
/-- An atomic addition of 5 to that word, whose old value lane 0 waits for. -/
def adding : PStore :=
  { waiting with ws := (spdLocs 4).map fun l => (l, 0), scope := some .dev, size := 4, req := 3
                 rmw := some ⟨.i32, 0, 5, 0, some 0, 0⟩ }
def atomicLoad : Load := { fill := .olds 4 4 true [], glb := false, weak := false, si := [], acq := false }
def addingGroup : Group := { gs with stores := [adding], queue := [{ entry with wait := .load atomicLoad }] }
theorem witness_atomic_performed : (withGroup sc addingGroup).group? addingGroup.ref = some addingGroup ∧
    addingGroup.stores[0]? = some adding ∧ adding.rmw = some ⟨.i32, 0, 5, 0, some 0, 0⟩ ∧
    (withGroup sc addingGroup).storeReady addingGroup 0 adding = true ∧ (withGroup sc addingGroup).hostLines = [] ∧
    (∀ h ∈ (withGroup sc addingGroup).groups, ∀ x ∈ h.stores, x.early = false) ∧
    (∀ e ∈ adding.ws, StoreOk (withGroup sc addingGroup) e.1) ∧ (adding.ws.map (·.1)).Nodup ∧ addingGroup.ctx.f0 ≠ none :=
  ⟨by decide +kernel, rfl, rfl, by decide +kernel, rfl, by decide +kernel,
    fun e h => spd_store_ok _ (by decide +kernel) 4 e.1 (by
      obtain ⟨l, hl, rfl⟩ := List.mem_map.1 h
      exact hl), by decide +kernel, by decide +kernel⟩
/-- R264, R265: the word 0 becomes 5, and the atomic has its old value 0. -/
theorem test_atomic_add : (match exec (.storeAcknowledgement ⟨placedRef, 0⟩) (withGroup sc addingGroup) with
    | .next t => (t.peeks (spdLocs 4), (t.group? placedRef).map fun g => g.queue.map (·.wait))
    | _ => ([], none)) = ([5, 0, 0, 0], some [.load { atomicLoad with fill := .olds 4 4 true [(0, 0)] }]) := by decide +kernel
theorem witness_no_atomics : NoAtomics gs ∧ ¬NoAtomics addingGroup ∧
    NoAtomics oneLane :=
  ⟨fun _ h => (nomatch h), fun h => absurd (h adding (List.mem_singleton_self _)) (by decide), fun _ h => (nomatch h)⟩
/-- An instruction behind a block is provisional; without one it is not. -/
theorem witness_provisional : Provisional (withGroup sc gs) { gs with queue := [entry] } placedFrag ∧
    ¬Provisional (withGroup sc gs) gs placedFrag :=
  ⟨Or.inl ⟨entry, by simp, by decide⟩, fun h => by
    rcases h with ⟨e, h, -⟩ | ⟨l, h, -⟩
    · rw [show gs.queue = [] from rfl] at h; exact nomatch h
    · rw [show gs.loads = [] from rfl] at h; exact nomatch h⟩
theorem witness_lane_wait : (∃ l ∈ ({ gs with loads := [{ laneLoad with st := .lane }] } : Group).loads, l.st = .lane) ∧
    gs.queue = [] ∧ ∀ l ∈ gs.loads, l.st ≠ .lane := ⟨⟨_, List.mem_singleton_self _, rfl⟩, by decide +kernel, by decide +kernel⟩
/-- A phase of a launch barrier has completed since a fragment arrived. -/
theorem witness_barrier_wait : ({ placedFrag with wait := .lbar 0 7 } : Frag).wait = .lbar (0 : BitVec 3).toNat 7 ∧
    (coopLaunch.bars[(0 : BitVec 3).toNat]'(by decide)).count ≠ 7 := by decide +kernel
/-- A watchdog of 2¹¹ cycles, and a fragment parked for that long. -/
theorem witness_watchdog : prWdog (placedPart.prec ||| place 1024 171 1) ≠ 0 ∧
    ({ placedFrag with wait := .parked } : Frag).wait.parkedNow = true ∧
    2 ^ (prWdog (placedPart.prec ||| place 1024 171 1) + 10) ≤ ({ sc with clock := 4096 } : State).clock - 0 := by decide +kernel
/-- No store of a page is waiting, and engines read what is there. -/
theorem witness_still : Still (pageState sc) ∧ (pageState sc).heldBack 0 [] = [] :=
  ⟨⟨by decide +kernel, rfl⟩, by decide +kernel⟩
theorem witness_units : Waits none 0 waiting.ws [waiting] :=
  ⟨by decide, by decide, by decide, by decide, by decide⟩

/-- The record of `shape` with its elements in the chip scratchpad: a copy to scratchpad is one of on-chip spaces. -/
def chipShape : BitVec 512 := shape ||| place 512 72 3
theorem witness_copy_forms : CopyMay shaped placedTeam copyArgs (coords shaped.ctx copyArgs.sc (shRank shape)) ∧
    issueJob (withGroup sc shaped) shaped (copyJob shaped (.cpy false) copyArgs) = some (copyJob shaped (.cpy false) copyArgs) ∧
    LinesFree (withGroup sc shaped) shaped (upLines ((copyJob shaped (.cpy false) copyArgs).copyLines (withGroup sc shaped) 0)) ∧
    (∀ o ∈ (withGroup sc shaped).ops, o.id ≠ (withGroup sc shaped).nextId) ∧ (∀ c ∈ placedTeam.cpyts, c.i = shaped.cpytN → c.gong = copyArgs.g.toNat) :=
  ⟨⟨by decide +kernel, Or.inl rfl, by decide +kernel, Or.inr (by decide +kernel)⟩, by decide +kernel, ⟨by decide +kernel, by decide +kernel⟩,
    by decide +kernel, by decide +kernel⟩
/-- Rank 2, for `cpyw`, and a list of one row, for `cpyg` and `cpys`. -/
def shape2 : BitVec 512 := (shape ^^^ place 512 64 3) ||| place 512 288 16
def windowed : Group := { gs with shapes := gs.shapes.set 1 shape2 }
theorem witness_copy_window : 2 ≤ shRank shape2 ∧ shMask shape2 = false ∧ (0 + 1) * shTile shape2 ≤ 262144 ∧
    (let c := coords windowed.ctx copyArgs.sc (shRank shape2)
     CopyMay windowed placedTeam copyArgs (c.getD 0 0 * shBox shape2 0 :: c.drop 1)) :=
  ⟨by decide +kernel, by decide +kernel, by decide +kernel, ⟨by decide +kernel, Or.inl rfl, by decide +kernel, Or.inr (by decide +kernel)⟩⟩
def listed : Group := { regs [(9, 1)] with shapes := gs.shapes.set 1 shape }
theorem witness_copy_list : ListMay listed placedTeam copyArgs ∧
    absent (withGroup sc listed) listed .spd (listed.ctx.getS copyArgs.sc).toNat (4 * (listed.ctx.getS (copyArgs.sc + 1)).toNat) = false :=
  ⟨⟨by decide +kernel, by decide +kernel, by decide +kernel, Or.inl rfl, by decide +kernel, Or.inr (by decide +kernel)⟩, by decide +kernel⟩

/-- A copy of 16 bytes of scratchpad to pair memory, with two lines to write. -/
def nearJob : CopyJob := { kind := .tile false, shape := shape ||| place 512 76 3 ||| place 512 128 16, at_ := [0], dsp := .pmem, doff := 256, by_ := placedRef }
def nearLine (l : Nat) : CopyLine := ⟨0, .spd, l, false, true, false⟩
def nearOp : Op := { id := 9, by_ := placedRef, core := 0, gong := 0, fault := false, body := .copy [nearJob] [nearLine 2, nearLine 3] true }
def nearTeam : Team := { placedTeam with pres := [(2, 1), (3, 1)] }
def nearState : State := { withTeam (withGroup sc gs) nearTeam with ops := [nearOp] }
theorem core_sound (s : State) (h : ∀ c ∈ s.cores, c.flaws = 0) (k : Nat) : (s.core k).flaws = 0 := by
  simp only [State.core]
  cases e : s.cores.find? (fun c => c.id = k) with
  | none => rfl
  | some c => exact h c (List.mem_of_find?_eq_some e)
theorem sound_good (s : State) (h1 : s.poison = []) (h2 : s.chipBad = []) (h3 : s.dev.fenceP = []) (h4 : ∀ c ∈ s.cores, c.flaws = 0)
    (l : Loc) : s.bad l = false := by
  cases l <;> simp [State.bad, h1, h2, h3, State.fencedPa, core_sound s h4, Option.any] <;>
  first | rfl | (split <;> simp)
theorem near_here (line : Nat) : foreignCount nearState nearOp line = 0 := by
  by_cases h2 : line = 2
  · subst h2; decide +kernel
  by_cases h3 : line = 3
  · subst h3; decide +kernel
  have : nearState.team? nearOp.by_.tref = some nearTeam := by decide +kernel
  simp [foreignCount, this, Team.count, nearTeam, getKey, List.find?, decide_eq_false (Ne.symm h2), decide_eq_false (Ne.symm h3)]
theorem witness_copy_line : OpActs nearState nearOp placedPart ∧ ChipTile nearState gs placedPart nearOp nearJob ∧
    (tileLineBytes nearState gs placedPart nearJob 2).length = 16 ∧ ((tileLineBytes nearState gs placedPart nearJob 2).map (·.1)).Nodup ∧
    (∀ e ∈ tileLineBytes nearState gs placedPart nearJob 2, e.1 ∈ spdLocs 512) :=
  ⟨⟨by decide +kernel, by decide +kernel, by decide +kernel, by decide +kernel, rfl⟩,
    ⟨⟨false, rfl⟩, by decide +kernel, by decide +kernel, by decide +kernel, by decide +kernel, near_here,
      sound_good _ rfl rfl rfl (by decide +kernel), by decide +kernel, fun t h => by
        have e : nearState.team? nearOp.by_.tref = some nearTeam := by decide +kernel
        rw [e] at h; cases h; decide +kernel⟩,
    by decide +kernel, by decide +kernel, by decide +kernel⟩
/-- A gather whose list ends beyond the scratchpad. -/
def farOp : Op :=
  { nearOp with body := .copy [{ nearJob with kind := .gather 524284 2 none, shape := shape, at_ := [] }] [] false }
theorem witness_copy_fault : OpActs { nearState with ops := [farOp] } farOp placedPart ∧
    ({ nearState with ops := [farOp] } : State).group? nearJob.by_ = some gs ∧
    spdShare { nearState with ops := [farOp] } gs < 524284 + 4 * 2 ∧
    (∀ c ∈ ((({ nearState with ops := [farOp] } : State).team? farOp.by_.tref).map (·.cpyts)).getD [], c.op ≠ farOp.id) :=
  ⟨⟨by decide +kernel, by decide +kernel, by decide +kernel, by decide +kernel, rfl⟩, by decide +kernel⟩

/-- What an engine read of a page finds. -/
def engLocs : Eng → Option (List Loc × Option Nat)
  | .ok ls a => some (ls, a)
  | _ => none
theorem of_engLocs (e : Eng) (ls : List Loc) (a : Option Nat) (h : engLocs e = some (ls, a)) : e = .ok ls a := by
  cases e <;> simp_all [engLocs]
def engFail : Eng → Option (Trap × Nat)
  | .fail t a => some (t, a)
  | _ => none
theorem of_engFail (e : Eng) (t : Trap) (a : Nat) (h : engFail e = some (t, a)) : e = .fail t a := by
  cases e <;> simp_all [engFail]
/-- Page 5 with a descriptor of one node, root 128, at its start; the node has no valid child. -/
def nodeState : State := { pageState (withGroup sc gs) with mem := cell (cell tables 0x50000 128) 0x50008 1 }
theorem witness_engine_reads : EngineReads nodeState pagePart 0 64 (128 + 2 ^ 64) ∧ EngineReads nodeState pagePart 128 128 0 ∧
    (128 + 2 ^ 64) % 2 ^ 64 = 128 ∧ 0 / 2 ^ 120 % 256 = 0 ∧
    engine nodeState pagePart 65536 128 1 false false = .fail .pageFault 65536 ∧
    engine nodeState pagePart 32 32 0 true false = .ok (pageLocs 32 32) none :=
  ⟨⟨pageLocs 0 64, of_engLocs _ _ _ (by decide +kernel), by decide +kernel⟩,
    ⟨pageLocs 128 128, of_engLocs _ _ _ (by decide +kernel), by decide +kernel⟩, by decide, by decide,
    of_engFail _ _ _ (by decide +kernel), of_engLocs _ _ _ (by decide +kernel)⟩
/-- A ray that has not begun, a refit of one node and a `bvleaf` of one record there. -/
def rayLane0 : RayLane := { lane := 0, v := Vector.replicate 8 0, slot := 0, t := Trav.start, fin := false }
def engineOp (b : OpBody) : Op := { bindOp with body := b }
theorem witness_engine_steps : ∀ b ∈ [OpBody.ray false false (.bound 128 1) 255 0 [rayLane0], .refit false 0 128 1 (some 1), .bvleaf 64 0 1 0],
    OpActs { nodeState with ops := [engineOp b] } (engineOp b) pagePart := by
  intro b h
  refine ⟨by simp [State.op?], ?_, ?_, ?_, rfl⟩ <;>
  · simp only [List.mem_cons, List.not_mem_nil, or_false] at h
    rcases h with rfl | rfl | rfl <;> decide +kernel

/-! #### Ramps, refresh, calibration, budgets and messages -/

def arrayUp (fed hold : Nat) (ms : List MOp) : Core := { Core.reset 0 with ramp := .up, fed := fed, hold := hold, mops := ms }
theorem witness_ramps : (∀ m ∈ (arrayUp 0 0 []).mops, m.body.isProduct = false) ∧ (arrayUp 0 0 []).fed + 16 ≤ 16 ∧ (arrayUp 0 0 []).ran + 16 ≤ 16 ∧
    (arrayUp 0 0 []).fed + 2048 ≤ 2048 ∧ 15 < (arrayUp 0 0 []).fed + 2048 ∧ (arrayUp 0 1 []).hold ≠ 0 ∧
    (∃ m ∈ (arrayUp 0 0 [⟨placedRef, .mma 0 0 0, []⟩]).mops, m.body.isProduct = true) :=
  ⟨by decide, by decide, by decide, by decide, by decide, by decide, ⟨_, List.mem_singleton_self _, rfl⟩⟩
/-- A pseudo-channel whose first refresh is due at a time, with bank group 0 quiet, busy with a queued read, or held
by a read that completed then. -/
def channel : Pch := { Pch.reset 0 0 with busy := [0], last := [(0, 0)] }
def late (t : Nat) : State := { up with clock := t }
theorem witness_refresh : (channel.dueAt ≤ 5 * (late channel.dueAt).clock) ∧ 5 * up.clock < ({ channel with n := 1 } : Pch).dueAt := by
  refine ⟨Nat.le_mul_of_pos_left _ (by decide), ?_⟩
  simp only [Pch.dueAt, show up.clock = 0 from rfl]; omega
theorem witness_banks : (late 0).bankBusy channel 0 2879 = true ∧ (late 0).bankBusy channel 0 2880 = false ∧
    (late 0).bankBusy (Pch.reset 0 0) 0 0 = false ∧ (late 0).queued 0 0 0 2880 = false ∧ getKey channel.last 0 0 + 2880 ≤ 5 * (late 576).clock ∧
    (Pch.reset 0 0).calibAt = 0 ∧ 1 + 600000000 ≤ 5 * (late 120000001).clock := by decide +kernel
theorem witness_returns_of_budget : homeState.sentDone 0 6 0 (some 0) = true ∧
    ({ homeState with partials := [(0, ⟨6, 0, 0, 1, 0⟩)] } : State).sentDone 0 6 0 (some 0) = false ∧
    (({ placedPart with homes := [{ region 0 with jobs := [.bret 6 16] }] } : Part).home 0).jobs = [.bret 6 16] ∧
    ({ Core.reset 1 with asks := [(0, 0)] } : Core).asksFor 0 = true ∧ (Core.reset 1).asksFor 0 = false := by decide +kernel
/-- Without messages no tile refers to a bank; the receive slot of a sequence's first message. -/
theorem witness_dictionary_banks : bankInUse coll false = false ∧ bankInUse coll true = false := by decide +kernel
theorem witness_receive_slot : (0 : Nat) < slotsOf crecord ∧ slotPa crecord 0 ⟨0, 0⟩ = crRx crecord := by decide +kernel
/-- A request of a core that wants more than is free, beside another holder and alone. -/
theorem witness_requests : let h := { region 0 with b := [(1, 16)], jobs := [.breq 0 16 64] }
    h.jobs = [.breq 0 16 64] ∧ h.await = none ∧ h.locked = false ∧ (h.holders.map (·.1)).filter (· ≠ 0) = [1] ∧ h.granted 0 = 0 ∧
    (((region 0).holders.map (·.1)).filter (· ≠ 0)) = [] := by decide +kernel
theorem witness_runs_of_messages : ((seqState.seeRun ⟨0, 1, 0, 1⟩).seq? 0 1 0).map (·.seen) = some 1 ∧
    ((seqState.seeRun ⟨0, 1, 0, 0⟩).seq? 0 1 0).map (·.over) = some false ∧ (1 : Nat) ∈ [1] := by decide +kernel
theorem witness_heads : headsHeld sc placedPart = none ∧ (headToRead sc placedPart).isNone = true ∧ partQuiet { sc with groups := [], teams := [] } 0 = true ∧
    drained { sc with groups := [], teams := [] } placedPart = true ∧ partQuiet (withGroup sc storing) 0 = false := by decide +kernel
/-- A launch at the head of its queue whose record is not read, and one that was passed over for 65536 cycles. -/
theorem witness_passed : ({ placedLaunch with passed := some 0 } : Launch).passed = some 0 ∧
    65536 ≤ ({ sc with clock := 65536 } : State).clock - 0 ∧ ¬65536 ≤ ({ sc with clock := 65535 } : State).clock - 0 ∧
    placedLaunch.passed = none := by decide +kernel
theorem witness_host_fields : (prFqBase placedPart.prec ≤ 3 ∧ 3 < prFqBase placedPart.prec + 4) ∧
    (∀ p ∈ sc.parts, ¬(prFqBase p.prec ≤ 4 ∧ 4 < prFqBase p.prec + 4)) ∧ (∃ p ∈ sc.parts, (8 : Nat) = prFqBase p.prec + 8) :=
  ⟨by decide +kernel, by decide +kernel, ⟨placedPart, by decide +kernel, by decide +kernel⟩⟩
/-- A fault record that overlaps no other table, at its read-only bytes and its acknowledged bit (R6, R429, R430). -/
theorem test_host_record : hostByte sc (prFqBase placedPart.prec + 64) 0xFF = BitVec.ofNat 8 (sc.rdMem (prFqBase placedPart.prec + 64) 1 0) ∧
    hostByte sc (prFqBase placedPart.prec + 5) 0xAB = 0xAB := by decide +kernel

end Sys2Proof.Tests
end

/-! ### Decoding of the scalar ALU major (R186) -/

namespace Sys2Proof

/-- Major 0x02 leaves the choice to the ALU's function table, and no extension word is read. -/
theorem decodeScalar_of_major_alu {w : BitVec 32} (e : BitVec 32) (hw : fMajor w = 0x02) :
    decodeScalar w e = decAlu w := by
  simp only [decodeScalar, hw]

/-- R186's "(sb 0)": `spopc`, `sclz` and `smov` have no second source. -/
theorem decAlu_unary_of_sb_ne_zero {w : BitVec 32} (hf : fFn w ∈ [0x0F#6, 0x10#6, 0x11#6])
    (hb : fSb w ≠ 0) : decAlu w = .error .illegalOpcode := by
  simp only [List.mem_cons, List.not_mem_nil, or_false] at hf
  rcases hf with hf | hf | hf <;> simpa [decAlu, need, hf] using hb

/-- The functions past the end of R186's table. -/
theorem decAlu_of_fn_unassigned {w : BitVec 32} (hf : 0x12 ≤ fFn w) :
    decAlu w = .error .illegalOpcode := by
  have hpast : 18 ≤ (fFn w).toNat := hf
  unfold decAlu
  split
  case h_19 => rfl
  all_goals omega

/-- Settles O4: once the major has selected the ALU's table, each function is one row of it. -/
theorem aluFunctionsDecode : Obligations.AluFunctionsDecode := by
  intro w e hw
  rw [decodeScalar_of_major_alu e hw]
  refine ⟨?_, ?_, ?_, ?_, ?_, ?_, ?_, ?_, ?_, ?_, ?_, ?_, ?_, ?_, ?_, ?popc, ?clz, ?mov,
    decAlu_unary_of_sb_ne_zero, decAlu_of_fn_unassigned⟩
  case popc | clz | mov =>
    rintro ⟨hf, hb⟩
    simp [decAlu, need, hf, hb]
  all_goals
    intro hf
    simp [decAlu, hf]

end Sys2Proof

/-! ### Instructions that change the scalar context alone (R202, R206) -/

namespace Sys2Proof.Machine
open Sys2Proof.Safety

theorem onlyCtx_of_exec {i : Instr} {s : State} {b : Bool} {g : Group} {f : Frag} {P : Ctx → Prop}
    (h : Issues s b g f) (k : Ctx → Ctx) (hi : exec i s = .next (s.setGroup (g.onCtx k))) (hP : P (k g.ctx)) :
    OnlyCtx i s g P := by
  have hg : s.group? g.ref = some g := by rw [State.group?_ref h.grp]; exact h.grp
  exact ⟨k g.ctx, hi, hP, sameBytes_ctx hg _⟩

/-- Registers are written first, to c₁, and then the fragment becomes f': nothing else differs from c. -/
theorem Ran.of_wrote {c c₁ : Ctx} {b : Bool} {ws : List (SReg × Word)} {wa : List (AReg × Addr)}
    {wc : List (CReg × Bool)} (f' : Frag) (hw : Wrote c c₁ ws wa wc)
    (hc : c₁ = { c with s := c₁.s, a := c₁.a, c := c₁.c }) :
    Ran b f' ws wa wc c { c₁.setFrag b (some f') with perf0 := c₁.perf0 + 1 } := by
  obtain ⟨⟨regs, clock, ovs, count⟩, frag, other, stack⟩ := ran_setFrag (c := c₁) (b := b) f'
  have hfrag : ∀ d, c₁.frag d = c.frag d := fun d => (congrArg (Ctx.frag · d) hc :)
  refine ⟨⟨⟨fun r => ?_, fun r => ?_, fun r => ?_, regs.mw.trans hw.mw⟩, clock.trans (congrArg Ctx.clockHi hc :),
    ⟨ovs.1.trans (congrArg Ctx.ovCount hc :), ovs.2.trans (congrArg Ctx.ovLast hc :)⟩,
    count.trans (congrArg (Ctx.perf0 · + 1) hc :)⟩, frag, other.trans (hfrag _),
    ⟨stack.1.trans (congrArg Ctx.stack hc :), stack.2.trans (congrArg Ctx.top hc :)⟩⟩
  · rw [regs.sreg, List.lookup, Option.getD_none, hw.sreg]
    split <;> rfl
  · exact (regs.areg r).trans (hw.areg r)
  · exact (regs.creg r).trans (hw.creg r)

theorem getD_lookup_singleton {α β : Type} [DecidableEq α] (k r : α) (v x : β) :
    ([(k, v)].lookup r).getD x = if r = k then v else x := by
  rw [List.lookup_cons]
  by_cases h : r = k <;> simp [h, beq_false_of_ne]

theorem wrote_setS (c : Ctx) (d : SReg) (v : Word) : Wrote c (c.setS d v) [(d, v)] [] [] := by
  refine ⟨fun r => ?_, fun r => Ctx.getA_setS c d v r, fun r => Ctx.getC_setS c d v r, Ctx.setS_mw c d v⟩
  rw [Ctx.getS_setS, getD_lookup_singleton]

theorem wrote_setC (c : Ctx) (d : CReg) (v : Bool) : Wrote c (c.setC d v) [] [] [(d, v)] := by
  refine ⟨fun r => ?_, fun r => Ctx.getA_setC c d v r, fun r => ?_, rfl⟩
  · rw [Ctx.getS_setC, List.lookup_nil, Option.getD_none]
    split
    · next h0 => exact h0 ▸ Ctx.getS_zero c
    · rfl
  · rw [Ctx.getC_setC, getD_lookup_singleton]

theorem Ctx.setS_regs (c : Ctx) (d : SReg) (v : Word) :
    c.setS d v = { c with s := (c.setS d v).s, a := (c.setS d v).a, c := (c.setS d v).c } := by
  unfold Ctx.setS
  split <;> rfl

/-- The rule of the instructions with one scalar destination. -/
theorem onlyCtx_setS {i : Instr} {s : State} {b : Bool} {g : Group} {f : Frag} (h : Issues s b g f) (d : SReg)
    (v : Ctx → Word) (hi : exec i s = regOp s 1 fun c => c.setS d (v c)) :
    OnlyCtx i s g (Ran b (f.next 1) [(d, v g.ctx)] [] [] g.ctx) := by
  refine onlyCtx_of_exec h _ (hi.trans (regOp_issues h 1 _)) ?_
  rw [Ctx.retire_some ((Ctx.frag_setS ..).trans h.frag)]
  exact Ran.of_wrote _ (wrote_setS ..) (Ctx.setS_regs ..)

/-- The rule of the instructions whose destination is a condition register. -/
theorem onlyCtx_setC {i : Instr} {s : State} {b : Bool} {g : Group} {f : Frag} (h : Issues s b g f) (d : CReg)
    (v : Ctx → Bool) (hi : exec i s = regOp s 1 fun c => c.setC d (v c)) :
    OnlyCtx i s g (Ran b (f.next 1) [] [] [(d, v g.ctx)] g.ctx) := by
  refine onlyCtx_of_exec h _ (hi.trans (regOp_issues h 1 _)) ?_
  rw [Ctx.retire_some ((Ctx.frag_setC ..).trans h.frag)]
  exact Ran.of_wrote _ (wrote_setC ..) rfl

end Sys2Proof.Machine

/-! ### Values of the scalar integer operations (R206, R207, R209, R210) -/

namespace Sys2Proof.Machine
open Sys2Proof.Safety Sys2Proof.Claims

theorem sub_eq_ofInt (a b : Word) : a - b = BitVec.ofInt 32 ((a.toNat : Int) - b.toNat) := by
  apply BitVec.eq_of_toInt_eq
  rw [BitVec.toInt_sub, BitVec.toInt_ofInt, BitVec.toInt_eq_toNat_bmod, BitVec.toInt_eq_toNat_bmod,
    Int.sub_bmod_bmod, Int.bmod_sub_bmod]

theorem shl32_eq (a b : Word) :
    shl32 a b = BitVec.ofNat 32 (if b.toNat < 32 then a.toNat * 2 ^ b.toNat else 0) := by
  unfold shl32
  split
  · apply BitVec.eq_of_toNat_eq
    rw [BitVec.toNat_shiftLeft, Nat.shiftLeft_eq, BitVec.toNat_ofNat]
  · rfl

theorem shr32_eq (a b : Word) :
    shr32 a b = BitVec.ofNat 32 (if b.toNat < 32 then a.toNat / 2 ^ b.toNat else 0) := by
  unfold shr32
  split
  · apply BitVec.eq_of_toNat_eq
    rw [BitVec.toNat_ushiftRight, Nat.shiftRight_eq_div_pow, BitVec.toNat_ofNat,
      Nat.mod_eq_of_lt (Nat.lt_of_le_of_lt (Nat.div_le_self ..) a.isLt)]
  · rfl

theorem sra32_eq (a b : Word) :
    sra32 a b = BitVec.ofInt 32 (if b.toNat < 32 then a.toInt / 2 ^ b.toNat
      else if a.toNat < 2 ^ 31 then 0 else -1) := by
  unfold sra32
  split
  · have hs : a.toInt / 2 ^ b.toNat = (a.sshiftRight b.toNat).toInt := by
      rw [BitVec.toInt_sshiftRight, Int.shiftRight_eq_div_pow]
      push_cast
      rfl
    rw [hs, BitVec.ofInt_toInt]
  · have hsign : a.getLsbD 31 = decide (2 ^ 31 ≤ a.toNat) := BitVec.msb_eq_decide a
    rw [hsign]
    by_cases ha : 2 ^ 31 ≤ a.toNat
    · rw [if_pos (decide_eq_true ha), if_neg (Nat.not_lt.mpr ha)]; rfl
    · rw [if_neg (by simpa using ha), if_pos (Nat.lt_of_not_le ha)]; rfl

/-- An immediate shift count stays below 32. -/
theorem toNat_shiftCount (i : BitVec 5) : (i.setWidth 32).toNat = i.toNat :=
  BitVec.toNat_setWidth_of_le (by decide)

theorem shl32_imm_eq (a : Word) (i : BitVec 5) :
    shl32 a (i.setWidth 32) = BitVec.ofNat 32 (a.toNat * 2 ^ i.toNat) := by
  rw [shl32_eq, toNat_shiftCount, if_pos i.isLt]

theorem shr32_imm_eq (a : Word) (i : BitVec 5) :
    shr32 a (i.setWidth 32) = BitVec.ofNat 32 (a.toNat / 2 ^ i.toNat) := by
  rw [shr32_eq, toNat_shiftCount, if_pos i.isLt]

theorem sra32_imm_eq (a : Word) (i : BitVec 5) :
    sra32 a (i.setWidth 32) = BitVec.ofInt 32 (a.toInt / 2 ^ i.toNat) := by
  rw [sra32_eq, toNat_shiftCount, if_pos i.isLt]

theorem minS_eq (a b : Word) : minS a b = BitVec.ofInt 32 (min a.toInt b.toInt) := by
  unfold minS
  rw [Int.min_def]
  split <;> rw [BitVec.ofInt_toInt]

theorem maxS_eq (a b : Word) : maxS a b = BitVec.ofInt 32 (max a.toInt b.toInt) := by
  unfold maxS
  rw [Int.max_def]
  split <;> rw [BitVec.ofInt_toInt]

theorem minU_eq (a b : Word) : minU a b = BitVec.ofNat 32 (min a.toNat b.toNat) := by
  unfold minU
  rw [Nat.min_def]
  split <;> rw [BitVec.ofNat_toNat, BitVec.setWidth_eq]

theorem maxU_eq (a b : Word) : maxU a b = BitVec.ofNat 32 (max a.toNat b.toNat) := by
  unfold maxU
  rw [Nat.max_def]
  split <;> rw [BitVec.ofNat_toNat, BitVec.setWidth_eq]

/-- `onesOf` takes the lowest bit first, the model the highest. -/
theorem onesOf_succ_eq_add_highest (n x : Nat) : onesOf (n + 1) x = x / 2 ^ n % 2 + onesOf n x := by
  induction n generalizing x with
  | zero => simp [onesOf]
  | succ n ih =>
    rw [onesOf, ih (x / 2), Nat.div_div_eq_div_mul, ← Nat.pow_succ', onesOf, Nat.add_left_comm]

theorem popcount_eq_onesOf {w : Nat} (a : BitVec w) (n : Nat) : popcount a n = onesOf n a.toNat := by
  induction n with
  | zero => rfl
  | succ n ih =>
    rw [popcount, onesOf_succ_eq_add_highest, ih, ← BitVec.testBit_toNat, ← Nat.toNat_testBit]
    cases a.toNat.testBit n <;> rfl

theorem digitsOf_le (n x : Nat) : digitsOf n x ≤ n := by
  induction n generalizing x with
  | zero => exact Nat.le_refl 0
  | succ n ih =>
    have := ih (x / 2)
    rw [digitsOf]
    split <;> omega

theorem digitsOf_succ_of_lt {n x : Nat} (hx : x < 2 ^ n) : digitsOf (n + 1) x = digitsOf n x := by
  induction n generalizing x with
  | zero =>
    obtain rfl : x = 0 := by omega
    rfl
  | succ n ih => rw [digitsOf, ih (by rw [Nat.pow_succ] at hx; omega), digitsOf]

theorem digitsOf_succ_of_le {n x : Nat} (hle : 2 ^ n ≤ x) (hlt : x < 2 ^ (n + 1)) : digitsOf (n + 1) x = n + 1 := by
  have hx : x ≠ 0 := fun h0 => absurd (h0 ▸ hle) (Nat.not_le.mpr (Nat.two_pow_pos n))
  rw [digitsOf, if_neg hx]
  induction n generalizing x with
  | zero => rfl
  | succ n ih =>
    rw [Nat.pow_succ] at hle hlt
    have hx2 : x / 2 ≠ 0 := by have := Nat.two_pow_pos n; omega
    rw [digitsOf, if_neg hx2, ih (x := x / 2) (by omega) (by omega) hx2, Nat.add_comm]

/-- The model scans from the highest bit, which is 1 exactly where the number has all its digits. -/
theorem leading_eq_sub_digitsOf_mod {w : Nat} (a : BitVec w) (n : Nat) :
    leading a n = n - digitsOf n (a.toNat % 2 ^ n) := by
  induction n with
  | zero => rfl
  | succ n ih =>
    have hlow : a.toNat % 2 ^ n < 2 ^ n := Nat.mod_lt _ (Nat.two_pow_pos n)
    rw [leading, ← BitVec.testBit_toNat, Nat.mod_pow_succ, ← Nat.toNat_testBit, ih]
    cases a.toNat.testBit n with
    | true =>
      rw [if_pos rfl, Bool.toNat_true, Nat.mul_one,
        digitsOf_succ_of_le (Nat.le_add_left ..) (by rw [Nat.pow_succ]; omega), Nat.sub_self]
    | false =>
      have := digitsOf_le n (a.toNat % 2 ^ n)
      rw [if_neg Bool.false_ne_true, Bool.toNat_false, Nat.mul_zero, Nat.add_zero (a.toNat % 2 ^ n),
        digitsOf_succ_of_lt hlow]
      omega

theorem leading_eq_sub_digitsOf (a : Word) : leading a 32 = 32 - digitsOf 32 a.toNat := by
  rw [leading_eq_sub_digitsOf_mod, Nat.mod_eq_of_lt a.isLt]

theorem add_imm12_eq_ofInt (a : Word) (i : BitVec 12) : a + imm12 i = BitVec.ofInt 32 (a.toInt + i.toInt) := by
  rw [BitVec.ofInt_add, BitVec.ofInt_toInt]
  rfl

/-- `slih` joins the immediate and the low half without overlap. -/
theorem append_low_half_eq (i : BitVec 16) (a : Word) :
    i ++ a.setWidth 16 = BitVec.ofNat 32 (i.toNat * 2 ^ 16 + a.toNat % 2 ^ 16) := by
  apply BitVec.eq_of_toNat_eq
  have hi := i.isLt
  have hlow : a.toNat % 2 ^ 16 < 2 ^ 16 := Nat.mod_lt _ (by decide)
  rw [BitVec.toNat_append, BitVec.toNat_setWidth, ← Nat.shiftLeft_add_eq_or_of_lt hlow, Nat.shiftLeft_eq,
    BitVec.toNat_ofNat]
  exact (Nat.mod_eq_of_lt (by omega)).symm

theorem sli_value_eq (sx : Bool) (i : BitVec 16) :
    (if sx then i.signExtend 32 else i.setWidth 32 : Word) =
      if sx then BitVec.ofInt 32 i.toInt else BitVec.ofNat 32 i.toNat := by
  rw [BitVec.ofNat_toNat]
  rfl

theorem bitExtract_eq (signed : Bool) (pos len1 : Nat) (a : Word) :
    bitExtract signed pos (len1 + 1) a =
      if signed = true ∧ 2 ^ len1 ≤ a.toNat / 2 ^ pos % 2 ^ (len1 + 1) then
        BitVec.ofInt 32 (((a.toNat / 2 ^ pos % 2 ^ (len1 + 1) : Nat) : Int) - 2 ^ (len1 + 1))
      else BitVec.ofNat 32 (a.toNat / 2 ^ pos % 2 ^ (len1 + 1)) := by
  simp [bitExtract, wordI, word]

end Sys2Proof.Machine

namespace Sys2Proof
open Sys2Proof.Machine Sys2Proof.Safety Sys2Proof.Claims

/-- Each row of R206's table is an arm of `exec` that writes one scalar register, and the model's word operation
has the value that the table computes. -/
theorem exec_of_aluResult {c : Ctx} {i : Instr} {d : SReg} {v : Word} (h : aluResult c i = some (d, v)) :
    ∃ k : Ctx → Word, (∀ s, exec i s = regOp s 1 fun x => x.setS d (k x)) ∧ k c = v := by
  unfold aluResult at h
  split at h
  case h_19 => contradiction
  all_goals obtain ⟨rfl, rfl⟩ := Prod.mk.inj (Option.some.inj h)
  case h_1 => exact ⟨_, fun _ => rfl, BitVec.add_def ..⟩
  case h_2 => exact ⟨_, fun _ => rfl, sub_eq_ofInt ..⟩
  case h_3 => exact ⟨_, fun _ => rfl, BitVec.mul_def⟩
  case h_4 | h_5 | h_6 | h_7 | h_8 | h_18 => exact ⟨_, fun _ => rfl, rfl⟩
  case h_9 => exact ⟨_, fun _ => rfl, shl32_eq ..⟩
  case h_10 => exact ⟨_, fun _ => rfl, shr32_eq ..⟩
  case h_11 => exact ⟨_, fun _ => rfl, sra32_eq ..⟩
  case h_12 => exact ⟨_, fun _ => rfl, minS_eq ..⟩
  case h_13 => exact ⟨_, fun _ => rfl, minU_eq ..⟩
  case h_14 => exact ⟨_, fun _ => rfl, maxS_eq ..⟩
  case h_15 => exact ⟨_, fun _ => rfl, maxU_eq ..⟩
  case h_16 => exact ⟨_, fun _ => rfl, congrArg word (popcount_eq_onesOf ..)⟩
  case h_17 => exact ⟨_, fun _ => rfl, congrArg word (leading_eq_sub_digitsOf ..)⟩

/-- The same for the immediate and bit field forms. -/
theorem exec_of_immResult {c : Ctx} {i : Instr} {d : SReg} {v : Word} (h : immResult c i = some (d, v)) :
    ∃ k : Ctx → Word, (∀ s, exec i s = regOp s 1 fun x => x.setS d (k x)) ∧ k c = v := by
  unfold immResult at h
  split at h
  case h_12 => contradiction
  all_goals obtain ⟨rfl, rfl⟩ := Prod.mk.inj (Option.some.inj h)
  case h_1 => exact ⟨_, fun _ => rfl, add_imm12_eq_ofInt ..⟩
  case h_2 | h_3 | h_4 => exact ⟨_, fun _ => rfl, rfl⟩
  case h_5 => exact ⟨_, fun _ => rfl, shl32_imm_eq ..⟩
  case h_6 => exact ⟨_, fun _ => rfl, shr32_imm_eq ..⟩
  case h_7 => exact ⟨_, fun _ => rfl, sra32_imm_eq ..⟩
  case h_8 => exact ⟨_, fun _ => rfl, sli_value_eq ..⟩
  case h_9 => exact ⟨_, fun _ => rfl, append_low_half_eq ..⟩
  case h_10 => exact ⟨_, fun _ => rfl, bitExtract_eq ..⟩
  case h_11 => exact ⟨_, fun _ => rfl, rfl⟩

/-- Settles O1: both tables' instructions follow the rule of one scalar destination. -/
theorem scalarIntegerResults : Obligations.ScalarIntegerResults := by
  refine ⟨fun s b g f i d v hi hv => ?_, fun s b g f i d v hi _ hv => ?_⟩
  · obtain ⟨k, hk, rfl⟩ := exec_of_aluResult hv
    exact onlyCtx_setS hi d k (hk s)
  · obtain ⟨k, hk, rfl⟩ := exec_of_immResult hv
    exact onlyCtx_setS hi d k (hk s)

end Sys2Proof

/-! ### Comparison and select (R187, R208) -/

namespace Sys2Proof
open Sys2Proof.Machine Sys2Proof.Safety Sys2Proof.Claims

theorem scond_holds_iff (k : SCond) (a b : Word) : SCond.holds k a b = true ↔ condHolds k a b := by
  cases k <;> simp [SCond.holds, condHolds, BitVec.toNat_eq]

/-- Settles O2: the model's comparison is R187's condition, and `scmp` and `ssel` follow the rules of one destination. -/
theorem compareAndSelectResults : Obligations.CompareAndSelectResults := by
  refine fun s b g f hi => ⟨fun k d x y => ⟨fun hc => ?_, fun hc => ?_⟩, fun neg c d x y => ?_⟩
  · have ht : SCond.holds k (g.ctx.getS x) (g.ctx.getS y) = true := (scond_holds_iff ..).mpr hc
    simpa only [ht] using onlyCtx_setC hi d (fun c => SCond.holds k (c.getS x) (c.getS y)) rfl
  · have hf : SCond.holds k (g.ctx.getS x) (g.ctx.getS y) = false :=
      Bool.eq_false_iff.mpr fun ht => hc ((scond_holds_iff ..).mp ht)
    simpa only [hf] using onlyCtx_setC hi d (fun c => SCond.holds k (c.getS x) (c.getS y)) rfl
  · exact onlyCtx_setS hi d (fun u => if (u.getC c != neg) = true then u.getS x else u.getS y) rfl

end Sys2Proof

/-! ### Traps of a scalar instruction (R17, R203) -/

namespace Sys2Proof.Machine
open Sys2Proof.Safety

theorem provisional_iff {s : State} {b : Bool} {g : Group} {f : Frag} (h : Issues s b g f) :
    s.provisional g b = true ↔ Provisional s g f := by
  simp [State.provisional, Provisional, h.frag, Option.map, Option.getD]

/-- A fragment that is held up already, for the same reason, keeps its mark and its time. -/
theorem holding_self {s : State} {f : Frag} (hw : f.wait ≠ .ready) : holding s f f.wait = f := by
  simp [holding, Frag.from_, hw]

theorem parkedFrom_of_ne_ready {w : Wait} (hw : w ≠ .ready) : parkedFrom w = w := by
  cases w with
  | ready => contradiction
  | _ => rfl

theorem park_none_eq {s : State} {b : Bool} {g : Group} {f : Frag} (h : Issues s b g f) :
    s.park g none = s.setGroup (g.onCtx fun c => c.setFrag b (some (holding s f (parkedFrom f.wait)))) := by
  by_cases hw : f.wait = .ready
  · simp only [State.park, h.cur, Group.onCtx, h.frag, Option.map_some, hw]
    rfl
  · rw [parkedFrom_of_ne_ready hw, holding_self hw]
    simp only [State.park, h.cur, Group.onCtx, h.frag, Option.map_some]

theorem trapsWith_of_exec {i : Instr} {s : State} {b : Bool} {g : Group} {f : Frag} {t : Trap} {va user gong : Nat}
    (h : Issues s b g f) (hi : exec i s = .next (s.trap g t va 0 user gong)) : TrapsWith i s b g f t va user gong := by
  have htrap : s.trap g t va 0 user gong =
      if s.provisional g b then s.park g none else s.halt g (.frag b) t va 0 user gong := by
    simp only [State.trap, h.cur]
  refine ⟨fun hn => ?_, fun hp => ?_⟩
  · rw [hi, htrap, if_neg (mt (provisional_iff h).mp hn)]
  · refine onlyCtx_of_exec h (fun c => c.setFrag b (some (holding s f (parkedFrom f.wait)))) ?_ rfl
    rw [hi, htrap, if_pos ((provisional_iff h).mpr hp), park_none_eq h]

end Sys2Proof.Machine

/-! ### Branches and calls (R204, R212, R213) -/

namespace Sys2Proof.Machine
open Sys2Proof.Safety Sys2Proof.Claims

/-- The rule of an instruction that writes registers, to k's context, and transfers to a word of a slot. -/
theorem onlyCtx_goto {i : Instr} {s : State} {b : Bool} {g : Group} {f : Frag} {ws : List (SReg × Word)}
    (h : Issues s b g f) {slot t : Nat} (k : Ctx → Ctx)
    (hi : exec i s = .next (s.setGroup (g.onCtx fun c => (k c).goto s.cur.st.slot1 slot t)))
    (hf : (k g.ctx).frag b = g.ctx.frag b)
    (hran : Ran b (f.jump slot t) ws [] [] g.ctx
      { (k g.ctx).setFrag b (some (f.jump slot t)) with perf0 := (k g.ctx).perf0 + 1 }) :
    OnlyCtx i s g (Ran b (f.jump slot t) ws [] [] g.ctx) := by
  refine onlyCtx_of_exec h _ hi ?_
  rw [slot1_issues h, Ctx.goto_some (hf.trans h.frag)]
  exact hran

/-- The transfers that `br`, `brc` and `call` share: to the word that the offset names where the current overlay has
it, else the trap of R204. -/
def toTarget (s : State) (g : Group) (f : Frag) (off : BitVec 20) (k : Nat → State) : State :=
  match branchTarget f.pcw off with
  | some t => if s.inOverlay g f t then k t else s.trap g .illegalOpcode
  | none => s.trap g .illegalOpcode

theorem toTarget_inside {s : State} {g : Group} {f : Frag} {off : BitVec 20} {t : Nat} (k : Nat → State)
    (ht : (f.pcw : Int) + off.toInt = t) (hlt : t < s.swords g f) : toTarget s g f off k = k t := by
  have htgt : branchTarget f.pcw off = some t := by simp [branchTarget, ht]
  simp [toTarget, htgt, State.inOverlay, hlt]

theorem toTarget_outside {s : State} {g : Group} {f : Frag} {off : BitVec 20} (k : Nat → State)
    (h : (f.pcw : Int) + off.toInt < 0 ∨ (s.swords g f : Int) ≤ f.pcw + off.toInt) :
    toTarget s g f off k = s.trap g .illegalOpcode := by
  by_cases hneg : (f.pcw : Int) + off.toInt < 0
  · simp [toTarget, branchTarget, hneg]
  · have hpast : ¬((f.pcw : Int) + off.toInt).toNat < s.swords g f := by omega
    simp [toTarget, branchTarget, hneg, State.inOverlay, hpast]

theorem exec_br {s : State} {b : Bool} {g : Group} {f : Frag} (h : Issues s b g f) (off : BitVec 20) :
    exec (.br off) s = .next (toTarget s g f off fun t =>
      s.setGroup (g.onCtx fun c => c.goto s.cur.st.slot1 f.slot t)) := onFrag_issues h _

theorem exec_brc {s : State} {b : Bool} {g : Group} {f : Frag} (h : Issues s b g f) (neg : Bool) (c : CReg)
    (off : BitVec 20) :
    exec (.brc neg c off) s = .next (toTarget s g f off fun t =>
      if g.ctx.getC c != neg then s.setGroup (g.onCtx fun c => c.goto s.cur.st.slot1 f.slot t)
      else s.setGroup (g.onCtx fun c => c.retire s.cur.st.slot1 1)) := onFrag_issues h _

theorem exec_call {s : State} {b : Bool} {g : Group} {f : Frag} (h : Issues s b g f) (off : BitVec 20) :
    exec (.call off) s = .next (toTarget s g f off fun t =>
      s.setGroup (g.onCtx fun c =>
        (c.setS 63 (link false (f.pcw + 1) (s.curOvl g f))).goto s.cur.st.slot1 f.slot t)) := onFrag_issues h _

/-! ### The link word (R166) -/

theorem toNat_place {n lo v : Nat} (h : v <<< lo < 2 ^ n) : (place n lo v).toNat = v <<< lo := by
  have hv : v < 2 ^ n := Nat.lt_of_le_of_lt (Nat.le_shiftLeft ..) h
  rw [place, BitVec.toNat_shiftLeft, BitVec.toNat_ofNat, Nat.mod_eq_of_lt hv, Nat.mod_eq_of_lt h]

/-- The three fields of a link word do not overlap, so placing them adds them up. -/
theorem link_eq_linkWord (t : Bool) (w o : Nat) : link t w o = linkWord t w o := by
  have hw : w % 1024 < 1024 := Nat.mod_lt _ (by decide)
  have ho : o % 256 < 256 := Nat.mod_lt _ (by decide)
  have ht : (if t then 1 else 0 : Nat) < 2 := by cases t <;> decide
  unfold link linkWord
  generalize w % 1024 = w at hw ⊢
  generalize o % 256 = o at ho ⊢
  generalize (if t then 1 else 0 : Nat) = t at ht ⊢
  have hsum : t ||| w <<< 2 ||| o <<< 12 = t + 4 * w + 4096 * o := by
    have h1 := Nat.shiftLeft_add_eq_or_of_lt (i := 2) (b := t) (by omega) w
    have h2 := Nat.shiftLeft_add_eq_or_of_lt (i := 12) (b := w <<< 2 + t) (by rw [Nat.shiftLeft_eq]; omega) o
    rw [Nat.or_comm t, ← h1, Nat.or_comm, ← h2, Nat.shiftLeft_eq, Nat.shiftLeft_eq]
    omega
  apply BitVec.eq_of_toNat_eq
  rw [BitVec.toNat_or, BitVec.toNat_or, toNat_place (by rw [Nat.shiftLeft_eq]; omega),
    toNat_place (by rw [Nat.shiftLeft_eq]; omega), toNat_place (by rw [Nat.shiftLeft_eq]; omega),
    Nat.shiftLeft_zero, hsum, BitVec.toNat_ofNat, Nat.mod_eq_of_lt (by omega)]

/-! ### Targets of `split`, `loop`, `loopi` and `lrun` outside the overlay (R204; log 120) -/

theorem exec_split_outside {s : State} {b : Bool} {g : Group} {f : Frag} (h : Issues s b g f) (p : PReg)
    {t j : BitVec 10} (ho : s.swords g f ≤ t.toNat ∨ s.swords g f ≤ j.toNat) :
    exec (.split p t j) s = .next (s.trap g .illegalOpcode) := (onFrag_issues h _).trans (congrArg _ (if_pos ho))

theorem openLoop_outside {s : State} {b : Bool} {g : Group} {f : Frag} (h : Issues s b g f) (n count : Nat) {fin : Nat}
    (ho : s.swords g f ≤ fin) : openLoop s n count fin = .next (s.trap g .illegalOpcode) :=
  (onFrag_issues h _).trans (congrArg _ (if_pos ho))

theorem exec_loop {s : State} {b : Bool} {g : Group} {f : Frag} (h : Issues s b g f) (a : SReg) (e : BitVec 10) :
    exec (.loop a e) s = openLoop s 1 (g.ctx.getS a).toNat e.toNat := by
  have hg : s.group? s.cur.g = some g := by rw [h.cur]; exact h.grp
  change execLoop a e s = _
  rw [execLoop, hg]

theorem exec_lrun_outside {s : State} {b : Bool} {g : Group} {f : Frag} (h : Issues s b g f) {e : BitVec 10}
    (ho : s.lwords g f ≤ e.toNat) : exec (.lrun e) s = .next (s.trap g .illegalOpcode) :=
  (onFrag_issues h _).trans (congrArg _ (if_pos ho))

end Sys2Proof.Machine

namespace Sys2Proof
open Sys2Proof.Machine Sys2Proof.Safety Sys2Proof.Claims

theorem br_inside {s : State} {b : Bool} {g : Group} {f : Frag} {off : BitVec 20} {t : Nat} (h : Issues s b g f)
    (ht : (f.pcw : Int) + off.toInt = t) (hlt : t < s.swords g f) :
    OnlyCtx (.br off) s g (Ran b (f.jump f.slot t) [] [] [] g.ctx) :=
  onlyCtx_goto h id (by rw [exec_br h, toTarget_inside _ ht hlt]; rfl) rfl (ran_setFrag _)

theorem brc_taken {s : State} {b : Bool} {g : Group} {f : Frag} {off : BitVec 20} {t : Nat} (h : Issues s b g f)
    (ht : (f.pcw : Int) + off.toInt = t) (hlt : t < s.swords g f) {neg : Bool} {c : CReg}
    (hc : (g.ctx.getC c ^^ neg) = true) : OnlyCtx (.brc neg c off) s g (Ran b (f.jump f.slot t) [] [] [] g.ctx) :=
  onlyCtx_goto h id (by rw [exec_brc h, toTarget_inside _ ht hlt]; exact congrArg _ (if_pos hc)) rfl (ran_setFrag _)

theorem brc_notTaken {s : State} {b : Bool} {g : Group} {f : Frag} {off : BitVec 20} {t : Nat} (h : Issues s b g f)
    (ht : (f.pcw : Int) + off.toInt = t) (hlt : t < s.swords g f) {neg : Bool} {c : CReg}
    (hc : (g.ctx.getC c ^^ neg) = false) : OnlyCtx (.brc neg c off) s g (Ran b (f.next 1) [] [] [] g.ctx) := by
  refine onlyCtx_of_exec h (fun c => c.retire s.cur.st.slot1 1) ?_ ?_
  · rw [exec_brc h, toTarget_inside _ ht hlt]
    exact congrArg _ (if_neg (Bool.eq_false_iff.mp hc))
  · rw [slot1_issues h, Ctx.retire_some h.frag]
    exact ran_setFrag _

/-- The link is taken modulo 2¹⁰ words, so this holds of a call at word 1023 too (log 106). -/
theorem call_inside {s : State} {b : Bool} {g : Group} {f : Frag} {off : BitVec 20} {t : Nat} (h : Issues s b g f)
    (ht : (f.pcw : Int) + off.toInt = t) (hlt : t < s.swords g f) :
    OnlyCtx (.call off) s g
      (Ran b (f.jump f.slot t) [(63, linkWord false (f.pcw + 1) (s.curOvl g f))] [] [] g.ctx) := by
  refine onlyCtx_goto h (fun c => c.setS 63 (linkWord false (f.pcw + 1) (s.curOvl g f))) ?_ (Ctx.frag_setS ..)
    (Ran.of_wrote _ (wrote_setS ..) (Ctx.setS_regs ..))
  rw [exec_call h, toTarget_inside _ ht hlt, link_eq_linkWord]

/-- Settles O5: inside the overlay every form is one transfer (or, untaken, the next word); outside it the check comes
before anything else the instruction does. -/
theorem branchesTransfer : Obligations.BranchesTransfer := by
  refine ⟨fun s b g f off t h ht hlt => ⟨br_inside h ht hlt, fun neg c => ⟨brc_taken h ht hlt, brc_notTaken h ht hlt⟩,
    fun _ => call_inside h ht hlt⟩, fun s b g f h => ⟨fun off ho => ⟨?br, ?call, fun neg c => ?brc⟩,
    fun p t j ho => ?split, fun a n e ho => ⟨?loop, ?loopi⟩, fun e ho => ?lrun⟩⟩
  all_goals refine trapsWith_of_exec h ?_
  case br => rw [exec_br h, toTarget_outside _ ho]
  case call => rw [exec_call h, toTarget_outside _ ho]
  case brc => rw [exec_brc h, toTarget_outside _ ho]
  case split => exact exec_split_outside h p ho
  case loop => rw [exec_loop h, openLoop_outside h _ _ ho]
  case loopi => exact openLoop_outside h 2 n.toNat ho
  case lrun => exact exec_lrun_outside h ho

end Sys2Proof
